-- ==== Sys2Proof/Word.lean ====
section
/-! DEFINITION. The word and byte types of the engine and of the two memories (00_scope R10, R12). -/

namespace Sys2Proof

/-- A byte of system memory, of the PSRAM, or of a phase payload. -/
abbrev Byte := BitVec 8

/-- An engine register, a system address, a FIFO entry, a descriptor word: 32 bits (R10, R57). -/
abbrev Word := BitVec 32

/-- The number of system addresses (R10: byte addresses 0 to 2^32-1). -/
abbrev addressSpace : Nat := 4294967296

end Sys2Proof
end

