-- ==== Sys2Proof/Syntax.lean ====
section
/-! DEFINITION. The engine's instructions: one constructor per row of spec/opcode_table.json. Eight are
command words written to CMD (30_encoding R101, R102); the last is the DMA event word (R120). -/

namespace Sys2Proof

/-- The two inputs that bring an instruction word to the engine: the CMD register (R101) and the DMA
event input (R120). The same number means different things on the two. -/
inductive Port where
  | cmd
  | evt
  deriving DecidableEq, Repr, Inhabited

/-- One constructor per row of the opcode table. The operands of the transfer commands other than the
element size stand in registers, not in the word (30_encoding R121). -/
inductive Instr where
  /-- INIT, 45_command_interface R265. -/
  | init
  /-- READ_BLOCKING with the raw ESZ field (R103), 43_blocking_path R206. -/
  | readBlocking (esz : BitVec 3)
  /-- WRITE_BLOCKING, 43_blocking_path R207. -/
  | writeBlocking (esz : BitVec 3)
  /-- READ_DMA, 44_dma_chainer R231. -/
  | readDma (esz : BitVec 3)
  /-- WRITE_DMA, 44_dma_chainer R232. -/
  | writeDma (esz : BitVec 3)
  /-- ENTER_MANUAL, 41_mode_arbiter R167. -/
  | enterManual
  /-- ENTER_AUTO, 41_mode_arbiter R168. -/
  | enterAuto
  /-- Any other command word, kept whole (30_encoding R104, 45_command_interface R269). -/
  | illegal (w : Word)
  /-- The channel-complete event of DMA channel `ch`, 44_dma_chainer R235 and 60_exceptions R284. -/
  | evtDmaComplete (ch : BitVec 4)
  deriving DecidableEq, Repr, Inhabited

end Sys2Proof
end

