-- ==== Sys2Proof/WellFormed.lean ====
section
/-! DEFINITION. Which instruction terms stand for words of the encoding. The only check is ILLEGAL's:
its word must be one that 30_encoding R104 calls illegal. Every ESZ value is legal syntax (R103). -/

namespace Sys2Proof

/-- R104: bits [31:7] not zero, or a reserved OP, or a command without element size whose ESZ is not 0. -/
def illegalWord (w : Word) : Bool :=
  w.extractLsb' 7 25 != 0#25
    || w.extractLsb' 0 4 == 0#4
    || (w.extractLsb' 0 4 == 1#4 && w.extractLsb' 4 3 != 0#3)
    || (w.extractLsb' 0 4 == 6#4 && w.extractLsb' 4 3 != 0#3)
    || (w.extractLsb' 0 4 == 7#4 && w.extractLsb' 4 3 != 0#3)
    || decide (8 ≤ (w.extractLsb' 0 4).toNat)

/-- The instruction stands for some word of its input. -/
def Instr.wf : Instr → Bool
  | .illegal w => illegalWord w
  | .init | .readBlocking _ | .writeBlocking _ | .readDma _ | .writeDma _
  | .enterManual | .enterAuto | .evtDmaComplete _ => true

end Sys2Proof
end

