-- ==== Sys2Proof/Decode.lean ====
section
/-! DEFINITION. The decoder (total, rejecting by name) and the encoder of the two word formats
(30_encoding R101, R102, R104, R105, R120; 45_command_interface R269). -/

namespace Sys2Proof

/-- CMD[3:0], the command (R101). -/
def cmdOp (w : Word) : BitVec 4 := w.extractLsb' 0 4

/-- CMD[6:4], the raw element size (R101, R103). -/
def cmdEsz (w : Word) : BitVec 3 := w.extractLsb' 4 3

/-- CMD[31:7], which must be 0 (R101). -/
def cmdReserved (w : Word) : BitVec 25 := w.extractLsb' 7 25

/-- EVT[3:0], the kind: 1 is channel complete (R120). -/
def evtKind (w : Word) : BitVec 4 := w.extractLsb' 0 4

/-- EVT[7:4], the channel (R120). -/
def evtChannel (w : Word) : BitVec 4 := w.extractLsb' 4 4

/-- R105: every CMD word is exactly one command or illegal. The table of R102, OP by OP. -/
def decodeCmd (w : Word) : Instr :=
  if cmdReserved w ≠ 0#25 then .illegal w
  else if cmdOp w = 1#4 then (if cmdEsz w = 0#3 then .init else .illegal w)
  else if cmdOp w = 2#4 then .readBlocking (cmdEsz w)
  else if cmdOp w = 3#4 then .writeBlocking (cmdEsz w)
  else if cmdOp w = 4#4 then .readDma (cmdEsz w)
  else if cmdOp w = 5#4 then .writeDma (cmdEsz w)
  else if cmdOp w = 6#4 then (if cmdEsz w = 0#3 then .enterManual else .illegal w)
  else if cmdOp w = 7#4 then (if cmdEsz w = 0#3 then .enterAuto else .illegal w)
  else .illegal w

/-- R120: KIND = 1 is channel complete of channel CH; every other kind is another event, no
instruction of the engine. Bits [31:8] are reserved and not looked at. -/
def decodeEvt (w : Word) : Option Instr :=
  if evtKind w = 1#4 then some (.evtDmaComplete (evtChannel w)) else none

/-- Why bytes are no instruction. -/
inductive DecodeError where
  /-- Fewer than the four bytes of a word (R100: one length, 32 bits). -/
  | tooShort
  /-- An event word of another kind, which the engine ignores (R120, R284). -/
  | otherEvent
  deriving DecidableEq, Repr

/-- The word of four bytes, little-endian (20_memory R75). -/
def wordOfBytes (b0 b1 b2 b3 : Byte) : Word := b3 ++ b2 ++ b1 ++ b0

/-- The four bytes of a word, lowest address first (20_memory R75). -/
def bytesOfWord (w : Word) : List Byte :=
  [w.extractLsb' 0 8, w.extractLsb' 8 8, w.extractLsb' 16 8, w.extractLsb' 24 8]

/-- The instruction at the head of a byte stream on one of the two inputs, and the bytes after it. -/
def decode (p : Port) : List Byte → Except DecodeError (Instr × List Byte)
  | b0 :: b1 :: b2 :: b3 :: rest =>
    match p with
    | .cmd => .ok (decodeCmd (wordOfBytes b0 b1 b2 b3), rest)
    | .evt =>
      match decodeEvt (wordOfBytes b0 b1 b2 b3) with
      | some i => .ok (i, rest)
      | none => .error .otherEvent
  | _ => .error .tooShort

/-- The command word of OP and ESZ: OP + 16 * ESZ (R101). -/
def cmdWord (op : BitVec 4) (esz : BitVec 3) : Word := 0#25 ++ esz ++ op

/-- The word of a well-formed instruction, from the tables of R101, R102 and R120. -/
def encode : Instr → Word
  | .init => cmdWord 1#4 0#3
  | .readBlocking esz => cmdWord 2#4 esz
  | .writeBlocking esz => cmdWord 3#4 esz
  | .readDma esz => cmdWord 4#4 esz
  | .writeDma esz => cmdWord 5#4 esz
  | .enterManual => cmdWord 6#4 0#3
  | .enterAuto => cmdWord 7#4 0#3
  | .illegal w => w
  | .evtDmaComplete ch => 0#24 ++ ch ++ 1#4

/-- The input an instruction comes on. -/
def portOf : Instr → Port
  | .evtDmaComplete _ => .evt
  | .init | .readBlocking _ | .writeBlocking _ | .readDma _ | .writeDma _
  | .enterManual | .enterAuto | .illegal _ => .cmd

/-- The instruction as bytes, lowest address first. -/
def encodeBytes (i : Instr) : List Byte := bytesOfWord (encode i)

/-- Which input a row of the opcode table is read on, from its size in whole bytes. The table gives the
EVT row bits [7:0] (KIND and CH), one byte, and the legal commands all 32; a one-byte row is an event
word when its KIND is 1 and a command word otherwise (log 20). -/
def tablePort (nbits : Nat) (w : Word) : Port :=
  if nbits ≤ 8 ∧ evtKind w = 1#4 then .evt else .cmd

/-- The instruction this decoder reads from a table row's word, bits above `nbits` zero. -/
def decodeTableWord (nbits w : Nat) : Option Instr :=
  let word := BitVec.ofNat 32 (w % 2 ^ nbits)
  match decode (tablePort nbits word) (bytesOfWord word) with
  | .ok (i, _) => some i
  | .error _ => none

end Sys2Proof
end

