-- ==== Sys2Proof/Config.lean ====
section
/-! DEFINITION. The parameters of 00_scope R9, the agents of R8, and the free values: constants without
a body, of which nothing can be proved. -/

namespace Sys2Proof.Config

/-- Who may take the next step (00_scope R8). CTRL has two entries because two of its steps can be
enabled at once: the manual datapath (R294) and the fall of AUTO_ACTIVE (R292). `event` is the DMA
subsystem delivering an event word (R284), `cpu` a CPU's own request for the auto window arriving (R296,
D68). The PSRAM acts inside the steps that reach it (R299). -/
inductive Agent where
  | host
  | engine
  | ctrl
  | ctrlMode
  | autopath
  | sync
  | dma
  | event
  | cpu
  deriving DecidableEq, Repr, Inhabited

/-- The parameters of 00_scope R9, and the oracle CONFIG_FAIL (60_exceptions R298, D67): the ordinals,
from 1, of the `Configure` calls that return Err. They never change while the machine runs. -/
structure Params where
  density : Nat
  pageBytes : Nat
  dmaChunkBytes : Nat
  dmaMaxCount : Nat
  fifoDepth : Nat
  ctrlMaxBits : Nat
  numCs : Nat
  dmaChannel : Nat
  syncStages : Nat
  engineBase : Nat
  fifoAddr : Nat
  autoBase : Nat
  autoPathCoherent : Bool
  autoEnAtLaunch : Bool
  configFail : List Nat
  deriving DecidableEq, Repr, Inhabited

/-- The constraints of R9. The addresses are 32-bit system addresses (R10). A configuration that breaks
one has no meaning, and the step refuses it (log 4). DESIGN CHOICE (log 31): a register block or an auto
window that runs past 2^32-1 breaks no constraint of R9; it goes on at address 0. -/
def Params.ok (p : Params) : Bool :=
  decide (1 ≤ p.density ∧ p.density ≤ addressSpace)
    && decide (4 ≤ p.pageBytes)
    && decide (4 ≤ p.dmaChunkBytes)
    && decide (1 ≤ p.dmaMaxCount ∧ p.dmaMaxCount ≤ 65535)
    && decide (1 ≤ p.fifoDepth)
    && decide (8 * p.dmaChunkBytes ≤ p.ctrlMaxBits ∧ 32 * p.fifoDepth ≤ p.ctrlMaxBits
        ∧ 1020 ≤ p.ctrlMaxBits)
    && decide (1 ≤ p.numCs ∧ p.numCs ≤ 8)
    && decide (p.dmaChannel ≤ 15)
    && decide (2 ≤ p.syncStages)
    && decide (p.engineBase % 4 = 0 ∧ p.engineBase < addressSpace)
    && decide (p.fifoAddr % 4 = 0 ∧ p.fifoAddr < addressSpace)
    && decide (p.autoBase < addressSpace)

/-- The reference example configuration of 00_scope R11; no `Configure` fails (log 3, log 8). -/
def Params.reference : Params where
  density := 0x00800000
  pageBytes := 16
  dmaChunkBytes := 4096
  dmaMaxCount := 1024
  fifoDepth := 16
  ctrlMaxBits := 65536
  numCs := 2
  dmaChannel := 5
  syncStages := 2
  engineBase := 0x40000000
  fifoAddr := 0x40010010
  autoBase := 0x0A000000
  autoPathCoherent := true
  autoEnAtLaunch := true
  configFail := []

/-- FREE VALUE (log 1). The agent that takes step number `tick` when State gives no choice: 00_scope R15
fixes no order among the agents. -/
opaque freeAgent (tick : Nat) : Agent

/-- FREE VALUE (log 15). Byte `i` that CTRL receives in step `tick` while the device drives no data:
60_exceptions R299 gives it no value. -/
opaque freeByte (tick i : Nat) : Byte

/-- FREE VALUE (log 16). Which of a byte's values an auto-mode read takes in step `tick` for its byte
`i` when AUTO_PATH_COHERENT is false: 60_exceptions R296 allows the current one or any earlier one. -/
opaque freePick (tick i : Nat) : Nat

/-- FREE VALUE (log 32). Whether element `k` of the buffer, read in step `tick` in a race, is the old one: 20_memory
R97 allows the old and the new. -/
opaque freeOld (tick k : Nat) : Bool

end Sys2Proof.Config
end

