-- ==== Sys2Proof/Machine/State.lean ====
section
/-! DEFINITION. Everything the spec gives the machine, as plain data, and the machine right after reset
(10_state R30 to R63, 70_reset_and_hazards R320, R325). -/

namespace Sys2Proof.Machine

/-! ### Named values of the spec's fields -/

/-- CTX_STATE (10_state R47). -/
inductive CtxState where
  | idle
  | writeRunning
  | readRunning
  | failed
  deriving DecidableEq, Repr, Inhabited

/-- Direction of a transfer: write is buffer to PSRAM, read is PSRAM to buffer (10_state R46). -/
inductive Dir where
  | write
  | read
  deriving DecidableEq, Repr, Inhabited

/-- The phase encoding INIT selects (30_encoding R110). -/
inductive Enc where
  | split
  | packed
  deriving DecidableEq, Repr, Inhabited

/-- RESULT.CODE by name (30_encoding R106). Timeout and the codes 11 to 15 are never produced. -/
inductive Code where
  | ok
  | invalidSize
  | nullBuffer
  | outOfRange
  | busy
  | notInitialized
  | failed
  | timeout
  | alreadyInitialized
  | illegalCommand
  | invalidProfile
  deriving DecidableEq, Repr, Inhabited

/-- The kind annotation of a manual phase (30_encoding R119). -/
inductive PhaseKind where
  | cmd
  | addr
  | cmdaddr
  | dummy
  | data
  deriving DecidableEq, Repr, Inhabited

/-- The direction of a manual phase on the bus (30_encoding R119). -/
inductive Way where
  | tx
  | rx
  deriving DecidableEq, Repr, Inhabited

/-- One record of the bus (30_encoding R119). -/
inductive BusEvent where
  | csAssert (cs : Nat)
  | phase (kind : PhaseKind) (bw : BitVec 2) (way : Way) (nbits : Nat) (bytes : List Byte)
  | csRelease (cs : Nat)
  | auto (dir : Dir) (a : Nat) (bytes : List Byte)
  deriving DecidableEq, Repr, Inhabited

/-- The five raw status bits of the controller (10_state R56). -/
structure Status where
  busy : Bool
  fifoEmpty : Bool
  autoIdle : Bool
  autoActive : Bool
  csAsserted : Bool
  deriving DecidableEq, Repr, Inhabited

/-- One synchroniser stage: a tag, `none` being INVALID, and a sample (10_state R52). -/
structure SyncEntry where
  tag : Option Nat
  sample : Status
  deriving DecidableEq, Repr, Inhabited

/-- The conditions the engine waits for on a synchronised sample (41_mode_arbiter R162). -/
inductive Cond where
  /-- BUSY = 0. -/
  | notBusy
  /-- FIFO_EMPTY = 0. -/
  | fifoReady
  /-- AUTO_IDLE = 1. -/
  | autoIdle
  /-- AUTO_ACTIVE = 0. -/
  | autoInactive
  /-- CS_ASSERTED = 0. -/
  | csReleased
  deriving DecidableEq, Repr, Inhabited

/-- The controller's operations (60_exceptions R291). -/
inductive CtlOp where
  | setWidth (w : BitVec 2)
  | setElem (s : BitVec 3)
  | phaseTx (kind : PhaseKind) (nbits : Nat) (payload : List Byte) (cs : Nat) (keep : Bool)
  | trigger (way : Way) (nbits : Nat) (cs : Nat) (keep : Bool)
  | fifoWrite (s : Nat) (v : Word)
  | fifoRead (s : Nat)
  | deassertCs
  | setAutoEn (b : Bool)
  deriving DecidableEq, Repr, Inhabited

/-- The sequencer operations that SEQ_STATE names (30_encoding R118). -/
inductive SeqOp where
  | idle
  | decode
  | init
  | arbManual
  | arbAuto
  | planChunk
  | caSeq
  | drivePhase
  | pumpWrite
  | pumpRead
  | blocking
  | dmaBegin
  | dmaIssue
  | dmaComplete
  deriving DecidableEq, Repr, Inhabited

/-! ### The sequencer position -/

/-- What a caller does with the mode ARB_MANUAL or ARB_AUTO reports (41_mode_arbiter R171). -/
inductive ArbUse where
  /-- The DMA path and the final ARB_AUTO of a blocking command ignore it. -/
  | drop
  /-- W_PRIOR <- prev (43_blocking_path R208). -/
  | prior
  /-- RESULT.PREV_AUTO <- prev; finish(OK) (41_mode_arbiter R167, R168). -/
  | report
  deriving DecidableEq, Repr, Inhabited

/-- Which of the two arbiter operations (41_mode_arbiter R165, R166). -/
inductive ArbMode where
  | manual
  | auto
  deriving DecidableEq, Repr, Inhabited

/-- Who called DMA_ISSUE: the host command (R230) or the completion event (R235). -/
inductive Caller where
  | command
  | event
  deriving DecidableEq, Repr, Inhabited

/-- The operands of DMA_ISSUE (44_dma_chainer R233). -/
structure IssueArgs where
  dir : Dir
  a : Nat
  b : Nat
  s : Nat
  n : Nat
  p : Nat
  deriving DecidableEq, Repr, Inhabited

/-- An assignment `W_x <- v` of BLOCKING, with its value (10_state R49, 43_blocking_path R208). -/
inductive WorkField where
  | dir (d : Dir)
  | addr (v : Word)
  | buf (v : Word)
  | rem (v : BitVec 33)
  | esz (e : BitVec 3)
  | off (v : Word)
  | prior (b : Bool)
  deriving DecidableEq, Repr, Inhabited

/-- An assignment of INIT (45_command_interface R265). -/
inductive ProfileField where
  /-- `ACT0 <- v` -/
  | act0 (v : Word)
  /-- `ACT1 <- v` -/
  | act1 (v : Word)
  /-- `ACT2 <- v` -/
  | act2 (v : Word)
  /-- `ADDR_BYTES <- ACT0.ADDR_LEN + 1` -/
  | addrBytes
  /-- `ENC <- (ACT0.INST_BW = ACT0.ADDR_BW) ? Packed : Split` -/
  | enc
  /-- `INIT_DONE <- 1` -/
  | done
  deriving DecidableEq, Repr, Inhabited

/-- One line of the engine's pseudocode still to be done, with the local values it needs (R62). The
position of the sequencer is a list of these. Each is one ENGINE step (00_scope R14, R88). -/
inductive Act where
  /-- `wait_until(c)` inside operation `op` (R162). -/
  | wait (op : SeqOp) (c : Cond)
  /-- `ctl(c)` inside operation `op` (R291). -/
  | ctl (op : SeqOp) (c : CtlOp)
  /-- `prev <- x[AUTO_EN]` and the branch on it (R165, R166), then what the caller does with prev. -/
  | arbTest (m : ArbMode) (use : ArbUse)
  /-- The Busy test of BLOCKING or DMA_BEGIN, and what the spec asks of the caller (R208, R230; 20_memory R79,
  R81, R97). -/
  | busyTest (dma : Bool) (dir : Dir) (esz : BitVec 3)
  /-- INIT's two tests, on LATCH_PROF0 = `p0` (R265). -/
  | initTest (p0 : Word)
  /-- `W_x <- v` (R208). -/
  | setWork (f : WorkField)
  /-- One assignment of INIT (R265). -/
  | setProfile (f : ProfileField)
  /-- `RESULT.PREV_AUTO <- prev` (R167, R168). -/
  | setPrevAuto (b : Bool)
  /-- `while W_REM > 0` of BLOCKING (R208). -/
  | loop (dir : Dir)
  /-- PLAN_CHUNK(...) inside BLOCKING; the assignment to W_OFF and the chunk's calls follow (R208). -/
  | plan (dir : Dir)
  /-- CA_SEQ(dir, a): forms the packed phase, or the command phase of a split one (R141). -/
  | caSeq (dir : Dir) (a : Nat)
  /-- The address phase of a split CA_SEQ at device address `a` (R141). -/
  | caAddr (a : Nat)
  /-- CA_SEQ's test of x[DUMMY_CYCLES], and the dummy phase (R141). -/
  | caDummy (dir : Dir)
  /-- BLOCKING's call of PUMP_WRITE or PUMP_READ for a chunk of `c` bytes (R208). -/
  | callPump (dir : Dir) (c : Nat)
  /-- The FIFO invariant, checked where a data phase starts (R146). -/
  | fifoCheck (op : SeqOp)
  /-- `while k < n` of PUMP_WRITE(b, n, s, w, keep) (R142). -/
  | pumpWrite (b n s k : Nat) (keep : Bool)
  /-- `v <- MemRead(addr, s)` of PUMP_WRITE; the FifoWrite follows (R142). -/
  | pushElem (addr s : Nat)
  /-- `while k < n` of PUMP_READ (R143). -/
  | pumpRead (b n s k : Nat) (keep : Bool)
  /-- `v <- ctl(FifoRead(s))` of PUMP_READ; the MemWrite follows (R143). -/
  | popElem (addr s : Nat)
  /-- `MemWrite(addr, n, v)` of PUMP_READ (R143). -/
  | store (addr n : Nat) (v : Word)
  /-- `W_ADDR <- W_ADDR + c` (R208). -/
  | advAddr (c : Nat)
  /-- `W_BUF <- W_BUF + c` (R208). -/
  | advBuf (c : Nat)
  /-- `W_REM <- W_REM - c` (R208). -/
  | advRem (c : Nat)
  /-- `if W_PRIOR = 1: ARB_AUTO()` (R208). -/
  | restore
  /-- `finish(code)` or `raise Err(code)` with RESULT.PREV_AUTO = prev (R264). -/
  | finish (op : SeqOp) (code : Code) (prev : Bool)
  /-- `off <- ...`, the first line of DMA_ISSUE (R233). -/
  | dmaIssue (by_ : Caller) (x : IssueArgs)
  /-- PLAN_CHUNK inside DMA_ISSUE (R233). -/
  | dmaPlan (by_ : Caller) (x : IssueArgs)
  /-- `ctx <- ...` of DMA_ISSUE for a chunk of c bytes (R233). -/
  | dmaArm (by_ : Caller) (x : IssueArgs) (c : Nat)
  /-- `r <- dma(Configure(...))` and the branch on it (R233). -/
  | dmaConfigure (by_ : Caller) (x : IssueArgs) (c : Nat)
  /-- `dma(Enable(DMA_CHANNEL))` (R233). -/
  | dmaEnable
  /-- `dma(Trigger(DMA_CHANNEL))` (R233). -/
  | dmaTrigger
  /-- `dma(Disable(DMA_CHANNEL))` (R235). -/
  | dmaDisable
  /-- `if ctx.REM ≠ 0` of DMA_COMPLETE (R235). -/
  | dmaNext
  /-- `ctx.STATE <- st` (R230, R235). -/
  | ctxState (op : SeqOp) (st : CtxState)
  /-- `MemWrite(ctx.SPTR, 4, v)` of DMA_COMPLETE (R235). -/
  | completion (v : Word)
  /-- `return` from DMA_COMPLETE (R264). -/
  | leave
  deriving DecidableEq, Repr, Inhabited

/-! ### Parts of the state -/

/-- RESULT (10_state R37). -/
structure ResultReg where
  code : Code
  prevAuto : Bool
  valid : Bool
  deriving DecidableEq, Repr, Inhabited

/-- The command latch and its snapshots (10_state R43). -/
structure Latch where
  valid : Bool
  cmd : Word
  addr : Word
  buf : Word
  count : Word
  sptr : Word
  prof0 : Word
  prof1 : Word
  prof2 : Word
  deriving DecidableEq, Repr, Inhabited

/-- The transfer context (10_state R46). -/
structure Ctx where
  state : CtxState
  addr : Word
  buf : Word
  rem : Word
  esz : BitVec 3
  dir : Dir
  sptr : Word
  deriving DecidableEq, Repr, Inhabited

/-- The blocking working state W_* (10_state R49). -/
structure Work where
  dir : Dir
  addr : Word
  buf : Word
  rem : BitVec 33
  esz : BitVec 3
  off : Word
  prior : Bool
  deriving DecidableEq, Repr, Inhabited

/-- How far CTRL is with an accepted phase (60_exceptions R294): moving it, then releasing chip-select
when keep_cs = 0, then clearing BUSY. -/
inductive Stage where
  | run
  | drop
  | clear
  deriving DecidableEq, Repr, Inhabited

/-- The phase CTRL has accepted and not completed (60_exceptions R291, R294). For a data phase `left`
counts the elements of `elem` bytes still to move; `moved` are the bytes moved so far. -/
structure Job where
  kind : PhaseKind
  way : Way
  nbits : Nat
  payload : List Byte
  elem : Nat
  left : Nat
  moved : List Byte
  keep : Bool
  stage : Stage
  deriving DecidableEq, Repr, Inhabited

/-- One CPU access to the auto window (60_exceptions R296), at device address `a`. -/
structure AutoReq where
  dir : Dir
  a : Nat
  n : Nat
  data : Word
  /-- HOST's own access, whose end HOST waits for; otherwise a request of the CPU's own (D68). -/
  fromHost : Bool
  /-- AUTOPATH breaks R292 for this request: it starts it whether it may or not (R295, log 18). -/
  eager : Bool
  deriving DecidableEq, Repr, Inhabited

/-- The auto access in flight: started, then performed (`got` holds its data), then ended (R296). -/
structure AutoFlight where
  req : AutoReq
  got : Option Word
  deriving DecidableEq, Repr, Inhabited

/-- The reference device's place in a transaction (60_exceptions R299). -/
inductive Parser where
  /-- No transaction is open. -/
  | closed
  /-- The opcode byte comes next. -/
  | opcode
  /-- Address bytes: those received so far, in wire order. -/
  | addr (write : Bool) (got : List Byte)
  /-- A read at device address A with `left` dummy bits still to ignore. -/
  | dummy (a left : Nat)
  /-- Data byte `i` of a read at A comes next. -/
  | readData (a i : Nat)
  /-- Data byte `i` of a write at A comes next. -/
  | writeData (a i : Nat)
  /-- Another opcode: the device ignores the transaction. -/
  | ignore
  deriving DecidableEq, Repr, Inhabited

/-- The state of the DMA channel (10_state R59). -/
inductive ChanState where
  | off
  | configured
  | enabled
  | running
  | complete
  deriving DecidableEq, Repr, Inhabited

/-- The four descriptor words (30_encoding R117). -/
structure Desc where
  w0 : Word
  w1 : Word
  w2 : Word
  w3 : Word
  deriving DecidableEq, Repr, Inhabited

/-- The DMA channel the engine owns (10_state R59). `failed` is the DMA subsystem's own: it has reported an error
event for the armed chunk, so no complete event follows (60_exceptions R284, log 35). -/
structure Chan where
  state : ChanState
  desc : Desc
  k : Nat
  failed : Bool
  deriving DecidableEq, Repr, Inhabited

/-- One action of a HOST program (30_encoding R122): `st` and `ld` of any number of bytes; `wr`, `rd` and
`cmd` are stores and loads of the register block, `poll` and `pollm` repeat a 32-bit load. The last two are
HOST breaking 70 R327. -/
inductive HostAct where
  | store (addr n v : Nat)
  | load (addr n : Nat)
  | poll (addr : Nat) (mask value : Word)
  | touchCtrl
  | touchDma
  deriving DecidableEq, Repr, Inhabited

/-- How far HOST is with the access of its current action (log 9): not begun; waiting for AUTOPATH with the
first bytes `done` moved (60_exceptions R296); those bytes moved and the next not asked for. -/
inductive HostPend where
  | idle
  | waiting (done : List Byte)
  | part (done : List Byte)
  deriving DecidableEq, Repr, Inhabited

/-- Sparse memory: (address, byte) pairs, addresses strictly rising, no entry equal to `unlisted`. -/
abbrev Memory := List Host.Cell

/-- What an unlisted byte of system memory or of the PSRAM reads as (logs 5, 6: DESIGN CHOICE). -/
def unlisted : Byte := 0#8

/-- The buffer of a transfer that moves its elements, with what memory held when its command was accepted
(20_memory R97, 70 R328; the model's own, log 32): direction, first byte, bytes, element size. -/
structure Race where
  dir : Dir
  buf : Nat
  n : Nat
  esz : Nat
  before : Memory
  deriving DecidableEq, Repr, Inhabited

/-! ### The state -/

/-- All the state the spec gives the machine, with the model's own `sched` and `tick` (log 1), `hostLog` (log 9),
`memAtCmd` and `race` (log 32) and `launched` (log 33). INVENTORY.md lists each field with its rule. -/
structure State where
  /-- The parameters, which no step changes (00_scope R9). -/
  cfg : Config.Params
  /-- The engine has left reset (70 R321, R325; the model's own, log 33). -/
  launched : Bool
  /-- The engine register block (R33 to R37, R39 to R41). -/
  addr : Word
  buf : Word
  count : Word
  statusPtr : Word
  result : ResultReg
  prof0 : Word
  prof1 : Word
  prof2 : Word
  /-- The active profile and what INIT derives from it (R42, R45). -/
  act0 : Word
  act1 : Word
  act2 : Word
  addrBytes : BitVec 3
  enc : Enc
  initDone : Bool
  /-- Command latch, EXEC, OVERRUN (R43, R53). -/
  latch : Latch
  exec : Bool
  overrun : Bool
  /-- Transfer context and blocking working state (R46, R49). -/
  ctx : Ctx
  work : Work
  /-- EVT_PENDING (R50), and whether an event is being handled (R263). -/
  evtPending : Bool
  handling : Bool
  /-- EPOCH and the synchroniser, input side first (R51, R52). -/
  epoch : Nat
  sync : List SyncEntry
  /-- The sequencer position (R62): what is left of the operation in progress. -/
  todo : List Act
  /-- The controller (R55 to R58). BUSY is `job`, CS_ASSERTED is `cs`, FIFO_EMPTY is `fifo`. -/
  autoEn : Bool
  autoActive : Bool
  job : Option Job
  cs : Option Nat
  fifo : List Word
  curBw : BitVec 2
  curElem : BitVec 3
  /-- The auto path (R296): the CPU requests still to come (R325, D68), those that wait, the access in
  flight. AUTO_IDLE is `autoFlight`. -/
  cpuReqs : List AutoReq
  autoReqs : List AutoReq
  autoFlight : Option AutoFlight
  /-- The DMA channel (R59), the Configure calls so far (R298), event words to come (R284). -/
  chan : Chan
  configCalls : Nat
  events : List Word
  /-- The PSRAM: its bytes, the values they held before, its parser (R60, R296, R299). -/
  psram : Memory
  psramPast : List Host.Cell
  parser : Parser
  /-- System memory (R61). -/
  mem : Memory
  /-- The model's own (log 32): memory when the last command was accepted, and the transfer whose buffer a race
  concerns (20_memory R97, 70 R328). -/
  memAtCmd : Memory
  race : Option Race
  /-- HOST (R122). -/
  hostProg : List HostAct
  hostPend : HostPend
  hostLog : List Nat
  /-- The bus record, oldest first (R119). -/
  bus : List BusEvent
  /-- The model's own: the agents due to move, and the step count the free values are applied to. -/
  sched : List Config.Agent
  tick : Nat
  deriving DecidableEq, Repr, Inhabited

/-- Why a run stops. Every fault is a contract breach by an agent, which 60_exceptions R295 makes a
stop naming the breach; all are safe (the machine stops where the spec gives no further behaviour). -/
inductive Fault where
  /-- PhaseTx or Trigger while AUTO_EN = 1 (R291, R295); raised by `ctlEffect`; safe. -/
  | phaseInAutoMode
  /-- PhaseTx, Trigger or DeassertCS while BUSY = 1 (R291); raised by `ctlEffect`; safe. -/
  | controllerBusy
  /-- PhaseTx or Trigger for a chip-select other than the asserted one (R291); raised by `ctlEffect`; safe. -/
  | otherChipSelect
  /-- A Trigger whose bit length R291 does not allow; raised by `ctlEffect`; safe. -/
  | triggerLength
  /-- SetWidth with the reserved code 3 of R108 (DEDUCED, log 24); raised by `ctlEffect`; safe. -/
  | reservedWidth
  /-- FifoWrite to a full FIFO (R291); raised by `ctlEffect`; safe. -/
  | fifoFull
  /-- FifoRead from an empty FIFO (R291); raised by `ctlEffect`; safe. -/
  | fifoEmpty
  /-- A FIFO not empty where R146 requires it empty; raised by `runAct`; safe. -/
  | fifoNotEmpty
  /-- A DMA operation in a channel state R297 does not allow; raised by the `dma…` operations; safe. -/
  | channelState
  /-- A descriptor with the reserved WIDTH code 3 (R117); raised by `dmaStep`; safe. -/
  | reservedDmaWidth
  /-- An auto access outside R296's form, which R295 does not list (log 18); raised by `autopathStep`; safe. -/
  | autoAccessForm
  /-- An auto access started against R292 (R295); raised by `autopathStep`; safe. -/
  | autoStartBreach
  /-- A complete event of the engine's channel besides the channel's own, while a chain runs (R297, 93 I7);
  raised by `eventStep`; safe. -/
  | secondComplete
  /-- A complete event handled while a chain runs and the channel has not completed its descriptor (R90,
  R297, 93 I7); raised by `dmaCompleteFirst`; safe. -/
  | earlyComplete
  /-- HOST operated the controller itself (70 R327); raised by `hostStep`; safe. -/
  | hostTouchedController
  /-- HOST operated DMA_CHANNEL itself (70 R327); raised by `hostStep`; safe. -/
  | hostTouchedChannel
  deriving DecidableEq, Repr, Inhabited

/-- What has no meaning in the spec, so that a model refuses it (60_exceptions R304). All are safe. -/
inductive Refusal where
  /-- An instruction without a meaning in this model; none is left; safe. -/
  | notModelled (mnemonic : String)
  /-- A configuration that breaks a constraint of R9; raised by `launchStep` and `step`; safe. -/
  | badConfiguration
  /-- BUF not a multiple of ESZ on an otherwise valid transfer (20_memory R79); raised by the transfer commands; safe. -/
  | misalignedBuffer
  /-- STATUS_PTR not a multiple of 4 on an otherwise valid DMA command (20_memory R81); safe. -/
  | misalignedStatusPtr
  /-- A buffer over the completion word, a register block or the auto window (20_memory R97); safe. -/
  | overlappingBuffer
  /-- A completion word that is not system memory (DEDUCED from the duty of 70 R329, log 13); raised by the DMA
  commands; safe. -/
  | statusPtrNotMemory
  /-- A register access that is not an aligned 32-bit one (20_memory R80); raised by `hostStep`; safe. -/
  | registerAccess
  /-- A launch in another state than 70 R325's; raised by `launchStep`; safe. -/
  | badLaunch
  deriving DecidableEq, Repr, Inhabited

/-- The outcome of one step. -/
abbrev Out := Host.Outcome State Fault Refusal

/-! ### Reset -/

/-- The machine right after reset with parameters `p` (70 R320 and the launch premises of R325). -/
def State.resetWith (p : Config.Params) : State where
  cfg := p
  launched := false
  addr := 0
  buf := 0
  count := 0
  statusPtr := 0
  result := ⟨.ok, false, false⟩
  prof0 := 0
  prof1 := 0
  prof2 := 0
  act0 := 0
  act1 := 0
  act2 := 0
  addrBytes := 0
  enc := .packed
  initDone := false
  latch := ⟨false, 0, 0, 0, 0, 0, 0, 0, 0⟩
  exec := false
  overrun := false
  ctx := ⟨.idle, 0, 0, 0, 0, .write, 0⟩
  work := ⟨.write, 0, 0, 0, 0, 0, false⟩
  evtPending := false
  handling := false
  epoch := 0
  sync := List.replicate p.syncStages ⟨none, ⟨false, false, false, false, false⟩⟩
  todo := []
  autoEn := p.autoEnAtLaunch
  autoActive := p.autoEnAtLaunch
  job := none
  cs := none
  fifo := []
  curBw := 0
  curElem := 0
  cpuReqs := []
  autoReqs := []
  autoFlight := none
  chan := ⟨.off, ⟨0, 0, 0, 0⟩, 0, false⟩
  configCalls := 0
  events := []
  psram := []
  psramPast := []
  parser := .closed
  mem := []
  memAtCmd := []
  race := none
  hostProg := []
  hostPend := .idle
  hostLog := []
  bus := []
  sched := []
  tick := 0

/-- The machine right after reset in the reference configuration of 00_scope R11 (log 3). -/
def State.reset : State := State.resetWith Config.Params.reference

end Sys2Proof.Machine
end

