-- ==== Sys2Proof/Machine/Flags.lean ====
section
/-! DEFINITION. Status words, codes and status bits (10_state R37, R38, R47, R48, R54, R56; 30_encoding
R106, R118), and the freshness test of a synchronised status sample (41_mode_arbiter R161, R162). -/

namespace Sys2Proof.Machine

/-- The number of a result code (30_encoding R106). -/
def codeBits : Code → BitVec 4
  | .ok => 0#4
  | .invalidSize => 1#4
  | .nullBuffer => 2#4
  | .outOfRange => 3#4
  | .busy => 4#4
  | .notInitialized => 5#4
  | .failed => 6#4
  | .timeout => 7#4
  | .alreadyInitialized => 8#4
  | .illegalCommand => 9#4
  | .invalidProfile => 10#4

/-- RESULT as a register reads: CODE [3:0], PREV_AUTO [4], VALID [31] (10_state R37). -/
def resultWord (r : ResultReg) : Word :=
  BitVec.ofBool r.valid ++ 0#26 ++ BitVec.ofBool r.prevAuto ++ codeBits r.code

/-- CTX_STATE (10_state R47). -/
def ctxStateBits : CtxState → BitVec 2
  | .idle => 0#2
  | .writeRunning => 1#2
  | .readRunning => 2#2
  | .failed => 3#2

/-- "Running": STATE in {WriteRunning, ReadRunning} (10_state R47). -/
def chainRunning (s : State) : Bool :=
  s.ctx.state == .writeRunning || s.ctx.state == .readRunning

/-- CMD_BUSY = LATCH_VALID or EXEC (45_command_interface R260). -/
def cmdBusy (s : State) : Bool := s.latch.valid || s.exec

/-- EVT_BUSY: an event is pending or being handled (10_state R38, 45_command_interface R263). -/
def evtBusy (s : State) : Bool := s.evtPending || s.handling

/-- DIR as a bit: 0 = write, 1 = read (10_state R46). -/
def dirBit : Dir → Bool
  | .write => false
  | .read => true

/-- CTX_INFO: ESZ [2:0], DIR [3] (10_state R48). -/
def ctxInfoWord (c : Ctx) : Word := 0#28 ++ BitVec.ofBool (dirBit c.dir) ++ c.esz

/-- The SEQ_STATE codes (30_encoding R118). -/
def seqOpCode : SeqOp → BitVec 8
  | .idle => 0x00#8
  | .decode => 0x01#8
  | .init => 0x02#8
  | .arbManual => 0x10#8
  | .arbAuto => 0x11#8
  | .planChunk => 0x20#8
  | .caSeq => 0x30#8
  | .drivePhase => 0x31#8
  | .pumpWrite => 0x32#8
  | .pumpRead => 0x33#8
  | .blocking => 0x40#8
  | .dmaBegin => 0x50#8
  | .dmaIssue => 0x51#8
  | .dmaComplete => 0x52#8

/-- The operation an action belongs to (R118: an operation shows its code from its first action to its
last, and its caller's again afterwards; R200, R208, R230: VALIDATE is DECODE's, the Busy test its caller's).
DESIGN CHOICE (log 21): the lines of ENTER_MANUAL and ENTER_AUTO
outside ARB_MANUAL and ARB_AUTO show DECODE, for R118 lists no code of these two commands. -/
def actOp : Act → SeqOp
  | .wait op _ => op
  | .ctl op _ => op
  | .arbTest .manual _ => .arbManual
  | .arbTest .auto _ => .arbAuto
  | .busyTest dma _ _ => if dma then .dmaBegin else .blocking
  | .initTest _ => .init
  | .setWork _ => .blocking
  | .setProfile _ => .init
  | .setPrevAuto _ => .decode
  | .loop _ => .blocking
  | .plan _ => .planChunk
  | .caSeq _ _ => .caSeq
  | .caAddr _ => .caSeq
  | .caDummy _ => .caSeq
  | .callPump _ _ => .blocking
  | .fifoCheck op => op
  | .pumpWrite .. => .pumpWrite
  | .pushElem _ _ => .pumpWrite
  | .pumpRead .. => .pumpRead
  | .popElem _ _ => .pumpRead
  | .store .. => .pumpRead
  | .advAddr _ => .blocking
  | .advBuf _ => .blocking
  | .advRem _ => .blocking
  | .restore => .blocking
  | .finish op _ _ => op
  | .dmaIssue _ _ => .dmaIssue
  | .dmaPlan _ _ => .planChunk
  | .dmaArm .. => .dmaIssue
  | .dmaConfigure .. => .dmaIssue
  | .dmaEnable => .dmaIssue
  | .dmaTrigger => .dmaIssue
  | .dmaDisable => .dmaComplete
  | .dmaNext => .dmaComplete
  | .ctxState op _ => op
  | .completion _ => .dmaComplete
  | .leave => .dmaComplete

/-- The innermost operation in progress. A command's first line is DECODE's, with the validation of a transfer
(R200, R269); an event's is DMA_COMPLETE's (R235). -/
def currentOp (s : State) : SeqOp :=
  match s.todo with
  | a :: _ => actOp a
  | [] =>
    if s.handling then .dmaComplete
    else if s.exec then .decode
    else .idle

/-- SEQ_STATE (10_state R54), determined by the sequencer position. -/
def seqCode (s : State) : BitVec 8 := seqOpCode (currentOp s)

/-- ESTATUS (10_state R38). -/
def estatusWord (s : State) : Word :=
  0#16 ++ seqCode s ++ 0#1 ++ BitVec.ofBool s.overrun ++ BitVec.ofBool s.initDone
    ++ BitVec.ofBool s.autoEn ++ ctxStateBits s.ctx.state ++ BitVec.ofBool (evtBusy s)
    ++ BitVec.ofBool (cmdBusy s)

/-- The raw controller status now (10_state R56). -/
def rawStatus (s : State) : Status where
  busy := s.job.isSome
  fifoEmpty := s.fifo.isEmpty
  autoIdle := s.autoFlight.isNone
  autoActive := s.autoActive
  csAsserted := s.cs.isSome

/-- A waited condition on a sample (41_mode_arbiter R162). -/
def condHolds : Cond → Status → Bool
  | .notBusy, st => !st.busy
  | .fifoReady, st => !st.fifoEmpty
  | .autoIdle, st => st.autoIdle
  | .autoInactive, st => !st.autoActive
  | .csReleased, st => !st.csAsserted

/-- The stage the engine reads, S[SYNC_STAGES-1] (10_state R52). -/
def syncOut (s : State) : Option SyncEntry := s.sync[s.cfg.syncStages - 1]?

/-- R162: there is a step past `wait_until(c)` exactly when the output stage's tag is the current epoch
and the condition holds of its sample. -/
def waitOver (s : State) (c : Cond) : Bool :=
  match syncOut s with
  | some e => (e.tag == some s.epoch) && condHolds c e.sample
  | none => false

end Sys2Proof.Machine
end

