-- ==== Sys2Proof/Machine/Operands.lean ====
section
/-! DEFINITION. Every operand form: profile fields, address bytes, phase lengths, chunk sizes, the DMA
descriptor, operand validation, and the address ranges a transfer may use. -/

namespace Sys2Proof.Machine

/-! ### Device Profile fields (10_state R39 to R41) -/

/-- RD_OPCODE, PROF0[7:0]. -/
def profRdOpcode (p0 : Word) : Byte := p0.extractLsb' 0 8
/-- WR_OPCODE, PROF0[15:8]. -/
def profWrOpcode (p0 : Word) : Byte := p0.extractLsb' 8 8
/-- ADDR_LEN, PROF0[17:16]. -/
def profAddrLen (p0 : Word) : BitVec 2 := p0.extractLsb' 16 2
/-- INST_BW, PROF0[19:18]. -/
def profInstBw (p0 : Word) : BitVec 2 := p0.extractLsb' 18 2
/-- ADDR_BW, PROF0[21:20]. -/
def profAddrBw (p0 : Word) : BitVec 2 := p0.extractLsb' 20 2
/-- DUMMY_BW, PROF0[23:22]. -/
def profDummyBw (p0 : Word) : BitVec 2 := p0.extractLsb' 22 2
/-- DATA_BW, PROF0[25:24]. -/
def profDataBw (p0 : Word) : BitVec 2 := p0.extractLsb' 24 2
/-- EXTRA_BW, PROF0[27:26]; latched and validated, never used (R116). -/
def profExtraBw (p0 : Word) : BitVec 2 := p0.extractLsb' 26 2
/-- BSWAP, PROF0[28]. -/
def profBswap (p0 : Word) : Bool := p0.getLsbD 28
/-- CSEL, PROF0[31:29]. -/
def profCsel (p0 : Word) : Nat := (p0.extractLsb' 29 3).toNat
/-- DUMMY_CYCLES, PROF1[7:0]. -/
def profDummyCycles (p1 : Word) : Nat := (p1.extractLsb' 0 8).toNat
/-- PROF1 without its reserved bits, which read 0 and ignore writes (R40). -/
def profOneMask (p1 : Word) : Word := 0#24 ++ p1.extractLsb' 0 8

/-- ADDR_BYTES = ADDR_LEN + 1 (30_encoding R109). -/
def addrBytesOf (p0 : Word) : BitVec 3 := (0#1 ++ profAddrLen p0) + 1#3

/-- ENC (30_encoding R110): Packed exactly when the instruction and address widths are equal. -/
def encOf (p0 : Word) : Enc := if profInstBw p0 = profAddrBw p0 then .packed else .split

/-- PROFILE_OK (45_command_interface R266). -/
def profileOk (p : Config.Params) (p0 : Word) : Bool :=
  profInstBw p0 != 3#2 && profAddrBw p0 != 3#2 && profDummyBw p0 != 3#2
    && profDataBw p0 != 3#2 && profExtraBw p0 != 3#2
    && decide (profCsel p0 < p.numCs)
    && decide (p.density ≤ 2 ^ (8 * ((profAddrLen p0).toNat + 1)))

/-- lines(c), the data lines of a width code (00_scope R13). Code 3 is reserved and has no lines; INIT
admits no profile with it (R266). -/
def lines (c : BitVec 2) : Nat :=
  if c = 0#2 then 1 else if c = 1#2 then 2 else if c = 2#2 then 4 else 0

/-! ### Phase payloads (30_encoding R111 to R115) -/

/-- The low `n` bytes of a number, most significant first. -/
def bytesMsb (a : Nat) : Nat → List Byte
  | 0 => []
  | n + 1 => BitVec.ofNat 8 (a / 2 ^ (8 * n)) :: bytesMsb a n

/-- abytes(a) (30_encoding R113): most significant byte first, reversed when BSWAP = 1. -/
def abytes (n : Nat) (bswap : Bool) (a : Nat) : List Byte :=
  if bswap then (bytesMsb a n).reverse else bytesMsb a n

/-- The address of received address bytes, most significant first (60_exceptions R299). -/
def addrOfMsb (bs : List Byte) : Nat := bs.foldl (fun acc b => 256 * acc + b.toNat) 0

/-- The device address of address bytes in wire order (60_exceptions R299). -/
def addrOfBytes (bswap : Bool) (bs : List Byte) : Nat :=
  addrOfMsb (if bswap then bs.reverse else bs)

/-- The bit length of the dummy phase (30_encoding R114). -/
def dummyBits (act0 act1 : Word) : Nat := profDummyCycles act1 * lines (profDummyBw act0)

/-- Bytes needed for a bit length. -/
def bytesFor (nbits : Nat) : Nat := (nbits + 7) / 8

/-- The low `n` bytes of an element or FIFO entry, byte 0 first (10_state R57, 30_encoding R115). -/
def elemBytes (n : Nat) (v : Word) : List Byte :=
  match n with
  | 0 => []
  | n + 1 => v.extractLsb' 0 8 :: elemBytes n (v >>> 8)

/-- The number of bytes in little-endian order (20_memory R75, 10_state R57). -/
def elemOfBytes : List Byte → Word
  | [] => 0#32
  | b :: bs => (0#24 ++ b) ||| (elemOfBytes bs <<< 8)

/-- The low `n` bytes of a number, least significant first (20_memory R75). -/
def bytesLsb (v : Nat) : Nat → List Byte
  | 0 => []
  | n + 1 => BitVec.ofNat 8 v :: bytesLsb (v / 256) n

/-- The number of bytes in little-endian order, of any length (20_memory R75). -/
def natOfBytes : List Byte → Nat
  | [] => 0
  | b :: bs => b.toNat + 256 * natOfBytes bs

/-! ### The chunk planner (42_chunk_planner R180 to R187) -/

/-- PLAN_CHUNK(rem, off, s, MAX) for wrap size `w`, giving the chunk and the next offset (R180). -/
def planChunk (w rem off s max : Nat) : Nat × Nat :=
  let m := max - max % s
  let c1 := min rem m
  let c :=
    if w ≠ 0 ∧ off + c1 > w then
      let c2 := (w - off) - (w - off) % s
      if c2 = 0 then s else c2
    else c1
  (c, if w = 0 then 0 else (off + c) % w)

/-- The running offset at device address `a` (R183, R189). -/
def wrapOffset (w a : Nat) : Nat := if w = 0 then 0 else a % w

/-- MAXD(s), the DMA path's maximum chunk (R182). -/
def maxDma (p : Config.Params) (s : Nat) : Nat := min p.dmaChunkBytes (p.dmaMaxCount * s)

/-! ### The DMA descriptor (30_encoding R117, 44_dma_chainer R234) -/

/-- wc(s), the WIDTH code of an element size (R234). -/
def widthCode (s : Nat) : Nat := if s = 1 then 0 else if s = 2 then 1 else 2

/-- DESC(dir, b, s, ce) (R234). -/
def descOf (p : Config.Params) (dir : Dir) (b s ce : Nat) : Desc :=
  let common := ce + 2 ^ 16 * widthCode s + 2 ^ 20 * p.dmaChannel
  match dir with
  | .write => ⟨BitVec.ofNat 32 b, BitVec.ofNat 32 p.fifoAddr, BitVec.ofNat 32 (common + 2 ^ 18), 1#32⟩
  | .read => ⟨BitVec.ofNat 32 p.fifoAddr, BitVec.ofNat 32 b, BitVec.ofNat 32 (common + 2 ^ 19), 1#32⟩

/-- COUNT, W2[15:0]. -/
def descCount (d : Desc) : Nat := (d.w2.extractLsb' 0 16).toNat
/-- WIDTH, W2[17:16]. -/
def descWidth (d : Desc) : BitVec 2 := d.w2.extractLsb' 16 2
/-- SRC_INC, W2[18]. -/
def descSrcInc (d : Desc) : Bool := d.w2.getLsbD 18
/-- DST_INC, W2[19]. -/
def descDstInc (d : Desc) : Bool := d.w2.getLsbD 19
/-- CH, W2[23:20]. -/
def descChannel (d : Desc) : BitVec 4 := d.w2.extractLsb' 20 4
/-- CB_ENGINE, W3[0]. -/
def descToEngine (d : Desc) : Bool := d.w3.getLsbD 0
/-- The element width in bytes of a WIDTH code other than the reserved 3 (R117). -/
def widthBytes (c : BitVec 2) : Nat := 2 ^ c.toNat

/-! ### Validation (43_blocking_path R200 to R205) -/

/-- An element size of 1, 2 or 4 bytes (R201). -/
def eszOk (s : Nat) : Bool := s == 1 || s == 2 || s == 4

/-- The device range [a, a + n*s) lies within [0, DENSITY), without overflow (R203). -/
def rangeOk (density a n s : Nat) : Bool := decide (a < density ∧ a + n * s ≤ density)

/-- VALIDATE (R200): the first failing check's code; `dma` adds the STATUS_PTR check of R204. -/
def validate (s : State) (dma : Bool) (a b esz n p : Nat) : Option Code :=
  if s.initDone = false then some .notInitialized
  else if eszOk esz = false ∨ n = 0 then some .invalidSize
  else if rangeOk s.cfg.density a n esz = false then some .outOfRange
  else if b = 0 then some .nullBuffer
  else if dma = true ∧ p = 0 then some .nullBuffer
  else none

/-! ### Address ranges -/

/-- Two ranges of the 32-bit address space share a byte; an address runs on past 2^32-1 to 0 (log 14). -/
def rangesMeet (a n b m : Nat) : Bool :=
  decide (0 < n ∧ 0 < m ∧
    ((b + addressSpace - a % addressSpace) % addressSpace < n
      ∨ (a + addressSpace - b % addressSpace) % addressSpace < m))

/-- A range that is not system memory: it meets the engine register block (R31), the FIFO data register
(R57; the only address the spec gives of the controller's block, log 11) or the auto window (R71). -/
def meetsDevice (p : Config.Params) (a n : Nat) : Bool :=
  rangesMeet a n p.engineBase 0x100 || rangesMeet a n p.fifoAddr 4
    || rangesMeet a n p.autoBase p.density

/-- The caller's preconditions on an otherwise valid transfer: R79, R81, R97 and the duty of R329 (log 13). The
refusal of the first one broken (DESIGN CHOICE: their order, log 12). -/
def callerBreach (cfg : Config.Params) (dma : Bool) (b esz n p : Nat) : Option Refusal :=
  if b % esz ≠ 0 then some .misalignedBuffer
  else if dma = true ∧ p % 4 ≠ 0 then some .misalignedStatusPtr
  else if meetsDevice cfg b (n * esz) = true ∨ (dma = true ∧ rangesMeet b (n * esz) p 4 = true) then
    some .overlappingBuffer
  else if dma = true ∧ meetsDevice cfg p 4 = true then some .statusPtrNotMemory
  else none

/-! ### Registers of the engine block (10_state R31) -/

/-- The registers listed in R31. -/
inductive Reg where
  | cmd
  | addr
  | buf
  | count
  | statusPtr
  | result
  | estatus
  | prof0
  | prof1
  | prof2
  | act0
  | act1
  | act2
  | ctxAddr
  | ctxBuf
  | ctxRem
  | ctxInfo
  | ctxSptr
  deriving DecidableEq, Repr, Inhabited

/-- The offset of a register (R31). -/
def regOffset : Reg → Nat
  | .cmd => 0x00
  | .addr => 0x04
  | .buf => 0x08
  | .count => 0x0C
  | .statusPtr => 0x10
  | .result => 0x14
  | .estatus => 0x18
  | .prof0 => 0x20
  | .prof1 => 0x24
  | .prof2 => 0x28
  | .act0 => 0x30
  | .act1 => 0x34
  | .act2 => 0x38
  | .ctxAddr => 0x40
  | .ctxBuf => 0x44
  | .ctxRem => 0x48
  | .ctxInfo => 0x4C
  | .ctxSptr => 0x50

/-- The register at an offset; unlisted offsets hold none (R31). -/
def regAt (off : Nat) : Option Reg :=
  if off = 0x00 then some .cmd
  else if off = 0x04 then some .addr
  else if off = 0x08 then some .buf
  else if off = 0x0C then some .count
  else if off = 0x10 then some .statusPtr
  else if off = 0x14 then some .result
  else if off = 0x18 then some .estatus
  else if off = 0x20 then some .prof0
  else if off = 0x24 then some .prof1
  else if off = 0x28 then some .prof2
  else if off = 0x30 then some .act0
  else if off = 0x34 then some .act1
  else if off = 0x38 then some .act2
  else if off = 0x40 then some .ctxAddr
  else if off = 0x44 then some .ctxBuf
  else if off = 0x48 then some .ctxRem
  else if off = 0x4C then some .ctxInfo
  else if off = 0x50 then some .ctxSptr
  else none

/-! ### HOST programs (30_encoding R122, R123) -/

/-- `wr REG, v`. -/
def hostWr (p : Config.Params) (r : Reg) (v : Word) : HostAct :=
  .store (p.engineBase + regOffset r) 4 v.toNat

/-- `rd REG`. -/
def hostRd (p : Config.Params) (r : Reg) : HostAct := .load (p.engineBase + regOffset r) 4

/-- `poll REG, mask, value`. -/
def hostPoll (p : Config.Params) (r : Reg) (mask value : Word) : HostAct :=
  .poll (p.engineBase + regOffset r) mask value

/-- `pollm addr, value`. -/
def hostPollm (addr : Nat) (value : Word) : HostAct := .poll addr 0xFFFFFFFF#32 value

/-- `cmd MNEMONIC, esz`, for the instruction's word. -/
def hostCmd (p : Config.Params) (i : Instr) : HostAct := hostWr p .cmd (encode i)

/-- `poll RESULT, 0x8000_0000, 0x8000_0000`, with which every pseudo-instruction ends (R123). -/
def hostPollResult (p : Config.Params) : HostAct :=
  hostPoll p .result 0x80000000#32 0x80000000#32

/-- init(p0, p1, p2) (R123). -/
def hostInit (p : Config.Params) (p0 p1 p2 : Word) : List HostAct :=
  [hostWr p .prof0 p0, hostWr p .prof1 p1, hostWr p .prof2 p2, hostCmd p .init, hostPollResult p]

/-- read_blocking and write_blocking (R123). -/
def hostBlocking (p : Config.Params) (dir : Dir) (addr buf : Word) (esz : BitVec 3) (count : Word) :
    List HostAct :=
  [hostWr p .addr addr, hostWr p .buf buf, hostWr p .count count,
    hostCmd p (match dir with
      | .read => .readBlocking esz
      | .write => .writeBlocking esz), hostPollResult p]

/-- read_dma and write_dma (R123). -/
def hostDma (p : Config.Params) (dir : Dir) (addr buf : Word) (esz : BitVec 3) (count sptr : Word) :
    List HostAct :=
  [hostWr p .addr addr, hostWr p .buf buf, hostWr p .count count, hostWr p .statusPtr sptr,
    hostCmd p (match dir with
      | .read => .readDma esz
      | .write => .writeDma esz), hostPollResult p]

/-- enter_manual() and enter_auto() (R123). -/
def hostEnter (p : Config.Params) (m : ArbMode) : List HostAct :=
  [hostCmd p (match m with
    | .manual => .enterManual
    | .auto => .enterAuto), hostPollResult p]

end Sys2Proof.Machine
end

