-- ==== Sys2Proof/Machine/Ops.lean ====
section
/-! DEFINITION. The named operations over memory, registers, controller and DMA channel that every
meaning shares: memory access (20_memory R75), the register block (10_state R31), acceptance and
completion of a command (45_command_interface R260 to R264), entry to and return from an event
(60_exceptions R287), `ctl(op)` (R291) and `dma(op)` (R297). -/

namespace Sys2Proof.Machine

/-! ### Memory -/

/-- The byte at an address. -/
def Memory.get : Memory → Nat → Byte
  | [], _ => unlisted
  | (k, v) :: r, a => if k = a then v else Memory.get r a

/-- Store a byte, keeping the canonical form: storing `unlisted` takes the entry out. -/
def Memory.put : Memory → Nat → Byte → Memory
  | [], a, v => if v = unlisted then [] else [(a, v)]
  | (k, b) :: r, a, v =>
    if a < k then (if v = unlisted then (k, b) :: r else (a, v) :: (k, b) :: r)
    else if a = k then (if v = unlisted then r else (a, v) :: r)
    else (k, b) :: Memory.put r a v

/-- The canonical form from address `lo` on, below `bound`: addresses strictly rising, no entry equal to
what an unlisted address reads as. -/
def Memory.wfFrom (bound : Nat) : Nat → Memory → Bool
  | _, [] => true
  | lo, (k, v) :: r =>
    decide (lo ≤ k) && decide (k < bound) && v != unlisted && Memory.wfFrom bound (k + 1) r

/-- The canonical form of a memory of `bound` bytes. -/
def Memory.wf (bound : Nat) (m : Memory) : Bool := Memory.wfFrom bound 0 m

/-- The system address a byte access uses: 32 bits (00_scope R10; log 14). -/
def sysAddr (a : Nat) : Nat := a % addressSpace

/-- The `n` bytes from system address `a` on. -/
def memBytes (m : Memory) (a : Nat) : Nat → List Byte
  | 0 => []
  | n + 1 => m.get (sysAddr a) :: memBytes m (a + 1) n

/-- MemRead(a, n) (20_memory R75). -/
def memRead (m : Memory) (a n : Nat) : Word := elemOfBytes (memBytes m a n)

/-- Store bytes from system address `a` on. -/
def memPutBytes (m : Memory) (a : Nat) : List Byte → Memory
  | [] => m
  | b :: bs => memPutBytes (m.put (sysAddr a) b) (a + 1) bs

/-- MemWrite(a, n, v) (20_memory R75). -/
def memWrite (m : Memory) (a n : Nat) (v : Word) : Memory := memPutBytes m a (elemBytes n v)

/-- The byte at `a` is one of the `n` bytes stored from system address `base` on. -/
def inStored (base n a : Nat) : Bool := decide (∃ j < n, sysAddr (base + j) = a)

/-- The offset of a system address from a base, in the 32-bit address space. DESIGN CHOICE (log 31): the space
goes on at address 0 after 2^32-1, for a block or a window that runs past its end too. -/
def offsetFrom (a base : Nat) : Nat := (a + addressSpace - base % addressSpace) % addressSpace

/-! ### Races for a transfer's buffer (20_memory R97, 70 R328) -/

/-- The byte at system address `a`, as an element read finds it that a transfer of direction `d` races with: the
transfer's own reads for `.write`, HOST's for `.read`. An element of the buffer that was written since the command's
acceptance is the old one or the new one (R97, 93 I11), by a free value. DESIGN CHOICE (log 32): old is what memory
held at the acceptance, new what it holds at this step. -/
def racedByte (d : Dir) (s : State) (a : Nat) : Byte :=
  let new := s.mem.get (sysAddr a)
  match s.race with
  | none => new
  | some r =>
    let off := offsetFrom a r.buf
    let old := r.before.get (sysAddr a)
    if r.dir = d ∧ off < r.n ∧ old ≠ new ∧ Config.freeOld s.tick (off / r.esz) = true then old else new

/-- The `n` bytes from system address `a` on, as such a read finds them. -/
def racedBytes (d : Dir) (s : State) (a : Nat) : Nat → List Byte
  | 0 => []
  | n + 1 => racedByte d s a :: racedBytes d s (a + 1) n

/-- MemRead(a, n) by a transfer (20_memory R75, R97). -/
def elemRead (s : State) (a n : Nat) : Word := elemOfBytes (racedBytes .write s a n)

/-- The race a transfer of the latched operands opens (R328: from the command's acceptance on). -/
def openRace (s : State) (dir : Dir) (esz : BitVec 3) : Race :=
  ⟨dir, s.latch.buf.toNat, s.latch.count.toNat * esz.toNat, esz.toNat, s.memAtCmd⟩

/-- The race after a command's last line: a blocking transfer and one that arms no chunk end theirs; a chain's goes
on until the completion word is written (R328). -/
def raceAfter (op : SeqOp) (code : Code) (r : Option Race) : Option Race :=
  if op = .blocking ∨ code = .failed then none else r

/-! ### Sequencer position and completion -/

/-- Stand at position `todo`. -/
def State.goto (s : State) (todo : List Act) : State := { s with todo := todo }

/-- `finish(code)` and `raise Err(code)`, the one way a command ends and the one way an error is taken
(45_command_interface R264, 60_exceptions R280): RESULT and EXEC, nothing saved, no handler. -/
def State.finish (s : State) (code : Code) (prev : Bool) : State :=
  { s with result := ⟨code, prev, true⟩, exec := false, todo := [] }

/-- Taking a pending event (R263, R287): nothing saved, nothing changed but EVT_PENDING and the position. -/
def State.enterEvent (s : State) : State :=
  { s with evtPending := false, handling := true, todo := [] }

/-- `return` from DMA_COMPLETE (R264, R287): EVT_BUSY becomes EVT_PENDING, RESULT is not written. -/
def State.leaveEvent (s : State) : State := { s with handling := false, todo := [] }

/-- Taking the latched command (R263). -/
def State.takeCommand (s : State) : State :=
  { s with latch := { s.latch with valid := false }, exec := true, todo := [] }

/-- What an idle sequencer does: a pending event first, else the latched command, else nothing (R263,
R286). -/
def takeWork (s : State) : State :=
  if s.evtPending then s.enterEvent else if s.latch.valid then s.takeCommand else s

/-- The instruction the ENGINE is executing: the event of its own channel, or the latched word. -/
def currentInstr (s : State) : Option Instr :=
  if s.handling then some (.evtDmaComplete (BitVec.ofNat 4 s.cfg.dmaChannel))
  else if s.exec then some (decodeCmd s.latch.cmd)
  else none

/-- A HOST write of `w` to CMD: accepted with snapshots when nothing is latched or executing (R260),
else dropped with OVERRUN set (R261). What memory holds then is kept for the races of 70 R328 (log 32). -/
def offerCommand (w : Word) (s : State) : State :=
  if cmdBusy s then { s with overrun := true }
  else
    { s with
      latch := ⟨true, w, s.addr, s.buf, s.count, s.statusPtr, s.prof0, s.prof1, s.prof2⟩
      result := { s.result with valid := false }
      overrun := false
      memAtCmd := s.mem }

/-- An event word says channel complete of the engine's own channel (60_exceptions R284). -/
def ownComplete (s : State) (w : Word) : Bool :=
  match decodeEvt w with
  | some (.evtDmaComplete ch) => ch.toNat == s.cfg.dmaChannel
  | _ => false

/-- A chunk is armed: its descriptor is configured and its last element not yet moved (R233, R297). -/
def chunkArmed (c : Chan) : Bool := c.state == .configured || c.state == .enabled || c.state == .running

/-- An event word is an error event of the engine's own channel: any KIND but channel complete (30_encoding R120,
60_exceptions R284). DESIGN CHOICE (log 35): no rule tells the kinds apart. -/
def ownError (s : State) (w : Word) : Bool := (evtChannel w).toNat == s.cfg.dmaChannel && (decodeEvt w).isNone

/-- Delivery of an event word (60_exceptions R284): channel complete of the engine's own channel sets
EVT_PENDING; every other event is ignored. -/
def deliverEvent (w : Word) (s : State) : State :=
  if ownComplete s w then { s with evtPending := true } else s

/-! ### The register block -/

/-- Read a register; no side effect (R31, R85). ACT0 to ACT2 read 0 until INIT_DONE = 1: R42 has them hold 0
before INIT completes, while R265 writes them line by line (log 2). -/
def readReg (s : State) : Reg → Word
  | .cmd => 0#32
  | .addr => s.addr
  | .buf => s.buf
  | .count => s.count
  | .statusPtr => s.statusPtr
  | .result => resultWord s.result
  | .estatus => estatusWord s
  | .prof0 => s.prof0
  | .prof1 => profOneMask s.prof1
  | .prof2 => s.prof2
  | .act0 => if s.initDone then s.act0 else 0#32
  | .act1 => if s.initDone then profOneMask s.act1 else 0#32
  | .act2 => if s.initDone then s.act2 else 0#32
  | .ctxAddr => s.ctx.addr
  | .ctxBuf => s.ctx.buf
  | .ctxRem => s.ctx.rem
  | .ctxInfo => ctxInfoWord s.ctx
  | .ctxSptr => s.ctx.sptr

/-- Write a register; the read-only ones ignore it (R31, 45_command_interface R270). -/
def writeReg (s : State) (v : Word) : Reg → State
  | .cmd => offerCommand v s
  | .addr => { s with addr := v }
  | .buf => { s with buf := v }
  | .count => { s with count := v }
  | .statusPtr => { s with statusPtr := v }
  | .prof0 => { s with prof0 := v }
  | .prof1 => { s with prof1 := profOneMask v }
  | .prof2 => { s with prof2 := v }
  | .result | .estatus | .act0 | .act1 | .act2
  | .ctxAddr | .ctxBuf | .ctxRem | .ctxInfo | .ctxSptr => s

/-- A 32-bit read at an offset of the block; unlisted offsets read 0 (R31). -/
def readOffset (s : State) (off : Nat) : Word :=
  match regAt off with
  | some r => readReg s r
  | none => 0#32

/-- A 32-bit write at an offset of the block; unlisted offsets ignore it (R31). -/
def writeOffset (s : State) (off : Nat) (v : Word) : State :=
  match regAt off with
  | some r => writeReg s v r
  | none => s

/-! ### The reference PSRAM device (60_exceptions R299) -/

/-- Store a device byte, remembering the value it held (R296's earlier values). -/
def psramPut (s : State) (a : Nat) (b : Byte) : State :=
  { s with psram := s.psram.put a b, psramPast := (a, s.psram.get a) :: s.psramPast }

/-- addr_i (R299): the wrap within the aligned window, taken mod DENSITY. -/
def deviceAddr (s : State) (a i : Nat) : Nat :=
  let w := s.act2.toNat
  (if w = 0 then a + i else (a - a % w) + (a % w + i) % w) % s.cfg.density

/-- `CsAssert`: a transaction starts. -/
def deviceOpen (s : State) : State := { s with parser := .opcode }

/-- `CsRelease`: the transaction ends. -/
def deviceClose (s : State) : State := { s with parser := .closed }

/-- After the last address byte: skip the dummy bits of a read, or receive a write's data. -/
def deviceAddressed (s : State) (write : Bool) (got : List Byte) : Parser :=
  let a := addrOfBytes (profBswap s.act0) got
  if write then .writeData a 0
  else if dummyBits s.act0 s.act1 = 0 then .readData a 0
  else .dummy a (dummyBits s.act0 s.act1)

/-- The device receives `k` bits, at most one byte. -/
def deviceByte (s : State) (k : Nat) (b : Byte) : State :=
  match s.parser with
  | .opcode =>
    if b = profRdOpcode s.act0 then { s with parser := .addr false [] }
    else if b = profWrOpcode s.act0 then { s with parser := .addr true [] }
    else { s with parser := .ignore }
  | .addr w got =>
    if s.addrBytes.toNat ≤ got.length + 1 then
      { s with parser := deviceAddressed s w (got ++ [b]) }
    else { s with parser := .addr w (got ++ [b]) }
  | .dummy a left => { s with parser := if left ≤ k then .readData a 0 else .dummy a (left - k) }
  | .writeData a i => { psramPut s (deviceAddr s a i) b with parser := .writeData a (i + 1) }
  | .closed | .readData _ _ | .ignore => s

/-- The device receives the first `nbits` bits of bytes (R140: the rest is not sent). -/
def deviceReceive (s : State) (nbits : Nat) : List Byte → State
  | [] => s
  | b :: bs =>
    if nbits = 0 then s else deviceReceive (deviceByte s (min 8 nbits) b) (nbits - 8) bs

/-- The device sends one byte; when it drives none, byte `i` of this step is a free value (log 15). -/
def deviceSend (s : State) (i : Nat) : Byte × State :=
  match s.parser with
  | .readData a j => (s.psram.get (deviceAddr s a j), { s with parser := .readData a (j + 1) })
  | .dummy a left =>
    (Config.freeByte s.tick i,
      { s with parser := if left ≤ 8 then .readData a 0 else .dummy a (left - 8) })
  | .closed | .opcode | .addr _ _ | .writeData _ _ | .ignore => (Config.freeByte s.tick i, s)

/-- The device sends `n` bytes, the next being byte `i` of this step. -/
def deviceSendBytes (s : State) (i : Nat) : Nat → List Byte × State
  | 0 => ([], s)
  | n + 1 =>
    let (b, s1) := deviceSend s i
    let (bs, s2) := deviceSendBytes s1 (i + 1) n
    (b :: bs, s2)

/-! ### The bus controller (60_exceptions R291) -/

/-- Append to the bus record (30_encoding R119). -/
def State.record (s : State) (e : BusEvent) : State := { s with bus := s.bus ++ [e] }

/-- Assert chip-select `cs` unless it is asserted (R291). -/
def csAssert (s : State) (cs : Nat) : State :=
  match s.cs with
  | some _ => s
  | none => deviceOpen ({ s with cs := some cs }.record (.csAssert cs))

/-- Release the asserted chip-select, if any (R291, R294). -/
def csRelease (s : State) : State :=
  match s.cs with
  | some c => deviceClose ({ s with cs := none }.record (.csRelease c))
  | none => s

/-- Accept a phase: the preconditions of R291, then BUSY and chip-select. DESIGN CHOICE (log 34): of several
preconditions that fail at once the fault names the first in this order; R291 and R295 give none. -/
def acceptPhase (s : State) (cs : Nat) (j : Job) : Out :=
  if s.autoEn = true then .fault .phaseInAutoMode
  else if s.job.isSome = true then .fault .controllerBusy
  else if s.cs.getD cs ≠ cs then .fault .otherChipSelect
  else .next { csAssert s cs with job := some j }

/-- A Trigger's bit length (R291): a positive multiple of 8*CUR_ELEM, at most CTRL_MAX_BITS. -/
def triggerOk (s : State) (nbits : Nat) : Bool :=
  decide (0 < nbits ∧ 0 < s.curElem.toNat ∧ nbits % (8 * s.curElem.toNat) = 0
    ∧ nbits ≤ s.cfg.ctrlMaxBits)

/-- The effect of a controller operation, less the epoch (R291). DESIGN CHOICE (log 34): a Trigger whose bit length
is wrong is the fault `triggerLength` whatever other precondition fails with it; R291 and R295 give no order. -/
def ctlEffect (s : State) : CtlOp → Out
  | .setWidth w => if w = 3#2 then .fault .reservedWidth else .next { s with curBw := w }
  | .setElem e => .next { s with curElem := e }
  | .phaseTx kind nbits payload cs keep =>
    acceptPhase s cs ⟨kind, .tx, nbits, payload, 0, 0, [], keep, .run⟩
  | .trigger way nbits cs keep =>
    if triggerOk s nbits = false then .fault .triggerLength
    else
      acceptPhase s cs
        ⟨.data, way, nbits, [], s.curElem.toNat, nbits / (8 * s.curElem.toNat), [], keep, .run⟩
  | .fifoWrite n v =>
    if s.fifo.length < s.cfg.fifoDepth then
      .next { s with fifo := s.fifo ++ [elemOfBytes (elemBytes n v)] }
    else .fault .fifoFull
  | .fifoRead _ =>
    match s.fifo with
    | [] => .fault .fifoEmpty
    | _ :: r => .next { s with fifo := r }
  | .deassertCs => if s.job.isSome = true then .fault .controllerBusy else .next (csRelease s)
  | .setAutoEn b => .next { s with autoEn := b, autoActive := b || s.autoActive }

/-- Every `ctl` advances the epoch after the operation (00_scope R14, 41_mode_arbiter R162). -/
def State.bumpEpoch (s : State) : State := { s with epoch := s.epoch + 1 }

/-- `ctl(op)` (R291). -/
def ctlOp (s : State) (c : CtlOp) : Out :=
  match ctlEffect s c with
  | .next s1 => .next s1.bumpEpoch
  | .fault f => .fault f
  | .refused r => .refused r

/-- What `ctl(FifoRead(n))` returns: the low `n` bytes of the FIFO's first entry (R291). -/
def fifoHead (s : State) (n : Nat) : Word :=
  match s.fifo with
  | [] => 0#32
  | e :: _ => elemOfBytes (elemBytes n e)

/-! ### The DMA channel (60_exceptions R297, R298) -/

/-- Whether the next `Configure` returns Err, by the oracle (R298). -/
def configureFails (s : State) : Bool := decide (s.configCalls + 1 ∈ s.cfg.configFail)

/-- `Configure` may be asked of a channel that is Off or Complete (R297). -/
def configureAllowed (s : State) : Bool := s.chan.state == .off || s.chan.state == .complete

/-- `dma(Configure(ch, d))` that returns Ok (R297). -/
def dmaLoad (s : State) (d : Desc) : State :=
  { s with chan := ⟨.configured, d, 0, false⟩, configCalls := s.configCalls + 1 }

/-- `dma(Configure(ch, d))` that returns Err: the channel is unchanged (R297, R298). -/
def dmaRejected (s : State) : State := { s with configCalls := s.configCalls + 1 }

/-- `dma(Enable(ch))`: Configured -> Enabled (R297). -/
def dmaEnableOp (s : State) : Out :=
  if s.chan.state = .configured then .next { s with chan := { s.chan with state := .enabled } }
  else .fault .channelState

/-- `dma(Trigger(ch))`: Enabled -> Running (R297). -/
def dmaTriggerOp (s : State) : Out :=
  if s.chan.state = .enabled then .next { s with chan := { s.chan with state := .running } }
  else .fault .channelState

/-- `dma(Disable(ch))`: any state -> Off (R297). -/
def dmaDisableOp (s : State) : State := { s with chan := { s.chan with state := .off } }

end Sys2Proof.Machine
end

