-- ==== Sys2Proof/Machine/Agents.lean ====
section
/-! DEFINITION. One step of each agent around the engine: SYNC (41_mode_arbiter R161), CTRL
(60_exceptions R292 to R294), AUTOPATH and the CPU's requests (R296), DMA (R297), the event input (R284),
HOST (30_encoding R122, R301); and the launch (70 R325). An agent with nothing to do leaves the state as it
is. -/

namespace Sys2Proof.Machine

/-- The agent that moves: the next of `sched`, or a free choice when it is empty (log 1). -/
def nextAgent (s : State) : Config.Agent :=
  match s.sched with
  | a :: _ => a
  | [] => Config.freeAgent s.tick

/-- The step is counted and its agent taken from `sched`. -/
def State.turn (s : State) : State := { s with sched := s.sched.tail, tick := s.tick + 1 }

/-- A SYNC step (R161): shift the pipeline and sample the raw status under the current epoch. -/
def syncStep (s : State) : State :=
  { s with sync := (⟨some s.epoch, rawStatus s⟩ :: s.sync).take s.cfg.syncStages }

/-- The CTRL step that ends auto mode (R292). -/
def ctrlModeStep (s : State) : State :=
  if s.autoEn = false ∧ s.autoActive = true ∧ s.autoFlight = none then { s with autoActive := false }
  else s

/-- The record of a finished phase, and the stage after it (R294). -/
def recordPhase (s : State) (j : Job) (bytes : List Byte) : State :=
  { s.record (.phase j.kind s.curBw j.way j.nbits bytes) with
    job := some { j with stage := if j.keep then .clear else .drop } }

/-- One element of a data phase, or its record after the last (R293, R294). CTRL waits while the FIFO is
empty (TX) or full (RX). -/
def dataStep (s : State) (j : Job) : State :=
  if j.left = 0 then recordPhase s j j.moved
  else
    match j.way with
    | .tx =>
      match s.fifo with
      | [] => s
      | e :: r =>
        let bytes := elemBytes j.elem e
        { deviceReceive { s with fifo := r } (8 * j.elem) bytes with
          job := some { j with left := j.left - 1, moved := j.moved ++ bytes } }
    | .rx =>
      if s.fifo.length < s.cfg.fifoDepth then
        let (bytes, s1) := deviceSendBytes s 0 j.elem
        { s1 with
          fifo := s1.fifo ++ [elemOfBytes bytes]
          job := some { j with left := j.left - 1, moved := j.moved ++ bytes } }
      else s

/-- A step of CTRL's manual datapath (R294): move the phase, release chip-select when keep_cs = 0,
clear BUSY. -/
def ctrlStep (s : State) : State :=
  match s.job with
  | none => s
  | some j =>
    match j.stage with
    | .run =>
      if j.kind = .data then dataStep s j
      else
        recordPhase (deviceReceive s j.nbits (j.payload.take (bytesFor j.nbits))) j
          (j.payload.take (bytesFor j.nbits))
    | .drop => { csRelease s with job := some { j with stage := .clear } }
    | .clear => { s with job := none }

/-- The values device byte `a` holds and held, the current one first (R296). -/
def valuesAt (s : State) (a : Nat) : List Byte :=
  s.psram.get a :: (s.psramPast.filter (fun c => c.1 == a)).map (fun c => c.2)

/-- Byte `i` of an auto-mode read at device address `a`: the current value, or with
AUTO_PATH_COHERENT = false any value held so far, by a free choice (R296, log 16). -/
def autoByte (s : State) (a i : Nat) : Byte :=
  if s.cfg.autoPathCoherent then s.psram.get (a + i)
  else
    let vs := valuesAt s (a + i)
    vs.getD (Config.freePick s.tick i % vs.length) (s.psram.get (a + i))

/-- Store the bytes of an auto-mode write. -/
def autoPut (s : State) (a : Nat) : List Byte → State
  | [] => s
  | b :: bs => autoPut (psramPut s a b) (a + 1) bs

/-- The form of an auto access (R296): 1, 2 or 4 bytes inside the device. -/
def autoFormOk (s : State) (q : AutoReq) : Bool :=
  eszOk q.n && decide (q.a + q.n ≤ s.cfg.density)

/-- The access itself (R296): the device bytes and the bus record. -/
def autoPerform (s : State) (q : AutoReq) : State :=
  match q.dir with
  | .read =>
    let bytes := (List.range q.n).map (autoByte s q.a)
    { s.record (.auto .read q.a bytes) with autoFlight := some ⟨q, some (elemOfBytes bytes)⟩ }
  | .write =>
    let bytes := elemBytes q.n q.data
    { (autoPut s q.a bytes).record (.auto .write q.a bytes) with autoFlight := some ⟨q, some q.data⟩ }

/-- AUTOPATH may start an access (R292). -/
def autoMayStart (s : State) : Bool :=
  s.autoEn && s.autoActive && s.cs.isNone && s.job.isNone

/-- What HOST holds once AUTOPATH has ended its access of `n` bytes with data `v`. -/
def hostArrived (p : HostPend) (n : Nat) (v : Word) : HostPend :=
  match p with
  | .waiting done => .part (done ++ elemBytes n v)
  | .idle => .idle
  | .part done => .part done

/-- A step of AUTOPATH (R296): start the oldest request (DESIGN CHOICE, log 18), perform it, end it. While R292
does not allow a start the request is held; an AUTOPATH that starts it all the same is a breach (R295). -/
def autopathStep (s : State) : Out :=
  match s.autoFlight with
  | none =>
    match s.autoReqs with
    | [] => .next s
    | q :: r =>
      if autoFormOk s q = false then .fault .autoAccessForm
      else if autoMayStart s then .next { s with autoFlight := some ⟨q, none⟩, autoReqs := r }
      else if q.eager then .fault .autoStartBreach
      else .next s
  | some f =>
    match f.got with
    | none => .next (autoPerform s f.req)
    | some v =>
      .next { s with
        autoFlight := none
        hostPend := if f.req.fromHost then hostArrived s.hostPend f.req.n v else s.hostPend }

/-- The step of one element address: the element width when the side increments (R297). -/
def incr (b : Bool) (k w : Nat) : Nat := if b then k * w else 0

/-- The address of element `k` on the source side (R297). -/
def dmaSrc (d : Desc) (k : Nat) : Nat :=
  sysAddr (d.w0.toNat + incr (descSrcInc d) k (widthBytes (descWidth d)))

/-- The address of element `k` on the destination side (R297). -/
def dmaDst (d : Desc) (k : Nat) : Nat :=
  sysAddr (d.w1.toNat + incr (descDstInc d) k (widthBytes (descWidth d)))

/-- The source access of one element: a pop of the FIFO, or a read of memory, which in a race with a store finds the
old element or the new one, by a free value (20_memory R97; DESIGN CHOICE, log 32, for the moments these are taken
from). `none`: it must wait. -/
def dmaFetch (s : State) (src w : Nat) : Option (Word × State) :=
  if src = s.cfg.fifoAddr then
    match s.fifo with
    | [] => none
    | e :: r => some (elemOfBytes (elemBytes w e), { s with fifo := r })
  else some (elemRead s src w, s)

/-- The destination access of one element: a push, or a write of memory. `none`: it must wait. -/
def dmaDeliver (s : State) (dst w : Nat) (v : Word) : Option State :=
  if dst = s.cfg.fifoAddr then
    if s.fifo.length < s.cfg.fifoDepth then
      some { s with fifo := s.fifo ++ [elemOfBytes (elemBytes w v)] }
    else none
  else some { s with mem := memWrite s.mem dst w v }

/-- Move element k of the running descriptor, if both accesses can be made (R297). -/
def dmaMove (s : State) : State :=
  let d := s.chan.desc
  let w := widthBytes (descWidth d)
  match dmaFetch s (dmaSrc d s.chan.k) w with
  | none => s
  | some (v, s1) =>
    match dmaDeliver s1 (dmaDst d s.chan.k) w v with
    | none => s
    | some s2 => { s2 with chan := { s.chan with k := s.chan.k + 1 } }

/-- EVT of a completed channel: KIND = 1, CH (30_encoding R120, 60_exceptions R297). -/
def completeWord (ch : BitVec 4) : Word := 0#24 ++ ch ++ 1#4

/-- After the last element: Complete, and one event if CB_ENGINE = 1 (R297). After an error event of the chunk
there is none, and the chain never finishes (R284, 93 I2). -/
def dmaComplete (s : State) : State :=
  let s1 := { s with chan := { s.chan with state := .complete } }
  if descToEngine s.chan.desc && !s.chan.failed then deliverEvent (completeWord (descChannel s.chan.desc)) s1 else s1

/-- A step of the DMA channel (R297). -/
def dmaStep (s : State) : Out :=
  if s.chan.state = .running then
    if descWidth s.chan.desc = 3#2 then .fault .reservedDmaWidth
    else if s.chan.k < descCount s.chan.desc then .next (dmaMove s)
    else .next (dmaComplete s)
  else .next s

/-- The DMA subsystem delivers its next event word (R284). A complete event of the engine's channel besides the
channel's own is spurious while no chain runs (44_dma_chainer R244), and a second one for a trigger, a breach
of R297, while one does (93 I7; log 19). An error event of that channel is ignored too, and stands for the armed
chunk's complete event, which does not follow (R284, 93 I2; log 35). -/
def eventStep (s : State) : Out :=
  match s.events with
  | [] => .next s
  | w :: r =>
    if ownComplete s w && chainRunning s then .fault .secondComplete
    else .next { deliverEvent w { s with events := r } with
      chan := { s.chan with failed := s.chan.failed || (ownError s w && chunkArmed s.chan) } }

/-- A CPU's own request for the auto window arrives (70 R325, D68). -/
def cpuStep (s : State) : State :=
  match s.cpuReqs with
  | [] => s
  | q :: r => { s with cpuReqs := r, autoReqs := s.autoReqs ++ [q] }

/-! ### HOST -/

/-- HOST's next action is done. -/
def hostNext (s : State) : State := { s with hostProg := s.hostProg.tail, hostPend := .idle }

/-- A value HOST's load or poll returned. -/
def hostSaw (s : State) (v : Nat) : State := { hostNext s with hostLog := s.hostLog ++ [v] }

/-- A poll ends when the masked value matches, and is repeated otherwise (30_encoding R122). -/
def hostCompare (s : State) (mask value v : Word) : State :=
  if v &&& mask = value then hostSaw s v.toNat else { s with hostPend := .idle }

/-- HOST's access has moved the bytes `bs`: the end of its action. -/
def hostFinish (s : State) (a : HostAct) (bs : List Byte) : State :=
  match a with
  | .load _ _ => hostSaw s (natOfBytes bs)
  | .poll _ mask value => hostCompare s mask value (elemOfBytes bs)
  | .store _ _ _ | .touchCtrl | .touchDma => hostNext s

/-- What a HOST access of `n` bytes reaches (20_memory R70, R71, R80, R86; log 10). -/
inductive Target where
  /-- A register of the engine, at an offset of its block. -/
  | register (off : Nat)
  /-- The engine's block, in a form R80 gives no meaning. -/
  | registerForm
  /-- The controller's FIFO data register. -/
  | controller
  /-- The auto window, at a device address, in the form of 60_exceptions R296. -/
  | window (a : Nat)
  /-- The auto window in part, or with another number of bytes: one byte at a time. -/
  | pieces
  /-- System memory. -/
  | memory
  deriving DecidableEq, Repr

/-- Where a HOST access goes (R31, R71, R80, 30_encoding R122). DESIGN CHOICE: the order of the regions, and the
access by bytes, whose sizes R296 does not give (log 10); the wrap of a region past 2^32-1 (log 31). -/
def hostTarget (p : Config.Params) (addr n : Nat) : Target :=
  if rangesMeet addr n p.engineBase 0x100 then
    if n = 4 ∧ sysAddr addr % 4 = 0 then .register (offsetFrom addr p.engineBase) else .registerForm
  else if rangesMeet addr n p.fifoAddr 4 then .controller
  else if rangesMeet addr n p.autoBase p.density then
    if eszOk n && decide (offsetFrom addr p.autoBase + n ≤ p.density) then
      .window (offsetFrom addr p.autoBase)
    else .pieces
  else .memory

/-- HOST asks AUTOPATH for an access and waits for its end (R296, log 9), with the bytes `done` moved before. -/
def hostAsk (s : State) (done : List Byte) (dir : Dir) (a n v : Nat) : State :=
  { s with
    autoReqs := s.autoReqs ++ [⟨dir, a, n, BitVec.ofNat 32 v, true, false⟩]
    hostPend := .waiting done }

/-- HOST starts the access of `n` bytes at `addr` of its action `a` (R122). A load of a buffer that a transfer writes
finds each element old or new, by a free value (20_memory R97, 70 R328); which moments old and new are taken from is
log 32's DESIGN CHOICE. -/
def hostAccess (s : State) (a : HostAct) (dir : Dir) (addr n v : Nat) : Out :=
  match hostTarget s.cfg addr n with
  | .register off =>
    match dir with
    | .read => .next (hostFinish s a (elemBytes 4 (readOffset s off)))
    | .write => .next (hostFinish (writeOffset s off (BitVec.ofNat 32 v)) a [])
  | .registerForm => .refused .registerAccess
  | .controller => .fault .hostTouchedController
  | .window d => .next (hostAsk s [] dir d n v)
  | .pieces => .next { s with hostPend := .part [] }
  | .memory =>
    match dir with
    | .read => .next (hostFinish s a (racedBytes .read s addr n))
    | .write => .next (hostFinish { s with mem := memPutBytes s.mem addr (bytesLsb v n) } a [])

/-- HOST starts its next action (30_encoding R122). -/
def hostStart (s : State) (a : HostAct) : Out :=
  match a with
  | .store addr n v => hostAccess s a .write addr n v
  | .load addr n => hostAccess s a .read addr n 0
  | .poll addr _ _ => hostAccess s a .read addr 4 0
  | .touchCtrl => .fault .hostTouchedController
  | .touchDma => .fault .hostTouchedChannel

/-- Move byte `done.length` of HOST's access from `addr` on: by AUTOPATH inside the window, else in memory,
where a load finds its element old or new in a race (R70, R71, R97, log 32). -/
def hostPiece (s : State) (done : List Byte) (dir : Dir) (addr v : Nat) : State :=
  let a := addr + done.length
  let b := BitVec.ofNat 8 (v / 256 ^ done.length)
  if offsetFrom a s.cfg.autoBase < s.cfg.density then
    hostAsk s done dir (offsetFrom a s.cfg.autoBase) 1 b.toNat
  else
    match dir with
    | .read => { s with hostPend := .part (done ++ [racedByte .read s a]) }
    | .write => { s with mem := s.mem.put (sysAddr a) b, hostPend := .part (done ++ [b]) }

/-- HOST goes on with its action `a`, whose access has moved the bytes `done`. -/
def hostContinue (s : State) (a : HostAct) (done : List Byte) : State :=
  match a with
  | .store addr n v => if n ≤ done.length then hostFinish s a done else hostPiece s done .write addr v
  | .load addr n => if n ≤ done.length then hostFinish s a done else hostPiece s done .read addr 0
  | .poll addr _ _ => if 4 ≤ done.length then hostFinish s a done else hostPiece s done .read addr 0
  | .touchCtrl | .touchDma => hostFinish s a done

/-- A step of HOST. While its auto-window access is held it has none (R296, R326). -/
def hostStep (s : State) : Out :=
  match s.hostProg with
  | [] => .next s
  | a :: _ =>
    match s.hostPend with
    | .idle => hostStart s a
    | .waiting _ => .next s
    | .part done => .next (hostContinue s a done)

/-! ### Launch (70 R320, R325) -/

/-- The launch state with the draws of `s`: what R58, R60, R61 and R325 leave open, the descriptor of the channel
that is Off among it (R325 states no premise on it; DEDUCED, log 33), and the inputs. -/
def launchState (s : State) : State :=
  { State.resetWith s.cfg with
    curBw := s.curBw, curElem := s.curElem, psram := s.psram, mem := s.mem
    chan := { (State.resetWith s.cfg).chan with desc := s.chan.desc }
    cpuReqs := s.cpuReqs, events := s.events, hostProg := s.hostProg, sched := s.sched, tick := s.tick }

/-- The premises of a launch (R325): the state after reset, but for the draws. The test is made in a step of its
own (DESIGN CHOICE, log 33). -/
def launchOk (s : State) : Bool := decide (s = launchState s)

/-- The step out of reset: the launch, in a configuration that keeps R9 (R325; log 33). -/
def launchStep (s : State) : Out :=
  if s.cfg.ok = false then .refused .badConfiguration
  else if launchOk s then .next { s with launched := true }
  else .refused .badLaunch

/-- The machine runs: R9 is kept and the engine has left reset. -/
abbrev State.Live (s : State) : Prop := s.cfg.ok = true ∧ s.launched = true

end Sys2Proof.Machine
end

