-- ==== Sys2Proof/Machine/Sequencer.lean ====
section
/-! DEFINITION. The engine's internal operations, one ENGINE step per line of their pseudocode: the phase
sequencer (40_phase_driver), the arbiter (41_mode_arbiter), the chunk loop (43_blocking_path R208) and
the DMA chainer (44_dma_chainer R233, R235). -/

namespace Sys2Proof.Machine

/-- DRIVE_PHASE(kind, w, nbits, payload) (R140, R147). -/
def drivePhase (s : State) (kind : PhaseKind) (w : BitVec 2) (nbits : Nat) (payload : List Byte) :
    List Act :=
  [.ctl .drivePhase (.setWidth w),
    .ctl .drivePhase (.phaseTx kind nbits payload (profCsel s.act0) true),
    .wait .drivePhase .notBusy]

/-- CA_SEQ(dir, a) up to its test of x[DUMMY_CYCLES]: one packed phase, or a command phase and then the line of
the address phase (R110 to R112, R141). -/
def commandPhases (s : State) (dir : Dir) (a : Nat) : List Act :=
  let op := match dir with
    | .read => profRdOpcode s.act0
    | .write => profWrOpcode s.act0
  let n := s.addrBytes.toNat
  match s.enc with
  | .packed =>
    drivePhase s .cmdaddr (profInstBw s.act0) (8 * (1 + n)) (op :: abytes n (profBswap s.act0) a)
  | .split => drivePhase s .cmd (profInstBw s.act0) 8 [op] ++ [.caAddr a]

/-- The address phase of a split CA_SEQ at device address `a` (R112, R141). -/
def addressPhase (s : State) (a : Nat) : List Act :=
  let n := s.addrBytes.toNat
  drivePhase s .addr (profAddrBw s.act0) (8 * n) (abytes n (profBswap s.act0) a)

/-- The dummy phase of CA_SEQ: reads only, and only with dummy cycles (R114, R141). -/
def dummyPhase (s : State) (dir : Dir) : List Act :=
  if dir = .read ∧ 0 < profDummyCycles s.act1 then
    drivePhase s .dummy (profDummyBw s.act0) (dummyBits s.act0 s.act1)
      (List.replicate (bytesFor (dummyBits s.act0 s.act1)) 0#8)
  else []

/-- A way on the bus for a transfer direction. -/
def wayOf : Dir → Way
  | .write => .tx
  | .read => .rx

/-- ARB_MANUAL (R165). -/
def arbManual (use : ArbUse) : List Act := [.wait .arbManual .autoIdle, .arbTest .manual use]

/-- ARB_AUTO (R166). -/
def arbAuto (use : ArbUse) : List Act := [.wait .arbAuto .autoIdle, .arbTest .auto use]

/-- The branch of ARB_MANUAL or ARB_AUTO on the mode it found (R165, R166). -/
def arbSwitch (m : ArbMode) (prev : Bool) : List Act :=
  match m with
  | .manual =>
    if prev then [.ctl .arbManual (.setAutoEn false), .wait .arbManual .autoInactive] else []
  | .auto =>
    if prev then [] else [.wait .arbAuto .csReleased, .ctl .arbAuto (.setAutoEn true)]

/-- What the caller does with the reported mode (R167, R168, R208, R233, R235). DESIGN CHOICE (log 21): R118
lists no code of ENTER_MANUAL and ENTER_AUTO, and these two lines of theirs show DECODE, 0x01. -/
def arbResult (use : ArbUse) (prev : Bool) : List Act :=
  match use with
  | .drop => []
  | .prior => [.setWork (.prior prev)]
  | .report => [.setPrevAuto prev, .finish .decode .ok prev]

/-- The data phase of a blocking chunk of `c` bytes: PUMP_WRITE or PUMP_READ with keep_cs = 0 (R142,
R143, R208). -/
def pump (s : State) (dir : Dir) (c : Nat) : List Act :=
  let e := s.work.esz.toNat
  let op := match dir with
    | .write => SeqOp.pumpWrite
    | .read => SeqOp.pumpRead
  [.fifoCheck op, .ctl op (.setWidth (profDataBw s.act0)), .ctl op (.setElem s.work.esz)]
    ++ match dir with
      | .write => [.pumpWrite s.work.buf.toNat (c / e) e 0 false]
      | .read => [.pumpRead s.work.buf.toNat (c / e) e 0 false]

/-- The size of the next group of a pump with `k` of `n` elements done (R142 to R144). -/
def groupSize (s : State) (n k : Nat) : Nat := min s.cfg.fifoDepth (n - k)

/-- One group of PUMP_WRITE: fill the FIFO, trigger, wait (R142). -/
def writeGroup (s : State) (b n e k : Nat) (keep : Bool) : List Act :=
  let g := groupSize s n k
  (List.range g).map (fun j => Act.pushElem (b + (k + j) * e) e)
    ++ [.ctl .pumpWrite (.trigger .tx (8 * e * g) (profCsel s.act0) (decide (k + g ≠ n) || keep)),
      .wait .pumpWrite .notBusy, .pumpWrite b n e (k + g) keep]

/-- One group of PUMP_READ: trigger, pop each element, wait (R143). -/
def readGroup (s : State) (b n e k : Nat) (keep : Bool) : List Act :=
  let g := groupSize s n k
  [.ctl .pumpRead (.trigger .rx (8 * e * g) (profCsel s.act0) (decide (k + g ≠ n) || keep))]
    ++ (List.range g).flatMap
      (fun j => [Act.wait .pumpRead .fifoReady, .popElem (b + (k + j) * e) e])
    ++ [.wait .pumpRead .notBusy, .pumpRead b n e (k + g) keep]

/-- The chunk PLAN_CHUNK gives BLOCKING now, with the next offset (R208). -/
def blockingChunk (s : State) : Nat × Nat :=
  planChunk s.act2.toNat s.work.rem.toNat s.work.off.toNat s.work.esz.toNat s.cfg.pageBytes

/-- The chunk PLAN_CHUNK gives DMA_ISSUE (R233). -/
def dmaChunk (s : State) (x : IssueArgs) : Nat :=
  (planChunk s.act2.toNat (x.n * x.s) (wrapOffset s.act2.toNat x.a) x.s (maxDma s.cfg x.s)).1

/-- `ctx` after arming a chunk of `c` bytes (R233). -/
def armedCtx (x : IssueArgs) (c : Nat) : Ctx where
  state := match x.dir with
    | .write => .writeRunning
    | .read => .readRunning
  addr := BitVec.ofNat 32 (x.a + c)
  buf := BitVec.ofNat 32 (x.b + c)
  rem := BitVec.ofNat 32 (x.n - c / x.s)
  esz := BitVec.ofNat 3 x.s
  dir := x.dir
  sptr := BitVec.ofNat 32 x.p

/-- DMA_ISSUE after `Configure` returned Ok (R233). -/
def dmaStart (s : State) (x : IssueArgs) (c : Nat) : List Act :=
  .dmaEnable :: arbManual .drop
    ++ [.caSeq x.dir x.a, .fifoCheck .dmaIssue,
      .ctl .dmaIssue (.setWidth (profDataBw s.act0)),
      .ctl .dmaIssue (.setElem (BitVec.ofNat 3 x.s)),
      .ctl .dmaIssue (.trigger (wayOf x.dir) (8 * c) (profCsel s.act0) true),
      .dmaTrigger]

/-- DONE and FAILED (30_encoding R107). -/
def doneWord : Word := 1#32
def failedWord : Word := 2#32

/-- What follows a `Configure` that returned Err: of a command, STATE and the error (R230, R237); of a
continuation, the terminal order of R236 with Failed (R235, R238). -/
def dmaFailure (by_ : Caller) : List Act :=
  match by_ with
  | .command => [.ctxState .dmaBegin .failed, .finish .dmaBegin .failed false]
  | .event => arbAuto .drop ++ [.ctxState .dmaComplete .failed, .completion failedWord, .leave]

/-- The operands of a continuation, from ctx (R240). -/
def chainArgs (s : State) : IssueArgs :=
  ⟨s.ctx.dir, s.ctx.addr.toNat, s.ctx.buf.toNat, s.ctx.esz.toNat, s.ctx.rem.toNat, s.ctx.sptr.toNat⟩

/-- DMA_COMPLETE after the teardown of the finished chunk (R235, R236, R240). -/
def chainNext (s : State) : List Act :=
  if s.ctx.rem ≠ 0#32 then [.dmaIssue .event (chainArgs s), .leave]
  else arbAuto .drop ++ [.ctxState .dmaComplete .idle, .completion doneWord, .leave]

/-- `W_x <- v` (R208). -/
def setWork (w : Work) : WorkField → Work
  | .dir d => { w with dir := d }
  | .addr v => { w with addr := v }
  | .buf v => { w with buf := v }
  | .rem v => { w with rem := v }
  | .esz e => { w with esz := e }
  | .off v => { w with off := v }
  | .prior b => { w with prior := b }

/-- One assignment of INIT (45_command_interface R265). -/
def setProfile (s : State) : ProfileField → State
  | .act0 v => { s with act0 := v }
  | .act1 v => { s with act1 := v }
  | .act2 v => { s with act2 := v }
  | .addrBytes => { s with addrBytes := addrBytesOf s.act0 }
  | .enc => { s with enc := encOf s.act0 }
  | .done => { s with initDone := true }

/-- The bookkeeping of a chunk of `c` bytes (R208). -/
def advance (c : Nat) : List Act := [.advAddr c, .advBuf c, .advRem c]

/-- One ENGINE step: do action `a`, with `rest` of the pseudocode after it. A hold whose condition does
not hold leaves the state as it is (R162, R163). -/
def runAct (a : Act) (rest : List Act) (s : State) : Out :=
  match a with
  | .wait _ c => if waitOver s c then .next (s.goto rest) else .next s
  | .ctl _ c => ctlOp (s.goto rest) c
  | .arbTest m use => .next (s.goto (arbSwitch m s.autoEn ++ arbResult use s.autoEn ++ rest))
  | .busyTest dma dir esz =>
    if chainRunning s then .next (s.finish .busy false)
    else
      match callerBreach s.cfg dma s.latch.buf.toNat esz.toNat s.latch.count.toNat s.latch.sptr.toNat with
      | some r => .refused r
      | none => .next { s.goto rest with race := some (openRace s dir esz) }
  | .initTest p0 =>
    if s.initDone = true then .next (s.finish .alreadyInitialized false)
    else if profileOk s.cfg p0 = false then .next (s.finish .invalidProfile false)
    else .next (s.goto rest)
  | .setWork f => .next { s.goto rest with work := setWork s.work f }
  | .setProfile f => .next (setProfile (s.goto rest) f)
  | .setPrevAuto b => .next { s.goto rest with result := { s.result with prevAuto := b } }
  | .loop dir =>
    if s.work.rem = 0#33 then .next (s.goto rest) else .next (s.goto (.plan dir :: .loop dir :: rest))
  | .plan dir =>
    let (c, off) := blockingChunk s
    .next (s.goto (.setWork (.off (BitVec.ofNat 32 off)) :: .caSeq dir s.work.addr.toNat
      :: .callPump dir c :: (advance c ++ rest)))
  | .caSeq dir a => .next (s.goto (commandPhases s dir a ++ .caDummy dir :: rest))
  | .caAddr a => .next (s.goto (addressPhase s a ++ rest))
  | .caDummy dir => .next (s.goto (dummyPhase s dir ++ rest))
  | .callPump dir c => .next (s.goto (pump s dir c ++ rest))
  | .fifoCheck _ => if s.fifo.isEmpty then .next (s.goto rest) else .fault .fifoNotEmpty
  | .pumpWrite b n e k keep =>
    if k < n then .next (s.goto (writeGroup s b n e k keep ++ rest)) else .next (s.goto rest)
  | .pushElem addr e => .next (s.goto (.ctl .pumpWrite (.fifoWrite e (elemRead s addr e)) :: rest))
  | .pumpRead b n e k keep =>
    if k < n then .next (s.goto (readGroup s b n e k keep ++ rest)) else .next (s.goto rest)
  | .popElem addr e => ctlOp (s.goto (.store addr e (fifoHead s e) :: rest)) (.fifoRead e)
  | .store addr n v => .next { s.goto rest with mem := memWrite s.mem addr n v }
  | .advAddr c => .next { s.goto rest with work := { s.work with addr := s.work.addr + BitVec.ofNat 32 c } }
  | .advBuf c => .next { s.goto rest with work := { s.work with buf := s.work.buf + BitVec.ofNat 32 c } }
  | .advRem c => .next { s.goto rest with work := { s.work with rem := s.work.rem - BitVec.ofNat 33 c } }
  | .restore => .next (s.goto ((if s.work.prior then arbAuto .drop else []) ++ rest))
  | .finish op code prev => .next { s.finish code prev with race := raceAfter op code s.race }
  | .dmaIssue by_ x => .next (s.goto (.dmaPlan by_ x :: rest))
  | .dmaPlan by_ x => .next (s.goto (.dmaArm by_ x (dmaChunk s x) :: rest))
  | .dmaArm by_ x c => .next { s.goto (.dmaConfigure by_ x c :: rest) with ctx := armedCtx x c }
  | .dmaConfigure by_ x c =>
    if configureAllowed s = false then .fault .channelState
    else if configureFails s then .next ((dmaRejected s).goto (dmaFailure by_))
    else .next ((dmaLoad s (descOf s.cfg x.dir x.b x.s (c / x.s))).goto (dmaStart s x c ++ rest))
  | .dmaEnable => dmaEnableOp (s.goto rest)
  | .dmaTrigger => dmaTriggerOp (s.goto rest)
  | .dmaDisable => .next (dmaDisableOp (s.goto rest))
  | .dmaNext => .next (s.goto (chainNext s ++ rest))
  | .ctxState _ st => .next { s.goto rest with ctx := { s.ctx with state := st } }
  | .completion v => .next { s.goto rest with mem := memWrite s.mem s.ctx.sptr.toNat 4 v, race := none }
  | .leave => .next s.leaveEvent

/-- The first line of a transfer command: DECODE and VALIDATE, on the snapshots (R200, R269). None of it is bus
activity (R205). `body` are the lines of BLOCKING or DMA_BEGIN after the Busy test. -/
def transferFirst (dma : Bool) (dir : Dir) (esz : BitVec 3) (body : List Act) (s : State) : Out :=
  match validate s dma s.latch.addr.toNat s.latch.buf.toNat esz.toNat s.latch.count.toNat s.latch.sptr.toNat with
  | some code => .next (s.finish code false)
  | none => .next (s.goto (.busyTest dma dir esz :: body))

/-- The operation's next action, or `first` at its first line (R62). -/
def continueWith (first : State → Out) (s : State) : Out :=
  match s.todo with
  | [] => first s
  | a :: rest => runAct a rest s

end Sys2Proof.Machine
end

