-- ==== Sys2Proof/Machine/Arbiter.lean ====
section
/-! DEFINITION. ENTER_MANUAL and ENTER_AUTO (41_mode_arbiter R167, R168). -/

namespace Sys2Proof.Machine

/-- The first line of a mode command: NotInitialized, Busy, then the arbiter operation (R167, R168). -/
def enterFirst (body : List Act) (s : State) : Out :=
  if s.initDone = false then .next (s.finish .notInitialized false)
  else if chainRunning s then .next (s.finish .busy false)
  else .next (s.goto body)

/-- ENTER_MANUAL (R167): ARB_MANUAL, RESULT.PREV_AUTO, finish(OK). -/
def execEnterManual (s : State) : Out := continueWith (enterFirst (arbManual .report)) s

/-- ENTER_AUTO (R168): ARB_AUTO, RESULT.PREV_AUTO, finish(OK). -/
def execEnterAuto (s : State) : Out := continueWith (enterFirst (arbAuto .report)) s

end Sys2Proof.Machine
end

