-- ==== Sys2Proof/Machine/Blocking.lean ====
section
/-! DEFINITION. READ_BLOCKING and WRITE_BLOCKING (43_blocking_path R206 to R213). -/

namespace Sys2Proof.Machine

/-- The assignments of W_* at the start of BLOCKING(dir) with element size `e`, one line each (R208,
00_scope R14). W_PRIOR is set after ARB_MANUAL. -/
def blockingWork (s : State) (dir : Dir) (e : BitVec 3) : List Act :=
  [.setWork (.dir dir), .setWork (.addr s.latch.addr), .setWork (.buf s.latch.buf),
    .setWork (.rem (BitVec.ofNat 33 (s.latch.count.toNat * e.toNat))), .setWork (.esz e),
    .setWork (.off (BitVec.ofNat 32 (wrapOffset s.act2.toNat s.latch.addr.toNat)))]

/-- The lines of BLOCKING(dir) after W_* are set (R208). -/
def blockingBody (dir : Dir) : List Act :=
  arbManual .prior ++ [.loop dir, .restore, .finish .blocking .ok false]

/-- The first line of a blocking command, with the lines of BLOCKING(dir) after its Busy test (R208). -/
def blockingBegin (dir : Dir) (esz : BitVec 3) (s : State) : Out :=
  transferFirst false dir esz (blockingWork s dir esz ++ blockingBody dir) s

/-- READ_BLOCKING (R206): BLOCKING(RD). -/
def execReadBlocking (esz : BitVec 3) (s : State) : Out := continueWith (blockingBegin .read esz) s

/-- WRITE_BLOCKING (R207): BLOCKING(WR). -/
def execWriteBlocking (esz : BitVec 3) (s : State) : Out := continueWith (blockingBegin .write esz) s

end Sys2Proof.Machine
end

