-- ==== Sys2Proof/Machine/Command.lean ====
section
/-! DEFINITION. INIT and ILLEGAL (45_command_interface R265 to R269). -/

namespace Sys2Proof.Machine

/-- INIT's lines after its tests, one assignment each (R265, 00_scope R14). -/
def initBody (s : State) : List Act :=
  [.setProfile (.act0 s.latch.prof0), .setProfile (.act1 s.latch.prof1),
    .setProfile (.act2 s.latch.prof2), .setProfile .addrBytes, .setProfile .enc, .setProfile .done,
    .finish .init .ok false]

/-- INIT's first line is DECODE's (R269); its two tests come next (R265, R266, R267). -/
def initFirst (s : State) : Out := .next (s.goto (.initTest s.latch.prof0 :: initBody s))

/-- INIT (R265, R266, R267). -/
def execInit (s : State) : Out := continueWith initFirst s

/-- An illegal word's only line (R269): IllegalCommand, and no other effect. -/
def illegalFirst (s : State) : Out := .next (s.finish .illegalCommand false)

/-- An illegal word (R269, 30_encoding R104). -/
def execIllegal (s : State) : Out := continueWith illegalFirst s

end Sys2Proof.Machine
end

