-- ==== Sys2Proof/Machine/Dma.lean ====
section
/-! DEFINITION. READ_DMA, WRITE_DMA and the DMA-complete event (44_dma_chainer R230 to R245). -/

namespace Sys2Proof.Machine

/-- The operands DMA_BEGIN passes to DMA_ISSUE (R230). -/
def beginArgs (s : State) (dir : Dir) (esz : BitVec 3) : IssueArgs :=
  ⟨dir, s.latch.addr.toNat, s.latch.buf.toNat, esz.toNat, s.latch.count.toNat, s.latch.sptr.toNat⟩

/-- The lines of DMA_BEGIN after the Busy test (R230). -/
def dmaBody (s : State) (dir : Dir) (esz : BitVec 3) : List Act :=
  [.dmaIssue .command (beginArgs s dir esz), .finish .dmaBegin .ok false]

/-- The first line of a DMA command, with the lines of DMA_BEGIN(dir) after its Busy test (R230). -/
def dmaBeginFirst (dir : Dir) (esz : BitVec 3) (s : State) : Out := 
  transferFirst true dir esz (dmaBody s dir esz) s

/-- READ_DMA (R231): DMA_BEGIN(RD). -/
def execReadDma (esz : BitVec 3) (s : State) : Out := continueWith (dmaBeginFirst .read esz) s

/-- WRITE_DMA (R232): DMA_BEGIN(WR). -/
def execWriteDma (esz : BitVec 3) (s : State) : Out := continueWith (dmaBeginFirst .write esz) s

/-- The lines of DMA_COMPLETE after its first test (R235). -/
def completeBody : List Act :=
  [.wait .dmaComplete .notBusy, .ctl .dmaComplete .deassertCs, .dmaDisable, .dmaNext]

/-- The first line of DMA_COMPLETE: a spurious event does nothing (R235, R244). While a chain runs the event
is the channel's, which delivers it only after the chunk's last element (20_memory R90, 60_exceptions R297);
an event that comes before is a breach of the DMA contract (93 I7). DESIGN CHOICE (logs 19, 35): a spurious event
that was pending before the chain began, handled once the channel is Complete, is taken for the chunk's own, after an
error event too, where R284 has no event follow: the handler cannot tell them apart, and the chain goes on. -/
def dmaCompleteFirst (s : State) : Out :=
  if chainRunning s then
    if s.chan.state = .complete then .next (s.goto completeBody) else .fault .earlyComplete
  else .next s.leaveEvent

/-- The channel-complete event of channel `ch`: DMA_COMPLETE for the engine's own channel; another
channel's event is ignored (R235, 60_exceptions R284). -/
def execEvtDmaComplete (ch : BitVec 4) (s : State) : Out :=
  if ch.toNat = s.cfg.dmaChannel then continueWith dmaCompleteFirst s else .next s

end Sys2Proof.Machine
end

