-- ==== Sys2Proof/Machine/Dispatch.lean ====
section
/-! DEFINITION. The next action of each instruction, one arm per row of the opcode table. -/

namespace Sys2Proof.Machine

/-- The ENGINE's next step while it executes `i` (10_state R62, 45_command_interface R263, R269). -/
def exec (i : Instr) (s : State) : Host.Outcome State Fault Refusal :=
  match i with
  | .init => Sys2Proof.Machine.execInit s
  | .readBlocking esz => Sys2Proof.Machine.execReadBlocking esz s
  | .writeBlocking esz => Sys2Proof.Machine.execWriteBlocking esz s
  | .readDma esz => Sys2Proof.Machine.execReadDma esz s
  | .writeDma esz => Sys2Proof.Machine.execWriteDma esz s
  | .enterManual => Sys2Proof.Machine.execEnterManual s
  | .enterAuto => Sys2Proof.Machine.execEnterAuto s
  | .illegal _ => Sys2Proof.Machine.execIllegal s
  | .evtDmaComplete ch => Sys2Proof.Machine.execEvtDmaComplete ch s

end Sys2Proof.Machine
end

