-- ==== Sys2Proof/Machine/Step.lean ====
section
/-! DEFINITION. One step of the machine: one atomic action of one agent (00_scope R3, R14, R15). -/

namespace Sys2Proof.Machine

/-- The ENGINE's step: the next action of what it executes, or taking work when it is idle (R263). -/
def engineStep (s : State) : Host.Outcome State Fault Refusal :=
  match currentInstr s with
  | some i => exec i s
  | none => .next (takeWork s)

/-- One action of agent `a`. -/
def agentStep (a : Config.Agent) (s : State) : Host.Outcome State Fault Refusal :=
  match a with
  | .host => hostStep s
  | .engine => engineStep s
  | .ctrl => .next (ctrlStep s)
  | .ctrlMode => .next (ctrlModeStep s)
  | .autopath => autopathStep s
  | .sync => .next (syncStep s)
  | .dma => dmaStep s
  | .event => eventStep s
  | .cpu => .next (cpuStep s)

/-- One step: out of reset the launch, and from then on an agent's. A configuration that breaks R9 is refused. -/
def step (s : State) : Host.Outcome State Fault Refusal :=
  if s.launched = false then launchStep s
  else if s.cfg.ok = false then .refused .badConfiguration
  else agentStep (nextAgent s) s.turn

/-- `s` with a table row's word as the instruction the ENGINE executes next, at its first line, and the
ENGINE due to move (log 20). A command word stands in the latch, taken; an event word is one of the
engine's own channel being handled, so DMA_CHANNEL is that word's CH. The engine has left reset. -/
def State.withFetchWord (s : State) (nbits w : Nat) : State :=
  let word := BitVec.ofNat 32 (w % 2 ^ nbits)
  let s1 := { s with launched := true, sched := .engine :: s.sched, todo := [], memAtCmd := s.mem }
  match tablePort nbits word with
  | .cmd => { s1 with
      latch := { s.latch with valid := false, cmd := word }, exec := true, handling := false }
  | .evt => { s1 with
      cfg := { s.cfg with dmaChannel := (evtChannel word).toNat }, exec := false, handling := true }

end Sys2Proof.Machine
end

