-- ==== Sys2Proof/Safety.lean ====
section
/-! DEFINITION. The terms claims are stated in: quiescence, the command lines of a run, what a line
stores, the invariants of the machine, and whole plans of the chunk planner. -/

namespace Sys2Proof.Machine

/-- Quiescence (70_reset_and_hazards R338). -/
def quiescent (s : State) : Bool :=
  s.hostProg.isEmpty && !s.latch.valid && !s.exec && !s.evtPending && !s.handling
    && !chainRunning s && s.job.isNone && s.cs.isNone && s.chan.state != .running
    && s.autoFlight.isNone

/-- `k` lines of instruction `i`, one after the other, with no other agent moving between them. -/
def execLines (i : Instr) : Nat → State → Out
  | 0, s => .next s
  | k + 1, s =>
    match exec i s with
    | .next t => execLines i k t
    | .fault f => .fault f
    | .refused r => .refused r

/-- The bytes of system memory the next line of the operation in progress stores to: the address and
the number of bytes, as the meaning of that line computes them (R143, R235). -/
def lineStores (s : State) : Option (Nat × Nat) :=
  match s.todo with
  | .store addr n _ :: _ => some (addr, n)
  | .completion _ :: _ => some (s.ctx.sptr.toNat, 4)
  | _ => none

/-- Byte `a` of system memory is outside what the next line stores to. -/
def outsideLineStores (s : State) (a : Nat) : Prop :=
  match lineStores s with
  | some (base, n) => inStored base n a = false
  | none => True

/-! ### Which lines write which state -/

/-- The next line of the operation in progress is one of `p`. -/
def nextLine (s : State) (p : Act → Bool) : Bool :=
  match s.todo with
  | a :: _ => p a
  | [] => false

/-- Lines that write the transfer context (10_state R46). -/
def writesCtx : Act → Bool
  | .dmaArm .. | .ctxState _ _ => true
  | _ => false

/-- Lines that write the blocking working state (10_state R49). -/
def writesWork : Act → Bool
  | .setWork _ | .advAddr _ | .advBuf _ | .advRem _ => true
  | _ => false

/-- Lines that open or end the race for a transfer's buffer (20_memory R97, 70 R328; log 32). -/
def writesRace : Act → Bool
  | .busyTest .. | .finish .. | .completion _ => true
  | _ => false

/-- Lines that write the active profile, what INIT derives from it, or INIT_DONE (10_state R42, R44, R45). -/
def writesProfile : Act → Bool
  | .setProfile _ => true
  | _ => false

/-- Lines that write RESULT.PREV_AUTO before the command's end (41_mode_arbiter R167, R168). -/
def writesPrevAuto : Act → Bool
  | .setPrevAuto _ => true
  | _ => false

/-- Lines that operate the DMA channel (60_exceptions R297). -/
def operatesDma : Act → Bool
  | .dmaConfigure .. | .dmaEnable | .dmaTrigger | .dmaDisable => true
  | _ => false

/-- Lines that operate the controller: a `ctl(op)` (60_exceptions R291). -/
def operatesController : Act → Bool
  | .ctl _ _ | .popElem _ _ => true
  | _ => false

/-- Lines that write AUTO_EN (10_state R55). -/
def writesAutoEn : Act → Bool
  | .ctl _ (.setAutoEn _) => true
  | _ => false

/-! ### Canonical memories and the FIFO -/

/-- System memory and PSRAM are in canonical form inside their address spaces, so is what memory held when a command
was accepted, and the auto access in flight stays inside the PSRAM (R60, R61, R296; log 32). -/
def MemoriesCanonical (s : State) : Prop :=
  Memory.wf addressSpace s.mem = true ∧ Memory.wf s.cfg.density s.psram = true
    ∧ (∀ f, s.autoFlight = some f → f.req.a + f.req.n ≤ s.cfg.density)
    ∧ Memory.wf addressSpace s.memAtCmd = true
    ∧ ∀ r, s.race = some r → Memory.wf addressSpace r.before = true

/-- The FIFO holds at most FIFO_DEPTH entries (R57, R293). -/
def FifoBounded (s : State) : Prop := s.fifo.length ≤ s.cfg.fifoDepth

/-! ### The two bus paths (41_mode_arbiter R164, R169, R170; 60_exceptions R292) -/

/-- What is known of the bus mode: AUTO_EN = 1; AUTO_EN = 0 with auto mode possibly still in effect;
AUTO_EN = 0 with auto mode out of effect; one of the first and the last. -/
inductive BusMode where
  | auto
  | leaving
  | manual
  | stable
  deriving DecidableEq, Repr, Inhabited

/-- The bus mode of a state. -/
def busMode (s : State) : BusMode :=
  if s.autoEn then .auto else if s.autoActive then .leaving else .manual

/-- The bus mode after a line that starts in mode `m`; `none` when the line may not be reached in `m`:
a manual phase outside manual mode (R169), the completion word outside auto mode (R243), the end of an
operation or an arbiter test while auto mode is still fading. -/
def modeAfter (m : BusMode) : Act → Option BusMode
  | .wait _ .autoInactive => some (if m = .leaving then .manual else m)
  | .wait _ .notBusy | .wait _ .fifoReady | .wait _ .autoIdle | .wait _ .csReleased => some m
  | .ctl _ (.setAutoEn b) => some (if b then .auto else .leaving)
  | .ctl _ (.phaseTx ..) | .ctl _ (.trigger ..) => if m = .manual then some .manual else none
  | .ctl _ (.setWidth _) | .ctl _ (.setElem _) | .ctl _ (.fifoWrite _ _) | .ctl _ (.fifoRead _)
  | .ctl _ .deassertCs => some m
  | .arbTest .manual _ => if m = .leaving then none else some .manual
  | .arbTest .auto _ => some .auto
  | .caSeq _ _ | .caAddr _ | .caDummy _ | .callPump _ _ | .pumpWrite .. | .pumpRead .. | .plan _ | .loop _ =>
    if m = .manual then some .manual else none
  | .restore => if m = .leaving then none else some .stable
  | .dmaIssue _ _ | .dmaPlan _ _ | .dmaArm .. | .dmaConfigure .. => if m = .leaving then none else some .manual
  | .dmaNext => if m = .leaving then none else some .stable
  | .busyTest .. | .initTest _ | .finish .. | .leave => if m = .leaving then none else some m
  | .completion _ => if m = .auto then some .auto else none
  | .setWork _ | .setProfile _ | .setPrevAuto _ | .fifoCheck _ | .pushElem _ _ | .popElem _ _
  | .store .. | .advAddr _ | .advBuf _ | .advRem _ | .dmaEnable | .dmaTrigger | .dmaDisable | .ctxState _ _ => some m

/-- The rest of an operation keeps to the two bus paths, started in mode `m`. -/
def disciplined : BusMode → List Act → Bool
  | m, [] => m != .leaving
  | m, a :: r =>
    match modeAfter m a with
    | some m1 => disciplined m1 r
    | none => false

/-- A synchronised sample is no newer than the epoch, and one of the current epoch that shows
AUTO_ACTIVE = 0 is still true while AUTO_EN = 0 (R162, R164). -/
def SampleSound (s : State) (e : SyncEntry) : Prop :=
  ∀ t, e.tag = some t → t ≤ s.epoch
    ∧ (t = s.epoch → e.sample.autoActive = false → s.autoEn = false → s.autoActive = false)

/-- The bus is used by one path at a time: no auto access is in flight while a manual phase or
chip-select is, auto accesses need auto mode in effect, and the engine's remaining lines keep to their
mode (R145, R164, R169, R170, R292). -/
structure BusDiscipline (s : State) : Prop where
  exclusive : s.autoFlight ≠ none → s.job = none ∧ s.cs = none
  flightActive : s.autoFlight ≠ none → s.autoActive = true
  enabledActive : s.autoEn = true → s.autoActive = true
  samples : ∀ e ∈ s.sync, SampleSound s e
  idle : s.exec = false → s.handling = false → s.todo = []
  lines : disciplined (busMode s) s.todo = true

/-! ### One operation at a time (45_command_interface R263, R264) -/

/-- Whose pseudocode a line stands in: a command's, the event handler's, or an operation both call. -/
inductive Owner where
  | command
  | event
  | either
  deriving DecidableEq, Repr, Inhabited

/-- The owner of a DMA_ISSUE called by one of its two callers (44_dma_chainer R230, R235). -/
def callerOwner : Caller → Owner
  | .command => .command
  | .event => .event

/-- The owner of a line. -/
def owner : Act → Owner
  | .busyTest .. | .initTest _ | .arbTest _ .prior | .arbTest _ .report | .setWork _ | .setProfile _ | .setPrevAuto _ | .loop _
  | .plan _ | .callPump _ _ | .advAddr _ | .advBuf _ | .advRem _ | .restore
  | .pumpWrite .. | .pushElem _ _ | .pumpRead .. | .popElem _ _ | .store .. | .finish .. => .command
  | .dmaDisable | .dmaNext | .completion _ | .leave => .event
  | .dmaIssue by_ _ | .dmaPlan by_ _ | .dmaArm by_ _ _ | .dmaConfigure by_ _ _ => callerOwner by_
  | .wait _ _ | .ctl _ _ | .arbTest _ .drop | .caSeq _ _ | .caAddr _ | .caDummy _ | .fifoCheck _ | .dmaEnable
  | .dmaTrigger | .ctxState _ _ => .either

/-- The sequencer runs a command or an event, never both, and each holds its own lines only. -/
structure OneOperation (s : State) : Prop where
  single : ¬(s.exec = true ∧ s.handling = true)
  idle : s.exec = false → s.handling = false → s.todo = []
  command : s.exec = true → ∀ a ∈ s.todo, owner a ≠ .event
  event : s.handling = true → ∀ a ∈ s.todo, owner a ≠ .command

/-! ### Mode restoration (43_blocking_path R209) -/

/-- The rest of the operation reaches the end of BLOCKING with AUTO_EN = `v`, from AUTO_EN = `en` and
W_PRIOR = `prior`. -/
def restoresMode (v : Bool) : Bool → Bool → List Act → Bool
  | _, _, [] => true
  | _, prior, .ctl _ (.setAutoEn b) :: r => restoresMode v b prior r
  | en, _, .setWork (.prior b) :: r => restoresMode v en b r
  | en, prior, .arbTest .manual use :: r =>
    restoresMode v false (if use = .prior then en else prior) r
  | en, prior, .arbTest .auto use :: r => restoresMode v true (if use = .prior then en else prior) r
  | en, prior, .restore :: r => restoresMode v (prior || en) prior r
  | en, prior, .finish .blocking _ _ :: r => (en == v) && restoresMode v en prior r
  | _, prior, .dmaIssue _ _ :: r => restoresMode v false prior r
  | _, prior, .dmaPlan _ _ :: r => restoresMode v false prior r
  | _, prior, .dmaArm _ _ _ :: r => restoresMode v false prior r
  | _, prior, .dmaConfigure _ _ _ :: r => restoresMode v false prior r
  | _, prior, .dmaNext :: r => restoresMode v false prior r && restoresMode v true prior r
  | en, prior, _ :: r => restoresMode v en prior r

/-- If the operation in progress is BLOCKING, it ends with AUTO_EN = `v` (R209). -/
def RestoresMode (v : Bool) (s : State) : Prop := restoresMode v s.autoEn s.work.prior s.todo = true

/-! ### Whole plans of the chunk planner (42_chunk_planner R188) -/

/-- One chunk of a plan: its device address, its running offset and its size. -/
structure PlannedChunk where
  addr : Nat
  off : Nat
  size : Nat
  deriving DecidableEq, Repr

/-- The chunks of repeated PLAN_CHUNK calls from device address `a` and running offset `off` with `rem`
bytes to go, at most `fuel` of them (R188). -/
def planFrom (w s max : Nat) : Nat → Nat → Nat → Nat → List PlannedChunk
  | 0, _, _, _ => []
  | fuel + 1, a, off, rem =>
    if rem = 0 then []
    else
      let c := planChunk w rem off s max
      ⟨a, off, c.1⟩ :: planFrom w s max fuel (a + c.1) c.2 (rem - c.1)

/-- The plan of `n` elements of `s` bytes at device address `a`; R188 item 1 says that `n` calls are
enough. -/
def planOf (w s max a n : Nat) : List PlannedChunk := planFrom w s max n a (wrapOffset w a) (n * s)

/-- The chunks follow one another from `a` to `b` without gap or overlap. -/
def tiles : Nat → Nat → List PlannedChunk → Prop
  | a, b, [] => a = b
  | a, b, c :: r => c.addr = a ∧ tiles (a + c.size) b r

/-- The groups a pump makes of `n` elements from element `k` on, at most `fuel` of them: the size of each
and its trigger's keep_cs (40_phase_driver R142, R143). -/
def pumpGroups (depth n : Nat) (keep : Bool) : Nat → Nat → List (Nat × Bool)
  | 0, _ => []
  | fuel + 1, k =>
    if k < n then
      let g := min depth (n - k)
      (g, decide (k + g ≠ n) || keep) :: pumpGroups depth n keep fuel (k + g)
    else []

/-! ### A chain whose complete event never comes (60_exceptions R284, R304; 93_implementation_defined I2) -/

/-- The lines left to a command while a chain runs: none, a test that refuses the command, or its end. -/
def refusedLines : List Act → Bool
  | [] | .busyTest .. :: _ | .initTest _ :: _ | .finish .. :: _ => true
  | _ => false

/-- The chunk of a running chain has failed, no event is pending or handled, and no command goes further than its
refusal. -/
structure ChainStuck (s : State) : Prop where
  running : chainRunning s = true
  failed : s.chan.failed = true
  noEvent : s.evtPending = false ∧ s.handling = false
  ready : s.initDone = true
  lines : refusedLines s.todo = true

/-! ### Commands by shape -/

/-- The four transfer commands, by path, direction and element size. -/
def transfer (dma : Bool) (dir : Dir) (esz : BitVec 3) : Instr :=
  match dma, dir with
  | false, .read => .readBlocking esz
  | false, .write => .writeBlocking esz
  | true, .read => .readDma esz
  | true, .write => .writeDma esz

/-- The triggers among some lines: bit length and keep_cs. -/
def triggersOf (l : List Act) : List (Nat × Bool) :=
  l.filterMap fun a => match a with
    | .ctl _ (.trigger _ nbits _ keep) => some (nbits, keep)
    | _ => none

/-- The line at which a pump of `n` elements of `e` bytes at `b` stands with `k` of them done. -/
def pumpLine (dir : Dir) (b n e k : Nat) (keep : Bool) : Act :=
  match dir with
  | .write => .pumpWrite b n e k keep
  | .read => .pumpRead b n e k keep

/-- How many elements are done once the lines `l` of a pump's group are through: what the pump's line at their
end says. -/
def pumpNext (l : List Act) : Option Nat :=
  match l.getLast? with
  | some (.pumpWrite _ _ _ k _) => some k
  | some (.pumpRead _ _ _ k _) => some k
  | _ => none

/-- The triggers the blocking command of direction `dir` lays out, group by group, for the pump of `n` elements
from element `k` on: those among the lines `exec` gives at the pump's line, and then those of the group after,
which begins where these lines end (at most `fuel` groups). -/
def pumpTriggers (s : State) (dir : Dir) (b n e : Nat) (keep : Bool) : Nat → Nat → List (Nat × Bool)
  | 0, _ => []
  | fuel + 1, k =>
    match exec (transfer false dir (BitVec.ofNat 3 e)) { s with todo := [pumpLine dir b n e k keep] } with
    | .next t =>
      triggersOf t.todo ++
        match pumpNext t.todo with
        | some k1 => pumpTriggers s dir b n e keep fuel k1
        | none => []
    | .fault _ => []
    | .refused _ => []

/-- The two mode commands. -/
def modeCommand : ArbMode → Instr
  | .manual => .enterManual
  | .auto => .enterAuto

/-- The operands of a latched transfer pass VALIDATE (43_blocking_path R200 to R204): a = LATCH_ADDR,
b = LATCH_BUF, n = LATCH_COUNT, p = LATCH_SPTR. -/
structure OperandsValid (s : State) (dma : Bool) (esz : BitVec 3) : Prop where
  size : esz.toNat = 1 ∨ esz.toNat = 2 ∨ esz.toNat = 4
  count : s.latch.count ≠ 0
  start : s.latch.addr.toNat < s.cfg.density
  range : s.latch.addr.toNat + s.latch.count.toNat * esz.toNat ≤ s.cfg.density
  buf : s.latch.buf ≠ 0
  sptr : dma = true → s.latch.sptr ≠ 0

/-- Two ranges of system addresses have a byte in common (log 14, log 31: addresses go on at 0 after
2^32-1). -/
def ShareByte (a n b m : Nat) : Prop := ∃ i j, i < n ∧ j < m ∧ sysAddr (a + i) = sysAddr (b + j)

/-- A range has a byte in common with the engine register block, the controller's FIFO word (log 11) or the
auto window. -/
def OnDevice (s : State) (a n : Nat) : Prop :=
  ShareByte a n s.cfg.engineBase 0x100 ∨ ShareByte a n s.cfg.fifoAddr 4
    ∨ ShareByte a n s.cfg.autoBase s.cfg.density

/-- The buffer of a latched transfer overlaps what 20_memory R97 names: a device's range or, for DMA, the
transfer's own completion word. -/
def BufferOverlaps (s : State) (dma : Bool) (esz : BitVec 3) : Prop :=
  OnDevice s s.latch.buf.toNat (s.latch.count.toNat * esz.toNat)
    ∨ dma = true ∧ ShareByte s.latch.buf.toNat (s.latch.count.toNat * esz.toNat) s.latch.sptr.toNat 4

/-- No byte of a latched transfer's buffer has another value than at the command's acceptance (70 R328). -/
def BufferStable (s : State) (esz : BitVec 3) : Prop :=
  ∀ j < s.latch.count.toNat * esz.toNat,
    s.memAtCmd.get (sysAddr (s.latch.buf.toNat + j)) = s.mem.get (sysAddr (s.latch.buf.toNat + j))

/-- The caller's duties on a transfer: alignment and no overlap (20_memory R79, R81, R97; 70 R329). -/
structure CallerKeeps (s : State) (dma : Bool) (esz : BitVec 3) : Prop where
  buffer : s.latch.buf.toNat % esz.toNat = 0
  sptr : dma = true → s.latch.sptr.toNat % 4 = 0
  apart : ¬BufferOverlaps s dma esz
  word : dma = true → ¬OnDevice s s.latch.sptr.toNat 4

/-- The access a HOST action makes (30_encoding R122): direction, address, number of bytes, value. -/
def hostForm : HostAct → Option (Dir × Nat × Nat × Nat)
  | .store addr n v => some (.write, addr, n, v)
  | .load addr n => some (.read, addr, n, 0)
  | .poll addr _ _ => some (.read, addr, 4, 0)
  | .touchCtrl | .touchDma => none

/-- An instruction that runs lines on this machine: a command, or the event of its own channel. -/
def runsHere (s : State) (i : Instr) : Prop :=
  portOf i = .cmd ∨ ∃ ch : BitVec 4, i = .evtDmaComplete ch ∧ ch.toNat = s.cfg.dmaChannel

/-- W_* after BLOCKING's assignments (R208): W_PRIOR is not one of them. -/
def startedWork (s : State) (dir : Dir) (esz : BitVec 3) : Work where
  dir := dir
  addr := s.latch.addr
  buf := s.latch.buf
  rem := BitVec.ofNat 33 (s.latch.count.toNat * esz.toNat)
  esz := esz
  off := BitVec.ofNat 32 (wrapOffset s.act2.toNat s.latch.addr.toNat)
  prior := s.work.prior

/-- The agents `l` move next, one step each; then those of `rest` (log 1). -/
def State.scheduled (s : State) (l rest : List Config.Agent) : State := { s with sched := l ++ rest }

/-- SYNC_STAGES steps of SYNC: enough for a new sample to reach the engine (70 R331). -/
def syncRound (s : State) : List Config.Agent := List.replicate s.cfg.syncStages .sync

/-- `k` steps of the ENGINE. -/
def engineSteps (k : Nat) : List Config.Agent := List.replicate k .engine

/-- The synchroniser after `syncRound` in state `s`: the raw status now, under the current epoch, in
every stage. -/
def settledSync (s : State) : List SyncEntry :=
  List.replicate s.cfg.syncStages ⟨some s.epoch, rawStatus s⟩

/-! ### The profile and the bus records of a transaction -/

/-- What a successful INIT leaves: an accepted profile and the two values derived from it (R265, R266). -/
structure ProfileLoaded (s : State) : Prop where
  accepted : profileOk s.cfg s.act0 = true
  bytes : s.addrBytes = addrBytesOf s.act0
  enc : s.enc = encOf s.act0

/-- The assignment of INIT a line makes, if it makes one. -/
def profileField : Act → Option ProfileField
  | .setProfile f => some f
  | _ => none

/-- INIT's two tests, at this line, end the command (R265). -/
def testFails (p : Config.Params) (d : Bool) : Act → Bool
  | .initTest p0 => d || !profileOk p p0
  | _ => false

/-- INIT's lines that are left lead from INIT_DONE = `d` and the values of ACT0, ADDR_BYTES and ENC given to a
loaded profile, and none of them is left once INIT_DONE = 1 (R265, R266). -/
def profileLines (p : Config.Params) : Bool → Word → BitVec 3 → Enc → List Act → Bool
  | _, _, _, _, [] => true
  | d, a0, ab, e, a :: r =>
    match profileField a with
    | none => testFails p d a || profileLines p d a0 ab e r
    | some (.act0 v) => !d && profileLines p d v ab e r
    | some (.act1 _) => !d && profileLines p d a0 ab e r
    | some (.act2 _) => !d && profileLines p d a0 ab e r
    | some .addrBytes => !d && profileLines p d a0 (addrBytesOf a0) e r
    | some .enc => !d && profileLines p d a0 ab (encOf a0) r
    | some .done =>
      !d && profileOk p a0 && decide (ab = addrBytesOf a0) && decide (e = encOf a0)
        && profileLines p true a0 ab e r

/-- Once INIT has succeeded its profile is loaded and no line writes it; an INIT in progress leads there
(R44, R45, R265). -/
def ProfileInitialized (s : State) : Prop :=
  (s.initDone = true → ProfileLoaded s)
    ∧ profileLines s.cfg s.initDone s.act0 s.addrBytes s.enc s.todo = true

/-- The bus records of a transaction in direction `dir` at device address `a`, up to its data phase (R110
to R114, R141, R145). -/
def openingRecords (s : State) (dir : Dir) (a : Nat) : List BusEvent :=
  let op := match dir with
    | .read => profRdOpcode s.act0
    | .write => profWrOpcode s.act0
  let n := s.addrBytes.toNat
  let ab := abytes n (profBswap s.act0) a
  let dummy := dummyBits s.act0 s.act1
  .csAssert (profCsel s.act0) :: ((match s.enc with
      | .packed => [.phase .cmdaddr (profInstBw s.act0) .tx (8 * (1 + n)) (op :: ab)]
      | .split => [.phase .cmd (profInstBw s.act0) .tx 8 [op],
          .phase .addr (profAddrBw s.act0) .tx (8 * n) ab])
    ++ if dir = .read ∧ 0 < profDummyCycles s.act1 then
        [.phase .dummy (profDummyBw s.act0) .tx dummy (List.replicate (bytesFor dummy) 0#8)]
      else [])

/-- The data records of a pump's groups, of elements of `e` bytes, out of the bytes `bs` (R142 to R144). -/
def groupRecords (w : BitVec 2) (way : Way) (e : Nat) : List (Nat × Bool) → List Byte → List BusEvent
  | [], _ => []
  | g :: gs, bs =>
    .phase .data w way (8 * (g.1 * e)) (bs.take (g.1 * e)) :: groupRecords w way e gs (bs.drop (g.1 * e))

/-- The records of a blocking chunk of `c` bytes with data `bs` (R145, R208). -/
def chunkRecords (s : State) (dir : Dir) (e a c : Nat) (bs : List Byte) : List BusEvent :=
  openingRecords s dir a
    ++ groupRecords (profDataBw s.act0) (wayOf dir) e (pumpGroups s.cfg.fifoDepth (c / e) false (c / e) 0) bs
    ++ [.csRelease (profCsel s.act0)]

/-- The records of a DMA chunk of `c` bytes with data `bs` (R145, R233, R235). -/
def dmaRecords (s : State) (dir : Dir) (a c : Nat) (bs : List Byte) : List BusEvent :=
  openingRecords s dir a
    ++ [.phase .data (profDataBw s.act0) (wayOf dir) (8 * c) bs, .csRelease (profCsel s.act0)]

/-- Device bytes at consecutive addresses. -/
def devBytes (m : Memory) (a n : Nat) : List Byte := (List.range n).map (fun j => m.get (a + j))

/-- The bytes a transfer of `n` bytes moves, from buffer address `b` or device address `a` on (R115). -/
def dataOf (s : State) (dir : Dir) (a b n : Nat) : List Byte :=
  match dir with
  | .write => memBytes s.mem b n
  | .read => devBytes s.psram a n

/-! ### Runs -/

/-- Some schedule takes `s` to `t`, whatever is due to move afterwards and however many steps have been
counted before. `sched` and `tick` of the two states themselves do not matter (log 1). -/
def Reaches (s t : State) : Prop :=
  ∃ l : List Config.Agent, ∀ (rest : List Config.Agent) (n : Nat),
    Sys2Proof.core.run l.length { s with sched := l ++ rest, tick := n } =
      .next { t with sched := rest, tick := n + l.length }

end Sys2Proof.Machine
end

