-- ==== Sys2Proof/Certificates/Slice0/Obligations.lean ====
section
/-! DEFINITION. The statements for the provers. Each docstring names the rule it formalises; a premise
that is not the rule's own is an invariant stated in this file, or places the ENGINE at a line. -/

section

open Sys2Proof Sys2Proof.Machine

/-! ### Encoding and fetching -/

/-- R101, R102, R104, R120, R124: words written out bit by bit: one of R124's legal words of each command, its
transfer with ESZ = 3, the illegal words of V53 and V54 (0x82 and 0x11), and the event word of channel 5. That
an event word decodes from its 8 bits, on a port of its own, is the model's choice (log 20). Sanity only. -/
def Obligations.SpecWordsDecode : Prop :=
  decodeTableWord 32 0b00000000000000000000000000000001 = some .init
    ∧ decodeTableWord 32 0b00000000000000000000000000010010 = some (.readBlocking 1#3)
    ∧ decodeTableWord 32 0b00000000000000000000000001000011 = some (.writeBlocking 4#3)
    ∧ decodeTableWord 32 0b00000000000000000000000000100100 = some (.readDma 2#3)
    ∧ decodeTableWord 32 0b00000000000000000000000001000101 = some (.writeDma 4#3)
    ∧ decodeTableWord 32 0b00000000000000000000000000000110 = some .enterManual
    ∧ decodeTableWord 32 0b00000000000000000000000000000111 = some .enterAuto
    ∧ decodeTableWord 32 0b00000000000000000000000000110010 = some (.readBlocking 3#3)
    ∧ decodeTableWord 32 0b00000000000000000000000000010001 = some (.illegal 0x11#32)
    ∧ decodeTableWord 32 0b00000000000000000000000010000010 = some (.illegal 0x82#32)
    ∧ decodeTableWord 8 0b01010001 = some (.evtDmaComplete 5#4)

/-- R101, R102, R103, R104, R120: every well-formed instruction, whatever its operands, decodes from its
own word on its own input, and the bytes after it are left. -/
def Obligations.DecodeOfEncode : Prop :=
  ∀ (i : Instr) (rest : List Byte), i.wf = true →
    decode (portOf i) (encodeBytes i ++ rest) = .ok (i, rest)

/-- R105: every 32-bit word is exactly one command or illegal, by its fields; nothing of it is lost. -/
def Obligations.EveryWordIsOneCommand : Prop :=
  ∀ w : Word,
    (decodeCmd w = .illegal w ↔
      w.toNat / 128 ≠ 0 ∨ w.toNat % 16 = 0 ∨ 8 ≤ w.toNat % 16 ∨
        ((w.toNat % 16 = 1 ∨ w.toNat % 16 = 6 ∨ w.toNat % 16 = 7) ∧ w.toNat / 16 % 8 ≠ 0))
    ∧ (decodeCmd w = .init ↔ w = 0x00000001#32)
    ∧ (decodeCmd w = .enterManual ↔ w = 0x00000006#32)
    ∧ (decodeCmd w = .enterAuto ↔ w = 0x00000007#32)
    ∧ (∀ e, decodeCmd w = .readBlocking e ↔ w.toNat = 2 + 16 * e.toNat)
    ∧ (∀ e, decodeCmd w = .writeBlocking e ↔ w.toNat = 3 + 16 * e.toNat)
    ∧ (∀ e, decodeCmd w = .readDma e ↔ w.toNat = 4 + 16 * e.toNat)
    ∧ (∀ e, decodeCmd w = .writeDma e ↔ w.toNat = 5 + 16 * e.toNat)
    ∧ encode (decodeCmd w) = w ∧ portOf (decodeCmd w) = .cmd

/-- R263, R269: the ENGINE's step is `exec` of the decoded command, or of the event of its own channel. What
`step` adds is `State.turn`: the step is counted and its agent taken from the schedule (log 1). Around it, R9 and
R325: a configuration that breaks a constraint is refused, and the step out of reset is the launch, from the
state after reset, whose draws and channel descriptor are free, and from no other. That the descriptor is free,
and that the model's own fields must be at their reset values, is log 33's. -/
def Obligations.StepRunsTheInstruction : Prop :=
  (∀ s : State, s.Live → nextAgent s = .engine →
    (∀ i, s.handling = false → s.exec = true → decode .cmd (bytesOfWord s.latch.cmd) = .ok (i, []) →
      step s = exec i s.turn)
    ∧ (s.handling = true →
      step s = exec (.evtDmaComplete (BitVec.ofNat 4 s.cfg.dmaChannel)) s.turn))
  ∧ ∀ s : State,
    let atReset := ∃ bw ce de ps m cpu ev prog sc n, s = { State.resetWith s.cfg with
      curBw := bw, curElem := ce, chan := ⟨.off, de, 0, false⟩, psram := ps, mem := m, cpuReqs := cpu
      events := ev, hostProg := prog, sched := sc, tick := n }
    (s.cfg.ok = false → step s = .refused .badConfiguration)
    ∧ (s.cfg.ok = true → atReset → step s = .next { s with launched := true })
    ∧ (s.cfg.ok = true → s.launched = false → ¬atReset → step s = .refused .badLaunch)

/-- R263, R284, R286, R287: an idle ENGINE takes a pending event first, else the latched command, else does
nothing; taking an event saves nothing. Delivery of an event word: channel complete of DMA_CHANNEL sets
EVT_PENDING, every other event is ignored; while a chain runs that event can only be a second one for its
trigger, a breach of R297 (93 I7; log 19). That an event of another kind of that channel is the error event of the
chunk armed then, which the channel remembers, is log 35's choice. R325: a CPU's request arrives in a step of its
own (log 18). -/
def Obligations.EventsAndCommandsAreTaken : Prop :=
  ∀ s : State, s.Live →
    (nextAgent s = .engine → s.exec = false → s.handling = false →
      (s.evtPending = true →
        step s = .next { s.turn with evtPending := false, handling := true, todo := [] })
      ∧ (s.evtPending = false → s.latch.valid = true →
        step s = .next { s.turn with
          latch := { s.latch with valid := false }, exec := true, todo := [] })
      ∧ (s.evtPending = false → s.latch.valid = false → step s = .next s.turn))
    ∧ (∀ w r, nextAgent s = .event → s.events = w :: r →
      let here := w.toNat / 16 % 16 = s.cfg.dmaChannel
      let own := w.toNat % 16 = 1 ∧ here
      let armed := s.chan.state = .configured ∨ s.chan.state = .enabled ∨ s.chan.state = .running
      let chain := s.ctx.state = .writeRunning ∨ s.ctx.state = .readRunning
      (own → chain → step s = .fault .secondComplete)
      ∧ (own → ¬chain → step s = .next { s.turn with events := r, evtPending := true })
      ∧ (¬own → ¬(here ∧ armed) → step s = .next { s.turn with events := r })
      ∧ (¬own → here → armed → step s = .next { s.turn with
        events := r, chan := { s.chan with failed := true } }))
    ∧ (∀ q r, nextAgent s = .cpu → s.cpuReqs = q :: r →
      step s = .next { s.turn with cpuReqs := r, autoReqs := s.autoReqs ++ [q] })

/-! ### Reset -/

/-- R320: every engine register and internal state element after reset, for every configuration. R325: the agents
around the engine as it leaves reset (the last clause), where the empty lists of inputs, `chan.failed`, and no race
with nothing noted for one are the model's choice (logs 27, 32, 35). That `State.reset` has the reference parameters
is the model's choice (log 3). -/
def Obligations.ResetValues : Prop :=
  State.reset = State.resetWith Config.Params.reference ∧
  ∀ p : Config.Params,
    let s := State.resetWith p
    (∀ r : Reg, r ≠ .estatus → readReg s r = 0#32)
      ∧ readReg s .estatus = (if p.autoEnAtLaunch then 0x10#32 else 0#32)
      ∧ s.initDone = false ∧ s.exec = false ∧ s.latch = ⟨false, 0, 0, 0, 0, 0, 0, 0, 0⟩
      ∧ s.ctx = ⟨.idle, 0, 0, 0, 0, .write, 0⟩ ∧ s.work = ⟨.write, 0, 0, 0, 0, 0, false⟩
      ∧ s.evtPending = false ∧ s.handling = false ∧ s.epoch = 0 ∧ s.overrun = false
      ∧ s.sync = List.replicate p.syncStages ⟨none, ⟨false, false, false, false, false⟩⟩
      ∧ s.todo = [] ∧ seqCode s = 0x00#8 ∧ s.addrBytes = 0 ∧ s.enc = .packed
      ∧ (rawStatus s = ⟨false, true, true, p.autoEnAtLaunch, false⟩ ∧ s.autoEn = p.autoEnAtLaunch
        ∧ s.fifo = [] ∧ s.chan.state = .off ∧ s.chan.k = 0 ∧ s.chan.failed = false ∧ s.events = [] ∧ s.parser = .closed
        ∧ s.autoReqs = [] ∧ s.cpuReqs = [] ∧ s.autoFlight = none ∧ s.bus = [] ∧ s.launched = false
        ∧ s.race = none ∧ s.memAtCmd = [])

/-- R320, R325: the machine's invariants hold right after reset, for every configuration. -/
def Obligations.InvariantsHoldAtReset : Prop :=
  ∀ p : Config.Params,
    let s := State.resetWith p
    BusDiscipline s ∧ OneOperation s ∧ FifoBounded s ∧ MemoriesCanonical s ∧ ProfileInitialized s
      ∧ ∀ v, RestoresMode v s

/-! ### Invariants of every step, and what they give -/

/-- R145, R164, R169, R170, R292: the bus discipline is kept by every step of every agent. -/
def Obligations.BusDisciplineKept : Prop :=
  ∀ s t : State, BusDiscipline s → step s = .next t → BusDiscipline t

/-- R263, R288: one command or one event at a time, kept by every step of every agent. -/
def Obligations.OneOperationKept : Prop :=
  ∀ s t : State, OneOperation s → step s = .next t → OneOperation t

/-- R57, R60, R61, R75, R293 and log 5, log 6: both memories keep their canonical form, and so does what memory held
when a command was accepted, which a race reads (log 32). The FIFO never holds more than FIFO_DEPTH entries, whoever
pushes. R265, R266: once INIT has succeeded the active profile is one PROFILE_OK accepts, with the values INIT derives
from it, and no line is left that writes it; an INIT in progress leads there. -/
def Obligations.MemoriesFifoAndProfileKept : Prop :=
  ∀ s t : State, step s = .next t →
    (MemoriesCanonical s → MemoriesCanonical t) ∧ (FifoBounded s → FifoBounded t)
    ∧ (ProfileInitialized s → ProfileInitialized t)

/-- R145, R169, R170, R295: "the engine never issues a manual phase while AUTO_EN = 1"; an auto access is
recorded only outside manual transactions, and a manual phase only while no auto access is in flight. -/
def Obligations.BusPathsExclude : Prop :=
  ∀ s : State, BusDiscipline s →
    step s ≠ .fault .phaseInAutoMode
    ∧ ∀ t, step s = .next t →
      (∀ d a bs, t.bus = s.bus ++ [.auto d a bs] → s.job = none ∧ s.cs = none ∧ s.autoActive = true)
      ∧ (∀ k w d n bs, t.bus = s.bus ++ [.phase k w d n bs] → s.autoFlight = none)

/-- R209 (P3): BLOCKING that began with AUTO_EN = v ends with AUTO_EN = v, and one that is refused
leaves AUTO_EN alone. The second clause starts the invariant, the first keeps it, the third ends it. -/
def Obligations.BlockingRestoresMode : Prop :=
  ∀ s t : State, step s = .next t →
    (∀ v, RestoresMode v s → s.todo ≠ [] → RestoresMode v t)
    ∧ (∀ dir e, nextAgent s = .engine → currentInstr s = some (transfer false dir e) → s.todo = [] →
      RestoresMode s.autoEn t ∧ t.autoEn = s.autoEn)
    ∧ (∀ v dir e p r, RestoresMode v s → nextAgent s = .engine →
      currentInstr s = some (transfer false dir e) → s.todo = .finish .blocking .ok p :: r →
      t.autoEn = v ∧ t.result = ⟨.ok, p, true⟩ ∧ t.exec = false)

/-- R236, R243 (P4): when the completion word is written, AUTO_EN = 1. -/
def Obligations.CompletionWordInAutoMode : Prop :=
  ∀ (s t : State) (v : Word) (r : List Act), BusDiscipline s → s.handling = true →
    nextAgent s = .engine → s.todo = .completion v :: r → step s = .next t →
    s.autoEn = true ∧ t.autoEn = true ∧ t.mem = memWrite s.mem s.ctx.sptr.toNat 4 v

/-- R37: "DMA events never write RESULT", and an event ends without touching the command in the latch. -/
def Obligations.EventsNeverWriteResult : Prop :=
  ∀ s t : State, OneOperation s → s.handling = true → nextAgent s = .engine → step s = .next t →
    t.result = s.result ∧ t.latch = s.latch

/-! ### What every command may change -/

/-- R31, R43, R52, R262, R263: no line of any instruction writes a register HOST owns, the latch, or the
state of HOST, SYNC, AUTOPATH and the PSRAM's bytes, nor what memory held at the command's acceptance (log 32). -/
def Obligations.LinesKeepOtherAgentsState : Prop :=
  ∀ (i : Instr) (s t : State), exec i s = .next t →
    t.cfg = s.cfg ∧ t.launched = s.launched ∧ t.cpuReqs = s.cpuReqs
      ∧ t.addr = s.addr ∧ t.buf = s.buf ∧ t.count = s.count ∧ t.statusPtr = s.statusPtr
      ∧ t.prof0 = s.prof0 ∧ t.prof1 = s.prof1 ∧ t.prof2 = s.prof2
      ∧ t.latch = s.latch ∧ t.overrun = s.overrun ∧ t.evtPending = s.evtPending
      ∧ t.sync = s.sync ∧ t.autoReqs = s.autoReqs ∧ t.autoFlight = s.autoFlight
      ∧ t.events = s.events ∧ t.psram = s.psram ∧ t.psramPast = s.psramPast
      ∧ t.hostProg = s.hostProg ∧ t.hostPend = s.hostPend ∧ t.hostLog = s.hostLog
      ∧ t.memAtCmd = s.memAtCmd

/-- R14, R42, R44, R46, R49, R55, R63, R205: each piece of engine, controller and channel state is written by its
own lines only. So is the race for a transfer's buffer (R97), a field of the model's own (log 32). -/
def Obligations.StateWrittenByItsLines : Prop :=
  ∀ (i : Instr) (s t : State), exec i s = .next t →
    (t.ctx ≠ s.ctx → nextLine s writesCtx = true)
    ∧ (t.work ≠ s.work → nextLine s writesWork = true)
    ∧ (t.chan ≠ s.chan ∨ t.configCalls ≠ s.configCalls → nextLine s operatesDma = true)
    ∧ (t.autoEn ≠ s.autoEn ∨ t.autoActive ≠ s.autoActive → nextLine s writesAutoEn = true)
    ∧ (t.epoch ≠ s.epoch ∨ t.fifo ≠ s.fifo ∨ t.job ≠ s.job ∨ t.cs ≠ s.cs ∨ t.parser ≠ s.parser
        ∨ t.curBw ≠ s.curBw ∨ t.curElem ≠ s.curElem ∨ t.bus ≠ s.bus →
      nextLine s operatesController = true)
    ∧ (t.act0 ≠ s.act0 ∨ t.act1 ≠ s.act1 ∨ t.act2 ≠ s.act2 ∨ t.addrBytes ≠ s.addrBytes
        ∨ t.enc ≠ s.enc ∨ t.initDone ≠ s.initDone → nextLine s writesProfile = true)
    ∧ (t.result ≠ s.result →
      (nextLine s writesPrevAuto = true ∧ t.result = { s.result with prevAuto := t.result.prevAuto })
        ∨ (t.exec = false ∧ t.todo = [] ∧ t.result.valid = true))
    ∧ (t.race ≠ s.race → nextLine s writesRace = true)

/-- R75, R143, R235: a line stores to the bytes `lineStores` computes and to no other byte of system
memory; a line that stores nothing changes none. -/
def Obligations.LinesStoreOnlyTheirBytes : Prop :=
  ∀ (i : Instr) (s t : State), exec i s = .next t →
    ∀ a, outsideLineStores s a → t.mem.get a = s.mem.get a

/-- R44, R45, R46, R51, R55, R62, R162, R172, R327: the other agents never write the engine's state, AUTO_EN
or the controller's settings; the parameters never change, nor, once INIT has succeeded, what it latched;
EPOCH goes up by one exactly when the ENGINE performs a controller operation. `ProfileInitialized` is an
invariant stated above; `race` and `memAtCmd` are the model's own fields (log 32), written by ENGINE and by HOST. -/
def Obligations.OnlyTheEngineWritesItsState : Prop :=
  ∀ s t : State, step s = .next t →
    t.cfg = s.cfg ∧ (nextAgent s ≠ .engine →
      t.ctx = s.ctx ∧ t.work = s.work ∧ t.todo = s.todo ∧ t.exec = s.exec ∧ t.handling = s.handling
        ∧ t.epoch = s.epoch ∧ t.autoEn = s.autoEn ∧ t.curBw = s.curBw ∧ t.curElem = s.curElem
        ∧ t.configCalls = s.configCalls ∧ t.initDone = s.initDone ∧ t.act0 = s.act0
        ∧ t.act1 = s.act1 ∧ t.act2 = s.act2 ∧ t.addrBytes = s.addrBytes ∧ t.enc = s.enc ∧ t.race = s.race)
    ∧ (nextAgent s ≠ .host → t.memAtCmd = s.memAtCmd)
    ∧ t.epoch = s.epoch +
      (if nextAgent s = .engine ∧ (s.exec = true ∨ s.handling = true)
          ∧ nextLine s operatesController = true then 1 else 0)
    ∧ (ProfileInitialized s → s.initDone = true → t.initDone = true ∧ t.act0 = s.act0
      ∧ t.act1 = s.act1 ∧ t.act2 = s.act2 ∧ t.addrBytes = s.addrBytes ∧ t.enc = s.enc)

/-! ### Commands: INIT, ILLEGAL and the error codes -/

/-- R265, R267, R269: INIT, after DECODE's line, in each of its three cases. The third is one line for each
assignment (R14): HOST can see INIT_DONE = 1 before the command ends. How many lines there are is log 2's grain. -/
def Obligations.InitOutcomes : Prop :=
  ∀ s : State, s.todo = [] →
    let assigns : List Act := [.setProfile (.act0 s.latch.prof0), .setProfile (.act1 s.latch.prof1),
      .setProfile (.act2 s.latch.prof2), .setProfile .addrBytes, .setProfile .enc, .setProfile .done,
      .finish .init .ok false]
    exec .init s = .next { s with todo := .initTest s.latch.prof0 :: assigns }
    ∧ (s.initDone = true → execLines .init 2 s = .next { s with
      result := ⟨.alreadyInitialized, false, true⟩, exec := false })
    ∧ (s.initDone = false → profileOk s.cfg s.latch.prof0 = false → execLines .init 2 s = .next { s with
      result := ⟨.invalidProfile, false, true⟩, exec := false })
    ∧ (s.initDone = false → profileOk s.cfg s.latch.prof0 = true →
      let loaded : State := { s with
        act0 := s.latch.prof0, act1 := s.latch.prof1, act2 := s.latch.prof2
        addrBytes := BitVec.ofNat 3 (s.latch.prof0.toNat / 2 ^ 16 % 4 + 1)
        enc := if s.latch.prof0.toNat / 2 ^ 18 % 4 = s.latch.prof0.toNat / 2 ^ 20 % 4 then .packed else .split
        initDone := true }
      execLines .init 2 s = .next { s with todo := assigns }
      ∧ execLines .init 8 s = .next { loaded with todo := [.finish .init .ok false] }
      ∧ execLines .init 9 s = .next { loaded with result := ⟨.ok, false, true⟩, exec := false })

/-- R266: PROFILE_OK, field by field of PROF0. -/
def Obligations.ProfileOkExactly : Prop :=
  ∀ (p : Config.Params) (p0 : Word),
    profileOk p p0 = true ↔
      p0.toNat / 2 ^ 18 % 4 ≠ 3 ∧ p0.toNat / 2 ^ 20 % 4 ≠ 3 ∧ p0.toNat / 2 ^ 22 % 4 ≠ 3
        ∧ p0.toNat / 2 ^ 24 % 4 ≠ 3 ∧ p0.toNat / 2 ^ 26 % 4 ≠ 3 ∧ p0.toNat / 2 ^ 29 < p.numCs
        ∧ p.density ≤ 2 ^ (8 * (p0.toNat / 2 ^ 16 % 4 + 1))

/-- R104, R268, R269: while INIT_DONE = 0 "every legal command but INIT completes with NotInitialized and
no other effect"; an illegal word completes with IllegalCommand and no other effect, before INIT too. -/
def Obligations.NotInitializedAndIllegal : Prop :=
  ∀ s : State, s.todo = [] →
    (∀ i, s.initDone = false → portOf i = .cmd → i ≠ .init → (∀ w, i ≠ .illegal w) →
      exec i s = .next { s with result := ⟨.notInitialized, false, true⟩, exec := false })
    ∧ (∀ w, exec (.illegal w) s =
      .next { s with result := ⟨.illegalCommand, false, true⟩, exec := false })

/-- R200 to R205: the checks of VALIDATE in their order; a command that fails one changes RESULT (and
ends) and nothing else. a, b, n, k, p are LATCH_ADDR, LATCH_BUF, LATCH_COUNT, ESZ, LATCH_SPTR. -/
def Obligations.ValidationOrder : Prop :=
  ∀ (s : State) (dma : Bool) (dir : Dir) (e : BitVec 3), s.todo = [] →
    let a := s.latch.addr.toNat
    let n := s.latch.count.toNat
    let k := e.toNat
    let sizeOk := (k = 1 ∨ k = 2 ∨ k = 4) ∧ n ≠ 0
    let inRange := a < s.cfg.density ∧ a + n * k ≤ s.cfg.density
    let ends (c : Code) :=
      exec (transfer dma dir e) s = .next { s with result := ⟨c, false, true⟩, exec := false }
    (s.initDone = false → ends .notInitialized)
      ∧ (s.initDone = true → ¬sizeOk → ends .invalidSize)
      ∧ (s.initDone = true → sizeOk → ¬inRange → ends .outOfRange)
      ∧ (s.initDone = true → sizeOk → inRange → s.latch.buf = 0#32 → ends .nullBuffer)
      ∧ (s.initDone = true → sizeOk → inRange → s.latch.buf ≠ 0#32 → dma = true →
        s.latch.sptr = 0#32 → ends .nullBuffer)

/-- R167, R168, R211, R239: while a chain runs, a valid transfer and a mode command end in Busy and change
nothing else: the mode command at its first line, the transfer at the line after VALIDATE's (log 2's grain). -/
def Obligations.BusyWhileChainRuns : Prop :=
  ∀ s : State, s.todo = [] → s.initDone = true → chainRunning s = true →
    (∀ dma dir e, OperandsValid s dma e → execLines (transfer dma dir e) 2 s =
      .next { s with result := ⟨.busy, false, true⟩, exec := false })
    ∧ (∀ m, exec (modeCommand m) s =
      .next { s with result := ⟨.busy, false, true⟩, exec := false })

/-- R79, R81, R97, R304: a valid transfer that breaks a duty of its caller is refused by name, and only then: a
misaligned buffer or completion word; a buffer that shares a byte with the engine's block, the FIFO word, the auto
window or the DMA transfer's own completion word. That a completion word which shares a byte with a device's range is
refused too is the model's deduction from the duty of R329 (log 13; R304 does not list it). The model's choices:
the refusals come after validation, and in the order stated (log 12); the FIFO word stands for the controller (log 11);
ranges go on at 0 after 2^32-1 (logs 14 and 31). The two lines are VALIDATE's and the Busy test's (log 2). -/
def Obligations.CallerBreachRefused : Prop :=
  ∀ (s : State) (dma : Bool) (dir : Dir) (e : BitVec 3), s.todo = [] → s.initDone = true →
    chainRunning s = false → OperandsValid s dma e →
    let aligned := s.latch.buf.toNat % e.toNat = 0
    let word := dma = true → s.latch.sptr.toNat % 4 = 0
    let out := execLines (transfer dma dir e) 2 s
    (¬aligned → out = .refused .misalignedBuffer)
    ∧ (aligned → ¬word → out = .refused .misalignedStatusPtr)
    ∧ (aligned → word → BufferOverlaps s dma e → out = .refused .overlappingBuffer)
    ∧ (aligned → word → ¬BufferOverlaps s dma e → dma = true → OnDevice s s.latch.sptr.toNat 4 →
      out = .refused .statusPtrNotMemory)
    ∧ (CallerKeeps s dma e ↔ ∃ t, out = .next t)

/-- R264: a command's last line writes RESULT and ends it in one step; `return` ends an event and writes
no RESULT, and EVT_BUSY is EVT_PENDING afterwards; SEQ_STATE is 0x00 after either. That a blocking transfer and a
command that ends in Failed end the race for their buffer there is log 32's choice. -/
def Obligations.LastLineEnds : Prop :=
  ∀ s : State,
    (∀ i op c p r, portOf i = .cmd → s.todo = .finish op c p :: r →
      exec i s = .next { s with
        result := ⟨c, p, true⟩, exec := false, todo := []
        race := if op = .blocking ∨ c = .failed then none else s.race })
    ∧ (∀ ch r, ch.toNat = s.cfg.dmaChannel → s.todo = .leave :: r →
      exec (.evtDmaComplete ch) s = .next { s with handling := false, todo := [] })
    ∧ (s.exec = false → s.handling = false → s.todo = [] →
      seqCode s = 0x00#8 ∧ evtBusy s = s.evtPending)

/-! ### Blocking transfers -/

/-- R206, R207, R208: READ_BLOCKING and WRITE_BLOCKING that pass every check begin: VALIDATE, the Busy test, W_*
as R208 sets them, one line each (R14), then ARB_MANUAL, the chunk loop, the mode's restoration, and `finish(OK)`.
How many lines that is is log 2's grain; that the Busy test notes what the buffer's readers and writers race for
(R97, R328) is log 32's choice. -/
def Obligations.BlockingBegins : Prop :=
  ∀ (s : State) (dir : Dir) (e : BitVec 3), s.todo = [] → s.initDone = true →
    chainRunning s = false → OperandsValid s false e → CallerKeeps s false e →
    let rem := BitVec.ofNat 33 (s.latch.count.toNat * e.toNat)
    let off := BitVec.ofNat 32 (if s.act2.toNat = 0 then 0 else s.latch.addr.toNat % s.act2.toNat)
    let race := some ⟨dir, s.latch.buf.toNat, s.latch.count.toNat * e.toNat, e.toNat, s.memAtCmd⟩
    let body : List Act := [.wait .arbManual .autoIdle, .arbTest .manual .prior, .loop dir, .restore,
      .finish .blocking .ok false]
    let assigns : List Act := [.setWork (.dir dir), .setWork (.addr s.latch.addr),
      .setWork (.buf s.latch.buf), .setWork (.rem rem), .setWork (.esz e), .setWork (.off off)]
    exec (transfer false dir e) s = .next { s with todo := .busyTest false dir e :: (assigns ++ body) }
    ∧ execLines (transfer false dir e) 2 s = .next { s with todo := assigns ++ body, race := race }
    ∧ execLines (transfer false dir e) 8 s = .next { s with
      work := {
        dir := dir, addr := s.latch.addr, buf := s.latch.buf, rem := rem, esz := e, off := off
        prior := s.work.prior }
      todo := body, race := race }

/-- R118, R208: the lines of the chunk loop, each in its own step, of whichever blocking command executes:
PLAN_CHUNK, the assignment of W_OFF, CA_SEQ and the pump, each under its own name. -/
def Obligations.ChunkLoopLines : Prop :=
  ∀ (s : State) (dir : Dir) (e : BitVec 3) (r : List Act),
    (s.todo = .loop dir :: r → exec (transfer false dir e) s = .next { s with
      todo := if s.work.rem.toNat = 0 then r else .plan dir :: .loop dir :: r })
    ∧ (s.todo = .plan dir :: r →
      let plan := planChunk s.act2.toNat s.work.rem.toNat s.work.off.toNat s.work.esz.toNat
        s.cfg.pageBytes
      exec (transfer false dir e) s = .next { s with
        todo := .setWork (.off (BitVec.ofNat 32 plan.2)) :: .caSeq dir s.work.addr.toNat
          :: .callPump dir plan.1 :: .advAddr plan.1 :: .advBuf plan.1 :: .advRem plan.1 :: r })
    ∧ (∀ c, s.todo = .callPump dir c :: r →
      let w := s.work.esz.toNat
      let op : SeqOp := match dir with
        | .write => .pumpWrite
        | .read => .pumpRead
      exec (transfer false dir e) s = .next { s with
        todo := .fifoCheck op :: .ctl op (.setWidth (s.act0.extractLsb' 24 2))
          :: .ctl op (.setElem s.work.esz)
          :: (match dir with
            | .write => .pumpWrite s.work.buf.toNat (c / w) w 0 false
            | .read => .pumpRead s.work.buf.toNat (c / w) w 0 false) :: r })
    ∧ (∀ v, s.todo = .setWork (.off v) :: r → exec (transfer false dir e) s = .next { s with
      work := { s.work with off := v }, todo := r })
    ∧ (∀ c, s.todo = .advAddr c :: r → exec (transfer false dir e) s = .next { s with
      work := { s.work with addr := s.work.addr + BitVec.ofNat 32 c }, todo := r })
    ∧ (∀ c, s.todo = .advBuf c :: r → exec (transfer false dir e) s = .next { s with
      work := { s.work with buf := s.work.buf + BitVec.ofNat 32 c }, todo := r })
    ∧ (∀ c, s.todo = .advRem c :: r → exec (transfer false dir e) s = .next { s with
      work := { s.work with rem := s.work.rem - BitVec.ofNat 33 c }, todo := r })
    ∧ (∀ b, s.todo = .setWork (.prior b) :: r → exec (transfer false dir e) s = .next { s with
      work := { s.work with prior := b }, todo := r })
    ∧ (s.todo = .restore :: r → exec (transfer false dir e) s = .next { s with
      todo := if s.work.prior then .wait .arbAuto .autoIdle :: .arbTest .auto .drop :: r else r })

/-- R110, R111, R112, R114, R118, R140, R141, R147: the phases CA_SEQ drives, for either encoding, of a command
and of a continuation. Every phase sets its width, keeps chip-select and waits for BUSY = 0; between the phases
CA_SEQ's own lines form the address phase of a split encoding and, for a read with dummy cycles, the dummy phase. -/
def Obligations.CommandAndAddressPhases : Prop :=
  ∀ (s : State) (i : Instr) (dir : Dir) (a : Nat) (r : List Act),
    runsHere s i →
    let op : Byte := match dir with
      | .read => s.act0.extractLsb' 0 8
      | .write => s.act0.extractLsb' 8 8
    let n := s.addrBytes.toNat
    let cs := s.act0.toNat / 2 ^ 29
    let ab := abytes n (s.act0.getLsbD 28) a
    let phase (k : PhaseKind) (w : BitVec 2) (nbits : Nat) (payload : List Byte) : List Act :=
      [.ctl .drivePhase (.setWidth w), .ctl .drivePhase (.phaseTx k nbits payload cs true),
        .wait .drivePhase .notBusy]
    let cycles := s.act1.toNat % 256
    let dummy := cycles * lines (s.act0.extractLsb' 22 2)
    (s.todo = .caSeq dir a :: r → exec i s = .next { s with
      todo := (match s.enc with
          | .packed => phase .cmdaddr (s.act0.extractLsb' 18 2) (8 * (1 + n)) (op :: ab)
          | .split => phase .cmd (s.act0.extractLsb' 18 2) 8 [op] ++ [.caAddr a])
        ++ .caDummy dir :: r })
    ∧ (s.todo = .caAddr a :: r → exec i s = .next { s with
      todo := phase .addr (s.act0.extractLsb' 20 2) (8 * n) ab ++ r })
    ∧ (s.todo = .caDummy dir :: r → exec i s = .next { s with
      todo := (if dir = .read ∧ 0 < cycles then
          phase .dummy (s.act0.extractLsb' 22 2) dummy (List.replicate ((dummy + 7) / 8) 0#8)
          else [])
        ++ r })

/-- R142, R143: the lines of the pumps. PUMP_WRITE reads g elements into the FIFO, triggers 8*s*g bits and
waits for BUSY = 0; PUMP_READ triggers first, then pops and stores each element behind its own wait; with every
element done both go on. The element read is `elemRead`'s, what `LittleEndianMemory` says of it: memory's, or in a race
(R97) the old one. R146: a data phase starts on an empty FIFO, and a FIFO that is not empty there is a
fault (log 22). -/
def Obligations.PumpLines : Prop :=
  ∀ (s : State) (e : BitVec 3) (r : List Act),
    (∀ b n k w keep, k < n →
      let g := min s.cfg.fifoDepth (n - k)
      let cs := s.act0.toNat / 2 ^ 29
      let hold := decide (k + g ≠ n) || keep
      (s.todo = .pumpWrite b n w k keep :: r → exec (.writeBlocking e) s = .next { s with
        todo := (List.range g).map (fun j => Act.pushElem (b + (k + j) * w) w)
          ++ [.ctl .pumpWrite (.trigger .tx (8 * w * g) cs hold), .wait .pumpWrite .notBusy,
            .pumpWrite b n w (k + g) keep] ++ r })
      ∧ (s.todo = .pumpRead b n w k keep :: r → exec (.readBlocking e) s = .next { s with
        todo := .ctl .pumpRead (.trigger .rx (8 * w * g) cs hold)
          :: (List.range g).flatMap
            (fun j => [Act.wait .pumpRead .fifoReady, .popElem (b + (k + j) * w) w])
          ++ [.wait .pumpRead .notBusy, .pumpRead b n w (k + g) keep] ++ r }))
    ∧ (∀ b n k w keep, n ≤ k →
      (s.todo = .pumpWrite b n w k keep :: r → exec (.writeBlocking e) s = .next { s with todo := r })
      ∧ (s.todo = .pumpRead b n w k keep :: r → exec (.readBlocking e) s = .next { s with todo := r }))
    ∧ (∀ i op, runsHere s i → s.todo = .fifoCheck op :: r →
      exec i s = if s.fifo = [] then .next { s with todo := r } else .fault .fifoNotEmpty)
    ∧ (∀ addr w, s.todo = .pushElem addr w :: r → exec (.writeBlocking e) s = .next { s with
      todo := .ctl .pumpWrite (.fifoWrite w (elemRead s addr w)) :: r })
    ∧ (∀ addr w v q, s.fifo = v :: q → s.todo = .popElem addr w :: r →
      exec (.readBlocking e) s = .next { s with
        fifo := q, epoch := s.epoch + 1
        todo := .store addr w (elemOfBytes (elemBytes w v)) :: r })
    ∧ (∀ addr w v, s.todo = .store addr w v :: r → exec (.readBlocking e) s = .next { s with
      mem := memWrite s.mem addr w v, todo := r })

/-- R144: the triggers the blocking commands lay out for a pump of n elements of e bytes, as `exec` gives them at
the pump's line, group after group: FIFO_DEPTH elements each and the rest in the last, in bits; only the last
trigger carries the caller's keep_cs, every earlier one keeps chip-select. -/
def Obligations.PumpGroupSizes : Prop :=
  ∀ (s : State) (dir : Dir) (b n e : Nat) (keep : Bool), 0 < s.cfg.fifoDepth → 0 < n →
    let d := s.cfg.fifoDepth
    pumpTriggers s dir b n e keep n 0 =
      if n % d = 0 then List.replicate (n / d - 1) (8 * e * d, true) ++ [(8 * e * d, keep)]
      else List.replicate (n / d) (8 * e * d, true) ++ [(8 * e * (n % d), keep)]

/-- R115, R141 to R145, R188, R206 to R209, R264, R299: from every state in which a valid blocking transfer
has just begun, on an idle bus, some schedule of the agents takes it to its end: OK in RESULT, the mode as
it was, one transaction per planned chunk on the bus, and the bytes moved and no others. The premise on the
opcodes is log 15's (a device that cannot tell a write from a read), the one on `act2` R188 item 3's
(otherwise a chunk can wrap inside the device's window). `ProfileLoaded` and `MemoriesCanonical` are
invariants stated above. The schedule is log 1's, and buffer addresses go on at 0 after 2^32-1 by log 14's choice.
Left out: misaligned transfers with wrap (R334), equal opcodes on a write, a bus with an auto access in
flight at the start, and a write whose buffer was stored to since the command's acceptance, against R328's rule
(`LittleEndianMemory` says what its elements are then). -/
def Obligations.BlockingTransferCompletes : Prop :=
  ∀ (s : State) (dir : Dir) (e : BitVec 3), s.Live → s.handling = false → s.exec = true →
    s.todo = [] → decodeCmd s.latch.cmd = transfer false dir e → s.initDone = true →
    chainRunning s = false → OperandsValid s false e → CallerKeeps s false e →
    s.job = none → s.cs = none → s.fifo = [] → s.autoFlight = none →
    ProfileLoaded s → MemoriesCanonical s →
    (dir = .write → BufferStable s e) → (dir = .write → s.act0.extractLsb' 8 8 ≠ s.act0.extractLsb' 0 8) →
    (s.act2 = 0#32 ∨ (s.latch.addr.toNat % e.toNat = 0 ∧ s.act2.toNat % e.toNat = 0)) →
    let a := s.latch.addr.toNat
    let b := s.latch.buf.toNat
    let n := s.latch.count.toNat * e.toNat
    ∃ t, Reaches s t ∧ t.result = ⟨.ok, false, true⟩ ∧ t.exec = false ∧ t.todo = []
      ∧ t.autoEn = s.autoEn ∧ t.job = none ∧ t.cs = none ∧ t.fifo = []
      ∧ (t.ctx = s.ctx ∧ t.chan = s.chan ∧ t.latch = s.latch ∧ t.initDone = true)
      ∧ t.bus = s.bus ++ (planOf s.act2.toNat e.toNat s.cfg.pageBytes a s.latch.count.toNat).flatMap
          (fun c => chunkRecords s dir e.toNat c.addr c.size (dataOf s dir c.addr (b + c.addr - a) c.size))
      ∧ (dir = .write → t.mem = s.mem
        ∧ (∀ j < n, t.psram.get (a + j) = s.mem.get (sysAddr (b + j)))
        ∧ ∀ x, (x < a ∨ a + n ≤ x) → t.psram.get x = s.psram.get x)
      ∧ (dir = .read → t.psram = s.psram
        ∧ (∀ j < n, t.mem.get (sysAddr (b + j)) = s.psram.get (a + j))
        ∧ ∀ x, inStored b n x = false → t.mem.get x = s.mem.get x)

/-! ### The chunk planner -/

/-- R188 (P1, P2): the chunks of a plan are whole elements within MAX, tile the transfer, and their element
counts sum to n, in at most n calls; with W, a and W aligned to the element none crosses a multiple of W;
MAX of the two paths is what item 4 says. -/
def Obligations.PlanProperties : Prop :=
  (∀ w s max a n : Nat, (s = 1 ∨ s = 2 ∨ s = 4) → s ≤ max → 0 < n →
    let plan := planOf w s max a n
    tiles a (a + n * s) plan ∧ plan.length ≤ n ∧ (plan.map (fun c => c.size / s)).sum = n
      ∧ (∀ c ∈ plan, s ≤ c.size ∧ c.addr + c.size ≤ a + n * s ∧ c.size % s = 0 ∧ c.size ≤ max)
      ∧ (0 < w → a % s = 0 → w % s = 0 →
        ∀ c ∈ plan, c.addr / w = (c.addr + c.size - 1) / w))
  ∧ (∀ (p : Config.Params) (w s a n : Nat), p.ok = true → (s = 1 ∨ s = 2 ∨ s = 4) → 0 < n →
    (∀ c ∈ planOf w s p.pageBytes a n, c.size ≤ p.pageBytes)
    ∧ (∀ c ∈ planOf w s (maxDma p s) a n, c.size ≤ min p.dmaChunkBytes (p.dmaMaxCount * s)
      ∧ c.size / s ≤ p.dmaMaxCount))

/-- R189: throughout a plan the running offset is the chunk's device address mod W (0 without wrap). -/
def Obligations.RunningOffsetIsAddress : Prop :=
  ∀ w s max a n : Nat, (s = 1 ∨ s = 2 ∨ s = 4) → s ≤ max →
    ∀ c ∈ planOf w s max a n, c.off = if w = 0 then 0 else c.addr % w

/-- R180, R184, R186, R187: one call of PLAN_CHUNK, case by case. M is the path maximum floored to whole
elements, `rest` what is left of the wrap window. -/
def Obligations.PlanChunkCases : Prop :=
  ∀ w rem off s max : Nat, (s = 1 ∨ s = 2 ∨ s = 4) → s ≤ max → 0 < rem → rem % s = 0 →
    (w = 0 ∨ off < w) →
    let m := max - max % s
    let rest := w - off
    (w = 0 → planChunk w rem off s max = (min rem m, 0))
    ∧ (w ≠ 0 → off + min rem m < w → planChunk w rem off s max = (min rem m, off + min rem m))
    ∧ (w ≠ 0 → off + min rem m = w → planChunk w rem off s max = (min rem m, 0))
    ∧ (w ≠ 0 → w < off + min rem m → s ≤ rest →
      planChunk w rem off s max = (rest - rest % s, (off + (rest - rest % s)) % w))
    ∧ (w ≠ 0 → w < off + min rem m → rest < s → planChunk w rem off s max = (s, (off + s) % w))

/-! ### Modes and synchronised waits -/

/-- R162, R163: a wait is passed exactly on a sample of the current epoch that satisfies it; otherwise the
step changes nothing. -/
def Obligations.WaitHolds : Prop :=
  ∀ (s : State) (i : Instr) (op : SeqOp) (c : Cond) (r : List Act),
    runsHere s i →
    s.todo = .wait op c :: r →
    ((∃ st, syncOut s = some ⟨some s.epoch, st⟩ ∧ condHolds c st = true) →
      exec i s = .next { s with todo := r })
    ∧ ((¬∃ st, syncOut s = some ⟨some s.epoch, st⟩ ∧ condHolds c st = true) → exec i s = .next s)

/-- R161, R331: SYNC_STAGES steps of SYNC bring the raw status as it is now to the engine, whatever the
synchroniser held, and change nothing else. -/
def Obligations.SyncRoundDelivers : Prop :=
  ∀ (s : State) (rest : List Config.Agent), s.Live →
    core.run s.cfg.syncStages (s.scheduled (syncRound s) rest) = .next { s with
      sync := settledSync s, sched := rest, tick := s.tick + s.cfg.syncStages }
    ∧ syncOut { s with sync := settledSync s } = some ⟨some s.epoch, rawStatus s⟩

/-- R165 to R168, V90 to V93, V95: ENTER_MANUAL and ENTER_AUTO run to their ends when no auto access is in
flight. A command that changes the mode performs one controller operation; ENTER_MANUAL then waits for a
second sample, taken after auto mode has ended. The schedules are log 1's. Left out: ENTER_AUTO while chip-select
is asserted, where R166 holds it, and an auto access in flight at the start. -/
def Obligations.ModeCommandsComplete : Prop :=
  ∀ (s : State) (rest : List Config.Agent) (m : ArbMode), s.Live → s.handling = false →
    s.exec = true → decodeCmd s.latch.cmd = modeCommand m → s.todo = [] → s.initDone = true →
    chainRunning s = false → s.autoFlight = none →
    (m = .manual → s.autoEn = true →
      core.run (2 * s.cfg.syncStages + 8) (s.scheduled
          (engineSteps 1 ++ syncRound s ++ engineSteps 3 ++ [.ctrlMode] ++ syncRound s
            ++ engineSteps 3) rest) =
        .next { s with
          result := ⟨.ok, true, true⟩, exec := false
          autoEn := false, autoActive := false, epoch := s.epoch + 1
          sync := settledSync { s with autoActive := false, epoch := s.epoch + 1 }
          sched := rest, tick := s.tick + (2 * s.cfg.syncStages + 8) })
    ∧ (m = .auto → s.autoEn = false → s.cs = none →
      core.run (s.cfg.syncStages + 7) (s.scheduled
          (engineSteps 1 ++ syncRound s ++ engineSteps 6) rest) =
        .next { s with
          result := ⟨.ok, false, true⟩, exec := false
          autoEn := true, autoActive := true, epoch := s.epoch + 1, sync := settledSync s
          sched := rest, tick := s.tick + (s.cfg.syncStages + 7) })
    ∧ (s.autoEn = (m == .auto) →
      core.run (s.cfg.syncStages + 5) (s.scheduled
          (engineSteps 1 ++ syncRound s ++ engineSteps 4) rest) =
        .next { s with
          result := ⟨.ok, s.autoEn, true⟩, exec := false, sync := settledSync s
          sched := rest, tick := s.tick + (s.cfg.syncStages + 5) })

/-- R165, R166, R167, R168, R171: the lines of the mode commands and of the arbiter: the first line of a
command that passes its tests, and the branch on `prev` with what the caller does with it. That PREV_AUTO's line and
the last line are DECODE's (`.finish .decode`: SEQ_STATE shows 0x01 there) is log 21's choice, since R118 gives the
mode commands no code; how the lines are cut is log 2's grain. -/
def Obligations.ArbiterLines : Prop :=
  ∀ (s : State) (m : ArbMode) (r : List Act),
    (s.todo = [] → s.initDone = true → chainRunning s = false →
      exec (modeCommand m) s = .next { s with todo := (match m with
        | .manual => [.wait .arbManual .autoIdle, .arbTest .manual .report]
        | .auto => [.wait .arbAuto .autoIdle, .arbTest .auto .report]) })
    ∧ (s.todo = .arbTest .manual .report :: r → exec (modeCommand m) s = .next { s with todo :=
      (if s.autoEn then [.ctl .arbManual (.setAutoEn false), .wait .arbManual .autoInactive] else [])
        ++ (.setPrevAuto s.autoEn :: .finish .decode .ok s.autoEn :: r) })
    ∧ (s.todo = .arbTest .auto .report :: r → exec (modeCommand m) s = .next { s with todo :=
      (if s.autoEn then [] else [.wait .arbAuto .csReleased, .ctl .arbAuto (.setAutoEn true)])
        ++ (.setPrevAuto s.autoEn :: .finish .decode .ok s.autoEn :: r) })
    ∧ (∀ b, s.todo = .setPrevAuto b :: r → exec (modeCommand m) s = .next { s with
      result := { s.result with prevAuto := b }, todo := r })
    ∧ (∀ b op, s.todo = .ctl op (.setAutoEn b) :: r → exec (modeCommand m) s = .next { s with
      autoEn := b, autoActive := if b then true else s.autoActive, epoch := s.epoch + 1, todo := r })

/-! ### DMA chains -/

/-- R230, R231, R232: READ_DMA and WRITE_DMA that pass every check enter DMA_ISSUE with the operands of
the latch, after VALIDATE's line and the Busy test's (log 2's grain). That the Busy test notes what the buffer's
readers and writers race for (R97, R328) is log 32's choice. -/
def Obligations.DmaBegins : Prop :=
  ∀ (s : State) (dir : Dir) (e : BitVec 3), s.todo = [] → s.initDone = true →
    chainRunning s = false → OperandsValid s true e → CallerKeeps s true e →
    let body : List Act := [.dmaIssue .command ⟨dir, s.latch.addr.toNat, s.latch.buf.toNat, e.toNat,
      s.latch.count.toNat, s.latch.sptr.toNat⟩, .finish .dmaBegin .ok false]
    exec (transfer true dir e) s = .next { s with todo := .busyTest true dir e :: body }
    ∧ execLines (transfer true dir e) 2 s = .next { s with
      todo := body
      race := some ⟨dir, s.latch.buf.toNat, s.latch.count.toNat * e.toNat, e.toNat, s.memAtCmd⟩ }

/-- R182, R188 item 4, R233: the chunk DMA_ISSUE arms is PLAN_CHUNK's, at most DMA_CHUNK_BYTES bytes and
DMA_MAX_COUNT elements, and at least one. -/
def Obligations.DmaChunkWithinLimits : Prop :=
  ∀ (s : State) (x : IssueArgs), s.cfg.ok = true → (x.s = 1 ∨ x.s = 2 ∨ x.s = 4) → 0 < x.n →
    let c := dmaChunk s x
    c = (planChunk s.act2.toNat (x.n * x.s) (if s.act2.toNat = 0 then 0 else x.a % s.act2.toNat) x.s
        (min s.cfg.dmaChunkBytes (s.cfg.dmaMaxCount * x.s))).1
      ∧ c % x.s = 0 ∧ x.s ≤ c ∧ c ≤ x.n * x.s ∧ c ≤ s.cfg.dmaChunkBytes
      ∧ 1 ≤ c / x.s ∧ c / x.s ≤ s.cfg.dmaMaxCount

/-- R46, R233, R240: DMA_ISSUE writes ctx before it configures the channel, from its operands and the
chunk; the lines (three, by log 2's grain) are the same for a command and for a continuation. -/
def Obligations.IssueWritesContext : Prop :=
  ∀ (s : State) (i : Instr) (by_ : Caller) (x : IssueArgs) (r : List Act),
    runsHere s i →
    s.todo = .dmaIssue by_ x :: r →
    let c := dmaChunk s x
    execLines i 3 s = .next { s with
      ctx := {
        state := if x.dir = .write then .writeRunning else .readRunning
        addr := BitVec.ofNat 32 (x.a + c), buf := BitVec.ofNat 32 (x.b + c)
        rem := BitVec.ofNat 32 (x.n - c / x.s), esz := BitVec.ofNat 3 x.s, dir := x.dir
        sptr := BitVec.ofNat 32 x.p }
      todo := .dmaConfigure by_ x c :: r }

/-- R117, R234: the descriptor of a chunk, as R234's numbers and as R117's fields. -/
def Obligations.DescriptorOfChunk : Prop :=
  ∀ (p : Config.Params) (dir : Dir) (b s ce : Nat), p.ok = true → b < 2 ^ 32 →
    (s = 1 ∨ s = 2 ∨ s = 4) → 1 ≤ ce → ce ≤ p.dmaMaxCount →
    let d := descOf p dir b s ce
    let wc := if s = 1 then 0 else if s = 2 then 1 else 2
    (dir = .write → d.w0.toNat = b ∧ d.w1.toNat = p.fifoAddr ∧
      d.w2.toNat = ce + 2 ^ 16 * wc + 2 ^ 18 * 1 + 2 ^ 19 * 0 + 2 ^ 20 * p.dmaChannel)
    ∧ (dir = .read → d.w0.toNat = p.fifoAddr ∧ d.w1.toNat = b ∧
      d.w2.toNat = ce + 2 ^ 16 * wc + 2 ^ 18 * 0 + 2 ^ 19 * 1 + 2 ^ 20 * p.dmaChannel)
    ∧ d.w3 = 1#32
    ∧ descCount d = ce ∧ widthBytes (descWidth d) = s ∧ descWidth d ≠ 3#2
    ∧ descSrcInc d = decide (dir = .write) ∧ descDstInc d = decide (dir = .read)
    ∧ (descChannel d).toNat = p.dmaChannel ∧ descToEngine d = true

/-- R230, R233, R237, R298, V34: when the first chunk's `Configure` fails, the command ends in Failed after eight lines.
ctx holds the failed chunk's successor values and STATE = Failed; nothing else changes but RESULT and the
count of Configure calls: no controller operation, no mode change, no completion word; and no race is left, by log
32's choice. That the lines are eight is the grain of log 2; which call fails is log 8's. -/
def Obligations.FirstChunkFailure : Prop :=
  ∀ (s : State) (dir : Dir) (e : BitVec 3), s.todo = [] → s.initDone = true →
    chainRunning s = false → OperandsValid s true e → CallerKeeps s true e →
    (s.chan.state = .off ∨ s.chan.state = .complete) → s.configCalls + 1 ∈ s.cfg.configFail →
    let x : IssueArgs := ⟨dir, s.latch.addr.toNat, s.latch.buf.toNat, e.toNat,
      s.latch.count.toNat, s.latch.sptr.toNat⟩
    let c := dmaChunk s x
    execLines (transfer true dir e) 8 s = .next { s with
      ctx := {
        state := .failed, addr := BitVec.ofNat 32 (x.a + c), buf := BitVec.ofNat 32 (x.b + c)
        rem := BitVec.ofNat 32 (x.n - c / x.s), esz := e, dir := dir, sptr := s.latch.sptr }
      configCalls := s.configCalls + 1, result := ⟨.failed, false, true⟩, exec := false, race := none }

/-- R233, R297: the engine's channel operations, at their lines, of a command and of a continuation: Configure
that returns Ok loads the descriptor and goes on with the rest of DMA_ISSUE; Enable, Trigger, Disable. Configure
of a channel that is neither Off nor Complete is a fault (R295, R297); that Enable and Trigger in another state
are faults too is log 23's reading. The count of Configure calls is log 8's. That the channel remembers an error
event of its chunk until the next Configure, which clears `Chan.failed`, is log 35's choice. -/
def Obligations.ChannelOperations : Prop :=
  ∀ (s : State) (i : Instr) (r : List Act), runsHere s i →
    (∀ by_ x c, s.todo = .dmaConfigure by_ x c :: r →
      (s.chan.state = .off ∨ s.chan.state = .complete → s.configCalls + 1 ∉ s.cfg.configFail →
        exec i s = .next { s with
          chan := ⟨.configured, descOf s.cfg x.dir x.b x.s (c / x.s), 0, false⟩
          configCalls := s.configCalls + 1
          todo := .dmaEnable :: .wait .arbManual .autoIdle :: .arbTest .manual .drop
            :: .caSeq x.dir x.a :: .fifoCheck .dmaIssue
            :: .ctl .dmaIssue (.setWidth (s.act0.extractLsb' 24 2))
            :: .ctl .dmaIssue (.setElem (BitVec.ofNat 3 x.s))
            :: .ctl .dmaIssue (.trigger (if x.dir = .write then .tx else .rx) (8 * c)
              (s.act0.toNat / 2 ^ 29) true)
            :: .dmaTrigger :: r })
      ∧ (s.chan.state ≠ .off → s.chan.state ≠ .complete → exec i s = .fault .channelState))
    ∧ (s.todo = .dmaEnable :: r → exec i s =
      if s.chan.state = .configured then
        .next { s with chan := { s.chan with state := .enabled }, todo := r }
      else .fault .channelState)
    ∧ (s.todo = .dmaTrigger :: r → exec i s =
      if s.chan.state = .enabled then
        .next { s with chan := { s.chan with state := .running }, todo := r }
      else .fault .channelState)
    ∧ (s.todo = .dmaDisable :: r → exec i s =
      .next { s with chan := { s.chan with state := .off }, todo := r })

/-- R235, R244: the first line of the channel-complete event: while a chain runs, the handler's lines; while
STATE is Idle or Failed a spurious event, which does nothing but end. An event of a running chain whose channel
has not moved its last element breaks R297 (R90, 93 I7; log 19). That an event already pending when the chain began
is taken for the chunk's own, where the channel stands at Complete, after an error event too, is the choice of logs
19 and 35. -/
def Obligations.EventBegins : Prop :=
  ∀ (s : State) (ch : BitVec 4), ch.toNat = s.cfg.dmaChannel → s.todo = [] →
    (s.ctx.state = .writeRunning ∨ s.ctx.state = .readRunning →
      (s.chan.state = .complete → exec (.evtDmaComplete ch) s = .next { s with
        todo := [.wait .dmaComplete .notBusy, .ctl .dmaComplete .deassertCs, .dmaDisable, .dmaNext] })
      ∧ (s.chan.state ≠ .complete → exec (.evtDmaComplete ch) s = .fault .earlyComplete))
    ∧ (s.ctx.state = .idle ∨ s.ctx.state = .failed →
      exec (.evtDmaComplete ch) s = .next { s with handling := false })

/-- R145, R235, R236, R243 (P4): the end of a chain. With nothing remaining the handler's lines are, in this order,
ARB_AUTO's, STATE <- Idle, DONE to the completion word, and the return; what each of them does is given, so STATE has
left Running and auto mode is on before the word is written; that no race is left once it is, is log 32's choice. And
the event of the last chunk runs, from its first line, to its end: chip-select released, the channel Off, auto mode
on, STATE Idle, DONE in the completion word. The schedule is log 1's. -/
def Obligations.LastEventEndsChain : Prop :=
  (∀ (s : State) (ch : BitVec 4) (r : List Act), ch.toNat = s.cfg.dmaChannel →
    (s.todo = .dmaNext :: r → s.ctx.rem = 0#32 → exec (.evtDmaComplete ch) s = .next { s with
      todo := .wait .arbAuto .autoIdle :: .arbTest .auto .drop :: .ctxState .dmaComplete .idle
        :: .completion 1#32 :: .leave :: r })
    ∧ (s.todo = .arbTest .auto .drop :: r → exec (.evtDmaComplete ch) s = .next { s with
      todo := if s.autoEn then r
        else .wait .arbAuto .csReleased :: .ctl .arbAuto (.setAutoEn true) :: r })
    ∧ (s.todo = .ctl .arbAuto (.setAutoEn true) :: r → exec (.evtDmaComplete ch) s = .next { s with
      autoEn := true, autoActive := true, epoch := s.epoch + 1, todo := r })
    ∧ (∀ st, s.todo = .ctxState .dmaComplete st :: r → exec (.evtDmaComplete ch) s = .next { s with
      ctx := { s.ctx with state := st }, todo := r })
    ∧ (∀ v, s.todo = .completion v :: r → exec (.evtDmaComplete ch) s = .next { s with
      mem := memWrite s.mem s.ctx.sptr.toNat 4 v, race := none, todo := r }))
  ∧ ∀ (s : State) (cs : Nat) (rest : List Config.Agent), s.Live → s.handling = true →
    s.todo = [] → chainRunning s = true → s.ctx.rem = 0#32 → s.job = none → s.cs = some cs →
    s.autoFlight = none → s.autoEn = false → s.chan.state = .complete →
    core.run (2 * s.cfg.syncStages + 12) (s.scheduled
        (engineSteps 1 ++ syncRound s ++ engineSteps 4 ++ syncRound s ++ engineSteps 7) rest) =
      .next { s with
        cs := none, parser := .closed, bus := s.bus ++ [.csRelease cs]
        chan := { s.chan with state := .off }, autoEn := true, autoActive := true
        epoch := s.epoch + 2, sync := settledSync { s with cs := none, epoch := s.epoch + 1 }
        ctx := { s.ctx with state := .idle }, mem := memWrite s.mem s.ctx.sptr.toNat 4 1#32, race := none
        handling := false, sched := rest, tick := s.tick + (2 * s.cfg.syncStages + 12) }

/-- R233, R236, R238, R298: a continuation whose `Configure` fails. The lines left are, in this order, ARB_AUTO's,
STATE <- Failed, FAILED to the completion word, and the return. And it runs to its end: ctx holds the failed chunk's
successor values, auto mode is on, STATE is Failed and FAILED is in the completion word; RESULT and the channel are
unchanged. The schedule is log 1's; which call of Configure fails is log 8's; that no race is left is log 32's. -/
def Obligations.ChainedFailure : Prop :=
  (∀ (s : State) (ch : BitVec 4) (x : IssueArgs) (c : Nat) (r : List Act), ch.toNat = s.cfg.dmaChannel →
    s.todo = .dmaConfigure .event x c :: r → (s.chan.state = .off ∨ s.chan.state = .complete) →
    s.configCalls + 1 ∈ s.cfg.configFail → exec (.evtDmaComplete ch) s = .next { s with
      configCalls := s.configCalls + 1
      todo := [.wait .arbAuto .autoIdle, .arbTest .auto .drop, .ctxState .dmaComplete .failed,
        .completion 2#32, .leave] })
  ∧ ∀ (s : State) (rest : List Config.Agent), s.Live → s.handling = true →
    s.todo = [.dmaNext] → s.ctx.rem ≠ 0#32 → s.cs = none → s.autoFlight = none → s.autoEn = false →
    (s.chan.state = .off ∨ s.chan.state = .complete) → s.configCalls + 1 ∈ s.cfg.configFail →
    let x : IssueArgs := ⟨s.ctx.dir, s.ctx.addr.toNat, s.ctx.buf.toNat, s.ctx.esz.toNat,
      s.ctx.rem.toNat, s.ctx.sptr.toNat⟩
    let c := dmaChunk s x
    core.run (s.cfg.syncStages + 12) (s.scheduled
        (engineSteps 5 ++ syncRound s ++ engineSteps 7) rest) =
      .next { s with
        ctx := { s.ctx with
          state := .failed, addr := BitVec.ofNat 32 (x.a + c), buf := BitVec.ofNat 32 (x.b + c)
          rem := BitVec.ofNat 32 (x.n - c / x.s) }
        configCalls := s.configCalls + 1, autoEn := true, autoActive := true, epoch := s.epoch + 1
        sync := settledSync s, mem := memWrite s.mem s.ctx.sptr.toNat 4 2#32, race := none
        handling := false, todo := [], sched := rest, tick := s.tick + (s.cfg.syncStages + 12) }

/-- R284, R297: the DMA agent moves one element of a write chunk (memory to FIFO) or of a read chunk (FIFO to
memory), waits while the FIFO is full or empty, and after the last element completes with one event, in a step of its
own (log 17). After an error event of the chunk no complete event follows and the chain never finishes: whatever any
agent does, ctx stays Running and no event is handled (93 I2). That the elements still move then is log 35's choice.
Element addresses go on at 0 after 2^32-1 by log 14's choice. The element read from memory is `elemRead`'s, what
`LittleEndianMemory` says of it: memory's, or in a race (R97) the old one. -/
def Obligations.ChannelMovesElements : Prop :=
  (∀ (s : State) (b k ce : Nat) (w : Nat), s.Live → nextAgent s = .dma →
    s.chan.state = .running → s.chan.k = k → b < 2 ^ 32 → (w = 1 ∨ w = 2 ∨ w = 4) → 1 ≤ ce →
    ce ≤ s.cfg.dmaMaxCount →
    (k < ce → sysAddr (b + k * w) ≠ s.cfg.fifoAddr → s.chan.desc = descOf s.cfg .write b w ce → step s = .next
      (if s.fifo.length < s.cfg.fifoDepth then { s.turn with
        fifo := s.fifo ++ [elemOfBytes (elemBytes w (elemRead s.turn (sysAddr (b + k * w)) w))]
        chan := { s.chan with k := k + 1 } } else s.turn))
    ∧ (k < ce → sysAddr (b + k * w) ≠ s.cfg.fifoAddr →
      s.chan.desc = descOf s.cfg .read b w ce → step s = .next
      (match s.fifo with
      | [] => s.turn
      | v :: r => { s.turn with
        fifo := r, mem := memWrite s.mem (sysAddr (b + k * w)) w (elemOfBytes (elemBytes w v))
        chan := { s.chan with k := k + 1 } }))
    ∧ (∀ dir, k = ce → s.chan.desc = descOf s.cfg dir b w ce → step s = .next { s.turn with
      chan := { s.chan with state := .complete }
      evtPending := if s.chan.failed then s.evtPending else true }))
  ∧ ∀ s t : State, ChainStuck s → step s = .next t → ChainStuck t ∧ t.ctx = s.ctx

/-- R117, R145, R188, R230 to R236, R240, R297: from every state in which a valid DMA transfer has just
begun, on an idle bus and with no further `Configure` failing, some schedule takes the command to its OK
with the first chunk running, and then the chain to its end: STATE Idle, the channel Off, auto mode on, DONE
in the completion word, one transaction per planned chunk on the bus, and the bytes moved and no others.
Premises as in `BlockingTransferCompletes`, and what it leaves out is left out here. The schedule is log 1's, the
wrap of buffer addresses past 2^32-1 log 14's, the order of Configure calls log 8's. -/
def Obligations.DmaTransferCompletes : Prop :=
  ∀ (s : State) (dir : Dir) (e : BitVec 3), s.Live → s.handling = false → s.exec = true →
    s.todo = [] → decodeCmd s.latch.cmd = transfer true dir e → s.initDone = true →
    chainRunning s = false → OperandsValid s true e → CallerKeeps s true e →
    s.job = none → s.cs = none → s.fifo = [] → s.autoFlight = none → s.evtPending = false →
    (s.chan.state = .off ∨ s.chan.state = .complete) →
    (∀ k, s.configCalls < k → k ∉ s.cfg.configFail) →
    ProfileLoaded s → MemoriesCanonical s →
    (dir = .write → BufferStable s e) → (dir = .write → s.act0.extractLsb' 8 8 ≠ s.act0.extractLsb' 0 8) →
    (s.act2 = 0#32 ∨ (s.latch.addr.toNat % e.toNat = 0 ∧ s.act2.toNat % e.toNat = 0)) →
    let a := s.latch.addr.toNat
    let b := s.latch.buf.toNat
    let p := s.latch.sptr.toNat
    let n := s.latch.count.toNat * e.toNat
    ∃ u t : State, Reaches s u ∧ Reaches u t
      ∧ (u.result = ⟨.ok, false, true⟩ ∧ u.exec = false ∧ u.handling = false ∧ u.todo = []
        ∧ chainRunning u = true ∧ u.chan.state = .running ∧ u.mem = s.mem)
      ∧ (t.result = u.result ∧ t.exec = false ∧ t.handling = false ∧ t.todo = []
        ∧ t.ctx.state = .idle ∧ t.chan.state = .off ∧ t.autoEn = true
        ∧ t.job = none ∧ t.cs = none ∧ t.fifo = [] ∧ memRead t.mem p 4 = 1#32)
      ∧ t.bus = s.bus ++ (planOf s.act2.toNat e.toNat (maxDma s.cfg e.toNat) a s.latch.count.toNat).flatMap
          (fun c => dmaRecords s dir c.addr c.size (dataOf s dir c.addr (b + c.addr - a) c.size))
      ∧ (dir = .write → (∀ j < n, t.psram.get (a + j) = s.mem.get (sysAddr (b + j)))
        ∧ (∀ x, (x < a ∨ a + n ≤ x) → t.psram.get x = s.psram.get x)
        ∧ ∀ x, inStored p 4 x = false → t.mem.get x = s.mem.get x)
      ∧ (dir = .read → t.psram = s.psram
        ∧ (∀ j < n, t.mem.get (sysAddr (b + j)) = s.psram.get (a + j))
        ∧ ∀ x, inStored b n x = false → inStored p 4 x = false → t.mem.get x = s.mem.get x)

/-! ### The controller, the auto path and the device -/

/-- R291: the controller operations whose preconditions hold answer a next state with exactly their effect
and the next epoch; a breach is a fault by name (R295). Where several preconditions fail at once, which of them
the fault names (the bit length, auto mode, BUSY, the chip-select, in that order) is the model's choice (log 34). A
Trigger with chip-select released asserts it, as a
PhaseTx does. That SetWidth with the reserved code 3 is a fault is the model's choice (log 24): R291 gives SetWidth no
precondition. -/
def Obligations.ControllerOperations : Prop :=
  ∀ s : State,
    (∀ w, w ≠ 3#2 → ctlOp s (.setWidth w) = .next { s with curBw := w, epoch := s.epoch + 1 })
    ∧ (∀ e, ctlOp s (.setElem e) = .next { s with curElem := e, epoch := s.epoch + 1 })
    ∧ (∀ b, ctlOp s (.setAutoEn b) = .next { s with
      autoEn := b, autoActive := if b then true else s.autoActive, epoch := s.epoch + 1 })
    ∧ (∀ n v, ctlOp s (.fifoWrite n v) = if s.fifo.length < s.cfg.fifoDepth then
        .next { s with fifo := s.fifo ++ [elemOfBytes (elemBytes n v)], epoch := s.epoch + 1 }
        else .fault .fifoFull)
    ∧ (∀ n v r, s.fifo = v :: r → ctlOp s (.fifoRead n) = .next { s with
      fifo := r, epoch := s.epoch + 1 })
    ∧ (∀ n, s.fifo = [] → ctlOp s (.fifoRead n) = .fault .fifoEmpty)
    ∧ (∀ k n pl cs keep, s.autoEn = false → s.job = none → s.cs = none →
      ctlOp s (.phaseTx k n pl cs keep) = .next { s with
        job := some ⟨k, .tx, n, pl, 0, 0, [], keep, .run⟩, cs := some cs, parser := .opcode
        bus := s.bus ++ [.csAssert cs], epoch := s.epoch + 1 })
    ∧ (∀ k n pl cs keep, s.autoEn = false → s.job = none → s.cs = some cs →
      ctlOp s (.phaseTx k n pl cs keep) = .next { s with
        job := some ⟨k, .tx, n, pl, 0, 0, [], keep, .run⟩, epoch := s.epoch + 1 })
    ∧ (∀ way m cs keep, s.autoEn = false → s.job = none → s.cs = some cs → 0 < m →
      0 < s.curElem.toNat → 8 * s.curElem.toNat * m ≤ s.cfg.ctrlMaxBits →
      ctlOp s (.trigger way (8 * s.curElem.toNat * m) cs keep) = .next { s with
        job := some ⟨.data, way, 8 * s.curElem.toNat * m, [], s.curElem.toNat, m, [], keep, .run⟩
        epoch := s.epoch + 1 })
    ∧ (∀ way m cs keep, s.autoEn = false → s.job = none → s.cs = none → 0 < m →
      0 < s.curElem.toNat → 8 * s.curElem.toNat * m ≤ s.cfg.ctrlMaxBits →
      ctlOp s (.trigger way (8 * s.curElem.toNat * m) cs keep) = .next { s with
        job := some ⟨.data, way, 8 * s.curElem.toNat * m, [], s.curElem.toNat, m, [], keep, .run⟩
        cs := some cs, parser := .opcode, bus := s.bus ++ [.csAssert cs], epoch := s.epoch + 1 })
    ∧ (∀ cs, s.job = none → s.cs = some cs → ctlOp s .deassertCs = .next { s with
      cs := none, parser := .closed, bus := s.bus ++ [.csRelease cs], epoch := s.epoch + 1 })
    ∧ (s.job = none → s.cs = none → ctlOp s .deassertCs = .next { s with epoch := s.epoch + 1 })
    ∧ (∀ k n pl cs keep, s.autoEn = true →
      ctlOp s (.phaseTx k n pl cs keep) = .fault .phaseInAutoMode)
    ∧ (∀ k n pl cs keep, s.autoEn = false → s.job ≠ none →
      ctlOp s (.phaseTx k n pl cs keep) = .fault .controllerBusy)
    ∧ (∀ k n pl cs c keep, s.autoEn = false → s.job = none → s.cs = some c → c ≠ cs →
      ctlOp s (.phaseTx k n pl cs keep) = .fault .otherChipSelect)
    ∧ (∀ way n cs keep,
      let fits := 0 < n ∧ 0 < s.curElem.toNat ∧ n % (8 * s.curElem.toNat) = 0 ∧ n ≤ s.cfg.ctrlMaxBits
      (¬fits → ctlOp s (.trigger way n cs keep) = .fault .triggerLength)
      ∧ (fits → s.autoEn = true → ctlOp s (.trigger way n cs keep) = .fault .phaseInAutoMode)
      ∧ (fits → s.autoEn = false → s.job ≠ none →
        ctlOp s (.trigger way n cs keep) = .fault .controllerBusy)
      ∧ (∀ c, fits → s.autoEn = false → s.job = none → s.cs = some c → c ≠ cs →
        ctlOp s (.trigger way n cs keep) = .fault .otherChipSelect))
    ∧ ctlOp s (.setWidth 3#2) = .fault .reservedWidth
    ∧ (s.job ≠ none → ctlOp s .deassertCs = .fault .controllerBusy)

/-- R293, R294, R299: CTRL's steps. It moves the elements of a data phase one FIFO entry each, in order, and the
bus stalls while the FIFO is empty (TX) or full (RX); a finished phase is recorded, chip-select is then
released when keep_cs = 0, and BUSY cleared. A received element of a write at `a` goes to the device addresses
of its data bytes and nowhere else (where two of them are the same byte, the later one stays); a sent element
of a read at `a` is the device's bytes there. R294 fixes the order of these; that a command, address or dummy phase
moves in one step, a data phase one element a step, and the record, the release and BUSY are three steps is the
model's choice (log 17). That an element sent while no transaction is open (the parser closed) changes nothing of the
device is the model's deduction (log 30): no rule says so. -/
def Obligations.ControllerSteps : Prop :=
  ∀ (s : State) (j : Job), s.Live → nextAgent s = .ctrl → s.job = some j →
    (j.stage = .run → j.kind ≠ .data → ∃ t, step s = .next t
      ∧ t.bus = s.bus ++ [.phase j.kind s.curBw j.way j.nbits (j.payload.take ((j.nbits + 7) / 8))]
      ∧ t.job = some { j with stage := if j.keep then .clear else .drop } ∧ t.cs = s.cs
      ∧ t.fifo = s.fifo)
    ∧ (j.stage = .run → j.kind = .data → j.left = 0 → step s = .next { s.turn with
      bus := s.bus ++ [.phase .data s.curBw j.way j.nbits j.moved]
      job := some { j with stage := if j.keep then .clear else .drop } })
    ∧ (∀ c, j.stage = .drop → s.cs = some c → step s = .next { s.turn with
      cs := none, parser := .closed, bus := s.bus ++ [.csRelease c]
      job := some { j with stage := .clear } })
    ∧ (j.stage = .clear → step s = .next { s.turn with job := none })
    ∧ (j.stage = .run → j.kind = .data → j.left ≠ 0 →
      let went (bytes : List Byte) : Job := { j with left := j.left - 1, moved := j.moved ++ bytes }
      (j.way = .tx → s.fifo = [] → step s = .next s.turn)
      ∧ (∀ v r, j.way = .tx → s.fifo = v :: r → ∃ t, step s = .next t ∧ t.fifo = r ∧ t.bus = s.bus
        ∧ t.cs = s.cs ∧ t.mem = s.mem ∧ t.job = some (went (elemBytes j.elem v))
        ∧ (∀ a i, s.parser = .writeData a i → Memory.wf s.cfg.density s.psram = true →
          t.parser = .writeData a (i + j.elem)
          ∧ (∀ x, (∀ k < j.elem, x ≠ deviceAddr s a (i + k)) → t.psram.get x = s.psram.get x)
          ∧ ∀ k < j.elem, (∀ l, k < l → l < j.elem → deviceAddr s a (i + l) ≠ deviceAddr s a (i + k)) →
            t.psram.get (deviceAddr s a (i + k)) = v.extractLsb' (8 * k) 8)
        ∧ (s.parser = .closed ∨ s.parser = .ignore → t.psram = s.psram ∧ t.parser = s.parser))
      ∧ (j.way = .rx → s.cfg.fifoDepth ≤ s.fifo.length → step s = .next s.turn)
      ∧ (j.way = .rx → s.fifo.length < s.cfg.fifoDepth → ∃ t bytes, step s = .next t
        ∧ bytes.length = j.elem ∧ t.fifo = s.fifo ++ [elemOfBytes bytes] ∧ t.bus = s.bus
        ∧ t.cs = s.cs ∧ t.mem = s.mem ∧ t.psram = s.psram ∧ t.job = some (went bytes)
        ∧ ∀ a i, s.parser = .readData a i → t.parser = .readData a (i + j.elem)
          ∧ bytes = (List.range j.elem).map (fun k => s.psram.get (deviceAddr s a (i + k)))))

/-- R71, R292, R296: AUTOPATH starts a request of R296's form only with AUTO_EN = 1, AUTO_ACTIVE = 1, CS_ASSERTED
= 0 and BUSY = 0, and holds it otherwise; one that starts all the same breaks R292 and is a fault (R295);
AUTO_ACTIVE falls only in CTRL's step with AUTO_EN = 0 and no auto access in flight. The model's choices (log 18):
the OLDEST waiting request is the one that starts; which requests are started early; and that a request outside
R296's form is the fault `autoAccessForm`, which R295 does not list. -/
def Obligations.AutoModeContract : Prop :=
  ∀ s : State, s.Live →
    (∀ q r, nextAgent s = .autopath → s.autoFlight = none → s.autoReqs = q :: r →
      let form := (q.n = 1 ∨ q.n = 2 ∨ q.n = 4) ∧ q.a + q.n ≤ s.cfg.density
      let free := s.autoEn = true ∧ s.autoActive = true ∧ s.cs = none ∧ s.job = none
      (form → free → step s = .next { s.turn with autoFlight := some ⟨q, none⟩, autoReqs := r })
      ∧ (form → ¬free → q.eager = false → step s = .next s.turn)
      ∧ (form → ¬free → q.eager = true → step s = .fault .autoStartBreach)
      ∧ (¬form → step s = .fault .autoAccessForm))
    ∧ (nextAgent s = .ctrlMode → step s = .next
      (if s.autoEn = false ∧ s.autoActive = true ∧ s.autoFlight = none then
        { s.turn with autoActive := false } else s.turn))
    ∧ (∀ t, step s = .next t → s.autoActive = true → t.autoActive = false →
      nextAgent s = .ctrlMode ∧ s.autoEn = false ∧ s.autoFlight = none)

/-- R296: an auto access in flight is performed and recorded, and then ends. That it is performed in one step and
ended in another, so that with its start it takes three, is log 18's choice. A coherent read returns the device's
current bytes, little-endian; one with AUTO_PATH_COHERENT = false returns for each byte its current value or one it
held before, which is a free value's to choose (log 16). A write stores its own bytes, and what the bytes held until
then is recorded in `psramPast`. HOST, waiting for its own access, then has its bytes (log 9). -/
def Obligations.AutoAccessPerforms : Prop :=
  ∀ (s : State) (q : AutoReq), s.Live → nextAgent s = .autopath →
    (s.autoFlight = some ⟨q, none⟩ → q.dir = .read → s.cfg.autoPathCoherent = true →
      let bytes := (List.range q.n).map (fun j => s.psram.get (q.a + j))
      step s = .next { s.turn with
        bus := s.bus ++ [.auto .read q.a bytes], autoFlight := some ⟨q, some (elemOfBytes bytes)⟩ })
    ∧ (s.autoFlight = some ⟨q, none⟩ → q.dir = .read → s.cfg.autoPathCoherent = false → ∃ bytes : List Byte,
      bytes.length = q.n
      ∧ (∀ j < q.n, bytes.getD j 0#8 = s.psram.get (q.a + j) ∨ (q.a + j, bytes.getD j 0#8) ∈ s.psramPast)
      ∧ step s = .next { s.turn with
        bus := s.bus ++ [.auto .read q.a bytes], autoFlight := some ⟨q, some (elemOfBytes bytes)⟩ })
    ∧ (s.autoFlight = some ⟨q, none⟩ → q.dir = .write → MemoriesCanonical s → ∃ t, step s = .next t
      ∧ t.bus = s.bus ++ [.auto .write q.a (elemBytes q.n q.data)]
      ∧ t.autoFlight = some ⟨q, some q.data⟩
      ∧ (∀ j < q.n, t.psram.get (q.a + j) = (elemBytes q.n q.data).getD j 0#8)
      ∧ (∀ x, (x < q.a ∨ q.a + q.n ≤ x) → t.psram.get x = s.psram.get x)
      ∧ ∀ c, c ∈ t.psramPast ↔ c ∈ s.psramPast ∨ ∃ j < q.n, c = (q.a + j, s.psram.get (q.a + j)))
    ∧ (∀ v, s.autoFlight = some ⟨q, some v⟩ → step s = .next { s.turn with
      autoFlight := none, hostPend := if q.fromHost then (match s.hostPend with
        | .waiting done => .part (done ++ elemBytes q.n v)
        | p => p) else s.hostPend })

/-- R113: the address bytes, most significant first, reversed with BSWAP; the device reads the address
back from them whatever BSWAP is (R299). -/
def Obligations.AddressBytes : Prop :=
  ∀ (n a : Nat) (bswap : Bool),
    (abytes n bswap a).length = n
    ∧ (∀ j < n, (abytes n false a).getD j 0#8 = BitVec.ofNat 8 (a / 2 ^ (8 * (n - 1 - j))))
    ∧ abytes n true a = (abytes n false a).reverse
    ∧ addrOfBytes bswap (abytes n bswap a) = a % 2 ^ (8 * n)

/-- R299: the reference device reads opcode and address of a transaction: a write then stores data from
device address a on, a read sends from there after its dummy bits, another opcode is ignored. Data byte i
of a transaction at a is device byte addr_i, which wraps inside the aligned window of WRAP_SIZE bytes. Received
data bytes are stored there and nowhere else (where two have one address, the later one stays), and what an
address held right before each is recorded in `psramPast` (R296); sent ones are read there. -/
def Obligations.DeviceParsesTransaction : Prop :=
  (∀ (s : State) (a i : Nat), 0 < s.cfg.density →
    (s.act2 = 0#32 → deviceAddr s a i = (a + i) % s.cfg.density)
    ∧ (s.act2 ≠ 0#32 → a - a % s.act2.toNat + s.act2.toNat ≤ s.cfg.density →
      deviceAddr s a i / s.act2.toNat = a / s.act2.toNat
      ∧ deviceAddr s a i % s.act2.toNat = (a + i) % s.act2.toNat))
  ∧ (∀ (s : State) (a : Nat), s.parser = .opcode → 0 < s.addrBytes.toNat →
    a < 2 ^ (8 * s.addrBytes.toNat) →
    let n := s.addrBytes.toNat
    let ab := abytes n (s.act0.getLsbD 28) a
    let rd : Byte := s.act0.extractLsb' 0 8
    let wr : Byte := s.act0.extractLsb' 8 8
    let dummy := dummyBits s.act0 s.act1
    (wr ≠ rd → deviceReceive s (8 * (1 + n)) (wr :: ab) = { s with parser := .writeData a 0 })
    ∧ deviceReceive s (8 * (1 + n)) (rd :: ab) =
      { s with parser := if dummy = 0 then .readData a 0 else .dummy a dummy }
    ∧ (∀ op : Byte, op ≠ rd → op ≠ wr →
      deviceReceive s (8 * (1 + n)) (op :: ab) = { s with parser := .ignore }))
  ∧ (∀ (s : State) (a i : Nat) (bs : List Byte), s.parser = .writeData a i → 0 < s.cfg.density →
    Memory.wf s.cfg.density s.psram = true →
    let t := deviceReceive s (8 * bs.length) bs
    t.parser = .writeData a (i + bs.length)
    ∧ (∀ x, (∀ k < bs.length, x ≠ deviceAddr s a (i + k)) → t.psram.get x = s.psram.get x)
    ∧ (∀ k < bs.length, (∀ l, k < l → l < bs.length → deviceAddr s a (i + l) ≠ deviceAddr s a (i + k)) →
      t.psram.get (deviceAddr s a (i + k)) = bs.getD k 0#8)
    ∧ ∀ c, c ∈ t.psramPast ↔ c ∈ s.psramPast ∨ ∃ k < bs.length, c = (deviceAddr s a (i + k),
      (deviceReceive s (8 * k) (bs.take k)).psram.get (deviceAddr s a (i + k))))
  ∧ ∀ (s : State) (a i j n : Nat), s.parser = .readData a i →
    deviceSendBytes s j n = ((List.range n).map (fun k => s.psram.get (deviceAddr s a (i + k))),
      { s with parser := .readData a (i + n) })

/-- R75, R84: memory is little-endian: what MemWrite stores, byte by byte, and what MemRead returns; a
word of 1, 2 or 4 bytes reads back. R97, R304, R328: what a transfer's reads of its buffer (`.write`) and HOST's loads
(`.read`) find while a transfer of that direction is in progress: each element of the buffer entire as it is now or
entire as it was, memory as it is where nothing of the buffer has changed, outside it, or without a transfer. Old is
what memory held at the command's acceptance, which is log 32's choice; which of the two is a free value's. -/
def Obligations.LittleEndianMemory : Prop :=
  (∀ (m : Memory) (a n : Nat) (v : Word), Memory.wf addressSpace m = true → n ≤ 4 →
    (∀ j < n, (memWrite m a n v).get (sysAddr (a + j)) = v.extractLsb' (8 * j) 8)
    ∧ (memRead m a n).toNat = ((List.range n).map (fun j => (m.get (sysAddr (a + j))).toNat * 2 ^ (8 * j))).sum
    ∧ memRead (memWrite m a n v) a n = v &&& BitVec.ofNat 32 (2 ^ (8 * n) - 1))
  ∧ ∀ (s : State) (d : Dir) (a n : Nat),
    let bytes := racedBytes d s a n
    let now (j : Nat) := s.mem.get (sysAddr (a + j))
    bytes.length = n ∧ (d = .write → elemRead s a n = elemOfBytes bytes)
    ∧ (s.race = none → bytes = memBytes s.mem a n)
    ∧ ∀ r, s.race = some r →
      let was (j : Nat) := r.before.get (sysAddr (a + j))
      let inside (j : Nat) := r.dir = d ∧ offsetFrom (a + j) r.buf < r.n
      (∀ j < n, ¬inside j → bytes.getD j 0#8 = now j)
      ∧ ((∀ j < n, inside j → was j = now j) → bytes = memBytes s.mem a n)
      ∧ ∀ k,
        let ofElement (j : Nat) := j < n ∧ inside j ∧ offsetFrom (a + j) r.buf / r.esz = k
        (∀ j, ofElement j → bytes.getD j 0#8 = now j) ∨ (∀ j, ofElement j → bytes.getD j 0#8 = was j)

/-! ### The register block -/

/-- R31, R32, R40, R80, R122, R270: the block. An aligned 32-bit access of HOST reaches the register at its
offset, and every other one that meets the block is refused (R304). Each read/write register returns what was
written (PROF1 its low 8 bits), read-only registers and unlisted offsets ignore writes, and CMD and unlisted
offsets read 0. That the acceptance of a command notes memory as it is, for the races of R97, is log 32's choice. -/
def Obligations.RegisterBlock : Prop :=
  (∀ (s : State) (act : HostAct) (r : List HostAct) (dir : Dir) (addr n v : Nat), s.Live →
    nextAgent s = .host → s.hostPend = .idle → s.hostProg = act :: r →
    hostForm act = some (dir, addr, n, v) →
    (∀ off < 0x100, addr = s.cfg.engineBase + off → n = 4 → off % 4 = 0 →
      let w := readOffset s off
      (act = .load addr n → step s = .next { s.turn with
        hostProg := r, hostLog := s.hostLog ++ [w.toNat] })
      ∧ (∀ mask value, act = .poll addr mask value → step s = .next
        (if w &&& mask = value then { s.turn with hostProg := r, hostLog := s.hostLog ++ [w.toNat] }
          else s.turn))
      ∧ (act = .store addr n v → step s = .next
        { writeOffset s.turn off (BitVec.ofNat 32 v) with hostProg := r }))
    ∧ (ShareByte addr n s.cfg.engineBase 0x100 → n ≠ 4 ∨ addr % 4 ≠ 0 →
      step s = .refused .registerAccess))
  ∧ ∀ (s : State) (v : Word),
    (∀ off ∈ [0x04, 0x08, 0x0C, 0x10, 0x20, 0x28], readOffset (writeOffset s off v) off = v)
    ∧ readOffset (writeOffset s 0x24 v) 0x24 = v &&& 0xFF#32
    ∧ (∀ off ∈ [0x14, 0x18, 0x30, 0x34, 0x38, 0x40, 0x44, 0x48, 0x4C, 0x50], writeOffset s off v = s)
    ∧ (∀ off, off ∉ [0x00, 0x04, 0x08, 0x0C, 0x10, 0x14, 0x18, 0x20, 0x24, 0x28, 0x30, 0x34, 0x38,
        0x40, 0x44, 0x48, 0x4C, 0x50] → readOffset s off = 0#32 ∧ writeOffset s off v = s)
    ∧ readOffset s 0x00 = 0#32
    ∧ (s.latch.valid = false → s.exec = false → (writeOffset s 0x00 v).memAtCmd = s.mem)

/-- R37, R38, R42, R48, R54, R106, R118: the fields of RESULT, ESTATUS and CTX_INFO as HOST reads them, the active
profile in ACT0 to ACT2 (0 while INIT_DONE = 0, as log 2 reads R42 beside R265; ACT1 has PROF1's 8 bits), and the
SEQ_STATE codes: of each operation, of an instruction at its first line, and of each line. A command's first line
is DECODE's, with a transfer's VALIDATE (R200, R269). That a mode command's own lines show DECODE (0x01) too is log
21's choice; how the lines are cut is log 2's grain. -/
def Obligations.StatusFields : Prop :=
  ∀ s : State,
    (let r := readOffset s 0x14;
      r.extractLsb' 0 4 = codeBits s.result.code ∧ r.getLsbD 4 = s.result.prevAuto
        ∧ r.extractLsb' 5 26 = 0#26 ∧ r.getLsbD 31 = s.result.valid)
    ∧ (let r := readOffset s 0x18;
      r.getLsbD 0 = (s.latch.valid || s.exec) ∧ r.getLsbD 1 = (s.evtPending || s.handling)
        ∧ r.extractLsb' 2 2 = ctxStateBits s.ctx.state ∧ r.getLsbD 4 = s.autoEn
        ∧ r.getLsbD 5 = s.initDone ∧ r.getLsbD 6 = s.overrun ∧ r.getLsbD 7 = false
        ∧ r.extractLsb' 8 8 = seqCode s ∧ r.extractLsb' 16 16 = 0#16)
    ∧ (let r := readOffset s 0x4C;
      r.extractLsb' 0 3 = s.ctx.esz ∧ r.getLsbD 3 = decide (s.ctx.dir = .read)
        ∧ r.extractLsb' 4 28 = 0#28)
    ∧ [Code.ok, .invalidSize, .nullBuffer, .outOfRange, .busy, .notInitialized, .failed, .timeout,
        .alreadyInitialized, .illegalCommand, .invalidProfile].map codeBits
      = [0#4, 1#4, 2#4, 3#4, 4#4, 5#4, 6#4, 7#4, 8#4, 9#4, 10#4]
    ∧ [CtxState.idle, .writeRunning, .readRunning, .failed].map ctxStateBits = [0#2, 1#2, 2#2, 3#2]
    ∧ ([SeqOp.idle, .decode, .init, .arbManual, .arbAuto, .planChunk, .caSeq, .drivePhase, .pumpWrite,
        .pumpRead, .blocking, .dmaBegin, .dmaIssue, .dmaComplete].map seqOpCode
      = [0x00#8, 0x01#8, 0x02#8, 0x10#8, 0x11#8, 0x20#8, 0x30#8, 0x31#8, 0x32#8, 0x33#8, 0x40#8, 0x50#8,
        0x51#8, 0x52#8])
    ∧ (s.todo = [] → seqCode s =
      if s.handling then 0x52#8
      else if s.exec then 0x01#8 else 0x00#8)
    ∧ (∀ a r, s.todo = a :: r → seqCode s = match a with
      | .wait op _ | .ctl op _ | .fifoCheck op | .finish op _ _ | .ctxState op _ => seqOpCode op
      | .setPrevAuto _ => 0x01#8
      | .initTest _ | .setProfile _ => 0x02#8
      | .arbTest .manual _ => 0x10#8
      | .arbTest .auto _ => 0x11#8
      | .plan _ | .dmaPlan _ _ => 0x20#8
      | .caSeq _ _ | .caAddr _ | .caDummy _ => 0x30#8
      | .pumpWrite .. | .pushElem _ _ => 0x32#8
      | .pumpRead .. | .popElem _ _ | .store .. => 0x33#8
      | .busyTest false _ _ | .setWork _ | .loop _ | .callPump _ _ | .advAddr _ | .advBuf _ | .advRem _
      | .restore => 0x40#8
      | .busyTest true _ _ => 0x50#8
      | .dmaIssue _ _ | .dmaArm .. | .dmaConfigure .. | .dmaEnable | .dmaTrigger => 0x51#8
      | .dmaDisable | .dmaNext | .completion _ | .leave => 0x52#8)
    ∧ readOffset s 0x40 = s.ctx.addr ∧ readOffset s 0x44 = s.ctx.buf ∧ readOffset s 0x48 = s.ctx.rem
    ∧ readOffset s 0x50 = s.ctx.sptr
    ∧ (s.initDone = true → readOffset s 0x30 = s.act0 ∧ readOffset s 0x34 = s.act1 &&& 0xFF#32
      ∧ readOffset s 0x38 = s.act2)
    ∧ (s.initDone = false → readOffset s 0x30 = 0#32 ∧ readOffset s 0x34 = 0#32 ∧ readOffset s 0x38 = 0#32)

/-- R260, R261: a HOST write to CMD: accepted with snapshots when nothing is latched or executing, else
dropped with OVERRUN set. `memAtCmd` is the model's own field (log 32); `RegisterBlock` says what it is. -/
def Obligations.CommandAcceptance : Prop :=
  ∀ (s : State) (w : Word) (r : List HostAct), s.Live → nextAgent s = .host →
    s.hostPend = .idle → s.hostProg = .store s.cfg.engineBase 4 w.toNat :: r →
    (s.latch.valid = false → s.exec = false → ∃ m, step s = .next { s.turn with
      latch := ⟨true, w, s.addr, s.buf, s.count, s.statusPtr, s.prof0, s.prof1, s.prof2⟩
      result := { s.result with valid := false }, overrun := false, memAtCmd := m, hostProg := r })
    ∧ (s.latch.valid = true ∨ s.exec = true → step s = .next { s.turn with
      overrun := true, hostProg := r })

/-- R70, R71, R97, R122, R296, R326, R328: HOST's accesses outside the register block. System memory, of any number of
bytes, in one step: a store puts its bytes little-endian and no others, a load returns the number they make, a poll
ends on a match and is repeated otherwise. Each byte read is memory's, or, of the buffer of a read transfer in
progress, the one it held at the command's acceptance (R97; log 32; `LittleEndianMemory` says it of whole elements).
The auto window, in R296's form: HOST asks AUTOPATH and holds until the access has ended. An access that meets the
window in another form goes byte by byte, each byte by AUTOPATH or from memory (log 10); a HOST that has moved its
bytes ends its action (log 9). The controller's FIFO word, and the two actions that break R327, are faults. Memory
past 2^32-1 goes on at 0 (log 14). -/
def Obligations.HostAccesses : Prop :=
  ∀ (s : State) (act : HostAct) (r : List HostAct), s.Live → nextAgent s = .host →
    s.hostProg = act :: r →
    (s.hostPend = .idle → act = .touchCtrl → step s = .fault .hostTouchedController)
    ∧ (s.hostPend = .idle → act = .touchDma → step s = .fault .hostTouchedChannel)
    ∧ (∀ done, s.hostPend = .waiting done → step s = .next s.turn)
    ∧ ∀ (dir : Dir) (addr n v : Nat), hostForm act = some (dir, addr, n, v) →
      let engine := ShareByte addr n s.cfg.engineBase 0x100
      let fifo := ShareByte addr n s.cfg.fifoAddr 4
      let window := ShareByte addr n s.cfg.autoBase s.cfg.density
      let number (bs : List Byte) : Nat := ((List.range bs.length).map
        (fun j => (bs.getD j 0#8).toNat * 256 ^ j)).sum
      let mayBe (x : Nat) (b : Byte) := b = s.mem.get (sysAddr x) ∨ ∃ q, s.race = some q ∧ q.dir = .read
        ∧ offsetFrom x q.buf < q.n ∧ b = q.before.get (sysAddr x)
      (s.hostPend = .idle → ¬engine → fifo → step s = .fault .hostTouchedController)
      ∧ (s.hostPend = .idle → ¬engine → ¬fifo → ¬window →
        (act = .store addr n v → ∃ m, step s = .next { s.turn with mem := m, hostProg := r }
          ∧ (Memory.wf addressSpace s.mem = true → n ≤ addressSpace →
            ∀ j < n, m.get (sysAddr (addr + j)) = BitVec.ofNat 8 (v / 256 ^ j))
          ∧ ∀ x, inStored addr n x = false → m.get x = s.mem.get x)
        ∧ (act = .load addr n → ∃ bytes : List Byte, bytes.length = n
          ∧ (∀ j < n, mayBe (addr + j) (bytes.getD j 0#8))
          ∧ step s = .next { s.turn with hostProg := r, hostLog := s.hostLog ++ [number bytes] })
        ∧ (∀ mask value, act = .poll addr mask value → ∃ bytes : List Byte, bytes.length = 4
          ∧ (∀ j < 4, mayBe (addr + j) (bytes.getD j 0#8)) ∧
          let w := elemOfBytes bytes
          step s = .next (if w &&& mask = value then
            { s.turn with hostProg := r, hostLog := s.hostLog ++ [w.toNat] } else s.turn)))
      ∧ (∀ d, s.hostPend = .idle → ¬engine → ¬fifo → addr = s.cfg.autoBase + d →
        (n = 1 ∨ n = 2 ∨ n = 4) → d + n ≤ s.cfg.density → step s = .next { s.turn with
          autoReqs := s.autoReqs ++ [⟨dir, d, n, BitVec.ofNat 32 v, true, false⟩]
          hostPend := .waiting [] })
      ∧ (s.hostPend = .idle → ¬engine → ¬fifo → window →
        (¬(n = 1 ∨ n = 2 ∨ n = 4) ∨ ∀ d, d + n ≤ s.cfg.density →
          sysAddr addr ≠ sysAddr (s.cfg.autoBase + d)) →
        step s = .next { s.turn with hostPend := .part [] })
      ∧ ∀ done, s.hostPend = .part done →
        let byte := BitVec.ofNat 8 (v / 256 ^ done.length)
        let at_ := sysAddr (addr + done.length)
        (done.length < n → (∀ d < s.cfg.density, at_ = sysAddr (s.cfg.autoBase + d) →
            step s = .next { s.turn with
              autoReqs := s.autoReqs ++ [⟨dir, d, 1, BitVec.ofNat 32 byte.toNat, true, false⟩]
              hostPend := .waiting done })
          ∧ ((∀ d < s.cfg.density, at_ ≠ sysAddr (s.cfg.autoBase + d)) →
            (dir = .read → ∃ b, mayBe (addr + done.length) b
              ∧ step s = .next { s.turn with hostPend := .part (done ++ [b]) })
            ∧ (dir = .write → step s = .next { s.turn with
              mem := s.mem.put at_ byte, hostPend := .part (done ++ [byte]) })))
        ∧ (n ≤ done.length →
          (act = .store addr n v → step s = .next { s.turn with hostProg := r, hostPend := .idle })
          ∧ (act = .load addr n → step s = .next { s.turn with
            hostProg := r, hostPend := .idle, hostLog := s.hostLog ++ [number done] })
          ∧ (∀ mask value, act = .poll addr mask value →
            let w := elemOfBytes done
            step s = .next (if w &&& mask = value then
              { s.turn with hostProg := r, hostPend := .idle, hostLog := s.hostLog ++ [w.toNat] }
              else { s.turn with hostPend := .idle })))

end
end

