-- ==== Sys2Proof/Laws/State.lean ====
section
/-! SUPPORT. One lemma per field for each named update of State, true by rfl, so that no later proof
unfolds a record update. -/

-- Hundreds of one-line theorems: elaborated one after another, so that no flood of threads is started.
set_option Elab.async false

namespace Sys2Proof.Machine

/-! ### State.goto -/

@[simp] theorem State.goto_cfg (s : State) (l : List Act) : (s.goto l).cfg = s.cfg := rfl
@[simp] theorem State.goto_addr (s : State) (l : List Act) : (s.goto l).addr = s.addr := rfl
@[simp] theorem State.goto_buf (s : State) (l : List Act) : (s.goto l).buf = s.buf := rfl
@[simp] theorem State.goto_count (s : State) (l : List Act) : (s.goto l).count = s.count := rfl
@[simp] theorem State.goto_statusPtr (s : State) (l : List Act) : (s.goto l).statusPtr = s.statusPtr := rfl
@[simp] theorem State.goto_result (s : State) (l : List Act) : (s.goto l).result = s.result := rfl
@[simp] theorem State.goto_prof0 (s : State) (l : List Act) : (s.goto l).prof0 = s.prof0 := rfl
@[simp] theorem State.goto_prof1 (s : State) (l : List Act) : (s.goto l).prof1 = s.prof1 := rfl
@[simp] theorem State.goto_prof2 (s : State) (l : List Act) : (s.goto l).prof2 = s.prof2 := rfl
@[simp] theorem State.goto_act0 (s : State) (l : List Act) : (s.goto l).act0 = s.act0 := rfl
@[simp] theorem State.goto_act1 (s : State) (l : List Act) : (s.goto l).act1 = s.act1 := rfl
@[simp] theorem State.goto_act2 (s : State) (l : List Act) : (s.goto l).act2 = s.act2 := rfl
@[simp] theorem State.goto_addrBytes (s : State) (l : List Act) : (s.goto l).addrBytes = s.addrBytes := rfl
@[simp] theorem State.goto_enc (s : State) (l : List Act) : (s.goto l).enc = s.enc := rfl
@[simp] theorem State.goto_initDone (s : State) (l : List Act) : (s.goto l).initDone = s.initDone := rfl
@[simp] theorem State.goto_latch (s : State) (l : List Act) : (s.goto l).latch = s.latch := rfl
@[simp] theorem State.goto_exec (s : State) (l : List Act) : (s.goto l).exec = s.exec := rfl
@[simp] theorem State.goto_overrun (s : State) (l : List Act) : (s.goto l).overrun = s.overrun := rfl
@[simp] theorem State.goto_ctx (s : State) (l : List Act) : (s.goto l).ctx = s.ctx := rfl
@[simp] theorem State.goto_work (s : State) (l : List Act) : (s.goto l).work = s.work := rfl
@[simp] theorem State.goto_evtPending (s : State) (l : List Act) : (s.goto l).evtPending = s.evtPending := rfl
@[simp] theorem State.goto_handling (s : State) (l : List Act) : (s.goto l).handling = s.handling := rfl
@[simp] theorem State.goto_epoch (s : State) (l : List Act) : (s.goto l).epoch = s.epoch := rfl
@[simp] theorem State.goto_sync (s : State) (l : List Act) : (s.goto l).sync = s.sync := rfl
@[simp] theorem State.goto_todo (s : State) (l : List Act) : (s.goto l).todo = l := rfl
@[simp] theorem State.goto_autoEn (s : State) (l : List Act) : (s.goto l).autoEn = s.autoEn := rfl
@[simp] theorem State.goto_autoActive (s : State) (l : List Act) : (s.goto l).autoActive = s.autoActive := rfl
@[simp] theorem State.goto_job (s : State) (l : List Act) : (s.goto l).job = s.job := rfl
@[simp] theorem State.goto_cs (s : State) (l : List Act) : (s.goto l).cs = s.cs := rfl
@[simp] theorem State.goto_fifo (s : State) (l : List Act) : (s.goto l).fifo = s.fifo := rfl
@[simp] theorem State.goto_curBw (s : State) (l : List Act) : (s.goto l).curBw = s.curBw := rfl
@[simp] theorem State.goto_curElem (s : State) (l : List Act) : (s.goto l).curElem = s.curElem := rfl
@[simp] theorem State.goto_autoReqs (s : State) (l : List Act) : (s.goto l).autoReqs = s.autoReqs := rfl
@[simp] theorem State.goto_autoFlight (s : State) (l : List Act) : (s.goto l).autoFlight = s.autoFlight := rfl
@[simp] theorem State.goto_chan (s : State) (l : List Act) : (s.goto l).chan = s.chan := rfl
@[simp] theorem State.goto_configCalls (s : State) (l : List Act) : (s.goto l).configCalls = s.configCalls := rfl
@[simp] theorem State.goto_events (s : State) (l : List Act) : (s.goto l).events = s.events := rfl
@[simp] theorem State.goto_psram (s : State) (l : List Act) : (s.goto l).psram = s.psram := rfl
@[simp] theorem State.goto_psramPast (s : State) (l : List Act) : (s.goto l).psramPast = s.psramPast := rfl
@[simp] theorem State.goto_parser (s : State) (l : List Act) : (s.goto l).parser = s.parser := rfl
@[simp] theorem State.goto_mem (s : State) (l : List Act) : (s.goto l).mem = s.mem := rfl
@[simp] theorem State.goto_hostProg (s : State) (l : List Act) : (s.goto l).hostProg = s.hostProg := rfl
@[simp] theorem State.goto_hostPend (s : State) (l : List Act) : (s.goto l).hostPend = s.hostPend := rfl
@[simp] theorem State.goto_hostLog (s : State) (l : List Act) : (s.goto l).hostLog = s.hostLog := rfl
@[simp] theorem State.goto_memAtCmd (s : State) (l : List Act) : (s.goto l).memAtCmd = s.memAtCmd := rfl
@[simp] theorem State.goto_race (s : State) (l : List Act) : (s.goto l).race = s.race := rfl
@[simp] theorem State.goto_launched (s : State) (l : List Act) : (s.goto l).launched = s.launched := rfl
@[simp] theorem State.goto_cpuReqs (s : State) (l : List Act) : (s.goto l).cpuReqs = s.cpuReqs := rfl
@[simp] theorem State.goto_bus (s : State) (l : List Act) : (s.goto l).bus = s.bus := rfl
@[simp] theorem State.goto_sched (s : State) (l : List Act) : (s.goto l).sched = s.sched := rfl
@[simp] theorem State.goto_tick (s : State) (l : List Act) : (s.goto l).tick = s.tick := rfl

/-! ### State.finish -/

@[simp] theorem State.finish_cfg (s : State) (c : Code) (p : Bool) : (s.finish c p).cfg = s.cfg := rfl
@[simp] theorem State.finish_addr (s : State) (c : Code) (p : Bool) : (s.finish c p).addr = s.addr := rfl
@[simp] theorem State.finish_buf (s : State) (c : Code) (p : Bool) : (s.finish c p).buf = s.buf := rfl
@[simp] theorem State.finish_count (s : State) (c : Code) (p : Bool) : (s.finish c p).count = s.count := rfl
@[simp] theorem State.finish_statusPtr (s : State) (c : Code) (p : Bool) : (s.finish c p).statusPtr = s.statusPtr := rfl
@[simp] theorem State.finish_result (s : State) (c : Code) (p : Bool) : (s.finish c p).result = ⟨c, p, true⟩ := rfl
@[simp] theorem State.finish_prof0 (s : State) (c : Code) (p : Bool) : (s.finish c p).prof0 = s.prof0 := rfl
@[simp] theorem State.finish_prof1 (s : State) (c : Code) (p : Bool) : (s.finish c p).prof1 = s.prof1 := rfl
@[simp] theorem State.finish_prof2 (s : State) (c : Code) (p : Bool) : (s.finish c p).prof2 = s.prof2 := rfl
@[simp] theorem State.finish_act0 (s : State) (c : Code) (p : Bool) : (s.finish c p).act0 = s.act0 := rfl
@[simp] theorem State.finish_act1 (s : State) (c : Code) (p : Bool) : (s.finish c p).act1 = s.act1 := rfl
@[simp] theorem State.finish_act2 (s : State) (c : Code) (p : Bool) : (s.finish c p).act2 = s.act2 := rfl
@[simp] theorem State.finish_addrBytes (s : State) (c : Code) (p : Bool) : (s.finish c p).addrBytes = s.addrBytes := rfl
@[simp] theorem State.finish_enc (s : State) (c : Code) (p : Bool) : (s.finish c p).enc = s.enc := rfl
@[simp] theorem State.finish_initDone (s : State) (c : Code) (p : Bool) : (s.finish c p).initDone = s.initDone := rfl
@[simp] theorem State.finish_latch (s : State) (c : Code) (p : Bool) : (s.finish c p).latch = s.latch := rfl
@[simp] theorem State.finish_exec (s : State) (c : Code) (p : Bool) : (s.finish c p).exec = false := rfl
@[simp] theorem State.finish_overrun (s : State) (c : Code) (p : Bool) : (s.finish c p).overrun = s.overrun := rfl
@[simp] theorem State.finish_ctx (s : State) (c : Code) (p : Bool) : (s.finish c p).ctx = s.ctx := rfl
@[simp] theorem State.finish_work (s : State) (c : Code) (p : Bool) : (s.finish c p).work = s.work := rfl
@[simp] theorem State.finish_evtPending (s : State) (c : Code) (p : Bool) : (s.finish c p).evtPending = s.evtPending := rfl
@[simp] theorem State.finish_handling (s : State) (c : Code) (p : Bool) : (s.finish c p).handling = s.handling := rfl
@[simp] theorem State.finish_epoch (s : State) (c : Code) (p : Bool) : (s.finish c p).epoch = s.epoch := rfl
@[simp] theorem State.finish_sync (s : State) (c : Code) (p : Bool) : (s.finish c p).sync = s.sync := rfl
@[simp] theorem State.finish_todo (s : State) (c : Code) (p : Bool) : (s.finish c p).todo = [] := rfl
@[simp] theorem State.finish_autoEn (s : State) (c : Code) (p : Bool) : (s.finish c p).autoEn = s.autoEn := rfl
@[simp] theorem State.finish_autoActive (s : State) (c : Code) (p : Bool) : (s.finish c p).autoActive = s.autoActive := rfl
@[simp] theorem State.finish_job (s : State) (c : Code) (p : Bool) : (s.finish c p).job = s.job := rfl
@[simp] theorem State.finish_cs (s : State) (c : Code) (p : Bool) : (s.finish c p).cs = s.cs := rfl
@[simp] theorem State.finish_fifo (s : State) (c : Code) (p : Bool) : (s.finish c p).fifo = s.fifo := rfl
@[simp] theorem State.finish_curBw (s : State) (c : Code) (p : Bool) : (s.finish c p).curBw = s.curBw := rfl
@[simp] theorem State.finish_curElem (s : State) (c : Code) (p : Bool) : (s.finish c p).curElem = s.curElem := rfl
@[simp] theorem State.finish_autoReqs (s : State) (c : Code) (p : Bool) : (s.finish c p).autoReqs = s.autoReqs := rfl
@[simp] theorem State.finish_autoFlight (s : State) (c : Code) (p : Bool) : (s.finish c p).autoFlight = s.autoFlight := rfl
@[simp] theorem State.finish_chan (s : State) (c : Code) (p : Bool) : (s.finish c p).chan = s.chan := rfl
@[simp] theorem State.finish_configCalls (s : State) (c : Code) (p : Bool) : (s.finish c p).configCalls = s.configCalls := rfl
@[simp] theorem State.finish_events (s : State) (c : Code) (p : Bool) : (s.finish c p).events = s.events := rfl
@[simp] theorem State.finish_psram (s : State) (c : Code) (p : Bool) : (s.finish c p).psram = s.psram := rfl
@[simp] theorem State.finish_psramPast (s : State) (c : Code) (p : Bool) : (s.finish c p).psramPast = s.psramPast := rfl
@[simp] theorem State.finish_parser (s : State) (c : Code) (p : Bool) : (s.finish c p).parser = s.parser := rfl
@[simp] theorem State.finish_mem (s : State) (c : Code) (p : Bool) : (s.finish c p).mem = s.mem := rfl
@[simp] theorem State.finish_hostProg (s : State) (c : Code) (p : Bool) : (s.finish c p).hostProg = s.hostProg := rfl
@[simp] theorem State.finish_hostPend (s : State) (c : Code) (p : Bool) : (s.finish c p).hostPend = s.hostPend := rfl
@[simp] theorem State.finish_hostLog (s : State) (c : Code) (p : Bool) : (s.finish c p).hostLog = s.hostLog := rfl
@[simp] theorem State.finish_memAtCmd (s : State) (c : Code) (p : Bool) : (s.finish c p).memAtCmd = s.memAtCmd := rfl
@[simp] theorem State.finish_race (s : State) (c : Code) (p : Bool) : (s.finish c p).race = s.race := rfl
@[simp] theorem State.finish_launched (s : State) (c : Code) (p : Bool) : (s.finish c p).launched = s.launched := rfl
@[simp] theorem State.finish_cpuReqs (s : State) (c : Code) (p : Bool) : (s.finish c p).cpuReqs = s.cpuReqs := rfl
@[simp] theorem State.finish_bus (s : State) (c : Code) (p : Bool) : (s.finish c p).bus = s.bus := rfl
@[simp] theorem State.finish_sched (s : State) (c : Code) (p : Bool) : (s.finish c p).sched = s.sched := rfl
@[simp] theorem State.finish_tick (s : State) (c : Code) (p : Bool) : (s.finish c p).tick = s.tick := rfl

/-! ### State.enterEvent -/

@[simp] theorem State.enterEvent_cfg (s : State) : s.enterEvent.cfg = s.cfg := rfl
@[simp] theorem State.enterEvent_addr (s : State) : s.enterEvent.addr = s.addr := rfl
@[simp] theorem State.enterEvent_buf (s : State) : s.enterEvent.buf = s.buf := rfl
@[simp] theorem State.enterEvent_count (s : State) : s.enterEvent.count = s.count := rfl
@[simp] theorem State.enterEvent_statusPtr (s : State) : s.enterEvent.statusPtr = s.statusPtr := rfl
@[simp] theorem State.enterEvent_result (s : State) : s.enterEvent.result = s.result := rfl
@[simp] theorem State.enterEvent_prof0 (s : State) : s.enterEvent.prof0 = s.prof0 := rfl
@[simp] theorem State.enterEvent_prof1 (s : State) : s.enterEvent.prof1 = s.prof1 := rfl
@[simp] theorem State.enterEvent_prof2 (s : State) : s.enterEvent.prof2 = s.prof2 := rfl
@[simp] theorem State.enterEvent_act0 (s : State) : s.enterEvent.act0 = s.act0 := rfl
@[simp] theorem State.enterEvent_act1 (s : State) : s.enterEvent.act1 = s.act1 := rfl
@[simp] theorem State.enterEvent_act2 (s : State) : s.enterEvent.act2 = s.act2 := rfl
@[simp] theorem State.enterEvent_addrBytes (s : State) : s.enterEvent.addrBytes = s.addrBytes := rfl
@[simp] theorem State.enterEvent_enc (s : State) : s.enterEvent.enc = s.enc := rfl
@[simp] theorem State.enterEvent_initDone (s : State) : s.enterEvent.initDone = s.initDone := rfl
@[simp] theorem State.enterEvent_latch (s : State) : s.enterEvent.latch = s.latch := rfl
@[simp] theorem State.enterEvent_exec (s : State) : s.enterEvent.exec = s.exec := rfl
@[simp] theorem State.enterEvent_overrun (s : State) : s.enterEvent.overrun = s.overrun := rfl
@[simp] theorem State.enterEvent_ctx (s : State) : s.enterEvent.ctx = s.ctx := rfl
@[simp] theorem State.enterEvent_work (s : State) : s.enterEvent.work = s.work := rfl
@[simp] theorem State.enterEvent_evtPending (s : State) : s.enterEvent.evtPending = false := rfl
@[simp] theorem State.enterEvent_handling (s : State) : s.enterEvent.handling = true := rfl
@[simp] theorem State.enterEvent_epoch (s : State) : s.enterEvent.epoch = s.epoch := rfl
@[simp] theorem State.enterEvent_sync (s : State) : s.enterEvent.sync = s.sync := rfl
@[simp] theorem State.enterEvent_todo (s : State) : s.enterEvent.todo = [] := rfl
@[simp] theorem State.enterEvent_autoEn (s : State) : s.enterEvent.autoEn = s.autoEn := rfl
@[simp] theorem State.enterEvent_autoActive (s : State) : s.enterEvent.autoActive = s.autoActive := rfl
@[simp] theorem State.enterEvent_job (s : State) : s.enterEvent.job = s.job := rfl
@[simp] theorem State.enterEvent_cs (s : State) : s.enterEvent.cs = s.cs := rfl
@[simp] theorem State.enterEvent_fifo (s : State) : s.enterEvent.fifo = s.fifo := rfl
@[simp] theorem State.enterEvent_curBw (s : State) : s.enterEvent.curBw = s.curBw := rfl
@[simp] theorem State.enterEvent_curElem (s : State) : s.enterEvent.curElem = s.curElem := rfl
@[simp] theorem State.enterEvent_autoReqs (s : State) : s.enterEvent.autoReqs = s.autoReqs := rfl
@[simp] theorem State.enterEvent_autoFlight (s : State) : s.enterEvent.autoFlight = s.autoFlight := rfl
@[simp] theorem State.enterEvent_chan (s : State) : s.enterEvent.chan = s.chan := rfl
@[simp] theorem State.enterEvent_configCalls (s : State) : s.enterEvent.configCalls = s.configCalls := rfl
@[simp] theorem State.enterEvent_events (s : State) : s.enterEvent.events = s.events := rfl
@[simp] theorem State.enterEvent_psram (s : State) : s.enterEvent.psram = s.psram := rfl
@[simp] theorem State.enterEvent_psramPast (s : State) : s.enterEvent.psramPast = s.psramPast := rfl
@[simp] theorem State.enterEvent_parser (s : State) : s.enterEvent.parser = s.parser := rfl
@[simp] theorem State.enterEvent_mem (s : State) : s.enterEvent.mem = s.mem := rfl
@[simp] theorem State.enterEvent_hostProg (s : State) : s.enterEvent.hostProg = s.hostProg := rfl
@[simp] theorem State.enterEvent_hostPend (s : State) : s.enterEvent.hostPend = s.hostPend := rfl
@[simp] theorem State.enterEvent_hostLog (s : State) : s.enterEvent.hostLog = s.hostLog := rfl
@[simp] theorem State.enterEvent_memAtCmd (s : State) : s.enterEvent.memAtCmd = s.memAtCmd := rfl
@[simp] theorem State.enterEvent_race (s : State) : s.enterEvent.race = s.race := rfl
@[simp] theorem State.enterEvent_launched (s : State) : s.enterEvent.launched = s.launched := rfl
@[simp] theorem State.enterEvent_cpuReqs (s : State) : s.enterEvent.cpuReqs = s.cpuReqs := rfl
@[simp] theorem State.enterEvent_bus (s : State) : s.enterEvent.bus = s.bus := rfl
@[simp] theorem State.enterEvent_sched (s : State) : s.enterEvent.sched = s.sched := rfl
@[simp] theorem State.enterEvent_tick (s : State) : s.enterEvent.tick = s.tick := rfl

/-! ### State.leaveEvent -/

@[simp] theorem State.leaveEvent_cfg (s : State) : s.leaveEvent.cfg = s.cfg := rfl
@[simp] theorem State.leaveEvent_addr (s : State) : s.leaveEvent.addr = s.addr := rfl
@[simp] theorem State.leaveEvent_buf (s : State) : s.leaveEvent.buf = s.buf := rfl
@[simp] theorem State.leaveEvent_count (s : State) : s.leaveEvent.count = s.count := rfl
@[simp] theorem State.leaveEvent_statusPtr (s : State) : s.leaveEvent.statusPtr = s.statusPtr := rfl
@[simp] theorem State.leaveEvent_result (s : State) : s.leaveEvent.result = s.result := rfl
@[simp] theorem State.leaveEvent_prof0 (s : State) : s.leaveEvent.prof0 = s.prof0 := rfl
@[simp] theorem State.leaveEvent_prof1 (s : State) : s.leaveEvent.prof1 = s.prof1 := rfl
@[simp] theorem State.leaveEvent_prof2 (s : State) : s.leaveEvent.prof2 = s.prof2 := rfl
@[simp] theorem State.leaveEvent_act0 (s : State) : s.leaveEvent.act0 = s.act0 := rfl
@[simp] theorem State.leaveEvent_act1 (s : State) : s.leaveEvent.act1 = s.act1 := rfl
@[simp] theorem State.leaveEvent_act2 (s : State) : s.leaveEvent.act2 = s.act2 := rfl
@[simp] theorem State.leaveEvent_addrBytes (s : State) : s.leaveEvent.addrBytes = s.addrBytes := rfl
@[simp] theorem State.leaveEvent_enc (s : State) : s.leaveEvent.enc = s.enc := rfl
@[simp] theorem State.leaveEvent_initDone (s : State) : s.leaveEvent.initDone = s.initDone := rfl
@[simp] theorem State.leaveEvent_latch (s : State) : s.leaveEvent.latch = s.latch := rfl
@[simp] theorem State.leaveEvent_exec (s : State) : s.leaveEvent.exec = s.exec := rfl
@[simp] theorem State.leaveEvent_overrun (s : State) : s.leaveEvent.overrun = s.overrun := rfl
@[simp] theorem State.leaveEvent_ctx (s : State) : s.leaveEvent.ctx = s.ctx := rfl
@[simp] theorem State.leaveEvent_work (s : State) : s.leaveEvent.work = s.work := rfl
@[simp] theorem State.leaveEvent_evtPending (s : State) : s.leaveEvent.evtPending = s.evtPending := rfl
@[simp] theorem State.leaveEvent_handling (s : State) : s.leaveEvent.handling = false := rfl
@[simp] theorem State.leaveEvent_epoch (s : State) : s.leaveEvent.epoch = s.epoch := rfl
@[simp] theorem State.leaveEvent_sync (s : State) : s.leaveEvent.sync = s.sync := rfl
@[simp] theorem State.leaveEvent_todo (s : State) : s.leaveEvent.todo = [] := rfl
@[simp] theorem State.leaveEvent_autoEn (s : State) : s.leaveEvent.autoEn = s.autoEn := rfl
@[simp] theorem State.leaveEvent_autoActive (s : State) : s.leaveEvent.autoActive = s.autoActive := rfl
@[simp] theorem State.leaveEvent_job (s : State) : s.leaveEvent.job = s.job := rfl
@[simp] theorem State.leaveEvent_cs (s : State) : s.leaveEvent.cs = s.cs := rfl
@[simp] theorem State.leaveEvent_fifo (s : State) : s.leaveEvent.fifo = s.fifo := rfl
@[simp] theorem State.leaveEvent_curBw (s : State) : s.leaveEvent.curBw = s.curBw := rfl
@[simp] theorem State.leaveEvent_curElem (s : State) : s.leaveEvent.curElem = s.curElem := rfl
@[simp] theorem State.leaveEvent_autoReqs (s : State) : s.leaveEvent.autoReqs = s.autoReqs := rfl
@[simp] theorem State.leaveEvent_autoFlight (s : State) : s.leaveEvent.autoFlight = s.autoFlight := rfl
@[simp] theorem State.leaveEvent_chan (s : State) : s.leaveEvent.chan = s.chan := rfl
@[simp] theorem State.leaveEvent_configCalls (s : State) : s.leaveEvent.configCalls = s.configCalls := rfl
@[simp] theorem State.leaveEvent_events (s : State) : s.leaveEvent.events = s.events := rfl
@[simp] theorem State.leaveEvent_psram (s : State) : s.leaveEvent.psram = s.psram := rfl
@[simp] theorem State.leaveEvent_psramPast (s : State) : s.leaveEvent.psramPast = s.psramPast := rfl
@[simp] theorem State.leaveEvent_parser (s : State) : s.leaveEvent.parser = s.parser := rfl
@[simp] theorem State.leaveEvent_mem (s : State) : s.leaveEvent.mem = s.mem := rfl
@[simp] theorem State.leaveEvent_hostProg (s : State) : s.leaveEvent.hostProg = s.hostProg := rfl
@[simp] theorem State.leaveEvent_hostPend (s : State) : s.leaveEvent.hostPend = s.hostPend := rfl
@[simp] theorem State.leaveEvent_hostLog (s : State) : s.leaveEvent.hostLog = s.hostLog := rfl
@[simp] theorem State.leaveEvent_memAtCmd (s : State) : s.leaveEvent.memAtCmd = s.memAtCmd := rfl
@[simp] theorem State.leaveEvent_race (s : State) : s.leaveEvent.race = s.race := rfl
@[simp] theorem State.leaveEvent_launched (s : State) : s.leaveEvent.launched = s.launched := rfl
@[simp] theorem State.leaveEvent_cpuReqs (s : State) : s.leaveEvent.cpuReqs = s.cpuReqs := rfl
@[simp] theorem State.leaveEvent_bus (s : State) : s.leaveEvent.bus = s.bus := rfl
@[simp] theorem State.leaveEvent_sched (s : State) : s.leaveEvent.sched = s.sched := rfl
@[simp] theorem State.leaveEvent_tick (s : State) : s.leaveEvent.tick = s.tick := rfl

/-! ### State.takeCommand -/

@[simp] theorem State.takeCommand_cfg (s : State) : s.takeCommand.cfg = s.cfg := rfl
@[simp] theorem State.takeCommand_addr (s : State) : s.takeCommand.addr = s.addr := rfl
@[simp] theorem State.takeCommand_buf (s : State) : s.takeCommand.buf = s.buf := rfl
@[simp] theorem State.takeCommand_count (s : State) : s.takeCommand.count = s.count := rfl
@[simp] theorem State.takeCommand_statusPtr (s : State) : s.takeCommand.statusPtr = s.statusPtr := rfl
@[simp] theorem State.takeCommand_result (s : State) : s.takeCommand.result = s.result := rfl
@[simp] theorem State.takeCommand_prof0 (s : State) : s.takeCommand.prof0 = s.prof0 := rfl
@[simp] theorem State.takeCommand_prof1 (s : State) : s.takeCommand.prof1 = s.prof1 := rfl
@[simp] theorem State.takeCommand_prof2 (s : State) : s.takeCommand.prof2 = s.prof2 := rfl
@[simp] theorem State.takeCommand_act0 (s : State) : s.takeCommand.act0 = s.act0 := rfl
@[simp] theorem State.takeCommand_act1 (s : State) : s.takeCommand.act1 = s.act1 := rfl
@[simp] theorem State.takeCommand_act2 (s : State) : s.takeCommand.act2 = s.act2 := rfl
@[simp] theorem State.takeCommand_addrBytes (s : State) : s.takeCommand.addrBytes = s.addrBytes := rfl
@[simp] theorem State.takeCommand_enc (s : State) : s.takeCommand.enc = s.enc := rfl
@[simp] theorem State.takeCommand_initDone (s : State) : s.takeCommand.initDone = s.initDone := rfl
@[simp] theorem State.takeCommand_latch (s : State) : s.takeCommand.latch = { s.latch with valid := false } := rfl
@[simp] theorem State.takeCommand_exec (s : State) : s.takeCommand.exec = true := rfl
@[simp] theorem State.takeCommand_overrun (s : State) : s.takeCommand.overrun = s.overrun := rfl
@[simp] theorem State.takeCommand_ctx (s : State) : s.takeCommand.ctx = s.ctx := rfl
@[simp] theorem State.takeCommand_work (s : State) : s.takeCommand.work = s.work := rfl
@[simp] theorem State.takeCommand_evtPending (s : State) : s.takeCommand.evtPending = s.evtPending := rfl
@[simp] theorem State.takeCommand_handling (s : State) : s.takeCommand.handling = s.handling := rfl
@[simp] theorem State.takeCommand_epoch (s : State) : s.takeCommand.epoch = s.epoch := rfl
@[simp] theorem State.takeCommand_sync (s : State) : s.takeCommand.sync = s.sync := rfl
@[simp] theorem State.takeCommand_todo (s : State) : s.takeCommand.todo = [] := rfl
@[simp] theorem State.takeCommand_autoEn (s : State) : s.takeCommand.autoEn = s.autoEn := rfl
@[simp] theorem State.takeCommand_autoActive (s : State) : s.takeCommand.autoActive = s.autoActive := rfl
@[simp] theorem State.takeCommand_job (s : State) : s.takeCommand.job = s.job := rfl
@[simp] theorem State.takeCommand_cs (s : State) : s.takeCommand.cs = s.cs := rfl
@[simp] theorem State.takeCommand_fifo (s : State) : s.takeCommand.fifo = s.fifo := rfl
@[simp] theorem State.takeCommand_curBw (s : State) : s.takeCommand.curBw = s.curBw := rfl
@[simp] theorem State.takeCommand_curElem (s : State) : s.takeCommand.curElem = s.curElem := rfl
@[simp] theorem State.takeCommand_autoReqs (s : State) : s.takeCommand.autoReqs = s.autoReqs := rfl
@[simp] theorem State.takeCommand_autoFlight (s : State) : s.takeCommand.autoFlight = s.autoFlight := rfl
@[simp] theorem State.takeCommand_chan (s : State) : s.takeCommand.chan = s.chan := rfl
@[simp] theorem State.takeCommand_configCalls (s : State) : s.takeCommand.configCalls = s.configCalls := rfl
@[simp] theorem State.takeCommand_events (s : State) : s.takeCommand.events = s.events := rfl
@[simp] theorem State.takeCommand_psram (s : State) : s.takeCommand.psram = s.psram := rfl
@[simp] theorem State.takeCommand_psramPast (s : State) : s.takeCommand.psramPast = s.psramPast := rfl
@[simp] theorem State.takeCommand_parser (s : State) : s.takeCommand.parser = s.parser := rfl
@[simp] theorem State.takeCommand_mem (s : State) : s.takeCommand.mem = s.mem := rfl
@[simp] theorem State.takeCommand_hostProg (s : State) : s.takeCommand.hostProg = s.hostProg := rfl
@[simp] theorem State.takeCommand_hostPend (s : State) : s.takeCommand.hostPend = s.hostPend := rfl
@[simp] theorem State.takeCommand_hostLog (s : State) : s.takeCommand.hostLog = s.hostLog := rfl
@[simp] theorem State.takeCommand_memAtCmd (s : State) : s.takeCommand.memAtCmd = s.memAtCmd := rfl
@[simp] theorem State.takeCommand_race (s : State) : s.takeCommand.race = s.race := rfl
@[simp] theorem State.takeCommand_launched (s : State) : s.takeCommand.launched = s.launched := rfl
@[simp] theorem State.takeCommand_cpuReqs (s : State) : s.takeCommand.cpuReqs = s.cpuReqs := rfl
@[simp] theorem State.takeCommand_bus (s : State) : s.takeCommand.bus = s.bus := rfl
@[simp] theorem State.takeCommand_sched (s : State) : s.takeCommand.sched = s.sched := rfl
@[simp] theorem State.takeCommand_tick (s : State) : s.takeCommand.tick = s.tick := rfl

/-! ### State.bumpEpoch -/

@[simp] theorem State.bumpEpoch_cfg (s : State) : s.bumpEpoch.cfg = s.cfg := rfl
@[simp] theorem State.bumpEpoch_addr (s : State) : s.bumpEpoch.addr = s.addr := rfl
@[simp] theorem State.bumpEpoch_buf (s : State) : s.bumpEpoch.buf = s.buf := rfl
@[simp] theorem State.bumpEpoch_count (s : State) : s.bumpEpoch.count = s.count := rfl
@[simp] theorem State.bumpEpoch_statusPtr (s : State) : s.bumpEpoch.statusPtr = s.statusPtr := rfl
@[simp] theorem State.bumpEpoch_result (s : State) : s.bumpEpoch.result = s.result := rfl
@[simp] theorem State.bumpEpoch_prof0 (s : State) : s.bumpEpoch.prof0 = s.prof0 := rfl
@[simp] theorem State.bumpEpoch_prof1 (s : State) : s.bumpEpoch.prof1 = s.prof1 := rfl
@[simp] theorem State.bumpEpoch_prof2 (s : State) : s.bumpEpoch.prof2 = s.prof2 := rfl
@[simp] theorem State.bumpEpoch_act0 (s : State) : s.bumpEpoch.act0 = s.act0 := rfl
@[simp] theorem State.bumpEpoch_act1 (s : State) : s.bumpEpoch.act1 = s.act1 := rfl
@[simp] theorem State.bumpEpoch_act2 (s : State) : s.bumpEpoch.act2 = s.act2 := rfl
@[simp] theorem State.bumpEpoch_addrBytes (s : State) : s.bumpEpoch.addrBytes = s.addrBytes := rfl
@[simp] theorem State.bumpEpoch_enc (s : State) : s.bumpEpoch.enc = s.enc := rfl
@[simp] theorem State.bumpEpoch_initDone (s : State) : s.bumpEpoch.initDone = s.initDone := rfl
@[simp] theorem State.bumpEpoch_latch (s : State) : s.bumpEpoch.latch = s.latch := rfl
@[simp] theorem State.bumpEpoch_exec (s : State) : s.bumpEpoch.exec = s.exec := rfl
@[simp] theorem State.bumpEpoch_overrun (s : State) : s.bumpEpoch.overrun = s.overrun := rfl
@[simp] theorem State.bumpEpoch_ctx (s : State) : s.bumpEpoch.ctx = s.ctx := rfl
@[simp] theorem State.bumpEpoch_work (s : State) : s.bumpEpoch.work = s.work := rfl
@[simp] theorem State.bumpEpoch_evtPending (s : State) : s.bumpEpoch.evtPending = s.evtPending := rfl
@[simp] theorem State.bumpEpoch_handling (s : State) : s.bumpEpoch.handling = s.handling := rfl
@[simp] theorem State.bumpEpoch_epoch (s : State) : s.bumpEpoch.epoch = s.epoch + 1 := rfl
@[simp] theorem State.bumpEpoch_sync (s : State) : s.bumpEpoch.sync = s.sync := rfl
@[simp] theorem State.bumpEpoch_todo (s : State) : s.bumpEpoch.todo = s.todo := rfl
@[simp] theorem State.bumpEpoch_autoEn (s : State) : s.bumpEpoch.autoEn = s.autoEn := rfl
@[simp] theorem State.bumpEpoch_autoActive (s : State) : s.bumpEpoch.autoActive = s.autoActive := rfl
@[simp] theorem State.bumpEpoch_job (s : State) : s.bumpEpoch.job = s.job := rfl
@[simp] theorem State.bumpEpoch_cs (s : State) : s.bumpEpoch.cs = s.cs := rfl
@[simp] theorem State.bumpEpoch_fifo (s : State) : s.bumpEpoch.fifo = s.fifo := rfl
@[simp] theorem State.bumpEpoch_curBw (s : State) : s.bumpEpoch.curBw = s.curBw := rfl
@[simp] theorem State.bumpEpoch_curElem (s : State) : s.bumpEpoch.curElem = s.curElem := rfl
@[simp] theorem State.bumpEpoch_autoReqs (s : State) : s.bumpEpoch.autoReqs = s.autoReqs := rfl
@[simp] theorem State.bumpEpoch_autoFlight (s : State) : s.bumpEpoch.autoFlight = s.autoFlight := rfl
@[simp] theorem State.bumpEpoch_chan (s : State) : s.bumpEpoch.chan = s.chan := rfl
@[simp] theorem State.bumpEpoch_configCalls (s : State) : s.bumpEpoch.configCalls = s.configCalls := rfl
@[simp] theorem State.bumpEpoch_events (s : State) : s.bumpEpoch.events = s.events := rfl
@[simp] theorem State.bumpEpoch_psram (s : State) : s.bumpEpoch.psram = s.psram := rfl
@[simp] theorem State.bumpEpoch_psramPast (s : State) : s.bumpEpoch.psramPast = s.psramPast := rfl
@[simp] theorem State.bumpEpoch_parser (s : State) : s.bumpEpoch.parser = s.parser := rfl
@[simp] theorem State.bumpEpoch_mem (s : State) : s.bumpEpoch.mem = s.mem := rfl
@[simp] theorem State.bumpEpoch_hostProg (s : State) : s.bumpEpoch.hostProg = s.hostProg := rfl
@[simp] theorem State.bumpEpoch_hostPend (s : State) : s.bumpEpoch.hostPend = s.hostPend := rfl
@[simp] theorem State.bumpEpoch_hostLog (s : State) : s.bumpEpoch.hostLog = s.hostLog := rfl
@[simp] theorem State.bumpEpoch_memAtCmd (s : State) : s.bumpEpoch.memAtCmd = s.memAtCmd := rfl
@[simp] theorem State.bumpEpoch_race (s : State) : s.bumpEpoch.race = s.race := rfl
@[simp] theorem State.bumpEpoch_launched (s : State) : s.bumpEpoch.launched = s.launched := rfl
@[simp] theorem State.bumpEpoch_cpuReqs (s : State) : s.bumpEpoch.cpuReqs = s.cpuReqs := rfl
@[simp] theorem State.bumpEpoch_bus (s : State) : s.bumpEpoch.bus = s.bus := rfl
@[simp] theorem State.bumpEpoch_sched (s : State) : s.bumpEpoch.sched = s.sched := rfl
@[simp] theorem State.bumpEpoch_tick (s : State) : s.bumpEpoch.tick = s.tick := rfl

/-! ### State.record -/

@[simp] theorem State.record_cfg (s : State) (e : BusEvent) : (s.record e).cfg = s.cfg := rfl
@[simp] theorem State.record_addr (s : State) (e : BusEvent) : (s.record e).addr = s.addr := rfl
@[simp] theorem State.record_buf (s : State) (e : BusEvent) : (s.record e).buf = s.buf := rfl
@[simp] theorem State.record_count (s : State) (e : BusEvent) : (s.record e).count = s.count := rfl
@[simp] theorem State.record_statusPtr (s : State) (e : BusEvent) : (s.record e).statusPtr = s.statusPtr := rfl
@[simp] theorem State.record_result (s : State) (e : BusEvent) : (s.record e).result = s.result := rfl
@[simp] theorem State.record_prof0 (s : State) (e : BusEvent) : (s.record e).prof0 = s.prof0 := rfl
@[simp] theorem State.record_prof1 (s : State) (e : BusEvent) : (s.record e).prof1 = s.prof1 := rfl
@[simp] theorem State.record_prof2 (s : State) (e : BusEvent) : (s.record e).prof2 = s.prof2 := rfl
@[simp] theorem State.record_act0 (s : State) (e : BusEvent) : (s.record e).act0 = s.act0 := rfl
@[simp] theorem State.record_act1 (s : State) (e : BusEvent) : (s.record e).act1 = s.act1 := rfl
@[simp] theorem State.record_act2 (s : State) (e : BusEvent) : (s.record e).act2 = s.act2 := rfl
@[simp] theorem State.record_addrBytes (s : State) (e : BusEvent) : (s.record e).addrBytes = s.addrBytes := rfl
@[simp] theorem State.record_enc (s : State) (e : BusEvent) : (s.record e).enc = s.enc := rfl
@[simp] theorem State.record_initDone (s : State) (e : BusEvent) : (s.record e).initDone = s.initDone := rfl
@[simp] theorem State.record_latch (s : State) (e : BusEvent) : (s.record e).latch = s.latch := rfl
@[simp] theorem State.record_exec (s : State) (e : BusEvent) : (s.record e).exec = s.exec := rfl
@[simp] theorem State.record_overrun (s : State) (e : BusEvent) : (s.record e).overrun = s.overrun := rfl
@[simp] theorem State.record_ctx (s : State) (e : BusEvent) : (s.record e).ctx = s.ctx := rfl
@[simp] theorem State.record_work (s : State) (e : BusEvent) : (s.record e).work = s.work := rfl
@[simp] theorem State.record_evtPending (s : State) (e : BusEvent) : (s.record e).evtPending = s.evtPending := rfl
@[simp] theorem State.record_handling (s : State) (e : BusEvent) : (s.record e).handling = s.handling := rfl
@[simp] theorem State.record_epoch (s : State) (e : BusEvent) : (s.record e).epoch = s.epoch := rfl
@[simp] theorem State.record_sync (s : State) (e : BusEvent) : (s.record e).sync = s.sync := rfl
@[simp] theorem State.record_todo (s : State) (e : BusEvent) : (s.record e).todo = s.todo := rfl
@[simp] theorem State.record_autoEn (s : State) (e : BusEvent) : (s.record e).autoEn = s.autoEn := rfl
@[simp] theorem State.record_autoActive (s : State) (e : BusEvent) : (s.record e).autoActive = s.autoActive := rfl
@[simp] theorem State.record_job (s : State) (e : BusEvent) : (s.record e).job = s.job := rfl
@[simp] theorem State.record_cs (s : State) (e : BusEvent) : (s.record e).cs = s.cs := rfl
@[simp] theorem State.record_fifo (s : State) (e : BusEvent) : (s.record e).fifo = s.fifo := rfl
@[simp] theorem State.record_curBw (s : State) (e : BusEvent) : (s.record e).curBw = s.curBw := rfl
@[simp] theorem State.record_curElem (s : State) (e : BusEvent) : (s.record e).curElem = s.curElem := rfl
@[simp] theorem State.record_autoReqs (s : State) (e : BusEvent) : (s.record e).autoReqs = s.autoReqs := rfl
@[simp] theorem State.record_autoFlight (s : State) (e : BusEvent) : (s.record e).autoFlight = s.autoFlight := rfl
@[simp] theorem State.record_chan (s : State) (e : BusEvent) : (s.record e).chan = s.chan := rfl
@[simp] theorem State.record_configCalls (s : State) (e : BusEvent) : (s.record e).configCalls = s.configCalls := rfl
@[simp] theorem State.record_events (s : State) (e : BusEvent) : (s.record e).events = s.events := rfl
@[simp] theorem State.record_psram (s : State) (e : BusEvent) : (s.record e).psram = s.psram := rfl
@[simp] theorem State.record_psramPast (s : State) (e : BusEvent) : (s.record e).psramPast = s.psramPast := rfl
@[simp] theorem State.record_parser (s : State) (e : BusEvent) : (s.record e).parser = s.parser := rfl
@[simp] theorem State.record_mem (s : State) (e : BusEvent) : (s.record e).mem = s.mem := rfl
@[simp] theorem State.record_hostProg (s : State) (e : BusEvent) : (s.record e).hostProg = s.hostProg := rfl
@[simp] theorem State.record_hostPend (s : State) (e : BusEvent) : (s.record e).hostPend = s.hostPend := rfl
@[simp] theorem State.record_hostLog (s : State) (e : BusEvent) : (s.record e).hostLog = s.hostLog := rfl
@[simp] theorem State.record_memAtCmd (s : State) (e : BusEvent) : (s.record e).memAtCmd = s.memAtCmd := rfl
@[simp] theorem State.record_race (s : State) (e : BusEvent) : (s.record e).race = s.race := rfl
@[simp] theorem State.record_launched (s : State) (e : BusEvent) : (s.record e).launched = s.launched := rfl
@[simp] theorem State.record_cpuReqs (s : State) (e : BusEvent) : (s.record e).cpuReqs = s.cpuReqs := rfl
@[simp] theorem State.record_bus (s : State) (e : BusEvent) : (s.record e).bus = s.bus ++ [e] := rfl
@[simp] theorem State.record_sched (s : State) (e : BusEvent) : (s.record e).sched = s.sched := rfl
@[simp] theorem State.record_tick (s : State) (e : BusEvent) : (s.record e).tick = s.tick := rfl

/-! ### State.turn -/

@[simp] theorem State.turn_cfg (s : State) : s.turn.cfg = s.cfg := rfl
@[simp] theorem State.turn_addr (s : State) : s.turn.addr = s.addr := rfl
@[simp] theorem State.turn_buf (s : State) : s.turn.buf = s.buf := rfl
@[simp] theorem State.turn_count (s : State) : s.turn.count = s.count := rfl
@[simp] theorem State.turn_statusPtr (s : State) : s.turn.statusPtr = s.statusPtr := rfl
@[simp] theorem State.turn_result (s : State) : s.turn.result = s.result := rfl
@[simp] theorem State.turn_prof0 (s : State) : s.turn.prof0 = s.prof0 := rfl
@[simp] theorem State.turn_prof1 (s : State) : s.turn.prof1 = s.prof1 := rfl
@[simp] theorem State.turn_prof2 (s : State) : s.turn.prof2 = s.prof2 := rfl
@[simp] theorem State.turn_act0 (s : State) : s.turn.act0 = s.act0 := rfl
@[simp] theorem State.turn_act1 (s : State) : s.turn.act1 = s.act1 := rfl
@[simp] theorem State.turn_act2 (s : State) : s.turn.act2 = s.act2 := rfl
@[simp] theorem State.turn_addrBytes (s : State) : s.turn.addrBytes = s.addrBytes := rfl
@[simp] theorem State.turn_enc (s : State) : s.turn.enc = s.enc := rfl
@[simp] theorem State.turn_initDone (s : State) : s.turn.initDone = s.initDone := rfl
@[simp] theorem State.turn_latch (s : State) : s.turn.latch = s.latch := rfl
@[simp] theorem State.turn_exec (s : State) : s.turn.exec = s.exec := rfl
@[simp] theorem State.turn_overrun (s : State) : s.turn.overrun = s.overrun := rfl
@[simp] theorem State.turn_ctx (s : State) : s.turn.ctx = s.ctx := rfl
@[simp] theorem State.turn_work (s : State) : s.turn.work = s.work := rfl
@[simp] theorem State.turn_evtPending (s : State) : s.turn.evtPending = s.evtPending := rfl
@[simp] theorem State.turn_handling (s : State) : s.turn.handling = s.handling := rfl
@[simp] theorem State.turn_epoch (s : State) : s.turn.epoch = s.epoch := rfl
@[simp] theorem State.turn_sync (s : State) : s.turn.sync = s.sync := rfl
@[simp] theorem State.turn_todo (s : State) : s.turn.todo = s.todo := rfl
@[simp] theorem State.turn_autoEn (s : State) : s.turn.autoEn = s.autoEn := rfl
@[simp] theorem State.turn_autoActive (s : State) : s.turn.autoActive = s.autoActive := rfl
@[simp] theorem State.turn_job (s : State) : s.turn.job = s.job := rfl
@[simp] theorem State.turn_cs (s : State) : s.turn.cs = s.cs := rfl
@[simp] theorem State.turn_fifo (s : State) : s.turn.fifo = s.fifo := rfl
@[simp] theorem State.turn_curBw (s : State) : s.turn.curBw = s.curBw := rfl
@[simp] theorem State.turn_curElem (s : State) : s.turn.curElem = s.curElem := rfl
@[simp] theorem State.turn_autoReqs (s : State) : s.turn.autoReqs = s.autoReqs := rfl
@[simp] theorem State.turn_autoFlight (s : State) : s.turn.autoFlight = s.autoFlight := rfl
@[simp] theorem State.turn_chan (s : State) : s.turn.chan = s.chan := rfl
@[simp] theorem State.turn_configCalls (s : State) : s.turn.configCalls = s.configCalls := rfl
@[simp] theorem State.turn_events (s : State) : s.turn.events = s.events := rfl
@[simp] theorem State.turn_psram (s : State) : s.turn.psram = s.psram := rfl
@[simp] theorem State.turn_psramPast (s : State) : s.turn.psramPast = s.psramPast := rfl
@[simp] theorem State.turn_parser (s : State) : s.turn.parser = s.parser := rfl
@[simp] theorem State.turn_mem (s : State) : s.turn.mem = s.mem := rfl
@[simp] theorem State.turn_hostProg (s : State) : s.turn.hostProg = s.hostProg := rfl
@[simp] theorem State.turn_hostPend (s : State) : s.turn.hostPend = s.hostPend := rfl
@[simp] theorem State.turn_hostLog (s : State) : s.turn.hostLog = s.hostLog := rfl
@[simp] theorem State.turn_memAtCmd (s : State) : s.turn.memAtCmd = s.memAtCmd := rfl
@[simp] theorem State.turn_race (s : State) : s.turn.race = s.race := rfl
@[simp] theorem State.turn_launched (s : State) : s.turn.launched = s.launched := rfl
@[simp] theorem State.turn_cpuReqs (s : State) : s.turn.cpuReqs = s.cpuReqs := rfl
@[simp] theorem State.turn_bus (s : State) : s.turn.bus = s.bus := rfl
@[simp] theorem State.turn_sched (s : State) : s.turn.sched = s.sched.tail := rfl
@[simp] theorem State.turn_tick (s : State) : s.turn.tick = s.tick + 1 := rfl

end Sys2Proof.Machine
end

