-- ==== Sys2Proof/Laws/Frames.lean ====
section
/-! SUPPORT. What the shared operations leave alone: for each, one equation that names the fields it may
write, and the field lemmas that follow from it, so that no later proof opens its case splits. -/

-- Hundreds of one-line theorems: elaborated one after another, so that no flood of threads is started.
set_option Elab.async false

namespace Sys2Proof.Machine

/-! ### csAssert -/

theorem csAssert_frame (s : State) (c : Nat) :
    csAssert s c = { s with cs := (csAssert s c).cs, bus := (csAssert s c).bus, parser := (csAssert s c).parser } := by
  unfold csAssert; split <;> rfl

@[simp] theorem csAssert_cfg (s : State) (c : Nat) : (csAssert s c).cfg = s.cfg := by
  rw [csAssert_frame]
@[simp] theorem csAssert_addr (s : State) (c : Nat) : (csAssert s c).addr = s.addr := by
  rw [csAssert_frame]
@[simp] theorem csAssert_buf (s : State) (c : Nat) : (csAssert s c).buf = s.buf := by
  rw [csAssert_frame]
@[simp] theorem csAssert_count (s : State) (c : Nat) : (csAssert s c).count = s.count := by
  rw [csAssert_frame]
@[simp] theorem csAssert_statusPtr (s : State) (c : Nat) : (csAssert s c).statusPtr = s.statusPtr := by
  rw [csAssert_frame]
@[simp] theorem csAssert_result (s : State) (c : Nat) : (csAssert s c).result = s.result := by
  rw [csAssert_frame]
@[simp] theorem csAssert_prof0 (s : State) (c : Nat) : (csAssert s c).prof0 = s.prof0 := by
  rw [csAssert_frame]
@[simp] theorem csAssert_prof1 (s : State) (c : Nat) : (csAssert s c).prof1 = s.prof1 := by
  rw [csAssert_frame]
@[simp] theorem csAssert_prof2 (s : State) (c : Nat) : (csAssert s c).prof2 = s.prof2 := by
  rw [csAssert_frame]
@[simp] theorem csAssert_act0 (s : State) (c : Nat) : (csAssert s c).act0 = s.act0 := by
  rw [csAssert_frame]
@[simp] theorem csAssert_act1 (s : State) (c : Nat) : (csAssert s c).act1 = s.act1 := by
  rw [csAssert_frame]
@[simp] theorem csAssert_act2 (s : State) (c : Nat) : (csAssert s c).act2 = s.act2 := by
  rw [csAssert_frame]
@[simp] theorem csAssert_addrBytes (s : State) (c : Nat) : (csAssert s c).addrBytes = s.addrBytes := by
  rw [csAssert_frame]
@[simp] theorem csAssert_enc (s : State) (c : Nat) : (csAssert s c).enc = s.enc := by
  rw [csAssert_frame]
@[simp] theorem csAssert_initDone (s : State) (c : Nat) : (csAssert s c).initDone = s.initDone := by
  rw [csAssert_frame]
@[simp] theorem csAssert_latch (s : State) (c : Nat) : (csAssert s c).latch = s.latch := by
  rw [csAssert_frame]
@[simp] theorem csAssert_exec (s : State) (c : Nat) : (csAssert s c).exec = s.exec := by
  rw [csAssert_frame]
@[simp] theorem csAssert_overrun (s : State) (c : Nat) : (csAssert s c).overrun = s.overrun := by
  rw [csAssert_frame]
@[simp] theorem csAssert_ctx (s : State) (c : Nat) : (csAssert s c).ctx = s.ctx := by
  rw [csAssert_frame]
@[simp] theorem csAssert_work (s : State) (c : Nat) : (csAssert s c).work = s.work := by
  rw [csAssert_frame]
@[simp] theorem csAssert_evtPending (s : State) (c : Nat) : (csAssert s c).evtPending = s.evtPending := by
  rw [csAssert_frame]
@[simp] theorem csAssert_handling (s : State) (c : Nat) : (csAssert s c).handling = s.handling := by
  rw [csAssert_frame]
@[simp] theorem csAssert_epoch (s : State) (c : Nat) : (csAssert s c).epoch = s.epoch := by
  rw [csAssert_frame]
@[simp] theorem csAssert_sync (s : State) (c : Nat) : (csAssert s c).sync = s.sync := by
  rw [csAssert_frame]
@[simp] theorem csAssert_todo (s : State) (c : Nat) : (csAssert s c).todo = s.todo := by
  rw [csAssert_frame]
@[simp] theorem csAssert_autoEn (s : State) (c : Nat) : (csAssert s c).autoEn = s.autoEn := by
  rw [csAssert_frame]
@[simp] theorem csAssert_autoActive (s : State) (c : Nat) : (csAssert s c).autoActive = s.autoActive := by
  rw [csAssert_frame]
@[simp] theorem csAssert_job (s : State) (c : Nat) : (csAssert s c).job = s.job := by
  rw [csAssert_frame]
@[simp] theorem csAssert_fifo (s : State) (c : Nat) : (csAssert s c).fifo = s.fifo := by
  rw [csAssert_frame]
@[simp] theorem csAssert_curBw (s : State) (c : Nat) : (csAssert s c).curBw = s.curBw := by
  rw [csAssert_frame]
@[simp] theorem csAssert_curElem (s : State) (c : Nat) : (csAssert s c).curElem = s.curElem := by
  rw [csAssert_frame]
@[simp] theorem csAssert_autoReqs (s : State) (c : Nat) : (csAssert s c).autoReqs = s.autoReqs := by
  rw [csAssert_frame]
@[simp] theorem csAssert_autoFlight (s : State) (c : Nat) : (csAssert s c).autoFlight = s.autoFlight := by
  rw [csAssert_frame]
@[simp] theorem csAssert_chan (s : State) (c : Nat) : (csAssert s c).chan = s.chan := by
  rw [csAssert_frame]
@[simp] theorem csAssert_configCalls (s : State) (c : Nat) : (csAssert s c).configCalls = s.configCalls := by
  rw [csAssert_frame]
@[simp] theorem csAssert_events (s : State) (c : Nat) : (csAssert s c).events = s.events := by
  rw [csAssert_frame]
@[simp] theorem csAssert_psram (s : State) (c : Nat) : (csAssert s c).psram = s.psram := by
  rw [csAssert_frame]
@[simp] theorem csAssert_psramPast (s : State) (c : Nat) : (csAssert s c).psramPast = s.psramPast := by
  rw [csAssert_frame]
@[simp] theorem csAssert_mem (s : State) (c : Nat) : (csAssert s c).mem = s.mem := by
  rw [csAssert_frame]
@[simp] theorem csAssert_hostProg (s : State) (c : Nat) : (csAssert s c).hostProg = s.hostProg := by
  rw [csAssert_frame]
@[simp] theorem csAssert_hostPend (s : State) (c : Nat) : (csAssert s c).hostPend = s.hostPend := by
  rw [csAssert_frame]
@[simp] theorem csAssert_hostLog (s : State) (c : Nat) : (csAssert s c).hostLog = s.hostLog := by
  rw [csAssert_frame]
@[simp] theorem csAssert_memAtCmd (s : State) (c : Nat) : (csAssert s c).memAtCmd = s.memAtCmd := by
  rw [csAssert_frame]
@[simp] theorem csAssert_race (s : State) (c : Nat) : (csAssert s c).race = s.race := by
  rw [csAssert_frame]
@[simp] theorem csAssert_launched (s : State) (c : Nat) : (csAssert s c).launched = s.launched := by
  rw [csAssert_frame]
@[simp] theorem csAssert_cpuReqs (s : State) (c : Nat) : (csAssert s c).cpuReqs = s.cpuReqs := by
  rw [csAssert_frame]
@[simp] theorem csAssert_sched (s : State) (c : Nat) : (csAssert s c).sched = s.sched := by
  rw [csAssert_frame]
@[simp] theorem csAssert_tick (s : State) (c : Nat) : (csAssert s c).tick = s.tick := by
  rw [csAssert_frame]

/-! ### csRelease -/

theorem csRelease_frame (s : State) :
    csRelease s = { s with cs := (csRelease s).cs, bus := (csRelease s).bus, parser := (csRelease s).parser } := by
  unfold csRelease; split <;> rfl

@[simp] theorem csRelease_cfg (s : State) : (csRelease s).cfg = s.cfg := by
  rw [csRelease_frame]
@[simp] theorem csRelease_addr (s : State) : (csRelease s).addr = s.addr := by
  rw [csRelease_frame]
@[simp] theorem csRelease_buf (s : State) : (csRelease s).buf = s.buf := by
  rw [csRelease_frame]
@[simp] theorem csRelease_count (s : State) : (csRelease s).count = s.count := by
  rw [csRelease_frame]
@[simp] theorem csRelease_statusPtr (s : State) : (csRelease s).statusPtr = s.statusPtr := by
  rw [csRelease_frame]
@[simp] theorem csRelease_result (s : State) : (csRelease s).result = s.result := by
  rw [csRelease_frame]
@[simp] theorem csRelease_prof0 (s : State) : (csRelease s).prof0 = s.prof0 := by
  rw [csRelease_frame]
@[simp] theorem csRelease_prof1 (s : State) : (csRelease s).prof1 = s.prof1 := by
  rw [csRelease_frame]
@[simp] theorem csRelease_prof2 (s : State) : (csRelease s).prof2 = s.prof2 := by
  rw [csRelease_frame]
@[simp] theorem csRelease_act0 (s : State) : (csRelease s).act0 = s.act0 := by
  rw [csRelease_frame]
@[simp] theorem csRelease_act1 (s : State) : (csRelease s).act1 = s.act1 := by
  rw [csRelease_frame]
@[simp] theorem csRelease_act2 (s : State) : (csRelease s).act2 = s.act2 := by
  rw [csRelease_frame]
@[simp] theorem csRelease_addrBytes (s : State) : (csRelease s).addrBytes = s.addrBytes := by
  rw [csRelease_frame]
@[simp] theorem csRelease_enc (s : State) : (csRelease s).enc = s.enc := by
  rw [csRelease_frame]
@[simp] theorem csRelease_initDone (s : State) : (csRelease s).initDone = s.initDone := by
  rw [csRelease_frame]
@[simp] theorem csRelease_latch (s : State) : (csRelease s).latch = s.latch := by
  rw [csRelease_frame]
@[simp] theorem csRelease_exec (s : State) : (csRelease s).exec = s.exec := by
  rw [csRelease_frame]
@[simp] theorem csRelease_overrun (s : State) : (csRelease s).overrun = s.overrun := by
  rw [csRelease_frame]
@[simp] theorem csRelease_ctx (s : State) : (csRelease s).ctx = s.ctx := by
  rw [csRelease_frame]
@[simp] theorem csRelease_work (s : State) : (csRelease s).work = s.work := by
  rw [csRelease_frame]
@[simp] theorem csRelease_evtPending (s : State) : (csRelease s).evtPending = s.evtPending := by
  rw [csRelease_frame]
@[simp] theorem csRelease_handling (s : State) : (csRelease s).handling = s.handling := by
  rw [csRelease_frame]
@[simp] theorem csRelease_epoch (s : State) : (csRelease s).epoch = s.epoch := by
  rw [csRelease_frame]
@[simp] theorem csRelease_sync (s : State) : (csRelease s).sync = s.sync := by
  rw [csRelease_frame]
@[simp] theorem csRelease_todo (s : State) : (csRelease s).todo = s.todo := by
  rw [csRelease_frame]
@[simp] theorem csRelease_autoEn (s : State) : (csRelease s).autoEn = s.autoEn := by
  rw [csRelease_frame]
@[simp] theorem csRelease_autoActive (s : State) : (csRelease s).autoActive = s.autoActive := by
  rw [csRelease_frame]
@[simp] theorem csRelease_job (s : State) : (csRelease s).job = s.job := by
  rw [csRelease_frame]
@[simp] theorem csRelease_fifo (s : State) : (csRelease s).fifo = s.fifo := by
  rw [csRelease_frame]
@[simp] theorem csRelease_curBw (s : State) : (csRelease s).curBw = s.curBw := by
  rw [csRelease_frame]
@[simp] theorem csRelease_curElem (s : State) : (csRelease s).curElem = s.curElem := by
  rw [csRelease_frame]
@[simp] theorem csRelease_autoReqs (s : State) : (csRelease s).autoReqs = s.autoReqs := by
  rw [csRelease_frame]
@[simp] theorem csRelease_autoFlight (s : State) : (csRelease s).autoFlight = s.autoFlight := by
  rw [csRelease_frame]
@[simp] theorem csRelease_chan (s : State) : (csRelease s).chan = s.chan := by
  rw [csRelease_frame]
@[simp] theorem csRelease_configCalls (s : State) : (csRelease s).configCalls = s.configCalls := by
  rw [csRelease_frame]
@[simp] theorem csRelease_events (s : State) : (csRelease s).events = s.events := by
  rw [csRelease_frame]
@[simp] theorem csRelease_psram (s : State) : (csRelease s).psram = s.psram := by
  rw [csRelease_frame]
@[simp] theorem csRelease_psramPast (s : State) : (csRelease s).psramPast = s.psramPast := by
  rw [csRelease_frame]
@[simp] theorem csRelease_mem (s : State) : (csRelease s).mem = s.mem := by
  rw [csRelease_frame]
@[simp] theorem csRelease_hostProg (s : State) : (csRelease s).hostProg = s.hostProg := by
  rw [csRelease_frame]
@[simp] theorem csRelease_hostPend (s : State) : (csRelease s).hostPend = s.hostPend := by
  rw [csRelease_frame]
@[simp] theorem csRelease_hostLog (s : State) : (csRelease s).hostLog = s.hostLog := by
  rw [csRelease_frame]
@[simp] theorem csRelease_memAtCmd (s : State) : (csRelease s).memAtCmd = s.memAtCmd := by
  rw [csRelease_frame]
@[simp] theorem csRelease_race (s : State) : (csRelease s).race = s.race := by
  rw [csRelease_frame]
@[simp] theorem csRelease_launched (s : State) : (csRelease s).launched = s.launched := by
  rw [csRelease_frame]
@[simp] theorem csRelease_cpuReqs (s : State) : (csRelease s).cpuReqs = s.cpuReqs := by
  rw [csRelease_frame]
@[simp] theorem csRelease_sched (s : State) : (csRelease s).sched = s.sched := by
  rw [csRelease_frame]
@[simp] theorem csRelease_tick (s : State) : (csRelease s).tick = s.tick := by
  rw [csRelease_frame]

/-! ### recordPhase -/

theorem recordPhase_frame (s : State) (j : Job) (bs : List Byte) :
    recordPhase s j bs = { s with bus := (recordPhase s j bs).bus, job := (recordPhase s j bs).job } := rfl

@[simp] theorem recordPhase_cfg (s : State) (j : Job) (bs : List Byte) : (recordPhase s j bs).cfg = s.cfg := by
  rw [recordPhase_frame]
@[simp] theorem recordPhase_addr (s : State) (j : Job) (bs : List Byte) : (recordPhase s j bs).addr = s.addr := by
  rw [recordPhase_frame]
@[simp] theorem recordPhase_buf (s : State) (j : Job) (bs : List Byte) : (recordPhase s j bs).buf = s.buf := by
  rw [recordPhase_frame]
@[simp] theorem recordPhase_count (s : State) (j : Job) (bs : List Byte) : (recordPhase s j bs).count = s.count := by
  rw [recordPhase_frame]
@[simp] theorem recordPhase_statusPtr (s : State) (j : Job) (bs : List Byte) : (recordPhase s j bs).statusPtr = s.statusPtr := by
  rw [recordPhase_frame]
@[simp] theorem recordPhase_result (s : State) (j : Job) (bs : List Byte) : (recordPhase s j bs).result = s.result := by
  rw [recordPhase_frame]
@[simp] theorem recordPhase_prof0 (s : State) (j : Job) (bs : List Byte) : (recordPhase s j bs).prof0 = s.prof0 := by
  rw [recordPhase_frame]
@[simp] theorem recordPhase_prof1 (s : State) (j : Job) (bs : List Byte) : (recordPhase s j bs).prof1 = s.prof1 := by
  rw [recordPhase_frame]
@[simp] theorem recordPhase_prof2 (s : State) (j : Job) (bs : List Byte) : (recordPhase s j bs).prof2 = s.prof2 := by
  rw [recordPhase_frame]
@[simp] theorem recordPhase_act0 (s : State) (j : Job) (bs : List Byte) : (recordPhase s j bs).act0 = s.act0 := by
  rw [recordPhase_frame]
@[simp] theorem recordPhase_act1 (s : State) (j : Job) (bs : List Byte) : (recordPhase s j bs).act1 = s.act1 := by
  rw [recordPhase_frame]
@[simp] theorem recordPhase_act2 (s : State) (j : Job) (bs : List Byte) : (recordPhase s j bs).act2 = s.act2 := by
  rw [recordPhase_frame]
@[simp] theorem recordPhase_addrBytes (s : State) (j : Job) (bs : List Byte) : (recordPhase s j bs).addrBytes = s.addrBytes := by
  rw [recordPhase_frame]
@[simp] theorem recordPhase_enc (s : State) (j : Job) (bs : List Byte) : (recordPhase s j bs).enc = s.enc := by
  rw [recordPhase_frame]
@[simp] theorem recordPhase_initDone (s : State) (j : Job) (bs : List Byte) : (recordPhase s j bs).initDone = s.initDone := by
  rw [recordPhase_frame]
@[simp] theorem recordPhase_latch (s : State) (j : Job) (bs : List Byte) : (recordPhase s j bs).latch = s.latch := by
  rw [recordPhase_frame]
@[simp] theorem recordPhase_exec (s : State) (j : Job) (bs : List Byte) : (recordPhase s j bs).exec = s.exec := by
  rw [recordPhase_frame]
@[simp] theorem recordPhase_overrun (s : State) (j : Job) (bs : List Byte) : (recordPhase s j bs).overrun = s.overrun := by
  rw [recordPhase_frame]
@[simp] theorem recordPhase_ctx (s : State) (j : Job) (bs : List Byte) : (recordPhase s j bs).ctx = s.ctx := by
  rw [recordPhase_frame]
@[simp] theorem recordPhase_work (s : State) (j : Job) (bs : List Byte) : (recordPhase s j bs).work = s.work := by
  rw [recordPhase_frame]
@[simp] theorem recordPhase_evtPending (s : State) (j : Job) (bs : List Byte) : (recordPhase s j bs).evtPending = s.evtPending := by
  rw [recordPhase_frame]
@[simp] theorem recordPhase_handling (s : State) (j : Job) (bs : List Byte) : (recordPhase s j bs).handling = s.handling := by
  rw [recordPhase_frame]
@[simp] theorem recordPhase_epoch (s : State) (j : Job) (bs : List Byte) : (recordPhase s j bs).epoch = s.epoch := by
  rw [recordPhase_frame]
@[simp] theorem recordPhase_sync (s : State) (j : Job) (bs : List Byte) : (recordPhase s j bs).sync = s.sync := by
  rw [recordPhase_frame]
@[simp] theorem recordPhase_todo (s : State) (j : Job) (bs : List Byte) : (recordPhase s j bs).todo = s.todo := by
  rw [recordPhase_frame]
@[simp] theorem recordPhase_autoEn (s : State) (j : Job) (bs : List Byte) : (recordPhase s j bs).autoEn = s.autoEn := by
  rw [recordPhase_frame]
@[simp] theorem recordPhase_autoActive (s : State) (j : Job) (bs : List Byte) : (recordPhase s j bs).autoActive = s.autoActive := by
  rw [recordPhase_frame]
@[simp] theorem recordPhase_cs (s : State) (j : Job) (bs : List Byte) : (recordPhase s j bs).cs = s.cs := by
  rw [recordPhase_frame]
@[simp] theorem recordPhase_fifo (s : State) (j : Job) (bs : List Byte) : (recordPhase s j bs).fifo = s.fifo := by
  rw [recordPhase_frame]
@[simp] theorem recordPhase_curBw (s : State) (j : Job) (bs : List Byte) : (recordPhase s j bs).curBw = s.curBw := by
  rw [recordPhase_frame]
@[simp] theorem recordPhase_curElem (s : State) (j : Job) (bs : List Byte) : (recordPhase s j bs).curElem = s.curElem := by
  rw [recordPhase_frame]
@[simp] theorem recordPhase_autoReqs (s : State) (j : Job) (bs : List Byte) : (recordPhase s j bs).autoReqs = s.autoReqs := by
  rw [recordPhase_frame]
@[simp] theorem recordPhase_autoFlight (s : State) (j : Job) (bs : List Byte) : (recordPhase s j bs).autoFlight = s.autoFlight := by
  rw [recordPhase_frame]
@[simp] theorem recordPhase_chan (s : State) (j : Job) (bs : List Byte) : (recordPhase s j bs).chan = s.chan := by
  rw [recordPhase_frame]
@[simp] theorem recordPhase_configCalls (s : State) (j : Job) (bs : List Byte) : (recordPhase s j bs).configCalls = s.configCalls := by
  rw [recordPhase_frame]
@[simp] theorem recordPhase_events (s : State) (j : Job) (bs : List Byte) : (recordPhase s j bs).events = s.events := by
  rw [recordPhase_frame]
@[simp] theorem recordPhase_psram (s : State) (j : Job) (bs : List Byte) : (recordPhase s j bs).psram = s.psram := by
  rw [recordPhase_frame]
@[simp] theorem recordPhase_psramPast (s : State) (j : Job) (bs : List Byte) : (recordPhase s j bs).psramPast = s.psramPast := by
  rw [recordPhase_frame]
@[simp] theorem recordPhase_parser (s : State) (j : Job) (bs : List Byte) : (recordPhase s j bs).parser = s.parser := by
  rw [recordPhase_frame]
@[simp] theorem recordPhase_mem (s : State) (j : Job) (bs : List Byte) : (recordPhase s j bs).mem = s.mem := by
  rw [recordPhase_frame]
@[simp] theorem recordPhase_hostProg (s : State) (j : Job) (bs : List Byte) : (recordPhase s j bs).hostProg = s.hostProg := by
  rw [recordPhase_frame]
@[simp] theorem recordPhase_hostPend (s : State) (j : Job) (bs : List Byte) : (recordPhase s j bs).hostPend = s.hostPend := by
  rw [recordPhase_frame]
@[simp] theorem recordPhase_hostLog (s : State) (j : Job) (bs : List Byte) : (recordPhase s j bs).hostLog = s.hostLog := by
  rw [recordPhase_frame]
@[simp] theorem recordPhase_memAtCmd (s : State) (j : Job) (bs : List Byte) : (recordPhase s j bs).memAtCmd = s.memAtCmd := by
  rw [recordPhase_frame]
@[simp] theorem recordPhase_race (s : State) (j : Job) (bs : List Byte) : (recordPhase s j bs).race = s.race := by
  rw [recordPhase_frame]
@[simp] theorem recordPhase_launched (s : State) (j : Job) (bs : List Byte) : (recordPhase s j bs).launched = s.launched := by
  rw [recordPhase_frame]
@[simp] theorem recordPhase_cpuReqs (s : State) (j : Job) (bs : List Byte) : (recordPhase s j bs).cpuReqs = s.cpuReqs := by
  rw [recordPhase_frame]
@[simp] theorem recordPhase_sched (s : State) (j : Job) (bs : List Byte) : (recordPhase s j bs).sched = s.sched := by
  rw [recordPhase_frame]
@[simp] theorem recordPhase_tick (s : State) (j : Job) (bs : List Byte) : (recordPhase s j bs).tick = s.tick := by
  rw [recordPhase_frame]

/-! ### deviceByte -/

theorem deviceByte_frame (s : State) (k : Nat) (b : Byte) :
    deviceByte s k b = { s with psram := (deviceByte s k b).psram, psramPast := (deviceByte s k b).psramPast, parser := (deviceByte s k b).parser } := by
  unfold deviceByte; split <;> (try split) <;> (try split) <;> rfl

@[simp] theorem deviceByte_cfg (s : State) (k : Nat) (b : Byte) : (deviceByte s k b).cfg = s.cfg := by
  rw [deviceByte_frame]
@[simp] theorem deviceByte_addr (s : State) (k : Nat) (b : Byte) : (deviceByte s k b).addr = s.addr := by
  rw [deviceByte_frame]
@[simp] theorem deviceByte_buf (s : State) (k : Nat) (b : Byte) : (deviceByte s k b).buf = s.buf := by
  rw [deviceByte_frame]
@[simp] theorem deviceByte_count (s : State) (k : Nat) (b : Byte) : (deviceByte s k b).count = s.count := by
  rw [deviceByte_frame]
@[simp] theorem deviceByte_statusPtr (s : State) (k : Nat) (b : Byte) : (deviceByte s k b).statusPtr = s.statusPtr := by
  rw [deviceByte_frame]
@[simp] theorem deviceByte_result (s : State) (k : Nat) (b : Byte) : (deviceByte s k b).result = s.result := by
  rw [deviceByte_frame]
@[simp] theorem deviceByte_prof0 (s : State) (k : Nat) (b : Byte) : (deviceByte s k b).prof0 = s.prof0 := by
  rw [deviceByte_frame]
@[simp] theorem deviceByte_prof1 (s : State) (k : Nat) (b : Byte) : (deviceByte s k b).prof1 = s.prof1 := by
  rw [deviceByte_frame]
@[simp] theorem deviceByte_prof2 (s : State) (k : Nat) (b : Byte) : (deviceByte s k b).prof2 = s.prof2 := by
  rw [deviceByte_frame]
@[simp] theorem deviceByte_act0 (s : State) (k : Nat) (b : Byte) : (deviceByte s k b).act0 = s.act0 := by
  rw [deviceByte_frame]
@[simp] theorem deviceByte_act1 (s : State) (k : Nat) (b : Byte) : (deviceByte s k b).act1 = s.act1 := by
  rw [deviceByte_frame]
@[simp] theorem deviceByte_act2 (s : State) (k : Nat) (b : Byte) : (deviceByte s k b).act2 = s.act2 := by
  rw [deviceByte_frame]
@[simp] theorem deviceByte_addrBytes (s : State) (k : Nat) (b : Byte) : (deviceByte s k b).addrBytes = s.addrBytes := by
  rw [deviceByte_frame]
@[simp] theorem deviceByte_enc (s : State) (k : Nat) (b : Byte) : (deviceByte s k b).enc = s.enc := by
  rw [deviceByte_frame]
@[simp] theorem deviceByte_initDone (s : State) (k : Nat) (b : Byte) : (deviceByte s k b).initDone = s.initDone := by
  rw [deviceByte_frame]
@[simp] theorem deviceByte_latch (s : State) (k : Nat) (b : Byte) : (deviceByte s k b).latch = s.latch := by
  rw [deviceByte_frame]
@[simp] theorem deviceByte_exec (s : State) (k : Nat) (b : Byte) : (deviceByte s k b).exec = s.exec := by
  rw [deviceByte_frame]
@[simp] theorem deviceByte_overrun (s : State) (k : Nat) (b : Byte) : (deviceByte s k b).overrun = s.overrun := by
  rw [deviceByte_frame]
@[simp] theorem deviceByte_ctx (s : State) (k : Nat) (b : Byte) : (deviceByte s k b).ctx = s.ctx := by
  rw [deviceByte_frame]
@[simp] theorem deviceByte_work (s : State) (k : Nat) (b : Byte) : (deviceByte s k b).work = s.work := by
  rw [deviceByte_frame]
@[simp] theorem deviceByte_evtPending (s : State) (k : Nat) (b : Byte) : (deviceByte s k b).evtPending = s.evtPending := by
  rw [deviceByte_frame]
@[simp] theorem deviceByte_handling (s : State) (k : Nat) (b : Byte) : (deviceByte s k b).handling = s.handling := by
  rw [deviceByte_frame]
@[simp] theorem deviceByte_epoch (s : State) (k : Nat) (b : Byte) : (deviceByte s k b).epoch = s.epoch := by
  rw [deviceByte_frame]
@[simp] theorem deviceByte_sync (s : State) (k : Nat) (b : Byte) : (deviceByte s k b).sync = s.sync := by
  rw [deviceByte_frame]
@[simp] theorem deviceByte_todo (s : State) (k : Nat) (b : Byte) : (deviceByte s k b).todo = s.todo := by
  rw [deviceByte_frame]
@[simp] theorem deviceByte_autoEn (s : State) (k : Nat) (b : Byte) : (deviceByte s k b).autoEn = s.autoEn := by
  rw [deviceByte_frame]
@[simp] theorem deviceByte_autoActive (s : State) (k : Nat) (b : Byte) : (deviceByte s k b).autoActive = s.autoActive := by
  rw [deviceByte_frame]
@[simp] theorem deviceByte_job (s : State) (k : Nat) (b : Byte) : (deviceByte s k b).job = s.job := by
  rw [deviceByte_frame]
@[simp] theorem deviceByte_cs (s : State) (k : Nat) (b : Byte) : (deviceByte s k b).cs = s.cs := by
  rw [deviceByte_frame]
@[simp] theorem deviceByte_fifo (s : State) (k : Nat) (b : Byte) : (deviceByte s k b).fifo = s.fifo := by
  rw [deviceByte_frame]
@[simp] theorem deviceByte_curBw (s : State) (k : Nat) (b : Byte) : (deviceByte s k b).curBw = s.curBw := by
  rw [deviceByte_frame]
@[simp] theorem deviceByte_curElem (s : State) (k : Nat) (b : Byte) : (deviceByte s k b).curElem = s.curElem := by
  rw [deviceByte_frame]
@[simp] theorem deviceByte_autoReqs (s : State) (k : Nat) (b : Byte) : (deviceByte s k b).autoReqs = s.autoReqs := by
  rw [deviceByte_frame]
@[simp] theorem deviceByte_autoFlight (s : State) (k : Nat) (b : Byte) : (deviceByte s k b).autoFlight = s.autoFlight := by
  rw [deviceByte_frame]
@[simp] theorem deviceByte_chan (s : State) (k : Nat) (b : Byte) : (deviceByte s k b).chan = s.chan := by
  rw [deviceByte_frame]
@[simp] theorem deviceByte_configCalls (s : State) (k : Nat) (b : Byte) : (deviceByte s k b).configCalls = s.configCalls := by
  rw [deviceByte_frame]
@[simp] theorem deviceByte_events (s : State) (k : Nat) (b : Byte) : (deviceByte s k b).events = s.events := by
  rw [deviceByte_frame]
@[simp] theorem deviceByte_mem (s : State) (k : Nat) (b : Byte) : (deviceByte s k b).mem = s.mem := by
  rw [deviceByte_frame]
@[simp] theorem deviceByte_hostProg (s : State) (k : Nat) (b : Byte) : (deviceByte s k b).hostProg = s.hostProg := by
  rw [deviceByte_frame]
@[simp] theorem deviceByte_hostPend (s : State) (k : Nat) (b : Byte) : (deviceByte s k b).hostPend = s.hostPend := by
  rw [deviceByte_frame]
@[simp] theorem deviceByte_hostLog (s : State) (k : Nat) (b : Byte) : (deviceByte s k b).hostLog = s.hostLog := by
  rw [deviceByte_frame]
@[simp] theorem deviceByte_memAtCmd (s : State) (k : Nat) (b : Byte) : (deviceByte s k b).memAtCmd = s.memAtCmd := by
  rw [deviceByte_frame]
@[simp] theorem deviceByte_race (s : State) (k : Nat) (b : Byte) : (deviceByte s k b).race = s.race := by
  rw [deviceByte_frame]
@[simp] theorem deviceByte_launched (s : State) (k : Nat) (b : Byte) : (deviceByte s k b).launched = s.launched := by
  rw [deviceByte_frame]
@[simp] theorem deviceByte_cpuReqs (s : State) (k : Nat) (b : Byte) : (deviceByte s k b).cpuReqs = s.cpuReqs := by
  rw [deviceByte_frame]
@[simp] theorem deviceByte_bus (s : State) (k : Nat) (b : Byte) : (deviceByte s k b).bus = s.bus := by
  rw [deviceByte_frame]
@[simp] theorem deviceByte_sched (s : State) (k : Nat) (b : Byte) : (deviceByte s k b).sched = s.sched := by
  rw [deviceByte_frame]
@[simp] theorem deviceByte_tick (s : State) (k : Nat) (b : Byte) : (deviceByte s k b).tick = s.tick := by
  rw [deviceByte_frame]

/-! ### deviceReceive -/

theorem deviceReceive_frame (s : State) (n : Nat) (bs : List Byte) :
    deviceReceive s n bs = { s with psram := (deviceReceive s n bs).psram, psramPast := (deviceReceive s n bs).psramPast, parser := (deviceReceive s n bs).parser } := by
  induction bs generalizing s n with
  | nil => rfl
  | cons b bs ih =>
    unfold deviceReceive
    split
    · rfl
    · rw [ih, deviceByte_frame]

@[simp] theorem deviceReceive_cfg (s : State) (n : Nat) (bs : List Byte) : (deviceReceive s n bs).cfg = s.cfg := by
  rw [deviceReceive_frame]
@[simp] theorem deviceReceive_addr (s : State) (n : Nat) (bs : List Byte) : (deviceReceive s n bs).addr = s.addr := by
  rw [deviceReceive_frame]
@[simp] theorem deviceReceive_buf (s : State) (n : Nat) (bs : List Byte) : (deviceReceive s n bs).buf = s.buf := by
  rw [deviceReceive_frame]
@[simp] theorem deviceReceive_count (s : State) (n : Nat) (bs : List Byte) : (deviceReceive s n bs).count = s.count := by
  rw [deviceReceive_frame]
@[simp] theorem deviceReceive_statusPtr (s : State) (n : Nat) (bs : List Byte) : (deviceReceive s n bs).statusPtr = s.statusPtr := by
  rw [deviceReceive_frame]
@[simp] theorem deviceReceive_result (s : State) (n : Nat) (bs : List Byte) : (deviceReceive s n bs).result = s.result := by
  rw [deviceReceive_frame]
@[simp] theorem deviceReceive_prof0 (s : State) (n : Nat) (bs : List Byte) : (deviceReceive s n bs).prof0 = s.prof0 := by
  rw [deviceReceive_frame]
@[simp] theorem deviceReceive_prof1 (s : State) (n : Nat) (bs : List Byte) : (deviceReceive s n bs).prof1 = s.prof1 := by
  rw [deviceReceive_frame]
@[simp] theorem deviceReceive_prof2 (s : State) (n : Nat) (bs : List Byte) : (deviceReceive s n bs).prof2 = s.prof2 := by
  rw [deviceReceive_frame]
@[simp] theorem deviceReceive_act0 (s : State) (n : Nat) (bs : List Byte) : (deviceReceive s n bs).act0 = s.act0 := by
  rw [deviceReceive_frame]
@[simp] theorem deviceReceive_act1 (s : State) (n : Nat) (bs : List Byte) : (deviceReceive s n bs).act1 = s.act1 := by
  rw [deviceReceive_frame]
@[simp] theorem deviceReceive_act2 (s : State) (n : Nat) (bs : List Byte) : (deviceReceive s n bs).act2 = s.act2 := by
  rw [deviceReceive_frame]
@[simp] theorem deviceReceive_addrBytes (s : State) (n : Nat) (bs : List Byte) : (deviceReceive s n bs).addrBytes = s.addrBytes := by
  rw [deviceReceive_frame]
@[simp] theorem deviceReceive_enc (s : State) (n : Nat) (bs : List Byte) : (deviceReceive s n bs).enc = s.enc := by
  rw [deviceReceive_frame]
@[simp] theorem deviceReceive_initDone (s : State) (n : Nat) (bs : List Byte) : (deviceReceive s n bs).initDone = s.initDone := by
  rw [deviceReceive_frame]
@[simp] theorem deviceReceive_latch (s : State) (n : Nat) (bs : List Byte) : (deviceReceive s n bs).latch = s.latch := by
  rw [deviceReceive_frame]
@[simp] theorem deviceReceive_exec (s : State) (n : Nat) (bs : List Byte) : (deviceReceive s n bs).exec = s.exec := by
  rw [deviceReceive_frame]
@[simp] theorem deviceReceive_overrun (s : State) (n : Nat) (bs : List Byte) : (deviceReceive s n bs).overrun = s.overrun := by
  rw [deviceReceive_frame]
@[simp] theorem deviceReceive_ctx (s : State) (n : Nat) (bs : List Byte) : (deviceReceive s n bs).ctx = s.ctx := by
  rw [deviceReceive_frame]
@[simp] theorem deviceReceive_work (s : State) (n : Nat) (bs : List Byte) : (deviceReceive s n bs).work = s.work := by
  rw [deviceReceive_frame]
@[simp] theorem deviceReceive_evtPending (s : State) (n : Nat) (bs : List Byte) : (deviceReceive s n bs).evtPending = s.evtPending := by
  rw [deviceReceive_frame]
@[simp] theorem deviceReceive_handling (s : State) (n : Nat) (bs : List Byte) : (deviceReceive s n bs).handling = s.handling := by
  rw [deviceReceive_frame]
@[simp] theorem deviceReceive_epoch (s : State) (n : Nat) (bs : List Byte) : (deviceReceive s n bs).epoch = s.epoch := by
  rw [deviceReceive_frame]
@[simp] theorem deviceReceive_sync (s : State) (n : Nat) (bs : List Byte) : (deviceReceive s n bs).sync = s.sync := by
  rw [deviceReceive_frame]
@[simp] theorem deviceReceive_todo (s : State) (n : Nat) (bs : List Byte) : (deviceReceive s n bs).todo = s.todo := by
  rw [deviceReceive_frame]
@[simp] theorem deviceReceive_autoEn (s : State) (n : Nat) (bs : List Byte) : (deviceReceive s n bs).autoEn = s.autoEn := by
  rw [deviceReceive_frame]
@[simp] theorem deviceReceive_autoActive (s : State) (n : Nat) (bs : List Byte) : (deviceReceive s n bs).autoActive = s.autoActive := by
  rw [deviceReceive_frame]
@[simp] theorem deviceReceive_job (s : State) (n : Nat) (bs : List Byte) : (deviceReceive s n bs).job = s.job := by
  rw [deviceReceive_frame]
@[simp] theorem deviceReceive_cs (s : State) (n : Nat) (bs : List Byte) : (deviceReceive s n bs).cs = s.cs := by
  rw [deviceReceive_frame]
@[simp] theorem deviceReceive_fifo (s : State) (n : Nat) (bs : List Byte) : (deviceReceive s n bs).fifo = s.fifo := by
  rw [deviceReceive_frame]
@[simp] theorem deviceReceive_curBw (s : State) (n : Nat) (bs : List Byte) : (deviceReceive s n bs).curBw = s.curBw := by
  rw [deviceReceive_frame]
@[simp] theorem deviceReceive_curElem (s : State) (n : Nat) (bs : List Byte) : (deviceReceive s n bs).curElem = s.curElem := by
  rw [deviceReceive_frame]
@[simp] theorem deviceReceive_autoReqs (s : State) (n : Nat) (bs : List Byte) : (deviceReceive s n bs).autoReqs = s.autoReqs := by
  rw [deviceReceive_frame]
@[simp] theorem deviceReceive_autoFlight (s : State) (n : Nat) (bs : List Byte) : (deviceReceive s n bs).autoFlight = s.autoFlight := by
  rw [deviceReceive_frame]
@[simp] theorem deviceReceive_chan (s : State) (n : Nat) (bs : List Byte) : (deviceReceive s n bs).chan = s.chan := by
  rw [deviceReceive_frame]
@[simp] theorem deviceReceive_configCalls (s : State) (n : Nat) (bs : List Byte) : (deviceReceive s n bs).configCalls = s.configCalls := by
  rw [deviceReceive_frame]
@[simp] theorem deviceReceive_events (s : State) (n : Nat) (bs : List Byte) : (deviceReceive s n bs).events = s.events := by
  rw [deviceReceive_frame]
@[simp] theorem deviceReceive_mem (s : State) (n : Nat) (bs : List Byte) : (deviceReceive s n bs).mem = s.mem := by
  rw [deviceReceive_frame]
@[simp] theorem deviceReceive_hostProg (s : State) (n : Nat) (bs : List Byte) : (deviceReceive s n bs).hostProg = s.hostProg := by
  rw [deviceReceive_frame]
@[simp] theorem deviceReceive_hostPend (s : State) (n : Nat) (bs : List Byte) : (deviceReceive s n bs).hostPend = s.hostPend := by
  rw [deviceReceive_frame]
@[simp] theorem deviceReceive_hostLog (s : State) (n : Nat) (bs : List Byte) : (deviceReceive s n bs).hostLog = s.hostLog := by
  rw [deviceReceive_frame]
@[simp] theorem deviceReceive_memAtCmd (s : State) (n : Nat) (bs : List Byte) : (deviceReceive s n bs).memAtCmd = s.memAtCmd := by
  rw [deviceReceive_frame]
@[simp] theorem deviceReceive_race (s : State) (n : Nat) (bs : List Byte) : (deviceReceive s n bs).race = s.race := by
  rw [deviceReceive_frame]
@[simp] theorem deviceReceive_launched (s : State) (n : Nat) (bs : List Byte) : (deviceReceive s n bs).launched = s.launched := by
  rw [deviceReceive_frame]
@[simp] theorem deviceReceive_cpuReqs (s : State) (n : Nat) (bs : List Byte) : (deviceReceive s n bs).cpuReqs = s.cpuReqs := by
  rw [deviceReceive_frame]
@[simp] theorem deviceReceive_bus (s : State) (n : Nat) (bs : List Byte) : (deviceReceive s n bs).bus = s.bus := by
  rw [deviceReceive_frame]
@[simp] theorem deviceReceive_sched (s : State) (n : Nat) (bs : List Byte) : (deviceReceive s n bs).sched = s.sched := by
  rw [deviceReceive_frame]
@[simp] theorem deviceReceive_tick (s : State) (n : Nat) (bs : List Byte) : (deviceReceive s n bs).tick = s.tick := by
  rw [deviceReceive_frame]

/-! ### deviceSend -/

theorem deviceSend_frame (s : State) (i : Nat) :
    (deviceSend s i).2 = { s with parser := ((deviceSend s i).2).parser } := by
  unfold deviceSend; split <;> rfl

@[simp] theorem deviceSend_cfg (s : State) (i : Nat) : ((deviceSend s i).2).cfg = s.cfg := by
  rw [deviceSend_frame]
@[simp] theorem deviceSend_addr (s : State) (i : Nat) : ((deviceSend s i).2).addr = s.addr := by
  rw [deviceSend_frame]
@[simp] theorem deviceSend_buf (s : State) (i : Nat) : ((deviceSend s i).2).buf = s.buf := by
  rw [deviceSend_frame]
@[simp] theorem deviceSend_count (s : State) (i : Nat) : ((deviceSend s i).2).count = s.count := by
  rw [deviceSend_frame]
@[simp] theorem deviceSend_statusPtr (s : State) (i : Nat) : ((deviceSend s i).2).statusPtr = s.statusPtr := by
  rw [deviceSend_frame]
@[simp] theorem deviceSend_result (s : State) (i : Nat) : ((deviceSend s i).2).result = s.result := by
  rw [deviceSend_frame]
@[simp] theorem deviceSend_prof0 (s : State) (i : Nat) : ((deviceSend s i).2).prof0 = s.prof0 := by
  rw [deviceSend_frame]
@[simp] theorem deviceSend_prof1 (s : State) (i : Nat) : ((deviceSend s i).2).prof1 = s.prof1 := by
  rw [deviceSend_frame]
@[simp] theorem deviceSend_prof2 (s : State) (i : Nat) : ((deviceSend s i).2).prof2 = s.prof2 := by
  rw [deviceSend_frame]
@[simp] theorem deviceSend_act0 (s : State) (i : Nat) : ((deviceSend s i).2).act0 = s.act0 := by
  rw [deviceSend_frame]
@[simp] theorem deviceSend_act1 (s : State) (i : Nat) : ((deviceSend s i).2).act1 = s.act1 := by
  rw [deviceSend_frame]
@[simp] theorem deviceSend_act2 (s : State) (i : Nat) : ((deviceSend s i).2).act2 = s.act2 := by
  rw [deviceSend_frame]
@[simp] theorem deviceSend_addrBytes (s : State) (i : Nat) : ((deviceSend s i).2).addrBytes = s.addrBytes := by
  rw [deviceSend_frame]
@[simp] theorem deviceSend_enc (s : State) (i : Nat) : ((deviceSend s i).2).enc = s.enc := by
  rw [deviceSend_frame]
@[simp] theorem deviceSend_initDone (s : State) (i : Nat) : ((deviceSend s i).2).initDone = s.initDone := by
  rw [deviceSend_frame]
@[simp] theorem deviceSend_latch (s : State) (i : Nat) : ((deviceSend s i).2).latch = s.latch := by
  rw [deviceSend_frame]
@[simp] theorem deviceSend_exec (s : State) (i : Nat) : ((deviceSend s i).2).exec = s.exec := by
  rw [deviceSend_frame]
@[simp] theorem deviceSend_overrun (s : State) (i : Nat) : ((deviceSend s i).2).overrun = s.overrun := by
  rw [deviceSend_frame]
@[simp] theorem deviceSend_ctx (s : State) (i : Nat) : ((deviceSend s i).2).ctx = s.ctx := by
  rw [deviceSend_frame]
@[simp] theorem deviceSend_work (s : State) (i : Nat) : ((deviceSend s i).2).work = s.work := by
  rw [deviceSend_frame]
@[simp] theorem deviceSend_evtPending (s : State) (i : Nat) : ((deviceSend s i).2).evtPending = s.evtPending := by
  rw [deviceSend_frame]
@[simp] theorem deviceSend_handling (s : State) (i : Nat) : ((deviceSend s i).2).handling = s.handling := by
  rw [deviceSend_frame]
@[simp] theorem deviceSend_epoch (s : State) (i : Nat) : ((deviceSend s i).2).epoch = s.epoch := by
  rw [deviceSend_frame]
@[simp] theorem deviceSend_sync (s : State) (i : Nat) : ((deviceSend s i).2).sync = s.sync := by
  rw [deviceSend_frame]
@[simp] theorem deviceSend_todo (s : State) (i : Nat) : ((deviceSend s i).2).todo = s.todo := by
  rw [deviceSend_frame]
@[simp] theorem deviceSend_autoEn (s : State) (i : Nat) : ((deviceSend s i).2).autoEn = s.autoEn := by
  rw [deviceSend_frame]
@[simp] theorem deviceSend_autoActive (s : State) (i : Nat) : ((deviceSend s i).2).autoActive = s.autoActive := by
  rw [deviceSend_frame]
@[simp] theorem deviceSend_job (s : State) (i : Nat) : ((deviceSend s i).2).job = s.job := by
  rw [deviceSend_frame]
@[simp] theorem deviceSend_cs (s : State) (i : Nat) : ((deviceSend s i).2).cs = s.cs := by
  rw [deviceSend_frame]
@[simp] theorem deviceSend_fifo (s : State) (i : Nat) : ((deviceSend s i).2).fifo = s.fifo := by
  rw [deviceSend_frame]
@[simp] theorem deviceSend_curBw (s : State) (i : Nat) : ((deviceSend s i).2).curBw = s.curBw := by
  rw [deviceSend_frame]
@[simp] theorem deviceSend_curElem (s : State) (i : Nat) : ((deviceSend s i).2).curElem = s.curElem := by
  rw [deviceSend_frame]
@[simp] theorem deviceSend_autoReqs (s : State) (i : Nat) : ((deviceSend s i).2).autoReqs = s.autoReqs := by
  rw [deviceSend_frame]
@[simp] theorem deviceSend_autoFlight (s : State) (i : Nat) : ((deviceSend s i).2).autoFlight = s.autoFlight := by
  rw [deviceSend_frame]
@[simp] theorem deviceSend_chan (s : State) (i : Nat) : ((deviceSend s i).2).chan = s.chan := by
  rw [deviceSend_frame]
@[simp] theorem deviceSend_configCalls (s : State) (i : Nat) : ((deviceSend s i).2).configCalls = s.configCalls := by
  rw [deviceSend_frame]
@[simp] theorem deviceSend_events (s : State) (i : Nat) : ((deviceSend s i).2).events = s.events := by
  rw [deviceSend_frame]
@[simp] theorem deviceSend_psram (s : State) (i : Nat) : ((deviceSend s i).2).psram = s.psram := by
  rw [deviceSend_frame]
@[simp] theorem deviceSend_psramPast (s : State) (i : Nat) : ((deviceSend s i).2).psramPast = s.psramPast := by
  rw [deviceSend_frame]
@[simp] theorem deviceSend_mem (s : State) (i : Nat) : ((deviceSend s i).2).mem = s.mem := by
  rw [deviceSend_frame]
@[simp] theorem deviceSend_hostProg (s : State) (i : Nat) : ((deviceSend s i).2).hostProg = s.hostProg := by
  rw [deviceSend_frame]
@[simp] theorem deviceSend_hostPend (s : State) (i : Nat) : ((deviceSend s i).2).hostPend = s.hostPend := by
  rw [deviceSend_frame]
@[simp] theorem deviceSend_hostLog (s : State) (i : Nat) : ((deviceSend s i).2).hostLog = s.hostLog := by
  rw [deviceSend_frame]
@[simp] theorem deviceSend_memAtCmd (s : State) (i : Nat) : ((deviceSend s i).2).memAtCmd = s.memAtCmd := by
  rw [deviceSend_frame]
@[simp] theorem deviceSend_race (s : State) (i : Nat) : ((deviceSend s i).2).race = s.race := by
  rw [deviceSend_frame]
@[simp] theorem deviceSend_launched (s : State) (i : Nat) : ((deviceSend s i).2).launched = s.launched := by
  rw [deviceSend_frame]
@[simp] theorem deviceSend_cpuReqs (s : State) (i : Nat) : ((deviceSend s i).2).cpuReqs = s.cpuReqs := by
  rw [deviceSend_frame]
@[simp] theorem deviceSend_bus (s : State) (i : Nat) : ((deviceSend s i).2).bus = s.bus := by
  rw [deviceSend_frame]
@[simp] theorem deviceSend_sched (s : State) (i : Nat) : ((deviceSend s i).2).sched = s.sched := by
  rw [deviceSend_frame]
@[simp] theorem deviceSend_tick (s : State) (i : Nat) : ((deviceSend s i).2).tick = s.tick := by
  rw [deviceSend_frame]

/-! ### deviceSendBytes -/

theorem deviceSendBytes_frame (s : State) (i n : Nat) :
    (deviceSendBytes s i n).2 = { s with parser := ((deviceSendBytes s i n).2).parser } := by
  induction n generalizing s i with
  | zero => rfl
  | succ n ih =>
    show (deviceSendBytes (deviceSend s i).2 (i + 1) n).2 = _
    rw [ih]
    simp [deviceSendBytes]

@[simp] theorem deviceSendBytes_cfg (s : State) (i n : Nat) : ((deviceSendBytes s i n).2).cfg = s.cfg := by
  rw [deviceSendBytes_frame]
@[simp] theorem deviceSendBytes_addr (s : State) (i n : Nat) : ((deviceSendBytes s i n).2).addr = s.addr := by
  rw [deviceSendBytes_frame]
@[simp] theorem deviceSendBytes_buf (s : State) (i n : Nat) : ((deviceSendBytes s i n).2).buf = s.buf := by
  rw [deviceSendBytes_frame]
@[simp] theorem deviceSendBytes_count (s : State) (i n : Nat) : ((deviceSendBytes s i n).2).count = s.count := by
  rw [deviceSendBytes_frame]
@[simp] theorem deviceSendBytes_statusPtr (s : State) (i n : Nat) : ((deviceSendBytes s i n).2).statusPtr = s.statusPtr := by
  rw [deviceSendBytes_frame]
@[simp] theorem deviceSendBytes_result (s : State) (i n : Nat) : ((deviceSendBytes s i n).2).result = s.result := by
  rw [deviceSendBytes_frame]
@[simp] theorem deviceSendBytes_prof0 (s : State) (i n : Nat) : ((deviceSendBytes s i n).2).prof0 = s.prof0 := by
  rw [deviceSendBytes_frame]
@[simp] theorem deviceSendBytes_prof1 (s : State) (i n : Nat) : ((deviceSendBytes s i n).2).prof1 = s.prof1 := by
  rw [deviceSendBytes_frame]
@[simp] theorem deviceSendBytes_prof2 (s : State) (i n : Nat) : ((deviceSendBytes s i n).2).prof2 = s.prof2 := by
  rw [deviceSendBytes_frame]
@[simp] theorem deviceSendBytes_act0 (s : State) (i n : Nat) : ((deviceSendBytes s i n).2).act0 = s.act0 := by
  rw [deviceSendBytes_frame]
@[simp] theorem deviceSendBytes_act1 (s : State) (i n : Nat) : ((deviceSendBytes s i n).2).act1 = s.act1 := by
  rw [deviceSendBytes_frame]
@[simp] theorem deviceSendBytes_act2 (s : State) (i n : Nat) : ((deviceSendBytes s i n).2).act2 = s.act2 := by
  rw [deviceSendBytes_frame]
@[simp] theorem deviceSendBytes_addrBytes (s : State) (i n : Nat) : ((deviceSendBytes s i n).2).addrBytes = s.addrBytes := by
  rw [deviceSendBytes_frame]
@[simp] theorem deviceSendBytes_enc (s : State) (i n : Nat) : ((deviceSendBytes s i n).2).enc = s.enc := by
  rw [deviceSendBytes_frame]
@[simp] theorem deviceSendBytes_initDone (s : State) (i n : Nat) : ((deviceSendBytes s i n).2).initDone = s.initDone := by
  rw [deviceSendBytes_frame]
@[simp] theorem deviceSendBytes_latch (s : State) (i n : Nat) : ((deviceSendBytes s i n).2).latch = s.latch := by
  rw [deviceSendBytes_frame]
@[simp] theorem deviceSendBytes_exec (s : State) (i n : Nat) : ((deviceSendBytes s i n).2).exec = s.exec := by
  rw [deviceSendBytes_frame]
@[simp] theorem deviceSendBytes_overrun (s : State) (i n : Nat) : ((deviceSendBytes s i n).2).overrun = s.overrun := by
  rw [deviceSendBytes_frame]
@[simp] theorem deviceSendBytes_ctx (s : State) (i n : Nat) : ((deviceSendBytes s i n).2).ctx = s.ctx := by
  rw [deviceSendBytes_frame]
@[simp] theorem deviceSendBytes_work (s : State) (i n : Nat) : ((deviceSendBytes s i n).2).work = s.work := by
  rw [deviceSendBytes_frame]
@[simp] theorem deviceSendBytes_evtPending (s : State) (i n : Nat) : ((deviceSendBytes s i n).2).evtPending = s.evtPending := by
  rw [deviceSendBytes_frame]
@[simp] theorem deviceSendBytes_handling (s : State) (i n : Nat) : ((deviceSendBytes s i n).2).handling = s.handling := by
  rw [deviceSendBytes_frame]
@[simp] theorem deviceSendBytes_epoch (s : State) (i n : Nat) : ((deviceSendBytes s i n).2).epoch = s.epoch := by
  rw [deviceSendBytes_frame]
@[simp] theorem deviceSendBytes_sync (s : State) (i n : Nat) : ((deviceSendBytes s i n).2).sync = s.sync := by
  rw [deviceSendBytes_frame]
@[simp] theorem deviceSendBytes_todo (s : State) (i n : Nat) : ((deviceSendBytes s i n).2).todo = s.todo := by
  rw [deviceSendBytes_frame]
@[simp] theorem deviceSendBytes_autoEn (s : State) (i n : Nat) : ((deviceSendBytes s i n).2).autoEn = s.autoEn := by
  rw [deviceSendBytes_frame]
@[simp] theorem deviceSendBytes_autoActive (s : State) (i n : Nat) : ((deviceSendBytes s i n).2).autoActive = s.autoActive := by
  rw [deviceSendBytes_frame]
@[simp] theorem deviceSendBytes_job (s : State) (i n : Nat) : ((deviceSendBytes s i n).2).job = s.job := by
  rw [deviceSendBytes_frame]
@[simp] theorem deviceSendBytes_cs (s : State) (i n : Nat) : ((deviceSendBytes s i n).2).cs = s.cs := by
  rw [deviceSendBytes_frame]
@[simp] theorem deviceSendBytes_fifo (s : State) (i n : Nat) : ((deviceSendBytes s i n).2).fifo = s.fifo := by
  rw [deviceSendBytes_frame]
@[simp] theorem deviceSendBytes_curBw (s : State) (i n : Nat) : ((deviceSendBytes s i n).2).curBw = s.curBw := by
  rw [deviceSendBytes_frame]
@[simp] theorem deviceSendBytes_curElem (s : State) (i n : Nat) : ((deviceSendBytes s i n).2).curElem = s.curElem := by
  rw [deviceSendBytes_frame]
@[simp] theorem deviceSendBytes_autoReqs (s : State) (i n : Nat) : ((deviceSendBytes s i n).2).autoReqs = s.autoReqs := by
  rw [deviceSendBytes_frame]
@[simp] theorem deviceSendBytes_autoFlight (s : State) (i n : Nat) : ((deviceSendBytes s i n).2).autoFlight = s.autoFlight := by
  rw [deviceSendBytes_frame]
@[simp] theorem deviceSendBytes_chan (s : State) (i n : Nat) : ((deviceSendBytes s i n).2).chan = s.chan := by
  rw [deviceSendBytes_frame]
@[simp] theorem deviceSendBytes_configCalls (s : State) (i n : Nat) : ((deviceSendBytes s i n).2).configCalls = s.configCalls := by
  rw [deviceSendBytes_frame]
@[simp] theorem deviceSendBytes_events (s : State) (i n : Nat) : ((deviceSendBytes s i n).2).events = s.events := by
  rw [deviceSendBytes_frame]
@[simp] theorem deviceSendBytes_psram (s : State) (i n : Nat) : ((deviceSendBytes s i n).2).psram = s.psram := by
  rw [deviceSendBytes_frame]
@[simp] theorem deviceSendBytes_psramPast (s : State) (i n : Nat) : ((deviceSendBytes s i n).2).psramPast = s.psramPast := by
  rw [deviceSendBytes_frame]
@[simp] theorem deviceSendBytes_mem (s : State) (i n : Nat) : ((deviceSendBytes s i n).2).mem = s.mem := by
  rw [deviceSendBytes_frame]
@[simp] theorem deviceSendBytes_hostProg (s : State) (i n : Nat) : ((deviceSendBytes s i n).2).hostProg = s.hostProg := by
  rw [deviceSendBytes_frame]
@[simp] theorem deviceSendBytes_hostPend (s : State) (i n : Nat) : ((deviceSendBytes s i n).2).hostPend = s.hostPend := by
  rw [deviceSendBytes_frame]
@[simp] theorem deviceSendBytes_hostLog (s : State) (i n : Nat) : ((deviceSendBytes s i n).2).hostLog = s.hostLog := by
  rw [deviceSendBytes_frame]
@[simp] theorem deviceSendBytes_memAtCmd (s : State) (i n : Nat) : ((deviceSendBytes s i n).2).memAtCmd = s.memAtCmd := by
  rw [deviceSendBytes_frame]
@[simp] theorem deviceSendBytes_race (s : State) (i n : Nat) : ((deviceSendBytes s i n).2).race = s.race := by
  rw [deviceSendBytes_frame]
@[simp] theorem deviceSendBytes_launched (s : State) (i n : Nat) : ((deviceSendBytes s i n).2).launched = s.launched := by
  rw [deviceSendBytes_frame]
@[simp] theorem deviceSendBytes_cpuReqs (s : State) (i n : Nat) : ((deviceSendBytes s i n).2).cpuReqs = s.cpuReqs := by
  rw [deviceSendBytes_frame]
@[simp] theorem deviceSendBytes_bus (s : State) (i n : Nat) : ((deviceSendBytes s i n).2).bus = s.bus := by
  rw [deviceSendBytes_frame]
@[simp] theorem deviceSendBytes_sched (s : State) (i n : Nat) : ((deviceSendBytes s i n).2).sched = s.sched := by
  rw [deviceSendBytes_frame]
@[simp] theorem deviceSendBytes_tick (s : State) (i n : Nat) : ((deviceSendBytes s i n).2).tick = s.tick := by
  rw [deviceSendBytes_frame]

/-! ### autoPut -/

theorem autoPut_frame (s : State) (a : Nat) (bs : List Byte) :
    autoPut s a bs = { s with psram := (autoPut s a bs).psram, psramPast := (autoPut s a bs).psramPast } := by
  induction bs generalizing s a with
  | nil => rfl
  | cons b bs ih =>
    show autoPut (psramPut s a b) (a + 1) bs = _
    rw [ih]
    rfl

@[simp] theorem autoPut_cfg (s : State) (a : Nat) (bs : List Byte) : (autoPut s a bs).cfg = s.cfg := by
  rw [autoPut_frame]
@[simp] theorem autoPut_addr (s : State) (a : Nat) (bs : List Byte) : (autoPut s a bs).addr = s.addr := by
  rw [autoPut_frame]
@[simp] theorem autoPut_buf (s : State) (a : Nat) (bs : List Byte) : (autoPut s a bs).buf = s.buf := by
  rw [autoPut_frame]
@[simp] theorem autoPut_count (s : State) (a : Nat) (bs : List Byte) : (autoPut s a bs).count = s.count := by
  rw [autoPut_frame]
@[simp] theorem autoPut_statusPtr (s : State) (a : Nat) (bs : List Byte) : (autoPut s a bs).statusPtr = s.statusPtr := by
  rw [autoPut_frame]
@[simp] theorem autoPut_result (s : State) (a : Nat) (bs : List Byte) : (autoPut s a bs).result = s.result := by
  rw [autoPut_frame]
@[simp] theorem autoPut_prof0 (s : State) (a : Nat) (bs : List Byte) : (autoPut s a bs).prof0 = s.prof0 := by
  rw [autoPut_frame]
@[simp] theorem autoPut_prof1 (s : State) (a : Nat) (bs : List Byte) : (autoPut s a bs).prof1 = s.prof1 := by
  rw [autoPut_frame]
@[simp] theorem autoPut_prof2 (s : State) (a : Nat) (bs : List Byte) : (autoPut s a bs).prof2 = s.prof2 := by
  rw [autoPut_frame]
@[simp] theorem autoPut_act0 (s : State) (a : Nat) (bs : List Byte) : (autoPut s a bs).act0 = s.act0 := by
  rw [autoPut_frame]
@[simp] theorem autoPut_act1 (s : State) (a : Nat) (bs : List Byte) : (autoPut s a bs).act1 = s.act1 := by
  rw [autoPut_frame]
@[simp] theorem autoPut_act2 (s : State) (a : Nat) (bs : List Byte) : (autoPut s a bs).act2 = s.act2 := by
  rw [autoPut_frame]
@[simp] theorem autoPut_addrBytes (s : State) (a : Nat) (bs : List Byte) : (autoPut s a bs).addrBytes = s.addrBytes := by
  rw [autoPut_frame]
@[simp] theorem autoPut_enc (s : State) (a : Nat) (bs : List Byte) : (autoPut s a bs).enc = s.enc := by
  rw [autoPut_frame]
@[simp] theorem autoPut_initDone (s : State) (a : Nat) (bs : List Byte) : (autoPut s a bs).initDone = s.initDone := by
  rw [autoPut_frame]
@[simp] theorem autoPut_latch (s : State) (a : Nat) (bs : List Byte) : (autoPut s a bs).latch = s.latch := by
  rw [autoPut_frame]
@[simp] theorem autoPut_exec (s : State) (a : Nat) (bs : List Byte) : (autoPut s a bs).exec = s.exec := by
  rw [autoPut_frame]
@[simp] theorem autoPut_overrun (s : State) (a : Nat) (bs : List Byte) : (autoPut s a bs).overrun = s.overrun := by
  rw [autoPut_frame]
@[simp] theorem autoPut_ctx (s : State) (a : Nat) (bs : List Byte) : (autoPut s a bs).ctx = s.ctx := by
  rw [autoPut_frame]
@[simp] theorem autoPut_work (s : State) (a : Nat) (bs : List Byte) : (autoPut s a bs).work = s.work := by
  rw [autoPut_frame]
@[simp] theorem autoPut_evtPending (s : State) (a : Nat) (bs : List Byte) : (autoPut s a bs).evtPending = s.evtPending := by
  rw [autoPut_frame]
@[simp] theorem autoPut_handling (s : State) (a : Nat) (bs : List Byte) : (autoPut s a bs).handling = s.handling := by
  rw [autoPut_frame]
@[simp] theorem autoPut_epoch (s : State) (a : Nat) (bs : List Byte) : (autoPut s a bs).epoch = s.epoch := by
  rw [autoPut_frame]
@[simp] theorem autoPut_sync (s : State) (a : Nat) (bs : List Byte) : (autoPut s a bs).sync = s.sync := by
  rw [autoPut_frame]
@[simp] theorem autoPut_todo (s : State) (a : Nat) (bs : List Byte) : (autoPut s a bs).todo = s.todo := by
  rw [autoPut_frame]
@[simp] theorem autoPut_autoEn (s : State) (a : Nat) (bs : List Byte) : (autoPut s a bs).autoEn = s.autoEn := by
  rw [autoPut_frame]
@[simp] theorem autoPut_autoActive (s : State) (a : Nat) (bs : List Byte) : (autoPut s a bs).autoActive = s.autoActive := by
  rw [autoPut_frame]
@[simp] theorem autoPut_job (s : State) (a : Nat) (bs : List Byte) : (autoPut s a bs).job = s.job := by
  rw [autoPut_frame]
@[simp] theorem autoPut_cs (s : State) (a : Nat) (bs : List Byte) : (autoPut s a bs).cs = s.cs := by
  rw [autoPut_frame]
@[simp] theorem autoPut_fifo (s : State) (a : Nat) (bs : List Byte) : (autoPut s a bs).fifo = s.fifo := by
  rw [autoPut_frame]
@[simp] theorem autoPut_curBw (s : State) (a : Nat) (bs : List Byte) : (autoPut s a bs).curBw = s.curBw := by
  rw [autoPut_frame]
@[simp] theorem autoPut_curElem (s : State) (a : Nat) (bs : List Byte) : (autoPut s a bs).curElem = s.curElem := by
  rw [autoPut_frame]
@[simp] theorem autoPut_autoReqs (s : State) (a : Nat) (bs : List Byte) : (autoPut s a bs).autoReqs = s.autoReqs := by
  rw [autoPut_frame]
@[simp] theorem autoPut_autoFlight (s : State) (a : Nat) (bs : List Byte) : (autoPut s a bs).autoFlight = s.autoFlight := by
  rw [autoPut_frame]
@[simp] theorem autoPut_chan (s : State) (a : Nat) (bs : List Byte) : (autoPut s a bs).chan = s.chan := by
  rw [autoPut_frame]
@[simp] theorem autoPut_configCalls (s : State) (a : Nat) (bs : List Byte) : (autoPut s a bs).configCalls = s.configCalls := by
  rw [autoPut_frame]
@[simp] theorem autoPut_events (s : State) (a : Nat) (bs : List Byte) : (autoPut s a bs).events = s.events := by
  rw [autoPut_frame]
@[simp] theorem autoPut_parser (s : State) (a : Nat) (bs : List Byte) : (autoPut s a bs).parser = s.parser := by
  rw [autoPut_frame]
@[simp] theorem autoPut_mem (s : State) (a : Nat) (bs : List Byte) : (autoPut s a bs).mem = s.mem := by
  rw [autoPut_frame]
@[simp] theorem autoPut_hostProg (s : State) (a : Nat) (bs : List Byte) : (autoPut s a bs).hostProg = s.hostProg := by
  rw [autoPut_frame]
@[simp] theorem autoPut_hostPend (s : State) (a : Nat) (bs : List Byte) : (autoPut s a bs).hostPend = s.hostPend := by
  rw [autoPut_frame]
@[simp] theorem autoPut_hostLog (s : State) (a : Nat) (bs : List Byte) : (autoPut s a bs).hostLog = s.hostLog := by
  rw [autoPut_frame]
@[simp] theorem autoPut_memAtCmd (s : State) (a : Nat) (bs : List Byte) : (autoPut s a bs).memAtCmd = s.memAtCmd := by
  rw [autoPut_frame]
@[simp] theorem autoPut_race (s : State) (a : Nat) (bs : List Byte) : (autoPut s a bs).race = s.race := by
  rw [autoPut_frame]
@[simp] theorem autoPut_launched (s : State) (a : Nat) (bs : List Byte) : (autoPut s a bs).launched = s.launched := by
  rw [autoPut_frame]
@[simp] theorem autoPut_cpuReqs (s : State) (a : Nat) (bs : List Byte) : (autoPut s a bs).cpuReqs = s.cpuReqs := by
  rw [autoPut_frame]
@[simp] theorem autoPut_bus (s : State) (a : Nat) (bs : List Byte) : (autoPut s a bs).bus = s.bus := by
  rw [autoPut_frame]
@[simp] theorem autoPut_sched (s : State) (a : Nat) (bs : List Byte) : (autoPut s a bs).sched = s.sched := by
  rw [autoPut_frame]
@[simp] theorem autoPut_tick (s : State) (a : Nat) (bs : List Byte) : (autoPut s a bs).tick = s.tick := by
  rw [autoPut_frame]

/-! ### deliverEvent -/

theorem deliverEvent_frame (s : State) (w : Word) :
    deliverEvent w s = { s with evtPending := (deliverEvent w s).evtPending } := by
  unfold deliverEvent; split <;> rfl

@[simp] theorem deliverEvent_cfg (s : State) (w : Word) : (deliverEvent w s).cfg = s.cfg := by
  rw [deliverEvent_frame]
@[simp] theorem deliverEvent_addr (s : State) (w : Word) : (deliverEvent w s).addr = s.addr := by
  rw [deliverEvent_frame]
@[simp] theorem deliverEvent_buf (s : State) (w : Word) : (deliverEvent w s).buf = s.buf := by
  rw [deliverEvent_frame]
@[simp] theorem deliverEvent_count (s : State) (w : Word) : (deliverEvent w s).count = s.count := by
  rw [deliverEvent_frame]
@[simp] theorem deliverEvent_statusPtr (s : State) (w : Word) : (deliverEvent w s).statusPtr = s.statusPtr := by
  rw [deliverEvent_frame]
@[simp] theorem deliverEvent_result (s : State) (w : Word) : (deliverEvent w s).result = s.result := by
  rw [deliverEvent_frame]
@[simp] theorem deliverEvent_prof0 (s : State) (w : Word) : (deliverEvent w s).prof0 = s.prof0 := by
  rw [deliverEvent_frame]
@[simp] theorem deliverEvent_prof1 (s : State) (w : Word) : (deliverEvent w s).prof1 = s.prof1 := by
  rw [deliverEvent_frame]
@[simp] theorem deliverEvent_prof2 (s : State) (w : Word) : (deliverEvent w s).prof2 = s.prof2 := by
  rw [deliverEvent_frame]
@[simp] theorem deliverEvent_act0 (s : State) (w : Word) : (deliverEvent w s).act0 = s.act0 := by
  rw [deliverEvent_frame]
@[simp] theorem deliverEvent_act1 (s : State) (w : Word) : (deliverEvent w s).act1 = s.act1 := by
  rw [deliverEvent_frame]
@[simp] theorem deliverEvent_act2 (s : State) (w : Word) : (deliverEvent w s).act2 = s.act2 := by
  rw [deliverEvent_frame]
@[simp] theorem deliverEvent_addrBytes (s : State) (w : Word) : (deliverEvent w s).addrBytes = s.addrBytes := by
  rw [deliverEvent_frame]
@[simp] theorem deliverEvent_enc (s : State) (w : Word) : (deliverEvent w s).enc = s.enc := by
  rw [deliverEvent_frame]
@[simp] theorem deliverEvent_initDone (s : State) (w : Word) : (deliverEvent w s).initDone = s.initDone := by
  rw [deliverEvent_frame]
@[simp] theorem deliverEvent_latch (s : State) (w : Word) : (deliverEvent w s).latch = s.latch := by
  rw [deliverEvent_frame]
@[simp] theorem deliverEvent_exec (s : State) (w : Word) : (deliverEvent w s).exec = s.exec := by
  rw [deliverEvent_frame]
@[simp] theorem deliverEvent_overrun (s : State) (w : Word) : (deliverEvent w s).overrun = s.overrun := by
  rw [deliverEvent_frame]
@[simp] theorem deliverEvent_ctx (s : State) (w : Word) : (deliverEvent w s).ctx = s.ctx := by
  rw [deliverEvent_frame]
@[simp] theorem deliverEvent_work (s : State) (w : Word) : (deliverEvent w s).work = s.work := by
  rw [deliverEvent_frame]
@[simp] theorem deliverEvent_handling (s : State) (w : Word) : (deliverEvent w s).handling = s.handling := by
  rw [deliverEvent_frame]
@[simp] theorem deliverEvent_epoch (s : State) (w : Word) : (deliverEvent w s).epoch = s.epoch := by
  rw [deliverEvent_frame]
@[simp] theorem deliverEvent_sync (s : State) (w : Word) : (deliverEvent w s).sync = s.sync := by
  rw [deliverEvent_frame]
@[simp] theorem deliverEvent_todo (s : State) (w : Word) : (deliverEvent w s).todo = s.todo := by
  rw [deliverEvent_frame]
@[simp] theorem deliverEvent_autoEn (s : State) (w : Word) : (deliverEvent w s).autoEn = s.autoEn := by
  rw [deliverEvent_frame]
@[simp] theorem deliverEvent_autoActive (s : State) (w : Word) : (deliverEvent w s).autoActive = s.autoActive := by
  rw [deliverEvent_frame]
@[simp] theorem deliverEvent_job (s : State) (w : Word) : (deliverEvent w s).job = s.job := by
  rw [deliverEvent_frame]
@[simp] theorem deliverEvent_cs (s : State) (w : Word) : (deliverEvent w s).cs = s.cs := by
  rw [deliverEvent_frame]
@[simp] theorem deliverEvent_fifo (s : State) (w : Word) : (deliverEvent w s).fifo = s.fifo := by
  rw [deliverEvent_frame]
@[simp] theorem deliverEvent_curBw (s : State) (w : Word) : (deliverEvent w s).curBw = s.curBw := by
  rw [deliverEvent_frame]
@[simp] theorem deliverEvent_curElem (s : State) (w : Word) : (deliverEvent w s).curElem = s.curElem := by
  rw [deliverEvent_frame]
@[simp] theorem deliverEvent_autoReqs (s : State) (w : Word) : (deliverEvent w s).autoReqs = s.autoReqs := by
  rw [deliverEvent_frame]
@[simp] theorem deliverEvent_autoFlight (s : State) (w : Word) : (deliverEvent w s).autoFlight = s.autoFlight := by
  rw [deliverEvent_frame]
@[simp] theorem deliverEvent_chan (s : State) (w : Word) : (deliverEvent w s).chan = s.chan := by
  rw [deliverEvent_frame]
@[simp] theorem deliverEvent_configCalls (s : State) (w : Word) : (deliverEvent w s).configCalls = s.configCalls := by
  rw [deliverEvent_frame]
@[simp] theorem deliverEvent_events (s : State) (w : Word) : (deliverEvent w s).events = s.events := by
  rw [deliverEvent_frame]
@[simp] theorem deliverEvent_psram (s : State) (w : Word) : (deliverEvent w s).psram = s.psram := by
  rw [deliverEvent_frame]
@[simp] theorem deliverEvent_psramPast (s : State) (w : Word) : (deliverEvent w s).psramPast = s.psramPast := by
  rw [deliverEvent_frame]
@[simp] theorem deliverEvent_parser (s : State) (w : Word) : (deliverEvent w s).parser = s.parser := by
  rw [deliverEvent_frame]
@[simp] theorem deliverEvent_mem (s : State) (w : Word) : (deliverEvent w s).mem = s.mem := by
  rw [deliverEvent_frame]
@[simp] theorem deliverEvent_hostProg (s : State) (w : Word) : (deliverEvent w s).hostProg = s.hostProg := by
  rw [deliverEvent_frame]
@[simp] theorem deliverEvent_hostPend (s : State) (w : Word) : (deliverEvent w s).hostPend = s.hostPend := by
  rw [deliverEvent_frame]
@[simp] theorem deliverEvent_hostLog (s : State) (w : Word) : (deliverEvent w s).hostLog = s.hostLog := by
  rw [deliverEvent_frame]
@[simp] theorem deliverEvent_memAtCmd (s : State) (w : Word) : (deliverEvent w s).memAtCmd = s.memAtCmd := by
  rw [deliverEvent_frame]
@[simp] theorem deliverEvent_race (s : State) (w : Word) : (deliverEvent w s).race = s.race := by
  rw [deliverEvent_frame]
@[simp] theorem deliverEvent_launched (s : State) (w : Word) : (deliverEvent w s).launched = s.launched := by
  rw [deliverEvent_frame]
@[simp] theorem deliverEvent_cpuReqs (s : State) (w : Word) : (deliverEvent w s).cpuReqs = s.cpuReqs := by
  rw [deliverEvent_frame]
@[simp] theorem deliverEvent_bus (s : State) (w : Word) : (deliverEvent w s).bus = s.bus := by
  rw [deliverEvent_frame]
@[simp] theorem deliverEvent_sched (s : State) (w : Word) : (deliverEvent w s).sched = s.sched := by
  rw [deliverEvent_frame]
@[simp] theorem deliverEvent_tick (s : State) (w : Word) : (deliverEvent w s).tick = s.tick := by
  rw [deliverEvent_frame]

/-! ### offerCommand -/

theorem offerCommand_frame (s : State) (w : Word) :
    offerCommand w s = { s with latch := (offerCommand w s).latch, result := (offerCommand w s).result, overrun := (offerCommand w s).overrun, memAtCmd := (offerCommand w s).memAtCmd } := by
  unfold offerCommand; split <;> rfl

@[simp] theorem offerCommand_cfg (s : State) (w : Word) : (offerCommand w s).cfg = s.cfg := by
  rw [offerCommand_frame]
@[simp] theorem offerCommand_addr (s : State) (w : Word) : (offerCommand w s).addr = s.addr := by
  rw [offerCommand_frame]
@[simp] theorem offerCommand_buf (s : State) (w : Word) : (offerCommand w s).buf = s.buf := by
  rw [offerCommand_frame]
@[simp] theorem offerCommand_count (s : State) (w : Word) : (offerCommand w s).count = s.count := by
  rw [offerCommand_frame]
@[simp] theorem offerCommand_statusPtr (s : State) (w : Word) : (offerCommand w s).statusPtr = s.statusPtr := by
  rw [offerCommand_frame]
@[simp] theorem offerCommand_prof0 (s : State) (w : Word) : (offerCommand w s).prof0 = s.prof0 := by
  rw [offerCommand_frame]
@[simp] theorem offerCommand_prof1 (s : State) (w : Word) : (offerCommand w s).prof1 = s.prof1 := by
  rw [offerCommand_frame]
@[simp] theorem offerCommand_prof2 (s : State) (w : Word) : (offerCommand w s).prof2 = s.prof2 := by
  rw [offerCommand_frame]
@[simp] theorem offerCommand_act0 (s : State) (w : Word) : (offerCommand w s).act0 = s.act0 := by
  rw [offerCommand_frame]
@[simp] theorem offerCommand_act1 (s : State) (w : Word) : (offerCommand w s).act1 = s.act1 := by
  rw [offerCommand_frame]
@[simp] theorem offerCommand_act2 (s : State) (w : Word) : (offerCommand w s).act2 = s.act2 := by
  rw [offerCommand_frame]
@[simp] theorem offerCommand_addrBytes (s : State) (w : Word) : (offerCommand w s).addrBytes = s.addrBytes := by
  rw [offerCommand_frame]
@[simp] theorem offerCommand_enc (s : State) (w : Word) : (offerCommand w s).enc = s.enc := by
  rw [offerCommand_frame]
@[simp] theorem offerCommand_initDone (s : State) (w : Word) : (offerCommand w s).initDone = s.initDone := by
  rw [offerCommand_frame]
@[simp] theorem offerCommand_exec (s : State) (w : Word) : (offerCommand w s).exec = s.exec := by
  rw [offerCommand_frame]
@[simp] theorem offerCommand_ctx (s : State) (w : Word) : (offerCommand w s).ctx = s.ctx := by
  rw [offerCommand_frame]
@[simp] theorem offerCommand_work (s : State) (w : Word) : (offerCommand w s).work = s.work := by
  rw [offerCommand_frame]
@[simp] theorem offerCommand_evtPending (s : State) (w : Word) : (offerCommand w s).evtPending = s.evtPending := by
  rw [offerCommand_frame]
@[simp] theorem offerCommand_handling (s : State) (w : Word) : (offerCommand w s).handling = s.handling := by
  rw [offerCommand_frame]
@[simp] theorem offerCommand_epoch (s : State) (w : Word) : (offerCommand w s).epoch = s.epoch := by
  rw [offerCommand_frame]
@[simp] theorem offerCommand_sync (s : State) (w : Word) : (offerCommand w s).sync = s.sync := by
  rw [offerCommand_frame]
@[simp] theorem offerCommand_todo (s : State) (w : Word) : (offerCommand w s).todo = s.todo := by
  rw [offerCommand_frame]
@[simp] theorem offerCommand_autoEn (s : State) (w : Word) : (offerCommand w s).autoEn = s.autoEn := by
  rw [offerCommand_frame]
@[simp] theorem offerCommand_autoActive (s : State) (w : Word) : (offerCommand w s).autoActive = s.autoActive := by
  rw [offerCommand_frame]
@[simp] theorem offerCommand_job (s : State) (w : Word) : (offerCommand w s).job = s.job := by
  rw [offerCommand_frame]
@[simp] theorem offerCommand_cs (s : State) (w : Word) : (offerCommand w s).cs = s.cs := by
  rw [offerCommand_frame]
@[simp] theorem offerCommand_fifo (s : State) (w : Word) : (offerCommand w s).fifo = s.fifo := by
  rw [offerCommand_frame]
@[simp] theorem offerCommand_curBw (s : State) (w : Word) : (offerCommand w s).curBw = s.curBw := by
  rw [offerCommand_frame]
@[simp] theorem offerCommand_curElem (s : State) (w : Word) : (offerCommand w s).curElem = s.curElem := by
  rw [offerCommand_frame]
@[simp] theorem offerCommand_autoReqs (s : State) (w : Word) : (offerCommand w s).autoReqs = s.autoReqs := by
  rw [offerCommand_frame]
@[simp] theorem offerCommand_autoFlight (s : State) (w : Word) : (offerCommand w s).autoFlight = s.autoFlight := by
  rw [offerCommand_frame]
@[simp] theorem offerCommand_chan (s : State) (w : Word) : (offerCommand w s).chan = s.chan := by
  rw [offerCommand_frame]
@[simp] theorem offerCommand_configCalls (s : State) (w : Word) : (offerCommand w s).configCalls = s.configCalls := by
  rw [offerCommand_frame]
@[simp] theorem offerCommand_events (s : State) (w : Word) : (offerCommand w s).events = s.events := by
  rw [offerCommand_frame]
@[simp] theorem offerCommand_psram (s : State) (w : Word) : (offerCommand w s).psram = s.psram := by
  rw [offerCommand_frame]
@[simp] theorem offerCommand_psramPast (s : State) (w : Word) : (offerCommand w s).psramPast = s.psramPast := by
  rw [offerCommand_frame]
@[simp] theorem offerCommand_parser (s : State) (w : Word) : (offerCommand w s).parser = s.parser := by
  rw [offerCommand_frame]
@[simp] theorem offerCommand_mem (s : State) (w : Word) : (offerCommand w s).mem = s.mem := by
  rw [offerCommand_frame]
@[simp] theorem offerCommand_hostProg (s : State) (w : Word) : (offerCommand w s).hostProg = s.hostProg := by
  rw [offerCommand_frame]
@[simp] theorem offerCommand_hostPend (s : State) (w : Word) : (offerCommand w s).hostPend = s.hostPend := by
  rw [offerCommand_frame]
@[simp] theorem offerCommand_hostLog (s : State) (w : Word) : (offerCommand w s).hostLog = s.hostLog := by
  rw [offerCommand_frame]
@[simp] theorem offerCommand_race (s : State) (w : Word) : (offerCommand w s).race = s.race := by
  rw [offerCommand_frame]
@[simp] theorem offerCommand_launched (s : State) (w : Word) : (offerCommand w s).launched = s.launched := by
  rw [offerCommand_frame]
@[simp] theorem offerCommand_cpuReqs (s : State) (w : Word) : (offerCommand w s).cpuReqs = s.cpuReqs := by
  rw [offerCommand_frame]
@[simp] theorem offerCommand_bus (s : State) (w : Word) : (offerCommand w s).bus = s.bus := by
  rw [offerCommand_frame]
@[simp] theorem offerCommand_sched (s : State) (w : Word) : (offerCommand w s).sched = s.sched := by
  rw [offerCommand_frame]
@[simp] theorem offerCommand_tick (s : State) (w : Word) : (offerCommand w s).tick = s.tick := by
  rw [offerCommand_frame]

/-! ### takeWork -/

theorem takeWork_frame (s : State) :
    takeWork s = { s with evtPending := (takeWork s).evtPending, handling := (takeWork s).handling, todo := (takeWork s).todo, latch := (takeWork s).latch, exec := (takeWork s).exec } := by
  unfold takeWork; split <;> (try split) <;> rfl

@[simp] theorem takeWork_cfg (s : State) : (takeWork s).cfg = s.cfg := by
  rw [takeWork_frame]
@[simp] theorem takeWork_addr (s : State) : (takeWork s).addr = s.addr := by
  rw [takeWork_frame]
@[simp] theorem takeWork_buf (s : State) : (takeWork s).buf = s.buf := by
  rw [takeWork_frame]
@[simp] theorem takeWork_count (s : State) : (takeWork s).count = s.count := by
  rw [takeWork_frame]
@[simp] theorem takeWork_statusPtr (s : State) : (takeWork s).statusPtr = s.statusPtr := by
  rw [takeWork_frame]
@[simp] theorem takeWork_result (s : State) : (takeWork s).result = s.result := by
  rw [takeWork_frame]
@[simp] theorem takeWork_prof0 (s : State) : (takeWork s).prof0 = s.prof0 := by
  rw [takeWork_frame]
@[simp] theorem takeWork_prof1 (s : State) : (takeWork s).prof1 = s.prof1 := by
  rw [takeWork_frame]
@[simp] theorem takeWork_prof2 (s : State) : (takeWork s).prof2 = s.prof2 := by
  rw [takeWork_frame]
@[simp] theorem takeWork_act0 (s : State) : (takeWork s).act0 = s.act0 := by
  rw [takeWork_frame]
@[simp] theorem takeWork_act1 (s : State) : (takeWork s).act1 = s.act1 := by
  rw [takeWork_frame]
@[simp] theorem takeWork_act2 (s : State) : (takeWork s).act2 = s.act2 := by
  rw [takeWork_frame]
@[simp] theorem takeWork_addrBytes (s : State) : (takeWork s).addrBytes = s.addrBytes := by
  rw [takeWork_frame]
@[simp] theorem takeWork_enc (s : State) : (takeWork s).enc = s.enc := by
  rw [takeWork_frame]
@[simp] theorem takeWork_initDone (s : State) : (takeWork s).initDone = s.initDone := by
  rw [takeWork_frame]
@[simp] theorem takeWork_overrun (s : State) : (takeWork s).overrun = s.overrun := by
  rw [takeWork_frame]
@[simp] theorem takeWork_ctx (s : State) : (takeWork s).ctx = s.ctx := by
  rw [takeWork_frame]
@[simp] theorem takeWork_work (s : State) : (takeWork s).work = s.work := by
  rw [takeWork_frame]
@[simp] theorem takeWork_epoch (s : State) : (takeWork s).epoch = s.epoch := by
  rw [takeWork_frame]
@[simp] theorem takeWork_sync (s : State) : (takeWork s).sync = s.sync := by
  rw [takeWork_frame]
@[simp] theorem takeWork_autoEn (s : State) : (takeWork s).autoEn = s.autoEn := by
  rw [takeWork_frame]
@[simp] theorem takeWork_autoActive (s : State) : (takeWork s).autoActive = s.autoActive := by
  rw [takeWork_frame]
@[simp] theorem takeWork_job (s : State) : (takeWork s).job = s.job := by
  rw [takeWork_frame]
@[simp] theorem takeWork_cs (s : State) : (takeWork s).cs = s.cs := by
  rw [takeWork_frame]
@[simp] theorem takeWork_fifo (s : State) : (takeWork s).fifo = s.fifo := by
  rw [takeWork_frame]
@[simp] theorem takeWork_curBw (s : State) : (takeWork s).curBw = s.curBw := by
  rw [takeWork_frame]
@[simp] theorem takeWork_curElem (s : State) : (takeWork s).curElem = s.curElem := by
  rw [takeWork_frame]
@[simp] theorem takeWork_autoReqs (s : State) : (takeWork s).autoReqs = s.autoReqs := by
  rw [takeWork_frame]
@[simp] theorem takeWork_autoFlight (s : State) : (takeWork s).autoFlight = s.autoFlight := by
  rw [takeWork_frame]
@[simp] theorem takeWork_chan (s : State) : (takeWork s).chan = s.chan := by
  rw [takeWork_frame]
@[simp] theorem takeWork_configCalls (s : State) : (takeWork s).configCalls = s.configCalls := by
  rw [takeWork_frame]
@[simp] theorem takeWork_events (s : State) : (takeWork s).events = s.events := by
  rw [takeWork_frame]
@[simp] theorem takeWork_psram (s : State) : (takeWork s).psram = s.psram := by
  rw [takeWork_frame]
@[simp] theorem takeWork_psramPast (s : State) : (takeWork s).psramPast = s.psramPast := by
  rw [takeWork_frame]
@[simp] theorem takeWork_parser (s : State) : (takeWork s).parser = s.parser := by
  rw [takeWork_frame]
@[simp] theorem takeWork_mem (s : State) : (takeWork s).mem = s.mem := by
  rw [takeWork_frame]
@[simp] theorem takeWork_hostProg (s : State) : (takeWork s).hostProg = s.hostProg := by
  rw [takeWork_frame]
@[simp] theorem takeWork_hostPend (s : State) : (takeWork s).hostPend = s.hostPend := by
  rw [takeWork_frame]
@[simp] theorem takeWork_hostLog (s : State) : (takeWork s).hostLog = s.hostLog := by
  rw [takeWork_frame]
@[simp] theorem takeWork_memAtCmd (s : State) : (takeWork s).memAtCmd = s.memAtCmd := by
  rw [takeWork_frame]
@[simp] theorem takeWork_race (s : State) : (takeWork s).race = s.race := by
  rw [takeWork_frame]
@[simp] theorem takeWork_launched (s : State) : (takeWork s).launched = s.launched := by
  rw [takeWork_frame]
@[simp] theorem takeWork_cpuReqs (s : State) : (takeWork s).cpuReqs = s.cpuReqs := by
  rw [takeWork_frame]
@[simp] theorem takeWork_bus (s : State) : (takeWork s).bus = s.bus := by
  rw [takeWork_frame]
@[simp] theorem takeWork_sched (s : State) : (takeWork s).sched = s.sched := by
  rw [takeWork_frame]
@[simp] theorem takeWork_tick (s : State) : (takeWork s).tick = s.tick := by
  rw [takeWork_frame]

end Sys2Proof.Machine
end

