-- ==== Sys2Proof/Laws/Steps.lean ====
section
/-! SUPPORT. What a step can do, said once: inversion lemmas for `step`, `exec`, `ctl(op)` and the
operations they share. Later proofs cite these instead of unfolding the step. -/

namespace Sys2Proof.Machine

/-- A step is one action of one agent, in a configuration that keeps R9, or the launch. -/
theorem step_next {s t : State} (h : step s = .next t) :
    (s.Live ∧ agentStep (nextAgent s) s.turn = .next t)
      ∨ (s.cfg.ok = true ∧ launchOk s = true ∧ t = { s with launched := true }) := by
  unfold step at h
  split at h
  · unfold launchStep at h
    split at h
    · cases h
    · rename_i hok
      split at h
      · cases h
        exact .inr ⟨by simpa using hok, ‹_›, rfl⟩
      · cases h
  · rename_i hl
    split at h
    · cases h
    · rename_i hok
      exact .inl ⟨⟨by simpa using hok, by simpa using hl⟩, h⟩

/-- The step of a machine that runs. -/
theorem step_live {s : State} (h : s.Live) : step s = agentStep (nextAgent s) s.turn := by
  simp [step, h.1, h.2]

/-- A launch finds the state after reset, but for the draws (70 R325). -/
theorem launch_state {s : State} (h : launchOk s = true) : s = launchState s := of_decide_eq_true h

theorem launch_todo {s : State} (h : launchOk s = true) : s.todo = [] := by rw [launch_state h]; rfl
theorem launch_exec {s : State} (h : launchOk s = true) : s.exec = false := by rw [launch_state h]; rfl
theorem launch_handling {s : State} (h : launchOk s = true) : s.handling = false := by
  rw [launch_state h]; rfl
theorem launch_initDone {s : State} (h : launchOk s = true) : s.initDone = false := by
  rw [launch_state h]; rfl

/-- What the first line of an instruction can lead to. -/
inductive FirstLine (s : State) : Instr → State → Prop where
  | raise (i : Instr) (c : Code) (p : Bool) : portOf i = .cmd → FirstLine s i (s.finish c p)
  | profile : FirstLine s .init (s.goto (.initTest s.latch.prof0 :: initBody s))
  | readBlocking (e : BitVec 3) : s.initDone = true → FirstLine s (.readBlocking e)
      (s.goto (.busyTest false .read e :: (blockingWork s .read e ++ blockingBody .read)))
  | writeBlocking (e : BitVec 3) : s.initDone = true → FirstLine s (.writeBlocking e)
      (s.goto (.busyTest false .write e :: (blockingWork s .write e ++ blockingBody .write)))
  | readDma (e : BitVec 3) : s.initDone = true →
      FirstLine s (.readDma e) (s.goto (.busyTest true .read e :: dmaBody s .read e))
  | writeDma (e : BitVec 3) : s.initDone = true →
      FirstLine s (.writeDma e) (s.goto (.busyTest true .write e :: dmaBody s .write e))
  | manual : s.initDone = true → chainRunning s = false →
      FirstLine s .enterManual (s.goto (arbManual .report))
  | auto : s.initDone = true → chainRunning s = false →
      FirstLine s .enterAuto (s.goto (arbAuto .report))
  | chain (ch : BitVec 4) : chainRunning s = true → s.chan.state = .complete →
      FirstLine s (.evtDmaComplete ch) (s.goto completeBody)
  | spurious (ch : BitVec 4) : chainRunning s = false →
      FirstLine s (.evtDmaComplete ch) s.leaveEvent

/-- The lines CA_SEQ lays out, at each of its three lines (R140, R141): phases, and its own later lines. -/
theorem phaseLines {s : State} {dir : Dir} {a : Nat} {x : Act}
    (hx : x ∈ commandPhases s dir a ++ addressPhase s a ++ dummyPhase s dir) :
    (∃ w, x = .ctl .drivePhase (.setWidth w)) ∨ (∃ k n p c b, x = .ctl .drivePhase (.phaseTx k n p c b))
      ∨ x = .wait .drivePhase .notBusy ∨ x = .caAddr a := by
  simp only [List.mem_append, commandPhases, addressPhase, dummyPhase, drivePhase] at hx
  rcases hx with (hx | hx) | hx
  · split at hx <;> simp at hx <;> rcases hx with rfl | rfl | rfl | rfl <;> simp
  · simp at hx
    rcases hx with rfl | rfl | rfl <;> simp
  · split at hx <;> simp at hx
    rcases hx with rfl | rfl | rfl <;> simp

/-- A validated command finds the engine initialised (R200). -/
theorem validate_none {s : State} {dma : Bool} {a b e n p : Nat}
    (h : validate s dma a b e n p = none) : s.initDone = true := by
  unfold validate at h
  by_cases hi : s.initDone = false
  · simp [hi] at h
  · simpa using hi

/-- A transfer's first line raises what VALIDATE finds, or lays out the command's lines (R200). -/
theorem transferFirst_next {dma : Bool} {dir : Dir} {e : BitVec 3} {body : List Act} {s t : State}
    (h : transferFirst dma dir e body s = .next t) :
    (∃ c, t = s.finish c false) ∨ (s.initDone = true ∧ t = s.goto (.busyTest dma dir e :: body)) := by
  unfold transferFirst at h
  split at h
  · cases h
    exact .inl ⟨_, rfl⟩
  · rename_i hv
    cases h
    exact .inr ⟨validate_none hv, rfl⟩

/-- The Busy test raises Busy, or goes on while no chain runs and the caller keeps its duties (R208, R230). -/
theorem busyTest_next {dma : Bool} {dir : Dir} {e : BitVec 3} {r : List Act} {s t : State}
    (h : runAct (.busyTest dma dir e) r s = .next t) :
    t = s.finish .busy false ∨
      (chainRunning s = false ∧ t = { s.goto r with race := some (openRace s dir e) }) := by
  simp only [runAct] at h
  split at h
  · cases h
    exact .inl rfl
  · rename_i hr
    split at h <;> cases h
    exact .inr ⟨by simpa using hr, rfl⟩

/-- INIT's tests raise their code, or go on with a profile that PROFILE_OK accepts (R265). -/
theorem initTest_next {p0 : Word} {r : List Act} {s t : State} (h : runAct (.initTest p0) r s = .next t) :
    (∃ c, t = s.finish c false) ∨ (s.initDone = false ∧ profileOk s.cfg p0 = true ∧ t = s.goto r) := by
  simp only [runAct] at h
  split at h
  · cases h
    exact .inl ⟨_, rfl⟩
  · rename_i hi
    split at h <;> cases h
    · exact .inl ⟨_, rfl⟩
    · exact .inr ⟨by simpa using hi, by simpa using ‹¬profileOk s.cfg p0 = false›, rfl⟩

theorem enterFirst_next {body : List Act} {s t : State} (h : enterFirst body s = .next t) :
    (∃ c, t = s.finish c false) ∨
      (s.initDone = true ∧ chainRunning s = false ∧ t = s.goto body) := by
  unfold enterFirst at h
  split at h
  · cases h
    exact .inl ⟨_, rfl⟩
  · split at h
    · cases h
      exact .inl ⟨_, rfl⟩
    · rename_i hi hr
      cases h
      exact .inr ⟨by simpa using hi, by simpa using hr, rfl⟩

/-- `continueWith` at a first line and at a later one. -/
theorem continueWith_next {f : State → Out} {s t : State} (h : continueWith f s = .next t) :
    (s.todo = [] ∧ f s = .next t) ∨ ∃ a r, s.todo = a :: r ∧ runAct a r s = .next t := by
  unfold continueWith at h
  split at h
  · exact .inl ⟨‹_›, h⟩
  · exact .inr ⟨_, _, ‹_›, h⟩

/-- At a line of the operation in progress `exec` is that line, whatever the instruction (R62). -/
theorem exec_line {i : Instr} {s : State} {a : Act} {r : List Act} (hi : runsHere s i)
    (ht : s.todo = a :: r) : exec i s = runAct a r s := by
  unfold runsHere at hi
  cases i <;>
    simp [exec, execInit, execIllegal, execReadBlocking, execWriteBlocking, execReadDma, execWriteDma,
      execEnterManual, execEnterAuto, execEvtDmaComplete, continueWith, ht, portOf] at hi ⊢
  exact fun h => absurd hi h

theorem exec_cmd_line {i : Instr} {s : State} {a : Act} {r : List Act} (hi : portOf i = .cmd)
    (ht : s.todo = a :: r) : exec i s = runAct a r s := exec_line (.inl hi) ht

/-- One ENGINE step of instruction `i`: its first line, a later line, or (an event of another channel)
nothing. -/
theorem exec_next {i : Instr} {s t : State} (h : exec i s = .next t) :
    (s.todo = [] ∧ FirstLine s i t) ∨ (∃ a r, s.todo = a :: r ∧ runAct a r s = .next t) ∨ t = s := by
  cases i with
  | init =>
    rcases continueWith_next h with ⟨h0, h⟩ | h
    · cases h
      exact .inl ⟨h0, .profile⟩
    · exact .inr (.inl h)
  | illegal w =>
    rcases continueWith_next h with ⟨h0, h⟩ | h
    · cases h
      exact .inl ⟨h0, .raise _ _ _ rfl⟩
    · exact .inr (.inl h)
  | readBlocking e =>
    rcases continueWith_next h with ⟨h0, h⟩ | h
    · rcases transferFirst_next h with ⟨c, rfl⟩ | ⟨h1, rfl⟩
      · exact .inl ⟨h0, .raise _ _ _ rfl⟩
      · exact .inl ⟨h0, .readBlocking e h1⟩
    · exact .inr (.inl h)
  | writeBlocking e =>
    rcases continueWith_next h with ⟨h0, h⟩ | h
    · rcases transferFirst_next h with ⟨c, rfl⟩ | ⟨h1, rfl⟩
      · exact .inl ⟨h0, .raise _ _ _ rfl⟩
      · exact .inl ⟨h0, .writeBlocking e h1⟩
    · exact .inr (.inl h)
  | readDma e =>
    rcases continueWith_next h with ⟨h0, h⟩ | h
    · rcases transferFirst_next h with ⟨c, rfl⟩ | ⟨h1, rfl⟩
      · exact .inl ⟨h0, .raise _ _ _ rfl⟩
      · exact .inl ⟨h0, .readDma e h1⟩
    · exact .inr (.inl h)
  | writeDma e =>
    rcases continueWith_next h with ⟨h0, h⟩ | h
    · rcases transferFirst_next h with ⟨c, rfl⟩ | ⟨h1, rfl⟩
      · exact .inl ⟨h0, .raise _ _ _ rfl⟩
      · exact .inl ⟨h0, .writeDma e h1⟩
    · exact .inr (.inl h)
  | enterManual =>
    rcases continueWith_next h with ⟨h0, h⟩ | h
    · rcases enterFirst_next h with ⟨c, rfl⟩ | ⟨h1, h2, rfl⟩
      · exact .inl ⟨h0, .raise _ _ _ rfl⟩
      · exact .inl ⟨h0, .manual h1 h2⟩
    · exact .inr (.inl h)
  | enterAuto =>
    rcases continueWith_next h with ⟨h0, h⟩ | h
    · rcases enterFirst_next h with ⟨c, rfl⟩ | ⟨h1, h2, rfl⟩
      · exact .inl ⟨h0, .raise _ _ _ rfl⟩
      · exact .inl ⟨h0, .auto h1 h2⟩
    · exact .inr (.inl h)
  | evtDmaComplete ch =>
    simp only [exec, execEvtDmaComplete] at h
    split at h
    · rcases continueWith_next h with ⟨h0, h⟩ | h
      · simp only [dmaCompleteFirst] at h
        split at h
        · rename_i hr
          split at h <;> cases h
          exact .inl ⟨h0, .chain ch hr ‹_›⟩
        · rename_i hr
          cases h
          exact .inl ⟨h0, .spurious ch (by simpa using hr)⟩
      · exact .inr (.inl h)
    · cases h
      exact .inr (.inr rfl)

/-- The ENGINE's step: a line of what it executes, or taking work (R263). -/
theorem engineStep_next {s t : State} (h : engineStep s = .next t) :
    (∃ i, currentInstr s = some i ∧ exec i s = .next t) ∨
      (s.exec = false ∧ s.handling = false ∧ t = takeWork s) := by
  unfold engineStep at h
  split at h
  · exact .inl ⟨_, ‹_›, h⟩
  · rename_i hc
    cases h
    refine .inr ?_
    unfold currentInstr at hc
    by_cases h1 : s.handling = true
    · simp [h1] at hc
    · by_cases h2 : s.exec = true
      · simp [h1, h2] at hc
      · exact ⟨by simpa using h2, by simpa using h1, rfl⟩

/-- `ctl(op)`: the operation's effect, then the epoch (R14, R162). -/
theorem ctlOp_next {s t : State} {c : CtlOp} (h : ctlOp s c = .next t) :
    ∃ u, ctlEffect s c = .next u ∧ t = u.bumpEpoch := by
  unfold ctlOp at h
  split at h
  · cases h
    exact ⟨_, ‹_›, rfl⟩
  · cases h
  · cases h

/-- An accepted phase meets R291's preconditions. -/
theorem acceptPhase_next {s t : State} {cs : Nat} {j : Job} (h : acceptPhase s cs j = .next t) :
    s.autoEn = false ∧ s.job = none ∧ s.cs.getD cs = cs
      ∧ t = { csAssert s cs with job := some j } := by
  unfold acceptPhase at h
  split at h
  · cases h
  · split at h
    · cases h
    · split at h
      · cases h
      · rename_i h1 h2 h3
        cases h
        exact ⟨by simpa using h1, by simpa using h2, by simpa using h3, rfl⟩

/-- What a controller operation does to the state, operation by operation (R291). -/
theorem ctlEffect_next {s t : State} {c : CtlOp} (h : ctlEffect s c = .next t) :
    match c with
    | .setWidth w => w ≠ 3#2 ∧ t = { s with curBw := w }
    | .setElem e => t = { s with curElem := e }
    | .phaseTx kind nbits payload cs keep =>
      s.autoEn = false ∧ s.job = none ∧ s.cs.getD cs = cs ∧
        t = { csAssert s cs with job := some ⟨kind, .tx, nbits, payload, 0, 0, [], keep, .run⟩ }
    | .trigger way nbits cs keep =>
      triggerOk s nbits = true ∧ s.autoEn = false ∧ s.job = none ∧ s.cs.getD cs = cs ∧
        t = { csAssert s cs with
          job := some ⟨.data, way, nbits, [], s.curElem.toNat, nbits / (8 * s.curElem.toNat), [],
            keep, .run⟩ }
    | .fifoWrite n v =>
      s.fifo.length < s.cfg.fifoDepth ∧
        t = { s with fifo := s.fifo ++ [elemOfBytes (elemBytes n v)] }
    | .fifoRead _ => ∃ e r, s.fifo = e :: r ∧ t = { s with fifo := r }
    | .deassertCs => s.job = none ∧ t = csRelease s
    | .setAutoEn b => t = { s with autoEn := b, autoActive := b || s.autoActive } := by
  cases c <;> simp only [ctlEffect] at h ⊢
  case setWidth w =>
    split at h
    · cases h
    · cases h
      exact ⟨‹_›, rfl⟩
  case setElem => cases h; rfl
  case phaseTx => exact acceptPhase_next h
  case trigger =>
    split at h
    · cases h
    · rename_i ht
      exact ⟨by simpa using ht, acceptPhase_next h⟩
  case fifoWrite =>
    split at h
    · cases h
      exact ⟨‹_›, rfl⟩
    · cases h
  case fifoRead =>
    split at h
    · cases h
    · cases h
      exact ⟨_, _, ‹_›, rfl⟩
  case deassertCs =>
    split at h
    · cases h
    · rename_i hj
      cases h
      exact ⟨by simpa using hj, rfl⟩
  case setAutoEn => cases h; rfl

end Sys2Proof.Machine
end

