-- ==== Sys2Proof/Laws/Agents.lean ====
section
/-! SUPPORT. What each agent's step can change, said once: for every agent one equation that names the
fields it may write. A field lemma follows from one by `congrArg`. -/

namespace Sys2Proof.Machine

/-- What a HOST write of a register may change (R262, R270). -/
theorem writeOffset_frame (s : State) (off : Nat) (v : Word) :
    writeOffset s off v = { s with
      addr := (writeOffset s off v).addr, buf := (writeOffset s off v).buf
      count := (writeOffset s off v).count, statusPtr := (writeOffset s off v).statusPtr
      result := (writeOffset s off v).result, prof0 := (writeOffset s off v).prof0
      prof1 := (writeOffset s off v).prof1, prof2 := (writeOffset s off v).prof2
      latch := (writeOffset s off v).latch, overrun := (writeOffset s off v).overrun
      memAtCmd := (writeOffset s off v).memAtCmd } := by
  unfold writeOffset
  split
  · rename_i r _
    cases r <;> first | rfl | (simp only [writeReg, offerCommand]; split <;> rfl)
  · rfl

/-- The end of a HOST action changes HOST's own progress alone. -/
theorem hostFinish_frame (s : State) (a : HostAct) (bs : List Byte) :
    hostFinish s a bs = { s with
      hostProg := (hostFinish s a bs).hostProg, hostPend := (hostFinish s a bs).hostPend
      hostLog := (hostFinish s a bs).hostLog } := by
  cases a <;> try rfl
  simp only [hostFinish, hostCompare]
  split <;> rfl

/-- What one byte of a HOST access may change. -/
theorem hostPiece_frame (s : State) (done : List Byte) (dir : Dir) (addr v : Nat) :
    hostPiece s done dir addr v = { s with
      autoReqs := (hostPiece s done dir addr v).autoReqs, mem := (hostPiece s done dir addr v).mem
      hostPend := (hostPiece s done dir addr v).hostPend } := by
  unfold hostPiece
  dsimp only
  split
  · rfl
  · cases dir <;> rfl

/-- What the start of a HOST access may write. -/
theorem hostAccess_frame {s t : State} {a : HostAct} {dir : Dir} {addr n v : Nat}
    (h : hostAccess s a dir addr n v = .next t) : t = { s with
      addr := t.addr, buf := t.buf, count := t.count, statusPtr := t.statusPtr, result := t.result,
      prof0 := t.prof0, prof1 := t.prof1, prof2 := t.prof2, latch := t.latch, overrun := t.overrun,
      autoReqs := t.autoReqs, mem := t.mem, memAtCmd := t.memAtCmd, hostProg := t.hostProg,
      hostPend := t.hostPend, hostLog := t.hostLog } := by
  have fin : ∀ (u : State) (bs : List Byte), hostFinish u a bs = t → t = { u with
      hostProg := t.hostProg, hostPend := t.hostPend, hostLog := t.hostLog } := by
    rintro u bs rfl
    exact hostFinish_frame u a bs
  unfold hostAccess at h
  generalize hostTarget s.cfg addr n = target at h
  generalize memPutBytes s.mem addr (bytesLsb v n) = m at h
  generalize racedBytes .read s addr n = bs at h
  cases target with
  | register off =>
    cases dir
    · have e := fin _ _ (Host.Outcome.next.inj h)
      rw [writeOffset_frame] at e
      generalize writeOffset s _ _ = x at e
      rw [e]
    · rw [fin _ _ (Host.Outcome.next.inj h)]
  | registerForm => cases h
  | controller => cases h
  | window d => cases h; rfl
  | pieces => cases h; rfl
  | memory => cases dir <;> rw [fin _ _ (Host.Outcome.next.inj h)]

/-- What HOST may write as it goes on with an access. -/
theorem hostContinue_frame {s t : State} {a : HostAct} {done : List Byte} (h : hostContinue s a done = t) :
    t = { s with
      autoReqs := t.autoReqs, mem := t.mem, hostProg := t.hostProg, hostPend := t.hostPend
      hostLog := t.hostLog } := by
  have fin : hostFinish s a done = t → t = { s with
      autoReqs := t.autoReqs, mem := t.mem, hostProg := t.hostProg, hostPend := t.hostPend
      hostLog := t.hostLog } := by
    intro e
    have f := hostFinish_frame s a done
    rw [e] at f
    rw [f]
  have piece : ∀ d addr v, hostPiece s done d addr v = t → t = { s with
      autoReqs := t.autoReqs, mem := t.mem, hostProg := t.hostProg, hostPend := t.hostPend
      hostLog := t.hostLog } := by
    intro d addr v e
    have f := hostPiece_frame s done d addr v
    rw [e] at f
    rw [f]
  cases a <;> simp only [hostContinue] at h
  case touchCtrl => exact fin h
  case touchDma => exact fin h
  all_goals
    split at h
    · exact fin h
    · exact piece _ _ _ h

/-- What a HOST step may write: the registers it owns, the latch, its requests, memory and its own
progress (R262, R270). -/
theorem hostStep_frame {s t : State} (h : hostStep s = .next t) :
    t = { s with
      addr := t.addr, buf := t.buf, count := t.count, statusPtr := t.statusPtr, result := t.result,
      prof0 := t.prof0, prof1 := t.prof1, prof2 := t.prof2, latch := t.latch, overrun := t.overrun,
      autoReqs := t.autoReqs, mem := t.mem, memAtCmd := t.memAtCmd, hostProg := t.hostProg,
      hostPend := t.hostPend, hostLog := t.hostLog } := by
  unfold hostStep at h
  split at h
  · cases h
    rfl
  · split at h
    · unfold hostStart at h
      split at h
      · exact hostAccess_frame h
      · exact hostAccess_frame h
      · exact hostAccess_frame h
      · cases h
      · cases h
    · cases h
      rfl
    · rw [hostContinue_frame (Host.Outcome.next.inj h)]

/-- What a step of CTRL's manual datapath may write (R293, R294). -/
theorem ctrlStep_frame (s : State) :
    ctrlStep s = { s with
      job := (ctrlStep s).job, cs := (ctrlStep s).cs, fifo := (ctrlStep s).fifo
      bus := (ctrlStep s).bus, parser := (ctrlStep s).parser, psram := (ctrlStep s).psram
      psramPast := (ctrlStep s).psramPast } := by
  unfold ctrlStep
  split
  · rfl
  · rename_i j _
    split
    · split
      · unfold dataStep
        split
        · rw [recordPhase_frame]
        · split
          · split
            · rfl
            · dsimp only
              rw [deviceReceive_frame]
          · split
            · dsimp only
              rw [deviceSendBytes_frame]
            · rfl
      · rw [recordPhase_frame, deviceReceive_frame]
    · dsimp only
      rw [csRelease_frame]
    · rfl

/-- A CTRL step with no phase accepted does nothing (R294). -/
theorem ctrlStep_idle {s : State} (h : s.job = none) : ctrlStep s = s := by
  unfold ctrlStep
  rw [h]

/-- What an AUTOPATH step may write (R292, R296). -/
theorem autopathStep_frame {s t : State} (h : autopathStep s = .next t) :
    t = { s with
      autoFlight := t.autoFlight, autoReqs := t.autoReqs, hostPend := t.hostPend, bus := t.bus
      psram := t.psram, psramPast := t.psramPast } := by
  unfold autopathStep at h
  split at h
  · split at h
    · cases h
      rfl
    · split at h
      · cases h
      · split at h
        · cases h
          rfl
        · split at h
          · cases h
          · cases h
            rfl
  · split at h
    · cases h
      unfold autoPerform
      split
      · rfl
      · dsimp only
        rw [autoPut_frame]
        rfl
    · cases h
      rfl

/-- What the DMA channel's step may write (R297). -/
theorem dmaStep_frame {s t : State} (h : dmaStep s = .next t) :
    t = { s with
      chan := t.chan, fifo := t.fifo, mem := t.mem, evtPending := t.evtPending } := by
  have hd : ∀ u : State, ∀ dst w v x, dmaDeliver u dst w v = some x →
      x = { u with fifo := x.fifo, mem := x.mem } := by
    intro u dst w v x hx
    unfold dmaDeliver at hx
    split at hx
    · split at hx <;> cases hx
      rfl
    · cases hx
      rfl
  unfold dmaStep at h
  split at h
  · split at h
    · cases h
    · split at h
      · cases h
        unfold dmaMove
        dsimp only
        split
        · rfl
        · rename_i v s1 hf
          have h1 : s1 = { s with fifo := s1.fifo } := by
            unfold dmaFetch at hf
            split at hf
            · split at hf
              · cases hf
              · cases hf
                rfl
            · cases hf
              rfl
          split
          · rfl
          · rename_i s2 h2
            have := hd _ _ _ _ _ h2
            rw [this, h1]
      · cases h
        unfold dmaComplete
        dsimp only
        split
        · rw [deliverEvent_frame]
        · rfl
  · cases h
    rfl

/-- The DMA channel's step keeps the note of an error event, and after one it raises no event (R284). -/
theorem dmaStep_failed {s t : State} (h : dmaStep s = .next t) :
    t.chan.failed = s.chan.failed ∧ (s.chan.failed = true → t.evtPending = s.evtPending) := by
  unfold dmaStep at h
  split at h
  · split at h
    · cases h
    · split at h <;> cases h
      · unfold dmaMove
        dsimp only
        split
        · exact ⟨rfl, fun _ => rfl⟩
        · rename_i v s1 hf
          have h1 : s1.evtPending = s.evtPending := by
            unfold dmaFetch at hf
            split at hf
            · split at hf <;> cases hf
              rfl
            · cases hf
              rfl
          split
          · exact ⟨rfl, fun _ => rfl⟩
          · rename_i s2 hd
            refine ⟨rfl, fun _ => Eq.trans ?_ h1⟩
            unfold dmaDeliver at hd
            split at hd
            · split at hd <;> cases hd
              rfl
            · cases hd
              rfl
      · unfold dmaComplete deliverEvent
        dsimp only
        refine ⟨by split <;> (try split) <;> rfl, fun hf => ?_⟩
        simp only [hf, Bool.not_true, Bool.and_false, Bool.false_eq_true, if_false]
  · cases h
    exact ⟨rfl, fun _ => rfl⟩

/-- The delivery of an event word that goes on: none is left, or the channel's complete event while no chain runs, or
an ignored word, which notes the error event of an armed chunk (R284). -/
theorem eventStep_next {s t : State} (h : eventStep s = .next t) :
    (s.events = [] ∧ t = s)
    ∨ (∃ w r, s.events = w :: r ∧ ownComplete s w = true ∧ chainRunning s = false
      ∧ t = { s with events := r, evtPending := true })
    ∨ (∃ w r, s.events = w :: r ∧ ownComplete s w = false
      ∧ t = { s with
        events := r, chan := { s.chan with failed := s.chan.failed || (ownError s w && chunkArmed s.chan) } }) := by
  unfold eventStep at h
  split at h
  · cases h
    exact .inl ⟨‹_›, rfl⟩
  · rename_i w r he
    split at h
    · cases h
    · rename_i hn
      cases h
      have hd : deliverEvent w { s with events := r } =
          if ownComplete s w then { s with events := r, evtPending := true } else { s with events := r } := rfl
      cases ho : ownComplete s w with
      | false =>
        refine .inr (.inr ⟨w, r, he, ho, ?_⟩)
        rw [hd, ho]
        rfl
      | true =>
        have hx : ownError s w = false := by
          unfold ownComplete at ho
          unfold ownError
          cases hw : decodeEvt w <;> simp [hw] at ho ⊢
        refine .inr (.inl ⟨w, r, he, ho, by simpa [ho] using hn, ?_⟩)
        rw [hd, ho, hx]
        simp

/-- What the delivery of an event word may write (R284): of the channel, that its chunk has failed. -/
theorem eventStep_frame {s t : State} (h : eventStep s = .next t) :
    t = { s with
      events := t.events, evtPending := t.evtPending, chan := { s.chan with failed := t.chan.failed } } := by
  rcases eventStep_next h with ⟨-, rfl⟩ | ⟨_, _, -, -, -, rfl⟩ | ⟨_, _, -, -, rfl⟩ <;> rfl

/-- The arrival of a CPU's request (R325). -/
theorem cpuStep_frame (s : State) :
    cpuStep s = { s with cpuReqs := (cpuStep s).cpuReqs, autoReqs := (cpuStep s).autoReqs } := by
  unfold cpuStep
  split <;> rfl

/-- A SYNC step writes the synchroniser (R161). -/
theorem syncStep_frame (s : State) : syncStep s = { s with sync := (syncStep s).sync } := rfl

/-- The step that ends auto mode writes AUTO_ACTIVE (R292). -/
theorem ctrlModeStep_frame (s : State) :
    ctrlModeStep s = { s with autoActive := (ctrlModeStep s).autoActive } := by
  unfold ctrlModeStep
  split <;> rfl

/-- What a controller operation may write (R291). -/
theorem ctlOp_frame {s t : State} {c : CtlOp} (h : ctlOp s c = .next t) :
    t = { s with
      epoch := t.epoch, curBw := t.curBw, curElem := t.curElem, job := t.job, cs := t.cs
      bus := t.bus, parser := t.parser, fifo := t.fifo, autoEn := t.autoEn
      autoActive := t.autoActive } := by
  obtain ⟨u, hu, rfl⟩ := ctlOp_next h
  have := ctlEffect_next hu
  cases c <;> simp only at this
  case setWidth => rw [this.2]; rfl
  case setElem => rw [this]; rfl
  case phaseTx =>
    rw [this.2.2.2]
    dsimp only [State.bumpEpoch]
    rw [csAssert_frame]
  case trigger =>
    rw [this.2.2.2.2]
    dsimp only [State.bumpEpoch]
    rw [csAssert_frame]
  case fifoWrite => rw [this.2]; rfl
  case fifoRead => obtain ⟨e, r, _, rfl⟩ := this; rfl
  case deassertCs =>
    rw [this.2]
    dsimp only [State.bumpEpoch]
    rw [csRelease_frame]
  case setAutoEn => rw [this]; rfl

/-- What a line of an operation may write: never a register HOST owns, the latch or another agent's state
(R205, R262). -/
theorem runAct_frame {a : Act} {r : List Act} {s t : State} (h : runAct a r s = .next t) :
    t = { s with
      todo := t.todo, epoch := t.epoch, curBw := t.curBw, curElem := t.curElem, job := t.job
      cs := t.cs, bus := t.bus, parser := t.parser, fifo := t.fifo, autoEn := t.autoEn
      autoActive := t.autoActive, work := t.work, ctx := t.ctx, mem := t.mem, result := t.result
      exec := t.exec, handling := t.handling, chan := t.chan, configCalls := t.configCalls
      act0 := t.act0, act1 := t.act1, act2 := t.act2, addrBytes := t.addrBytes, enc := t.enc
      initDone := t.initDone, race := t.race } := by
  have hc : ∀ (l : List Act) (c : CtlOp), ctlOp (s.goto l) c = .next t → t = { s with
      todo := t.todo, epoch := t.epoch, curBw := t.curBw, curElem := t.curElem, job := t.job
      cs := t.cs, bus := t.bus, parser := t.parser, fifo := t.fifo, autoEn := t.autoEn
      autoActive := t.autoActive } := by
    intro l c h
    have := ctlOp_frame h
    rw [this]
    rfl
  cases a <;> simp only [runAct] at h
  case ctl => have := hc _ _ h; rw [this]
  case popElem => have := hc _ _ h; rw [this]
  case setProfile f => cases f <;> cases h <;> rfl
  case busyTest d w e => rcases busyTest_next (dma := d) (dir := w) (e := e) (r := r) h with rfl | ⟨-, rfl⟩ <;> rfl
  case initTest p => rcases initTest_next (p0 := p) (r := r) h with ⟨c, rfl⟩ | ⟨-, -, rfl⟩ <;> rfl
  case wait => split at h <;> cases h <;> rfl
  case loop => split at h <;> cases h <;> rfl
  case fifoCheck => split at h <;> cases h; rfl
  case pumpWrite => split at h <;> cases h <;> rfl
  case pumpRead => split at h <;> cases h <;> rfl
  case dmaConfigure =>
    split at h
    · cases h
    · split at h <;> cases h <;> rfl
  case dmaEnable =>
    unfold dmaEnableOp at h
    split at h <;> cases h
    rfl
  case dmaTrigger =>
    unfold dmaTriggerOp at h
    split at h <;> cases h
    rfl
  all_goals (cases h; rfl)

end Sys2Proof.Machine
end

