-- ==== Sys2Proof/Laws/Memory.lean ====
section
/-! SUPPORT. What the memory operations do: reads after writes, and the canonical form. -/

namespace Sys2Proof.Machine

@[simp] theorem Memory.get_nil (a : Nat) : Memory.get [] a = unlisted := rfl

/-- An address below every listed one is unlisted. -/
theorem Memory.get_below {bound lo : Nat} {m : Memory} (h : Memory.wfFrom bound lo m = true)
    {a : Nat} (ha : a < lo) : m.get a = unlisted := by
  induction m generalizing lo with
  | nil => rfl
  | cons c r ih =>
    obtain ⟨k, v⟩ := c
    simp only [Memory.wfFrom, Bool.and_eq_true, decide_eq_true_eq] at h
    have hk : k ≠ a := by omega
    simp only [Memory.get, if_neg hk]
    exact ih h.2 (by omega)

/-- A byte written to a canonical memory reads back. -/
theorem Memory.get_put_same {bound lo : Nat} {m : Memory} (h : Memory.wfFrom bound lo m = true)
    (a : Nat) (v : Byte) : (m.put a v).get a = v := by
  induction m generalizing lo with
  | nil => by_cases hv : v = unlisted <;> simp [Memory.put, Memory.get, hv]
  | cons c r ih =>
    obtain ⟨k, b⟩ := c
    simp only [Memory.wfFrom, Bool.and_eq_true, decide_eq_true_eq] at h
    simp only [Memory.put]
    by_cases h1 : a < k
    · have hk : k ≠ a := by omega
      by_cases hv : v = unlisted
      · simp only [if_pos h1, if_pos hv, Memory.get, if_neg hk]
        rw [Memory.get_below h.2 (by omega), hv]
      · simp [if_pos h1, if_neg hv, Memory.get]
    · by_cases h2 : a = k
      · by_cases hv : v = unlisted
        · simp only [if_neg h1, if_pos h2, if_pos hv]
          rw [Memory.get_below h.2 (by omega), hv]
        · simp [if_neg hv, Memory.get, h2]
      · have hk : k ≠ a := fun e => h2 e.symm
        simp only [if_neg h1, if_neg h2, Memory.get, if_neg hk]
        exact ih h.2

/-- A byte written leaves every other byte alone, in any memory. -/
theorem Memory.get_put_other (m : Memory) {a x : Nat} (v : Byte) (h : x ≠ a) :
    (m.put a v).get x = m.get x := by
  induction m with
  | nil => by_cases hv : v = unlisted <;> simp [Memory.put, Memory.get, hv, h.symm]
  | cons c r ih =>
    obtain ⟨k, b⟩ := c
    simp only [Memory.put]
    split
    · split <;> simp [Memory.get, h.symm]
    · split
      · rename_i _ hk
        split <;> simp [Memory.get, h.symm, hk ▸ h.symm]
      · simp [Memory.get, ih]

/-- A write inside the bound keeps the canonical form. -/
theorem Memory.wfFrom_put {bound lo : Nat} {m : Memory} (h : Memory.wfFrom bound lo m = true)
    {a : Nat} (v : Byte) (h1 : lo ≤ a) (h2 : a < bound) :
    Memory.wfFrom bound lo (m.put a v) = true := by
  induction m generalizing lo with
  | nil => by_cases hv : v = unlisted <;> simp [Memory.put, Memory.wfFrom, hv, h1, h2]
  | cons c r ih =>
    obtain ⟨k, b⟩ := c
    simp only [Memory.wfFrom, Bool.and_eq_true, decide_eq_true_eq, bne_iff_ne, ne_eq] at h
    obtain ⟨⟨⟨hlo, hk⟩, hb⟩, hr⟩ := h
    simp only [Memory.put]
    by_cases c1 : a < k
    · by_cases hv : v = unlisted
      · simp [if_pos c1, if_pos hv, Memory.wfFrom, hlo, hk, hb, hr]
      · simp [if_pos c1, Memory.wfFrom, h1, h2, hk, hb, hr, hv]
        omega
    · by_cases c2 : a = k
      · by_cases hv : v = unlisted
        · simp only [if_neg c1, if_pos c2, if_pos hv]
          refine wfFrom_weaken hr (by omega)
        · subst c2
          simp [hv, Memory.wfFrom, h1, h2, hr]
      · simp only [if_neg c1, if_neg c2, Memory.wfFrom, Bool.and_eq_true, decide_eq_true_eq,
          bne_iff_ne, ne_eq]
        exact ⟨⟨⟨hlo, hk⟩, hb⟩, ih hr (by omega)⟩
where
  wfFrom_weaken {bound lo lo' : Nat} {m : Memory} (h : Memory.wfFrom bound lo m = true)
      (hl : lo' ≤ lo) : Memory.wfFrom bound lo' m = true := by
    cases m with
    | nil => rfl
    | cons c r =>
      obtain ⟨k, v⟩ := c
      simp only [Memory.wfFrom, Bool.and_eq_true, decide_eq_true_eq] at h ⊢
      exact ⟨⟨⟨by omega, h.1.1.2⟩, h.1.2⟩, h.2⟩

theorem Memory.wf_put {bound : Nat} {m : Memory} (h : Memory.wf bound m = true) {a : Nat} (v : Byte)
    (ha : a < bound) : Memory.wf bound (m.put a v) = true :=
  Memory.wfFrom_put h v (Nat.zero_le a) ha

theorem sysAddr_lt (a : Nat) : sysAddr a < addressSpace :=
  Nat.mod_lt _ (by decide)

/-- Every store of bytes to system memory keeps the canonical form. -/
theorem memPutBytes_wf {m : Memory} (h : Memory.wf addressSpace m = true) (a : Nat) (bs : List Byte) :
    Memory.wf addressSpace (memPutBytes m a bs) = true := by
  induction bs generalizing m a with
  | nil => exact h
  | cons b bs ih => exact ih (Memory.wf_put h b (sysAddr_lt a)) (a + 1)

theorem memWrite_wf {m : Memory} (h : Memory.wf addressSpace m = true) (a n : Nat) (v : Word) :
    Memory.wf addressSpace (memWrite m a n v) = true :=
  memPutBytes_wf h a (elemBytes n v)

@[simp] theorem elemBytes_length (n : Nat) (v : Word) : (elemBytes n v).length = n := by
  induction n generalizing v with
  | zero => rfl
  | succ n ih => simp [elemBytes, ih]

/-- A store of bytes leaves every byte outside them alone. -/
theorem memPutBytes_get_other (m : Memory) (a : Nat) (bs : List Byte) (x : Nat)
    (h : ∀ j < bs.length, sysAddr (a + j) ≠ x) : (memPutBytes m a bs).get x = m.get x := by
  induction bs generalizing m a with
  | nil => rfl
  | cons b bs ih =>
    simp only [memPutBytes]
    rw [ih _ _ (fun j hj => by
      have := h (j + 1) (by simpa using hj)
      simpa [Nat.add_assoc, Nat.add_comm 1 j] using this)]
    have h0 := h 0 (by simp)
    exact Memory.get_put_other m b (by simpa using fun e => h0 e.symm)

/-- MemWrite leaves every byte alone but the `n` it stores (20_memory R75). -/
theorem memWrite_get_other (m : Memory) (a n : Nat) (v : Word) (x : Nat)
    (h : inStored a n x = false) : (memWrite m a n v).get x = m.get x := by
  refine memPutBytes_get_other m a _ x fun j hj e => ?_
  simp only [inStored, decide_eq_false_iff_not, not_exists, not_and] at h
  exact h j (by simpa using hj) e

/-! ### Races for a buffer (20_memory R97) -/

@[simp] theorem racedBytes_length (d : Dir) (s : State) (a n : Nat) : (racedBytes d s a n).length = n := by
  induction n generalizing a with
  | zero => rfl
  | succ n ih => rw [racedBytes, List.length_cons, ih]

/-- A byte that no race concerns, or one whose old and new values agree, is memory's. -/
theorem racedByte_quiet {d : Dir} {s : State} {a : Nat}
    (h : ∀ r, s.race = some r → r.dir = d → offsetFrom a r.buf < r.n →
      r.before.get (sysAddr a) = s.mem.get (sysAddr a)) : racedByte d s a = s.mem.get (sysAddr a) := by
  unfold racedByte
  split
  · rfl
  · dsimp only
    split
    · rename_i r hr hc
      exact absurd (h r hr hc.1 hc.2.1) hc.2.2.1
    · rfl

theorem racedBytes_quiet {d : Dir} {s : State} {a n : Nat}
    (h : ∀ r, s.race = some r → r.dir = d → ∀ j < n, offsetFrom (a + j) r.buf < r.n →
      r.before.get (sysAddr (a + j)) = s.mem.get (sysAddr (a + j))) :
    racedBytes d s a n = memBytes s.mem a n := by
  induction n generalizing a with
  | zero => rfl
  | succ n ih =>
    rw [racedBytes, memBytes, racedByte_quiet fun r hr hd ho => by simpa using h r hr hd 0 (by omega) (by simpa using ho), ih]
    intro r hr hd j hj
    have := h r hr hd (j + 1) (by omega)
    rwa [show a + (j + 1) = a + 1 + j by omega] at this

/-- No byte of a running write transfer's buffer has another value than the one its race calls old (R328). -/
def WriteQuiet (s : State) : Prop := ∀ r, s.race = some r → r.dir = .write →
  ∀ x, offsetFrom x r.buf < r.n → r.before.get (sysAddr x) = s.mem.get (sysAddr x)

/-- A quiet transfer reads memory as it is (R75). -/
theorem WriteQuiet.elemRead {s : State} (h : WriteQuiet s) (a n : Nat) : elemRead s a n = memRead s.mem a n := by
  rw [Machine.elemRead, memRead, racedBytes_quiet fun r hr hd j _ ho => h r hr hd _ ho]

/-- A byte read in a race is the old one or the new one. -/
theorem racedByte_mem (d : Dir) (s : State) (a : Nat) : racedByte d s a = s.mem.get (sysAddr a)
    ∨ ∃ r, s.race = some r ∧ r.dir = d ∧ offsetFrom a r.buf < r.n ∧ racedByte d s a = r.before.get (sysAddr a) := by
  unfold racedByte
  split
  · exact .inl rfl
  · dsimp only
    split
    · rename_i r hr hc
      exact .inr ⟨r, hr, hc.1, hc.2.1, rfl⟩
    · exact .inl rfl

/-- Both memories of the machine right after reset are canonical, whatever the parameters. -/
theorem resetWith_memories_wf (p : Config.Params) :
    Memory.wf addressSpace (State.resetWith p).mem = true
      ∧ Memory.wf p.density (State.resetWith p).psram = true := ⟨rfl, rfl⟩

end Sys2Proof.Machine
end

