-- ==== Sys2Proof/Laws/Canonical.lean ====
section
/-! SUPPORT. Both memories keep their canonical form and the FIFO its depth, one operation at a time. -/

namespace Sys2Proof.Machine

/-- `ctl(op)` keeps the FIFO within its depth. -/
theorem ctlOp_fifoBounded {s t : State} {c} (h : ctlOp s c = .next t) (hb : FifoBounded s) : FifoBounded t := by
  have f := ctlOp_frame h
  obtain ⟨u, hu, rfl⟩ := ctlOp_next h
  have hq := ctlEffect_next hu
  unfold FifoBounded at *
  cases c with
  | setAutoEn b => cases hq; exact hb
  | setWidth => obtain ⟨_, rfl⟩ := hq; exact hb
  | setElem => cases hq; exact hb
  | phaseTx => obtain ⟨_, _, _, rfl⟩ := hq; simpa using hb
  | trigger => obtain ⟨_, _, _, _, rfl⟩ := hq; simpa using hb
  | fifoWrite => obtain ⟨h1, rfl⟩ := hq; simpa [State.bumpEpoch] using h1
  | fifoRead => obtain ⟨_, _, h1, rfl⟩ := hq; rw [h1] at hb; simp [State.bumpEpoch] at hb ⊢; omega
  | deassertCs => obtain ⟨_, rfl⟩ := hq; simpa using hb

/-- One line keeps the FIFO within its depth. -/
theorem runAct_fifoBounded {a r} {s t : State} (h : runAct a r s = .next t) (hb : FifoBounded s) : FifoBounded t := by
  cases a <;> simp only [runAct] at h
  case ctl => exact ctlOp_fifoBounded h hb
  case popElem => exact ctlOp_fifoBounded h hb
  case wait => split at h <;> cases h <;> exact hb
  case loop => split at h <;> cases h <;> exact hb
  case fifoCheck => split at h <;> cases h; exact hb
  case pumpWrite => split at h <;> cases h <;> exact hb
  case pumpRead => split at h <;> cases h <;> exact hb
  case dmaConfigure =>
    split at h
    · cases h
    · split at h <;> cases h <;> exact hb
  case dmaEnable => unfold dmaEnableOp at h; split at h <;> cases h; exact hb
  case dmaTrigger => unfold dmaTriggerOp at h; split at h <;> cases h; exact hb
  case setProfile f => cases f <;> cases h <;> exact hb
  case busyTest d w e => rcases busyTest_next (dma := d) (dir := w) (e := e) (r := r) h with rfl | ⟨-, rfl⟩ <;> exact hb
  case initTest p => rcases initTest_next (p0 := p) (r := r) h with ⟨c, rfl⟩ | ⟨-, -, rfl⟩ <;> exact hb
  all_goals (cases h; exact hb)

theorem deviceAddr_lt (s : State) (h : 0 < s.cfg.density) (a i) : deviceAddr s a i < s.cfg.density := by
  unfold deviceAddr; exact Nat.mod_lt _ h

/-- The PSRAM's memory is in canonical form. -/
abbrev PsramWf (s : State) := Memory.wf s.cfg.density s.psram = true

theorem psramPut_wf {s : State} (h : PsramWf s) {a b} (ha : a < s.cfg.density) : PsramWf (psramPut s a b) :=
  Memory.wf_put h b ha

theorem deviceByte_wf {s : State} (h : PsramWf s) (hd : 0 < s.cfg.density) (k b) : PsramWf (deviceByte s k b) := by
  unfold deviceByte
  split
  · split
    · exact h
    · split <;> exact h
  · split <;> exact h
  · exact h
  · exact psramPut_wf h (deviceAddr_lt s hd _ _)
  all_goals exact h

theorem deviceReceive_wf {s : State} (h : PsramWf s) (hd : 0 < s.cfg.density) (n bs) : PsramWf (deviceReceive s n bs) := by
  induction bs generalizing s n with
  | nil => exact h
  | cons b bs ih =>
    unfold deviceReceive
    split
    · exact h
    · exact ih (deviceByte_wf h hd _ _) (by simpa using hd) _

theorem autoPut_wf {s : State} (h : PsramWf s) {a bs} (hd : a + bs.length ≤ s.cfg.density) : PsramWf (autoPut s a bs) := by
  induction bs generalizing s a with
  | nil => exact h
  | cons b bs ih =>
    simp at hd
    exact ih (psramPut_wf h (by omega)) (by show a + 1 + bs.length ≤ s.cfg.density; omega)

/-- One line leaves system memory or writes one value into it. -/
theorem runAct_mem {a r} {s t : State} (h : runAct a r s = .next t) : t.mem = s.mem ∨ ∃ x n v, t.mem = memWrite s.mem x n v := by
  cases a <;> simp only [runAct] at h
  case ctl => left; have f := ctlOp_frame h; rw [f]; rfl
  case popElem => left; have f := ctlOp_frame h; rw [f]; rfl
  case wait => split at h <;> cases h <;> exact .inl rfl
  case loop => split at h <;> cases h <;> exact .inl rfl
  case fifoCheck => split at h <;> cases h; exact .inl rfl
  case pumpWrite => split at h <;> cases h <;> exact .inl rfl
  case pumpRead => split at h <;> cases h <;> exact .inl rfl
  case dmaConfigure =>
    split at h
    · cases h
    · split at h <;> cases h <;> exact .inl rfl
  case dmaEnable => unfold dmaEnableOp at h; split at h <;> cases h; exact .inl rfl
  case dmaTrigger => unfold dmaTriggerOp at h; split at h <;> cases h; exact .inl rfl
  case store => cases h; exact .inr ⟨_, _, _, rfl⟩
  case completion => cases h; exact .inr ⟨_, _, _, rfl⟩
  case setProfile f => cases f <;> cases h <;> exact .inl rfl
  case busyTest d w e => rcases busyTest_next (dma := d) (dir := w) (e := e) (r := r) h with rfl | ⟨-, rfl⟩ <;> exact .inl rfl
  case initTest p => rcases initTest_next (p0 := p) (r := r) h with ⟨c, rfl⟩ | ⟨-, -, rfl⟩ <;> exact .inl rfl
  all_goals (cases h; exact .inl rfl)

theorem density_pos {p : Config.Params} (h : p.ok = true) : 0 < p.density := by
  simp [Config.Params.ok] at h; omega

/-- The end of a HOST action leaves system memory. -/
@[simp] theorem hostFinish_mem (s : State) (a : HostAct) (bs : List Byte) : (hostFinish s a bs).mem = s.mem := by
  rw [hostFinish_frame]

@[simp] theorem writeOffset_mem (s : State) (off : Nat) (v : Word) : (writeOffset s off v).mem = s.mem := by
  rw [writeOffset_frame]

/-- One byte of a HOST access leaves system memory or stores that byte. -/
theorem hostPiece_mem (s : State) (done : List Byte) (dir : Dir) (addr v : Nat) :
    (hostPiece s done dir addr v).mem = s.mem
      ∨ ∃ b, (hostPiece s done dir addr v).mem = memPutBytes s.mem (addr + done.length) [b] := by
  simp only [hostPiece, memPutBytes]
  generalize sysAddr (addr + done.length) = x
  generalize offsetFrom (addr + done.length) s.cfg.autoBase = o
  split
  · exact .inl rfl
  · cases dir
    · exact .inr ⟨_, rfl⟩
    · exact .inl rfl

/-- One HOST step leaves system memory or stores bytes at consecutive addresses. -/
theorem hostStep_mem {s t : State} (h : hostStep s = .next t) :
    t.mem = s.mem ∨ ∃ x bs, t.mem = memPutBytes s.mem x bs := by
  have access : ∀ a dir addr n v, hostAccess s a dir addr n v = .next t →
      t.mem = s.mem ∨ ∃ x bs, t.mem = memPutBytes s.mem x bs := by
    intro a dir addr n v h
    unfold hostAccess at h
    split at h
    · split at h <;> cases h <;> exact .inl (by simp)
    · cases h
    · cases h
    · cases h; exact .inl rfl
    · cases h; exact .inl rfl
    · split at h <;> cases h
      · exact .inl (by simp)
      · exact .inr ⟨_, _, hostFinish_mem _ _ _⟩
  have piece : ∀ done dir addr v, hostPiece s done dir addr v = t →
      t.mem = s.mem ∨ ∃ x bs, t.mem = memPutBytes s.mem x bs := by
    rintro done dir addr v rfl
    rcases hostPiece_mem s done dir addr v with e | ⟨b, e⟩
    · exact .inl e
    · exact .inr ⟨_, _, e⟩
  unfold hostStep at h
  split at h
  · cases h; exact .inl rfl
  · rename_i a _ _
    split at h
    · unfold hostStart at h
      split at h
      · exact access _ _ _ _ _ h
      · exact access _ _ _ _ _ h
      · exact access _ _ _ _ _ h
      · cases h
      · cases h
    · cases h; exact .inl rfl
    · have h := Host.Outcome.next.inj h
      cases a <;> simp only [hostContinue] at h
      case touchCtrl => exact .inl (by rw [← h, hostFinish_mem])
      case touchDma => exact .inl (by rw [← h, hostFinish_mem])
      all_goals
        split at h
        · exact .inl (by rw [← h, hostFinish_mem])
        · exact piece _ _ _ _ h

/-- One HOST step leaves what memory held at the last acceptance, or an acceptance in it notes memory as it is. -/
theorem hostStep_memAtCmd {s t : State} (h : hostStep s = .next t) : t.memAtCmd = s.memAtCmd ∨ t.memAtCmd = s.mem := by
  have offset : ∀ off v, (writeOffset s off v).memAtCmd = s.memAtCmd ∨ (writeOffset s off v).memAtCmd = s.mem := by
    intro off v
    unfold writeOffset
    split
    · rename_i r _
      cases r <;> first
        | exact .inl rfl
        | (simp only [writeReg, offerCommand]; split <;> first | exact .inl rfl | exact .inr rfl)
    · exact .inl rfl
  have access : ∀ a dir addr n v, hostAccess s a dir addr n v = .next t →
      t.memAtCmd = s.memAtCmd ∨ t.memAtCmd = s.mem := by
    intro a dir addr n v h
    unfold hostAccess at h
    split at h
    · split at h <;> cases h
      · rw [hostFinish_frame]
        exact .inl rfl
      · rw [hostFinish_frame]
        exact offset _ _
    · cases h
    · cases h
    · cases h; exact .inl rfl
    · cases h; exact .inl rfl
    · split at h <;> cases h <;> (rw [hostFinish_frame]; exact .inl rfl)
  unfold hostStep at h
  split at h
  · cases h; exact .inl rfl
  · split at h
    · unfold hostStart at h
      split at h
      · exact access _ _ _ _ _ h
      · exact access _ _ _ _ _ h
      · exact access _ _ _ _ _ h
      · cases h
      · cases h
    · cases h; exact .inl rfl
    · rw [hostContinue_frame (Host.Outcome.next.inj h)]
      exact .inl rfl

/-- One line leaves the race, ends it or opens one against what memory held at the last acceptance. -/
theorem runAct_race {a r} {s t : State} (h : runAct a r s = .next t) :
    t.race = s.race ∨ t.race = none ∨ ∃ d e, t.race = some (openRace s d e) := by
  cases a <;> simp only [runAct] at h
  case ctl => left; have f := ctlOp_frame h; rw [f]; rfl
  case popElem => left; have f := ctlOp_frame h; rw [f]; rfl
  case wait => split at h <;> cases h <;> exact .inl rfl
  case loop => split at h <;> cases h <;> exact .inl rfl
  case fifoCheck => split at h <;> cases h; exact .inl rfl
  case pumpWrite => split at h <;> cases h <;> exact .inl rfl
  case pumpRead => split at h <;> cases h <;> exact .inl rfl
  case dmaConfigure =>
    split at h
    · cases h
    · split at h <;> cases h <;> exact .inl rfl
  case dmaEnable => unfold dmaEnableOp at h; split at h <;> cases h; exact .inl rfl
  case dmaTrigger => unfold dmaTriggerOp at h; split at h <;> cases h; exact .inl rfl
  case setProfile f => cases f <;> cases h <;> exact .inl rfl
  case initTest p => rcases initTest_next (p0 := p) (r := r) h with ⟨c, rfl⟩ | ⟨-, -, rfl⟩ <;> exact .inl rfl
  case busyTest d w e =>
    rcases busyTest_next (dma := d) (dir := w) (e := e) (r := r) h with rfl | ⟨-, rfl⟩
    · exact .inl rfl
    · exact .inr (.inr ⟨w, e, rfl⟩)
  case completion => cases h; exact .inr (.inl rfl)
  case finish op code prev =>
    cases h
    show raceAfter op code s.race = _ ∨ raceAfter op code s.race = _ ∨ _
    unfold raceAfter
    split
    · exact .inr (.inl rfl)
    · exact .inl rfl
  all_goals (cases h; exact .inl rfl)

end Sys2Proof.Machine
end

