-- ==== Sys2Proof/Laws/Overlap.lean ====
section
/-! SUPPORT. The machine's overlap tests against the ranges they stand for: what a transfer's Busy test checks
(20_memory R79, R81, R97; 70 R329) says that the caller keeps its duties. -/

namespace Sys2Proof.Machine

/-- The offset test of two ranges finds a common byte exactly when there is one. -/
theorem rangesMeet_iff (a n b m : Nat) : rangesMeet a n b m = true ↔ ShareByte a n b m := by
  simp only [rangesMeet, ShareByte, sysAddr, addressSpace, decide_eq_true_eq]
  constructor
  · rintro ⟨hn, hm, h | h⟩
    · exact ⟨_, 0, h, hm, by omega⟩
    · exact ⟨0, _, hn, h, by omega⟩
  · rintro ⟨i, j, hi, hj, e⟩
    refine ⟨by omega, by omega, ?_⟩
    by_cases hij : j ≤ i
    · by_cases hs : i - j < 4294967296
      · left; omega
      · left; omega
    · by_cases hs : j - i < 4294967296
      · right; omega
      · right; omega

theorem meetsDevice_iff (s : State) (a n : Nat) : meetsDevice s.cfg a n = true ↔ OnDevice s a n := by
  simp only [meetsDevice, OnDevice, Bool.or_eq_true, rangesMeet_iff, or_assoc]

/-- A transfer's Busy test refuses nothing exactly when the caller keeps its duties. -/
theorem callerKeeps_iff (s : State) (dma : Bool) (e : BitVec 3) :
    CallerKeeps s dma e ↔
      callerBreach s.cfg dma s.latch.buf.toNat e.toNat s.latch.count.toNat s.latch.sptr.toNat = none := by
  have key : CallerKeeps s dma e ↔ s.latch.buf.toNat % e.toNat = 0
      ∧ (dma = true → s.latch.sptr.toNat % 4 = 0) ∧ ¬BufferOverlaps s dma e
      ∧ (dma = true → ¬OnDevice s s.latch.sptr.toNat 4) :=
    ⟨fun h => ⟨h.1, h.2, h.3, h.4⟩, fun h => ⟨h.1, h.2.1, h.2.2.1, h.2.2.2⟩⟩
  rw [key, callerBreach, BufferOverlaps]
  simp only [← meetsDevice_iff, ← rangesMeet_iff]
  cases dma
  · simp only [Bool.false_eq_true, false_and, or_false, if_false, false_implies, true_and,
      and_true]
    repeat' split
    all_goals simp_all
  · simp only [true_and, forall_const]
    repeat' split
    all_goals simp_all

end Sys2Proof.Machine
end

