-- ==== Sys2Proof/Laws/Planner.lean ====
section
/-! SUPPORT. What one call of PLAN_CHUNK gives (42_chunk_planner R180 to R187). -/

namespace Sys2Proof.Machine

/-- One call at device address `a`: whole elements, within the maximum and the rest, the next offset that
of the next address, and no wrap inside the chunk when address and wrap size are aligned. -/
theorem planChunk_spec {w rem s max a : Nat} (hs : s = 1 ∨ s = 2 ∨ s = 4) (hm : s ≤ max) (h0 : 0 < rem)
    (hr : rem % s = 0) :
    let c := planChunk w rem (wrapOffset w a) s max
    s ≤ c.1 ∧ c.1 % s = 0 ∧ c.1 ≤ rem ∧ c.1 ≤ max ∧ c.2 = wrapOffset w (a + c.1)
      ∧ (w ≠ 0 → a % s = 0 → w % s = 0 → a % w + c.1 ≤ w) := by
  intro c
  have hspos : 0 < s := by omega
  have hrs : s ≤ rem := Nat.le_of_dvd h0 (Nat.dvd_of_mod_eq_zero hr)
  -- the path maximum in whole elements
  have hmle : max - max % s ≤ max := Nat.sub_le _ _
  have hmod : (max - max % s) % s = 0 := Nat.mod_eq_zero_of_dvd (Nat.dvd_sub_mod max)
  have hms : s ≤ max - max % s :=
    Nat.le_of_dvd (by have := Nat.mod_lt max hspos; omega) (Nat.dvd_sub_mod max)
  have hc1 : min rem (max - max % s) % s = 0 := by
    rcases Nat.le_total rem (max - max % s) with h | h
    · rw [Nat.min_eq_left h]; exact hr
    · rw [Nat.min_eq_right h]; exact hmod
  by_cases hw : w = 0
  · subst hw
    simp only [c, planChunk, wrapOffset, ne_eq, not_true_eq_false, false_and, if_false, if_true]
    refine ⟨by omega, hc1, by omega, by omega, trivial, fun h => h.elim⟩
  · have hwpos : 0 < w := Nat.pos_of_ne_zero hw
    have hoff : wrapOffset w a < w := by rw [wrapOffset, if_neg hw]; exact Nat.mod_lt _ hwpos
    have hoffa : wrapOffset w a = a % w := by rw [wrapOffset, if_neg hw]
    have hnext : ∀ x, (wrapOffset w a + x) % w = wrapOffset w (a + x) := by
      intro x; rw [hoffa, wrapOffset, if_neg hw, Nat.mod_add_mod]
    have halign : a % s = 0 → w % s = 0 → (a % w) % s = 0 := by
      intro h1 h2
      rw [Nat.mod_mod_of_dvd a (Nat.dvd_of_mod_eq_zero h2)]
      exact h1
    simp only [c, planChunk, ne_eq, hw, not_false_eq_true, true_and, if_false, hnext, true_implies]
    refine ⟨?_, ?_, ?_, ?_, ?_⟩
    all_goals
      by_cases hx : wrapOffset w a + min rem (max - max % s) > w
      · simp only [if_pos hx]
        have hrest : (w - wrapOffset w a - (w - wrapOffset w a) % s) % s = 0 :=
          Nat.mod_eq_zero_of_dvd (Nat.dvd_sub_mod _)
        by_cases hz : w - wrapOffset w a - (w - wrapOffset w a) % s = 0
        · simp only [if_pos hz]
          first
            | omega
            | exact Nat.mod_self s
            | (intro h1 h2
               have e1 := halign h1 h2
               exfalso
               have e2 : (w - a % w) % s = 0 := Nat.mod_eq_zero_of_dvd
                 (Nat.dvd_sub (Nat.dvd_of_mod_eq_zero h2) (Nat.dvd_of_mod_eq_zero e1))
               rw [hoffa] at hz hoff
               omega)
        · simp only [if_neg hz]
          have := Nat.le_of_dvd (Nat.pos_of_ne_zero hz) (Nat.dvd_of_mod_eq_zero hrest)
          omega
      · simp only [if_neg hx]
        omega

end Sys2Proof.Machine
end

