-- ==== Sys2Proof/Laws/Reach.lean ====
section
/-! SUPPORT. Runs under a chosen schedule: `Reaches` composes, one lemma per agent's step says what it adds,
and a wait is one round of SYNC and one line of the ENGINE. -/

namespace Sys2Proof.Machine

theorem run_add (j k : Nat) (s t : State) (h : core.run j s = .next t) :
    core.run (j + k) s = core.run k t := by
  induction j generalizing s with
  | zero => cases h; simp
  | succ j ih =>
    rw [Nat.succ_add]
    simp only [Host.Core.run] at h ⊢
    revert h
    cases core.step s with
    | next u => exact ih u
    | fault f => intro h; cases h
    | refused r => intro h; cases h

theorem Reaches.refl (s : State) : Reaches s s := ⟨[], fun _ _ => rfl⟩

theorem Reaches.trans {s t u : State} (h : Reaches s t) (h2 : Reaches t u) : Reaches s u := by
  obtain ⟨l1, e1⟩ := h
  obtain ⟨l2, e2⟩ := h2
  refine ⟨l1 ++ l2, fun rest n => ?_⟩
  rw [List.length_append, List.append_assoc, run_add _ _ _ _ (e1 (l2 ++ rest) n), e2 rest,
    Nat.add_assoc]

/-- One step of agent `a`. -/
theorem Reaches.step {s t : State} (a : Config.Agent) (hok : s.Live)
    (h : ∀ sc n, agentStep a { s with sched := sc, tick := n } = .next { t with sched := sc, tick := n }) :
    Reaches s t := by
  refine ⟨[a], fun rest n => ?_⟩
  have e : core.step { s with sched := [a] ++ rest, tick := n } =
      .next { t with sched := rest, tick := n + 1 } := by
    have hl : State.Live { s with sched := [a] ++ rest, tick := n } := hok
    exact (step_live hl).trans (h rest (n + 1))
  simp only [List.length_singleton, Host.Core.run, e]

/-- The ENGINE executes a command or an event. -/
def active (s : State) : Prop := s.exec = true ∨ s.handling = true

theorem Params.ok_channel {p : Config.Params} (h : p.ok = true) : p.dmaChannel ≤ 15 := by
  unfold Config.Params.ok at h
  simp only [Bool.and_eq_true, decide_eq_true_eq] at h
  omega

/-- No CMD word is an event (R105, R120). -/
theorem decodeCmd_port (w : Word) : portOf (decodeCmd w) = .cmd := by
  unfold decodeCmd
  repeat' split
  all_goals rfl

/-- The ENGINE's step at a line is that line, whatever the instruction (R62). -/
theorem engineStep_line {s : State} (hok : s.cfg.ok = true) (ha : active s) {a : Act} {r : List Act}
    (ht : s.todo = a :: r) : engineStep s = runAct a r s := by
  unfold engineStep currentInstr
  by_cases hh : s.handling = true
  · have hc := Params.ok_channel hok
    have : (BitVec.ofNat 4 s.cfg.dmaChannel).toNat = s.cfg.dmaChannel := by
      rw [BitVec.toNat_ofNat]; omega
    simp [hh, exec, execEvtDmaComplete, this, continueWith, ht]
  · have he : s.exec = true := by
      rcases ha with h | h
      · exact h
      · exact absurd h hh
    have hp := decodeCmd_port s.latch.cmd
    simp only [hh, he, if_true]
    revert hp
    cases decodeCmd s.latch.cmd <;>
      simp [exec, execInit, execReadBlocking, execWriteBlocking, execReadDma, execWriteDma,
        execEnterManual, execEnterAuto, execIllegal, continueWith, ht, portOf]

/-- One line of the operation in progress. -/
theorem Reaches.line {s t : State} {a : Act} {r : List Act} (hok : s.Live) (ha : active s)
    (ht : s.todo = a :: r)
    (h : ∀ sc n, runAct a r { s with sched := sc, tick := n } =
      .next { t with sched := sc, tick := n }) : Reaches s t :=
  .step .engine hok fun sc n => (engineStep_line (s := { s with sched := sc, tick := n }) hok.1 ha ht).trans
    (h sc n)

/-- The head of SYNC's pipeline is all that a later step keeps of it. -/
theorem take_cons_take (k : Nat) (e : SyncEntry) (l : List SyncEntry) :
    (e :: l.take k).take k = (e :: l).take k := by
  cases k with
  | zero => rfl
  | succ k => simp [List.take_take]

theorem reach_sync_steps (s : State) (hok : s.Live) (k : Nat) :
    Reaches s { s with sync :=
      if k = 0 then s.sync
      else (List.replicate k (SyncEntry.mk (some s.epoch) (rawStatus s)) ++ s.sync).take s.cfg.syncStages } := by
  induction k with
  | zero => exact .refl _
  | succ k ih =>
    refine ih.trans (.step .sync hok fun sc n => ?_)
    simp only [agentStep, syncStep]
    congr 2
    by_cases hk : k = 0
    · subst hk; rfl
    · simp only [hk, if_false, List.replicate_succ, Nat.succ_ne_zero, List.cons_append]
      exact take_cons_take _ _ _

/-- SYNC_STAGES steps of SYNC (R161, 70 R331). -/
theorem Reaches.sync (s : State) (hok : s.Live) :
    Reaches s { s with sync := settledSync s } := by
  have h := reach_sync_steps s hok s.cfg.syncStages
  have h2 : 2 ≤ s.cfg.syncStages := by
    have hp := hok.1
    unfold Config.Params.ok at hp
    simp only [Bool.and_eq_true, decide_eq_true_eq] at hp
    omega
  have h0 : s.cfg.syncStages ≠ 0 := by omega
  rw [if_neg h0, List.take_left' (by simp)] at h
  exact h

/-- A wait whose condition holds of the raw status is passed: a round of SYNC, then its line (R162). -/
theorem Reaches.wait {s : State} {op : SeqOp} {c : Cond} {r : List Act} (hok : s.Live)
    (ha : active s) (ht : s.todo = .wait op c :: r) (hc : condHolds c (rawStatus s) = true) :
    Reaches s { s with sync := settledSync s, todo := r } := by
  refine (Reaches.sync s hok).trans (.line (a := .wait op c) (r := r) hok ha ht fun sc n => ?_)
  have h2 : 2 ≤ s.cfg.syncStages := by
    have hp := hok.1
    unfold Config.Params.ok at hp
    simp only [Bool.and_eq_true, decide_eq_true_eq] at hp
    omega
  have hw : ∀ u : State, u.cfg = s.cfg → u.epoch = s.epoch → u.sync = settledSync s →
      waitOver u c = true := by
    intro u h1 h2' h3
    unfold waitOver syncOut
    rw [h1, h2', h3, settledSync, List.getElem?_replicate]
    simp [show s.cfg.syncStages - 1 < s.cfg.syncStages by omega, hc]
  exact if_pos (hw { s with sync := settledSync s, sched := sc, tick := n } rfl rfl rfl)

/-! ### Lines of the phase sequencer -/

/-- A `ctl(op)` line, from the operation's effect (R291). -/
theorem Reaches.ctl {s t : State} {op : SeqOp} {c : CtlOp} {r : List Act} (hok : s.Live)
    (ha : active s) (ht : s.todo = .ctl op c :: r)
    (h : ∀ sc n, ctlEffect { s with todo := r, sched := sc, tick := n } c =
      .next { t with sched := sc, tick := n }) :
    Reaches s { t with epoch := t.epoch + 1 } := by
  refine .line hok ha ht fun sc n => ?_
  show ctlOp _ c = _
  unfold ctlOp
  have e := h sc n
  simp only [State.goto]
  rw [e]
  rfl

theorem Reaches.setWidth {s : State} {op : SeqOp} {w : BitVec 2} {r : List Act} (hok : s.Live)
    (ha : active s) (ht : s.todo = .ctl op (.setWidth w) :: r) (hw : w ≠ 3#2) :
    Reaches s { s with curBw := w, epoch := s.epoch + 1, todo := r } :=
  .ctl (t := { s with curBw := w, todo := r }) hok ha ht fun _ _ => by
    simp only [ctlEffect, hw, if_false]

theorem Reaches.setElem {s : State} {op : SeqOp} {e : BitVec 3} {r : List Act} (hok : s.Live)
    (ha : active s) (ht : s.todo = .ctl op (.setElem e) :: r) :
    Reaches s { s with curElem := e, epoch := s.epoch + 1, todo := r } :=
  .ctl (t := { s with curElem := e, todo := r }) hok ha ht fun _ _ => rfl

/-- CTRL carries out a command, address or dummy phase that keeps chip-select, and the engine's wait for
BUSY = 0 is passed. `p` is the parser after the phase. -/
theorem Reaches.phaseDone {s : State} {kind : PhaseKind} {nbits : Nat} {payload : List Byte}
    {r : List Act} {p : Parser} (hok : s.Live) (ha : active s)
    (ht : s.todo = .wait .drivePhase .notBusy :: r)
    (hj : s.job = some ⟨kind, .tx, nbits, payload, 0, 0, [], true, .run⟩) (hk : kind ≠ .data)
    (hp : ∀ sc n, deviceReceive { s with sched := sc, tick := n } nbits
        (payload.take (bytesFor nbits)) = { s with parser := p, sched := sc, tick := n }) :
    ∃ sy, Reaches s { s with
      todo := r, job := none, parser := p, sync := sy
      bus := s.bus ++ [.phase kind s.curBw .tx nbits (payload.take (bytesFor nbits))] } := by
  have h1 : Reaches s { s with
      parser := p
      bus := s.bus ++ [.phase kind s.curBw .tx nbits (payload.take (bytesFor nbits))]
      job := some ⟨kind, .tx, nbits, payload, 0, 0, [], true, .clear⟩ } := by
    refine .step .ctrl hok fun sc n => ?_
    have e := hp sc n
    simp only [hj] at e
    simp only [agentStep, ctrlStep, hj, hk, if_false, e]
    rfl
  have h2 : Reaches { s with
      parser := p
      bus := s.bus ++ [.phase kind s.curBw .tx nbits (payload.take (bytesFor nbits))]
      job := some ⟨kind, .tx, nbits, payload, 0, 0, [], true, .clear⟩ } { s with
      parser := p
      bus := s.bus ++ [.phase kind s.curBw .tx nbits (payload.take (bytesFor nbits))]
      job := none } := .step .ctrl hok fun sc n => rfl
  exact ⟨_, h1.trans (h2.trans (.wait hok ha ht rfl))⟩

/-- DRIVE_PHASE with chip-select already asserted (R140). -/
theorem Reaches.drivePhase {s : State} {kind : PhaseKind} {w : BitVec 2} {nbits : Nat}
    {payload : List Byte} {r : List Act} {p : Parser} (hok : s.Live) (ha : active s)
    (ht : s.todo = Machine.drivePhase s kind w nbits payload ++ r) (hw : w ≠ 3#2) (hk : kind ≠ .data)
    (hen : s.autoEn = false) (hj : s.job = none) (hc : s.cs = some (profCsel s.act0))
    (hp : ∀ u : State, u.parser = s.parser → u.act0 = s.act0 → u.act1 = s.act1 →
      u.addrBytes = s.addrBytes →
      deviceReceive u nbits (payload.take (bytesFor nbits)) = { u with parser := p }) :
    ∃ ep sy, Reaches s { s with
      todo := r, curBw := w, parser := p, epoch := ep, sync := sy
      bus := s.bus ++ [.phase kind w .tx nbits (payload.take (bytesFor nbits))] } := by
  have h1 := Reaches.setWidth hok ha ht hw
  have h2 : Reaches { s with
      curBw := w, epoch := s.epoch + 1
      todo := .ctl .drivePhase (.phaseTx kind nbits payload (profCsel s.act0) true)
        :: .wait .drivePhase .notBusy :: r } { s with
      curBw := w, epoch := s.epoch + 1 + 1, todo := .wait .drivePhase .notBusy :: r
      job := some ⟨kind, .tx, nbits, payload, 0, 0, [], true, .run⟩ } := by
    refine .ctl (t := { s with
      curBw := w, epoch := s.epoch + 1, todo := .wait .drivePhase .notBusy :: r
      job := some ⟨kind, .tx, nbits, payload, 0, 0, [], true, .run⟩ }) hok ha rfl fun sc n => ?_
    simp [ctlEffect, acceptPhase, hen, hj, hc, csAssert]
  obtain ⟨sy, h3⟩ := Reaches.phaseDone (p := p) (s := { s with
      curBw := w, epoch := s.epoch + 1 + 1, todo := .wait .drivePhase .notBusy :: r
      job := some ⟨kind, .tx, nbits, payload, 0, 0, [], true, .run⟩ }) hok ha rfl rfl hk
      (fun sc n => hp _ rfl rfl rfl rfl)
  refine ⟨s.epoch + 1 + 1, sy, h1.trans (h2.trans ?_)⟩
  rw [← hj] at h3
  exact h3

/-- The first DRIVE_PHASE of a transaction: chip-select is asserted and the device opens one (R140, R145). -/
theorem Reaches.drivePhaseFirst {s : State} {kind : PhaseKind} {w : BitVec 2} {nbits : Nat}
    {payload : List Byte} {r : List Act} {p : Parser} (hok : s.Live) (ha : active s)
    (ht : s.todo = Machine.drivePhase s kind w nbits payload ++ r) (hw : w ≠ 3#2) (hk : kind ≠ .data)
    (hen : s.autoEn = false) (hj : s.job = none) (hc : s.cs = none)
    (hp : ∀ u : State, u.parser = .opcode → u.act0 = s.act0 → u.act1 = s.act1 →
      u.addrBytes = s.addrBytes →
      deviceReceive u nbits (payload.take (bytesFor nbits)) = { u with parser := p }) :
    ∃ ep sy, Reaches s { s with
      todo := r, curBw := w, parser := p, epoch := ep, sync := sy, cs := some (profCsel s.act0)
      bus := s.bus ++ [.csAssert (profCsel s.act0),
        .phase kind w .tx nbits (payload.take (bytesFor nbits))] } := by
  have h1 := Reaches.setWidth hok ha ht hw
  have h2 : Reaches { s with
      curBw := w, epoch := s.epoch + 1
      todo := .ctl .drivePhase (.phaseTx kind nbits payload (profCsel s.act0) true)
        :: .wait .drivePhase .notBusy :: r } { s with
      curBw := w, epoch := s.epoch + 1 + 1, todo := .wait .drivePhase .notBusy :: r
      cs := some (profCsel s.act0), parser := .opcode, bus := s.bus ++ [.csAssert (profCsel s.act0)]
      job := some ⟨kind, .tx, nbits, payload, 0, 0, [], true, .run⟩ } := by
    refine .ctl (t := { s with
      curBw := w, epoch := s.epoch + 1, todo := .wait .drivePhase .notBusy :: r
      cs := some (profCsel s.act0), parser := .opcode, bus := s.bus ++ [.csAssert (profCsel s.act0)]
      job := some ⟨kind, .tx, nbits, payload, 0, 0, [], true, .run⟩ }) hok ha rfl fun sc n => ?_
    simp [ctlEffect, acceptPhase, hen, hj, hc, csAssert, deviceOpen, State.record]
  obtain ⟨sy, h3⟩ := Reaches.phaseDone (p := p) (s := { s with
      curBw := w, epoch := s.epoch + 1 + 1, todo := .wait .drivePhase .notBusy :: r
      cs := some (profCsel s.act0), parser := .opcode, bus := s.bus ++ [.csAssert (profCsel s.act0)]
      job := some ⟨kind, .tx, nbits, payload, 0, 0, [], true, .run⟩ }) hok ha rfl rfl hk
      (fun sc n => hp _ rfl rfl rfl rfl)
  refine ⟨s.epoch + 1 + 1, sy, h1.trans (h2.trans ?_)⟩
  rw [← hj, List.append_assoc] at h3
  exact h3

/-! ### The device during command, address and dummy phases (R299) -/

theorem addrOfMsb_bytesMsb (a n acc : Nat) :
    (bytesMsb a n).foldl (fun acc b => 256 * acc + b.toNat) acc = acc * 2 ^ (8 * n) + a % 2 ^ (8 * n) := by
  induction n generalizing acc with
  | zero => simp [bytesMsb, Nat.mod_one]
  | succ n ih =>
    simp only [bytesMsb, List.foldl_cons, ih, BitVec.toNat_ofNat]
    rw [show 8 * (n + 1) = 8 * n + 8 by omega, Nat.pow_add, Nat.mod_mul]
    ring

theorem bytesMsb_length (a n : Nat) : (bytesMsb a n).length = n := by
  induction n with
  | zero => rfl
  | succ n ih => simp [bytesMsb, ih]

theorem abytes_length (n : Nat) (sw : Bool) (a : Nat) : (abytes n sw a).length = n := by
  unfold abytes
  split <;> simp [bytesMsb_length]

/-- The device reads back the address that R113 sends. -/
theorem addrOfBytes_abytes (n a : Nat) (sw : Bool) :
    addrOfBytes sw (abytes n sw a) = a % 2 ^ (8 * n) := by
  have h := addrOfMsb_bytesMsb a n 0
  unfold addrOfBytes abytes addrOfMsb
  cases sw <;> simp [h]

theorem deviceReceive_address (s : State) (w : Bool) (got ab : List Byte) (hp : s.parser = .addr w got)
    (hl : got.length + ab.length = s.addrBytes.toNat) (h0 : ab ≠ []) :
    deviceReceive s (8 * ab.length) ab = { s with parser := deviceAddressed s w (got ++ ab) } := by
  induction ab generalizing s got with
  | nil => exact absurd rfl h0
  | cons b bs ih =>
    simp only [List.length_cons] at hl ⊢
    rw [deviceReceive, if_neg (by omega), show 8 * (bs.length + 1) - 8 = 8 * bs.length by omega]
    by_cases hb : bs = []
    · subst hb
      have : s.addrBytes.toNat ≤ got.length + 1 := by simp at hl; omega
      simp [deviceReceive, deviceByte, hp, this]
    · have hpos : 0 < bs.length := List.length_pos_of_ne_nil hb
      have : ¬s.addrBytes.toNat ≤ got.length + 1 := by omega
      have e : deviceByte s (min 8 (8 * (bs.length + 1))) b = { s with parser := .addr w (got ++ [b]) } := by
        simp [deviceByte, hp, this]
      rw [e, ih _ (got ++ [b]) rfl (by simpa [Nat.add_assoc, Nat.add_comm 1] using hl) hb]
      simp [deviceAddressed]

theorem deviceReceive_dummy (s : State) (a d : Nat) (hp : s.parser = .dummy a d) (h0 : 0 < d) :
    deviceReceive s d (List.replicate (bytesFor d) 0#8) = { s with parser := .readData a 0 } := by
  induction d using Nat.strongRecOn generalizing s with
  | ind d ih =>
    have hb : bytesFor d = bytesFor (d - 8) + 1 := by unfold bytesFor; omega
    rw [hb, List.replicate_succ, deviceReceive, if_neg (by omega)]
    by_cases h8 : d ≤ 8
    · have hm : d ≤ min 8 d := by omega
      have hz : d - 8 = 0 := by omega
      simp [deviceByte, hp, hm, hz, bytesFor, deviceReceive]
    · have hm : min 8 d = 8 := by omega
      have e : deviceByte s (min 8 d) 0#8 = { s with parser := .dummy a (d - 8) } := by
        simp [deviceByte, hp, hm, h8]
      rw [e, ih (d - 8) (by omega) _ rfl (by omega)]

/-- The parser after the address of a transaction in direction `dir`, and at its data phase. -/
def afterAddress (s : State) (dir : Dir) (a : Nat) : Parser :=
  match dir with
  | .write => .writeData a 0
  | .read => if dummyBits s.act0 s.act1 = 0 then .readData a 0 else .dummy a (dummyBits s.act0 s.act1)

def atData (dir : Dir) (a : Nat) : Parser :=
  match dir with
  | .write => .writeData a 0
  | .read => .readData a 0

/-- The opcode of a direction. -/
def opcodeOf (s : State) (dir : Dir) : Byte :=
  match dir with
  | .read => profRdOpcode s.act0
  | .write => profWrOpcode s.act0

/-- The two opcodes of the profile differ, where a write needs it: the device takes a read first (log 15). -/
def opcodesDiffer (s : State) (dir : Dir) : Prop :=
  dir = .write → profWrOpcode s.act0 ≠ profRdOpcode s.act0

theorem deviceByte_opcode (s : State) (dir : Dir) (hp : s.parser = .opcode) (hd : opcodesDiffer s dir)
    (k : Nat) :
    deviceByte s k (opcodeOf s dir) = { s with parser := .addr (decide (dir = .write)) [] } := by
  cases dir with
  | read => simp [deviceByte, hp, opcodeOf]
  | write => simp [deviceByte, hp, opcodeOf, hd rfl]

theorem deviceAddressed_abytes (s : State) (dir : Dir) (a n : Nat) (ha : a < 2 ^ (8 * n)) :
    deviceAddressed s (decide (dir = .write)) (abytes n (profBswap s.act0) a) = afterAddress s dir a := by
  simp only [deviceAddressed, addrOfBytes_abytes, Nat.mod_eq_of_lt ha]
  cases dir <;> simp [afterAddress]

/-! ### CA_SEQ (R141) -/

theorem ProfileLoaded.widths {s : State} (h : ProfileLoaded s) :
    profInstBw s.act0 ≠ 3#2 ∧ profAddrBw s.act0 ≠ 3#2 ∧ profDummyBw s.act0 ≠ 3#2
      ∧ profDataBw s.act0 ≠ 3#2 ∧ s.cfg.density ≤ 2 ^ (8 * s.addrBytes.toNat)
      ∧ s.addrBytes.toNat = (profAddrLen s.act0).toNat + 1 := by
  have ho := h.accepted
  unfold profileOk at ho
  simp only [Bool.and_eq_true, bne_iff_ne, ne_eq, decide_eq_true_eq] at ho
  have hb : s.addrBytes.toNat = (profAddrLen s.act0).toNat + 1 := by
    rw [h.bytes, addrBytesOf]
    have := (profAddrLen s.act0).isLt
    simp only [BitVec.toNat_add, BitVec.toNat_append, BitVec.toNat_ofNat]
    simp
    omega
  refine ⟨?_, ?_, ?_, ?_, ?_, hb⟩
  · exact ho.1.1.1.1.1.1
  · exact ho.1.1.1.1.1.2
  · exact ho.1.1.1.1.2
  · exact ho.1.1.1.2
  · rw [hb]; exact ho.2

theorem lines_pos {w : BitVec 2} (h : w ≠ 3#2) : 0 < lines w := by
  revert h; revert w; decide

theorem take_bytesFor {n : Nat} {l : List Byte} (h : l.length = n) : l.take (bytesFor (8 * n)) = l := by
  apply List.take_of_length_le
  unfold bytesFor
  omega

/-- The dummy phase, or none (R114). -/
theorem Reaches.dummy {s : State} {dir : Dir} {a : Nat} {r : List Act} (hok : s.Live)
    (ha : active s) (ht : s.todo = dummyPhase s dir ++ r) (hl : ProfileLoaded s)
    (hen : s.autoEn = false) (hj : s.job = none) (hc : s.cs = some (profCsel s.act0))
    (hp : s.parser = afterAddress s dir a) :
    ∃ bw ep sy, Reaches s { s with
      todo := r, curBw := bw, epoch := ep, sync := sy, parser := atData dir a
      bus := s.bus ++ if dir = .read ∧ 0 < profDummyCycles s.act1 then
        [.phase .dummy (profDummyBw s.act0) .tx (dummyBits s.act0 s.act1)
          (List.replicate (bytesFor (dummyBits s.act0 s.act1)) 0#8)]
        else [] } := by
  by_cases hd : dir = .read ∧ 0 < profDummyCycles s.act1
  · have hpos : 0 < dummyBits s.act0 s.act1 := Nat.mul_pos hd.2 (lines_pos hl.widths.2.2.1)
    rw [dummyPhase, if_pos hd] at ht
    have hd2 := hd.2
    obtain ⟨rfl, -⟩ := hd
    have e : s.parser = .dummy a (dummyBits s.act0 s.act1) := by
      rw [hp]; simp [afterAddress, Nat.ne_of_gt hpos]
    obtain ⟨ep, sy, h⟩ := Reaches.drivePhase (p := .readData a 0) hok ha ht hl.widths.2.2.1
      (by decide) hen hj hc fun u hu h0 h1 _ => by
        rw [List.take_of_length_le (by simp)]
        exact deviceReceive_dummy u a _ (hu.trans e) hpos
    refine ⟨profDummyBw s.act0, ep, sy, ?_⟩
    rw [if_pos ⟨rfl, hd2⟩]
    rw [List.take_of_length_le (by simp)] at h
    exact h
  · rw [dummyPhase, if_neg hd] at ht
    rw [if_neg hd]
    have e : s.parser = atData dir a := by
      rw [hp]
      cases dir with
      | write => rfl
      | read =>
        have : profDummyCycles s.act1 = 0 := by
          by_contra h; exact hd ⟨rfl, Nat.pos_of_ne_zero h⟩
        simp [afterAddress, atData, dummyBits, this]
    refine ⟨s.curBw, s.epoch, s.sync, ?_⟩
    have : s = { s with
      todo := r, curBw := s.curBw, epoch := s.epoch, sync := s.sync, parser := atData dir a
      bus := s.bus ++ [] } := by
      rw [← e, List.append_nil]
      have : s.todo = r := ht
      rw [← this]
    rw [← this]
    exact .refl _

theorem abytes_ne_nil {s : State} (hl : ProfileLoaded s) (sw : Bool) (a : Nat) :
    abytes s.addrBytes.toNat sw a ≠ [] := fun e => by
  have h := abytes_length s.addrBytes.toNat sw a
  have h6 := hl.widths.2.2.2.2.2
  rw [e] at h
  simp at h
  omega

/-- The address bytes bring the parser to the device address they carry. -/
theorem deviceReceive_abytes {s u : State} {dir : Dir} {a : Nat} (hl : ProfileLoaded s)
    (hr : a < s.cfg.density) (hu : u.parser = .addr (decide (dir = .write)) []) (e0 : u.act0 = s.act0)
    (e1 : u.act1 = s.act1) (eb : u.addrBytes = s.addrBytes) :
    deviceReceive u (8 * s.addrBytes.toNat) (abytes s.addrBytes.toNat (profBswap s.act0) a) =
      { u with parser := afterAddress s dir a } := by
  have h := deviceReceive_address u (decide (dir = .write)) []
    (abytes s.addrBytes.toNat (profBswap s.act0) a) hu
    (by rw [abytes_length, eb]; simp) (abytes_ne_nil hl _ _)
  rw [abytes_length] at h
  rw [h, List.nil_append]
  have e2 := deviceAddressed_abytes u dir a s.addrBytes.toNat
    (Nat.lt_of_lt_of_le hr hl.widths.2.2.2.2.1)
  rw [e0] at e2
  rw [e2]
  congr 1
  unfold afterAddress
  rw [e0, e1]

/-- The opcode byte opens a read or a write. -/
theorem deviceReceive_opcode {s u : State} {dir : Dir} (hd : opcodesDiffer s dir)
    (hu : u.parser = .opcode) (e0 : u.act0 = s.act0) (k : Nat) :
    deviceByte u k (opcodeOf s dir) = { u with parser := .addr (decide (dir = .write)) [] } := by
  have ho : opcodeOf s dir = opcodeOf u dir := by cases dir <;> simp [opcodeOf, e0]
  rw [ho]
  exact deviceByte_opcode u dir hu (by unfold opcodesDiffer; rw [e0]; exact hd) k

/-- Command and address in one phase (R111). -/
theorem Reaches.openPacked {s : State} {dir : Dir} {a : Nat} {r : List Act} (hok : s.Live)
    (ha : active s)
    (ht : s.todo = Machine.drivePhase s .cmdaddr (profInstBw s.act0) (8 * (1 + s.addrBytes.toNat))
      (opcodeOf s dir :: abytes s.addrBytes.toNat (profBswap s.act0) a) ++ r)
    (hl : ProfileLoaded s) (hd : opcodesDiffer s dir)
    (hen : s.autoEn = false) (hj : s.job = none) (hc : s.cs = none) (hr : a < s.cfg.density) :
    ∃ bw ep sy, Reaches s { s with
      todo := r, curBw := bw, epoch := ep, sync := sy, parser := afterAddress s dir a
      cs := some (profCsel s.act0)
      bus := s.bus ++ [.csAssert (profCsel s.act0),
        .phase .cmdaddr (profInstBw s.act0) .tx (8 * (1 + s.addrBytes.toNat))
          (opcodeOf s dir :: abytes s.addrBytes.toNat (profBswap s.act0) a)] } := by
  have hlen : (opcodeOf s dir :: abytes s.addrBytes.toNat (profBswap s.act0) a).length =
      1 + s.addrBytes.toNat := by simp [abytes_length, Nat.add_comm]
  obtain ⟨ep, sy, h⟩ := Reaches.drivePhaseFirst (p := afterAddress s dir a) hok ha ht hl.widths.1
    (by decide) hen hj hc fun u hu e0 e1 eb => by
      rw [take_bytesFor hlen, deviceReceive, if_neg (by omega), deviceReceive_opcode hd hu e0,
        show 8 * (1 + s.addrBytes.toNat) - 8 = 8 * s.addrBytes.toNat by omega,
        deviceReceive_abytes hl hr (u := { u with parser := _ }) rfl e0 e1 eb]
  rw [take_bytesFor hlen] at h
  exact ⟨_, ep, sy, h⟩

/-- A command phase, then an address phase (R112). -/
theorem Reaches.openSplit {s : State} {dir : Dir} {a : Nat} {r : List Act} (hok : s.Live)
    (ha : active s)
    (ht : s.todo = Machine.drivePhase s .cmd (profInstBw s.act0) 8 [opcodeOf s dir] ++ .caAddr a :: r)
    (hl : ProfileLoaded s) (hd : opcodesDiffer s dir)
    (hen : s.autoEn = false) (hj : s.job = none) (hc : s.cs = none) (hr : a < s.cfg.density) :
    ∃ bw ep sy, Reaches s { s with
      todo := r, curBw := bw, epoch := ep, sync := sy, parser := afterAddress s dir a
      cs := some (profCsel s.act0)
      bus := s.bus ++ [.csAssert (profCsel s.act0),
        .phase .cmd (profInstBw s.act0) .tx 8 [opcodeOf s dir],
        .phase .addr (profAddrBw s.act0) .tx (8 * s.addrBytes.toNat)
          (abytes s.addrBytes.toNat (profBswap s.act0) a)] } := by
  obtain ⟨ep, sy, h⟩ := Reaches.drivePhaseFirst (p := .addr (decide (dir = .write)) []) hok ha ht
    hl.widths.1 (by decide) hen hj hc fun u hu e0 _ _ => by
      show deviceReceive u 8 [opcodeOf s dir] = _
      rw [deviceReceive, if_neg (by omega), deviceReceive_opcode hd hu e0]
      rfl
  have h1 : Reaches { s with
      todo := .caAddr a :: r, curBw := profInstBw s.act0
      parser := .addr (decide (dir = .write)) [], epoch := ep, sync := sy
      cs := some (profCsel s.act0)
      bus := s.bus ++ [.csAssert (profCsel s.act0),
        .phase .cmd (profInstBw s.act0) .tx 8 ([opcodeOf s dir].take (bytesFor 8))] } { s with
      todo := addressPhase s a ++ r, curBw := profInstBw s.act0
      parser := .addr (decide (dir = .write)) [], epoch := ep, sync := sy
      cs := some (profCsel s.act0)
      bus := s.bus ++ [.csAssert (profCsel s.act0),
        .phase .cmd (profInstBw s.act0) .tx 8 ([opcodeOf s dir].take (bytesFor 8))] } :=
    .line hok ha rfl fun _ _ => rfl
  obtain ⟨ep2, sy2, h2⟩ := Reaches.drivePhase (p := afterAddress s dir a) (s := { s with
      todo := Machine.drivePhase s .addr (profAddrBw s.act0) (8 * s.addrBytes.toNat)
        (abytes s.addrBytes.toNat (profBswap s.act0) a) ++ r, curBw := profInstBw s.act0
      parser := .addr (decide (dir = .write)) [], epoch := ep, sync := sy
      cs := some (profCsel s.act0)
      bus := s.bus ++ [.csAssert (profCsel s.act0),
        .phase .cmd (profInstBw s.act0) .tx 8 ([opcodeOf s dir].take (bytesFor 8))] }) hok ha rfl
    hl.widths.2.1 (by decide) hen hj rfl fun u hu e0 e1 eb => by
      rw [take_bytesFor (abytes_length _ _ _)]
      exact deviceReceive_abytes hl hr hu e0 e1 eb
  refine ⟨profAddrBw s.act0, ep2, sy2, h.trans (h1.trans ?_)⟩
  rw [take_bytesFor (abytes_length _ _ _), List.append_assoc] at h2
  exact h2

/-- CA_SEQ: the command, address and dummy phases of one transaction (R141). -/
theorem Reaches.caSeq {s : State} {dir : Dir} {a : Nat} {r : List Act} (hok : s.Live)
    (ha : active s) (ht : s.todo = .caSeq dir a :: r) (hl : ProfileLoaded s) (hd : opcodesDiffer s dir)
    (hen : s.autoEn = false) (hj : s.job = none) (hc : s.cs = none) (hr : a < s.cfg.density) :
    ∃ bw ep sy, Reaches s { s with
      todo := r, curBw := bw, epoch := ep, sync := sy, parser := atData dir a
      cs := some (profCsel s.act0), bus := s.bus ++ openingRecords s dir a } := by
  have h0 : Reaches s { s with todo := commandPhases s dir a ++ .caDummy dir :: r } :=
    .line hok ha ht fun _ _ => rfl
  have hop : openingRecords s dir a = [BusEvent.csAssert (profCsel s.act0)] ++ ((match s.enc with
      | .packed => [.phase .cmdaddr (profInstBw s.act0) .tx (8 * (1 + s.addrBytes.toNat))
          (opcodeOf s dir :: abytes s.addrBytes.toNat (profBswap s.act0) a)]
      | .split => [.phase .cmd (profInstBw s.act0) .tx 8 [opcodeOf s dir],
          .phase .addr (profAddrBw s.act0) .tx (8 * s.addrBytes.toNat)
            (abytes s.addrBytes.toNat (profBswap s.act0) a)])
    ++ if dir = .read ∧ 0 < profDummyCycles s.act1 then
        [.phase .dummy (profDummyBw s.act0) .tx (dummyBits s.act0 s.act1)
          (List.replicate (bytesFor (dummyBits s.act0 s.act1)) 0#8)]
      else []) := by cases dir <;> rfl
  rw [hop]
  -- the dummy test and phase, from the state that the opening leaves
  have tail : ∀ (bw : BitVec 2) (ep : Nat) (sy : List SyncEntry) (bus : List BusEvent),
      ∃ bw2 ep2 sy2, Reaches { s with
        todo := .caDummy dir :: r, curBw := bw, epoch := ep, sync := sy
        parser := afterAddress s dir a, cs := some (profCsel s.act0), bus := bus } { s with
        todo := r, curBw := bw2, epoch := ep2, sync := sy2, parser := atData dir a
        cs := some (profCsel s.act0)
        bus := bus ++ if dir = .read ∧ 0 < profDummyCycles s.act1 then
          [.phase .dummy (profDummyBw s.act0) .tx (dummyBits s.act0 s.act1)
            (List.replicate (bytesFor (dummyBits s.act0 s.act1)) 0#8)]
        else [] } := by
    intro bw ep sy bus
    obtain ⟨bw2, ep2, sy2, h2⟩ := Reaches.dummy (dir := dir) (a := a) (r := r) (s := { s with
      todo := dummyPhase s dir ++ r, curBw := bw, epoch := ep, sync := sy
      parser := afterAddress s dir a, cs := some (profCsel s.act0), bus := bus }) hok ha rfl
      ⟨hl.1, hl.2, hl.3⟩ hen hj rfl (by cases dir <;> rfl)
    exact ⟨bw2, ep2, sy2, .trans (.line hok ha rfl fun _ _ => rfl) h2⟩
  cases he : s.enc with
  | packed =>
    have hcp : commandPhases s dir a ++ .caDummy dir :: r =
        Machine.drivePhase s .cmdaddr (profInstBw s.act0) (8 * (1 + s.addrBytes.toNat))
          (opcodeOf s dir :: abytes s.addrBytes.toNat (profBswap s.act0) a) ++ .caDummy dir :: r := by
      unfold commandPhases; rw [he]; cases dir <;> rfl
    obtain ⟨bw, ep, sy, h1⟩ := Reaches.openPacked (dir := dir) (a := a) (r := .caDummy dir :: r)
      (s := { s with todo := commandPhases s dir a ++ .caDummy dir :: r }) hok ha
      (by cases dir <;> exact hcp) ⟨hl.1, hl.2, hl.3⟩ hd hen hj hc hr
    obtain ⟨bw2, ep2, sy2, h2⟩ := tail bw ep sy (s.bus ++ [.csAssert (profCsel s.act0),
        .phase .cmdaddr (profInstBw s.act0) .tx (8 * (1 + s.addrBytes.toNat))
          (opcodeOf s dir :: abytes s.addrBytes.toNat (profBswap s.act0) a)])
    refine ⟨bw2, ep2, sy2, h0.trans ((?_ : Reaches _ _).trans (h2.trans ?_))⟩
    · cases dir <;> exact h1
    · simp only [he, List.append_assoc, List.cons_append, List.nil_append]
      exact .refl _
  | split =>
    have hcp : commandPhases s dir a ++ .caDummy dir :: r =
        Machine.drivePhase s .cmd (profInstBw s.act0) 8 [opcodeOf s dir] ++ .caAddr a
          :: .caDummy dir :: r := by
      unfold commandPhases; rw [he]; cases dir <;> rfl
    obtain ⟨bw, ep, sy, h1⟩ := Reaches.openSplit (dir := dir) (a := a) (r := .caDummy dir :: r)
      (s := { s with todo := commandPhases s dir a ++ .caDummy dir :: r }) hok ha
      (by cases dir <;> exact hcp) ⟨hl.1, hl.2, hl.3⟩ hd hen hj hc hr
    obtain ⟨bw2, ep2, sy2, h2⟩ := tail bw ep sy (s.bus ++ [.csAssert (profCsel s.act0),
        .phase .cmd (profInstBw s.act0) .tx 8 [opcodeOf s dir],
        .phase .addr (profAddrBw s.act0) .tx (8 * s.addrBytes.toNat)
          (abytes s.addrBytes.toNat (profBswap s.act0) a)])
    refine ⟨bw2, ep2, sy2, h0.trans ((?_ : Reaches _ _).trans (h2.trans ?_))⟩
    · cases dir <;> exact h1
    · simp only [he, List.append_assoc, List.cons_append, List.nil_append]
      exact .refl _

end Sys2Proof.Machine
end

