-- ==== Sys2Proof/Laws/Transfer.lean ====
section
/-! SUPPORT. The data phases of a transfer under a chosen schedule: pumps and DMA, CTRL's side of them, and
what they do to the two memories and to the bus record. -/

namespace Sys2Proof.Machine

/-! ### Runs of bytes -/

/-- Store bytes at consecutive addresses. -/
def putRange (m : Memory) (a : Nat) : List Byte → Memory
  | [] => m
  | b :: bs => putRange (m.put a b) (a + 1) bs

/-- What `psramPast` becomes with them. -/
def pastRange (m : Memory) (past : List Host.Cell) (a : Nat) : List Byte → List Host.Cell
  | [] => past
  | b :: bs => pastRange (m.put a b) ((a, m.get a) :: past) (a + 1) bs

theorem putRange_append (m : Memory) (a : Nat) (xs ys : List Byte) :
    putRange m a (xs ++ ys) = putRange (putRange m a xs) (a + xs.length) ys := by
  induction xs generalizing m a with
  | nil => rfl
  | cons x xs ih => simp [putRange, ih, Nat.add_assoc, Nat.add_comm 1]

theorem putRange_get_other (m : Memory) (a : Nat) (bs : List Byte) (x : Nat)
    (h : x < a ∨ a + bs.length ≤ x) : (putRange m a bs).get x = m.get x := by
  induction bs generalizing m a with
  | nil => rfl
  | cons b bs ih =>
    simp only [List.length_cons] at h
    rw [putRange, ih _ _ (by omega)]
    exact Memory.get_put_other m b (by omega)

theorem putRange_wf {bound : Nat} {m : Memory} (h : Memory.wf bound m = true) (a : Nat) (bs : List Byte)
    (hb : a + bs.length ≤ bound) : Memory.wf bound (putRange m a bs) = true := by
  induction bs generalizing m a with
  | nil => exact h
  | cons b bs ih =>
    simp only [List.length_cons] at hb
    exact ih (Memory.wf_put h b (by omega)) _ (by omega)

theorem putRange_get {bound : Nat} {m : Memory} (h : Memory.wf bound m = true) (a : Nat) (bs : List Byte)
    (hb : a + bs.length ≤ bound) (j : Nat) (hj : j < bs.length) :
    (putRange m a bs).get (a + j) = bs[j] := by
  induction bs generalizing m a j with
  | nil => simp at hj
  | cons b bs ih =>
    simp only [List.length_cons] at hb hj
    have hw := Memory.wf_put h b (a := a) (by omega)
    cases j with
    | zero =>
      rw [putRange, putRange_get_other _ _ _ _ (by omega)]
      exact Memory.get_put_same h a b
    | succ j =>
      rw [putRange, show a + (j + 1) = a + 1 + j by omega, ih hw _ (by omega) j (by omega)]
      rfl

theorem memBytes_add (m : Memory) (a x y : Nat) :
    memBytes m a (x + y) = memBytes m a x ++ memBytes m (a + x) y := by
  induction x generalizing a with
  | zero => simp [memBytes]
  | succ x ih => rw [Nat.succ_add]; simp [memBytes, ih, Nat.add_assoc, Nat.add_comm 1]

@[simp] theorem memBytes_length (m : Memory) (a n : Nat) : (memBytes m a n).length = n := by
  induction n generalizing a with
  | zero => rfl
  | succ n ih => simp [memBytes, ih]

theorem memBytes_getElem (m : Memory) (a n j : Nat) (h : j < (memBytes m a n).length) :
    (memBytes m a n)[j] = m.get (sysAddr (a + j)) := by
  induction n generalizing a j with
  | zero => simp at h
  | succ n ih =>
    cases j with
    | zero => rfl
    | succ j =>
      simp only [memBytes, List.getElem_cons_succ]
      rw [ih]
      congr 2; omega

theorem elemOfBytes_getLsbD (bs : List Byte) (k : Nat) (hk : k < 32) :
    (elemOfBytes bs).getLsbD k = (bs.getD (k / 8) 0#8).getLsbD (k % 8) := by
  induction bs generalizing k with
  | nil => simp [elemOfBytes]
  | cons b bs ih =>
    simp only [elemOfBytes, BitVec.getLsbD_or, BitVec.getLsbD_append, BitVec.getLsbD_shiftLeft]
    by_cases h8 : k < 8
    · have h1 : k / 8 = 0 := by omega
      have h2 : k % 8 = k := by omega
      simp [h8, h1, h2]
    · have h1 : k / 8 = (k - 8) / 8 + 1 := by omega
      have h2 : k % 8 = (k - 8) % 8 := by omega
      rw [ih (k - 8) (by omega), h1, h2]
      simp [h8, hk]

theorem elemBytes_getD (n : Nat) (v : Word) (j : Nat) (hj : j < n) :
    (elemBytes n v).getD j 0#8 = v.extractLsb' (8 * j) 8 := by
  induction n generalizing v j with
  | zero => omega
  | succ n ih =>
    cases j with
    | zero => simp [elemBytes]
    | succ j =>
      simp only [elemBytes, List.getD_cons_succ]
      rw [ih _ j (by omega)]
      apply BitVec.eq_of_getLsbD_eq
      intro k hk
      simp [hk, show 8 + (8 * j + k) = 8 * (j + 1) + k by omega]

/-- The low bytes of a little-endian number are the bytes it was made of (20_memory R75). -/
theorem elemBytes_elemOfBytes (bs : List Byte) (n : Nat) (hn : bs.length = n) (h : n ≤ 4) :
    elemBytes n (elemOfBytes bs) = bs := by
  subst hn
  apply List.ext_getElem (by simp)
  intro j h1 h2
  have e := elemBytes_getD bs.length (elemOfBytes bs) j h2
  rw [List.getD_eq_getElem _ _ h1] at e
  rw [e]
  apply BitVec.eq_of_getLsbD_eq
  intro k hk
  rw [BitVec.getLsbD_extractLsb', elemOfBytes_getLsbD _ _ (by omega)]
  have h3 : (8 * j + k) / 8 = j := by omega
  have h4 : (8 * j + k) % 8 = k := by omega
  simp [h3, h4, hk, List.getElem?_eq_getElem h2]

/-! ### The device's data phase (R299) -/

/-- Data bytes from `i` on stand at consecutive device addresses: no wrap inside this range (R188). -/
def straight (s : State) (a i n : Nat) : Prop := ∀ j < n, deviceAddr s a (i + j) = a + i + j

/-- Data bytes received by the device at consecutive addresses. -/
theorem deviceReceive_data (s : State) (a i : Nat) (bs : List Byte) (hp : s.parser = .writeData a i)
    (hs : straight s a i bs.length) :
    deviceReceive s (8 * bs.length) bs = { s with
      psram := putRange s.psram (a + i) bs, psramPast := pastRange s.psram s.psramPast (a + i) bs
      parser := .writeData a (i + bs.length) } := by
  induction bs generalizing s i with
  | nil => simp only [deviceReceive, putRange, pastRange, List.length_nil, Nat.add_zero, ← hp]
  | cons b bs ih =>
    have h0 : deviceAddr s a i = a + i := hs 0 (by simp)
    have e : ∀ k, deviceByte s k b = { s with
        psram := s.psram.put (a + i) b, psramPast := (a + i, s.psram.get (a + i)) :: s.psramPast
        parser := .writeData a (i + 1) } := by
      intro k; simp only [deviceByte, hp, h0, psramPut]
    rw [deviceReceive, List.length_cons, if_neg (by omega), e,
      show 8 * (bs.length + 1) - 8 = 8 * bs.length by omega,
      ih { s with
        psram := s.psram.put (a + i) b, psramPast := (a + i, s.psram.get (a + i)) :: s.psramPast
        parser := .writeData a (i + 1) } (i + 1) rfl fun j hj => by
        have := hs (j + 1) (by simpa using hj)
        rw [show i + 1 + j = i + (j + 1) by omega, show a + (i + 1) + j = a + i + (j + 1) by omega]
        exact this]
    simp only [putRange, pastRange, Nat.add_assoc, Nat.add_comm 1]

theorem devBytes_succ (m : Memory) (a n : Nat) :
    devBytes m a (n + 1) = m.get a :: devBytes m (a + 1) n := by
  simp [devBytes, List.range_succ_eq_map, Nat.add_assoc, Nat.add_comm 1]

theorem devBytes_add (m : Memory) (a x y : Nat) :
    devBytes m a (x + y) = devBytes m a x ++ devBytes m (a + x) y := by
  induction x generalizing a with
  | zero => simp [devBytes]
  | succ x ih => rw [Nat.succ_add, devBytes_succ, devBytes_succ, ih]; simp [Nat.add_assoc, Nat.add_comm 1]

@[simp] theorem devBytes_length (m : Memory) (a n : Nat) : (devBytes m a n).length = n := by
  simp [devBytes]

/-- Data bytes sent by the device from consecutive addresses. -/
theorem deviceSendBytes_data (s : State) (a i k n : Nat) (hp : s.parser = .readData a i)
    (hs : straight s a i n) :
    deviceSendBytes s k n = (devBytes s.psram (a + i) n, { s with parser := .readData a (i + n) }) := by
  induction n generalizing s i k with
  | zero => simp only [deviceSendBytes, Nat.add_zero, ← hp]; rfl
  | succ n ih =>
    have h0 : deviceAddr s a i = a + i := hs 0 (by omega)
    have e : deviceSend s k = (s.psram.get (a + i), { s with parser := .readData a (i + 1) }) := by
      simp only [deviceSend, hp, h0]
    simp only [deviceSendBytes, e]
    rw [ih { s with parser := .readData a (i + 1) } (i + 1) (k + 1) rfl fun j hj => by
        have := hs (j + 1) (by omega)
        rw [show i + 1 + j = i + (j + 1) by omega, show a + (i + 1) + j = a + i + (j + 1) by omega]
        exact this]
    simp only [devBytes_succ, Nat.add_assoc, Nat.add_comm 1]

/-! ### CTRL's data path (R293, R294) -/

/-- The data phase CTRL is carrying out. -/
def dataJob (way : Way) (nbits e left : Nat) (moved : List Byte) (keep : Bool) : Job :=
  ⟨.data, way, nbits, [], e, left, moved, keep, .run⟩

/-- CTRL sends one FIFO entry to the device. -/
theorem Reaches.send {s : State} {nbits e m : Nat} {moved : List Byte} {keep : Bool} {v : Word}
    {q : List Word} {a i : Nat} (hok : s.Live)
    (hj : s.job = some (dataJob .tx nbits e (m + 1) moved keep)) (hf : s.fifo = v :: q)
    (hp : s.parser = .writeData a i) (hs : straight s a i e) :
    Reaches s { s with
      fifo := q, job := some (dataJob .tx nbits e m (moved ++ elemBytes e v) keep)
      psram := putRange s.psram (a + i) (elemBytes e v)
      psramPast := pastRange s.psram s.psramPast (a + i) (elemBytes e v)
      parser := .writeData a (i + e) } := by
  refine .step .ctrl hok fun sc n => ?_
  have h := deviceReceive_data { s with fifo := q, sched := sc, tick := n } a i (elemBytes e v) hp
    (by rw [elemBytes_length]; exact hs)
  simp only [elemBytes_length] at h
  simp only [hj, dataJob] at h
  simp only [agentStep, ctrlStep, hj, dataJob, if_true, dataStep, Nat.succ_ne_zero, if_false, hf, h]
  rfl

/-- CTRL receives one element from the device into the FIFO. -/
theorem Reaches.receive {s : State} {nbits e m : Nat} {moved : List Byte} {keep : Bool}
    {a i : Nat} (hok : s.Live)
    (hj : s.job = some (dataJob .rx nbits e (m + 1) moved keep))
    (hf : s.fifo.length < s.cfg.fifoDepth) (hp : s.parser = .readData a i) (hs : straight s a i e) :
    Reaches s { s with
      fifo := s.fifo ++ [elemOfBytes (devBytes s.psram (a + i) e)]
      job := some (dataJob .rx nbits e m (moved ++ devBytes s.psram (a + i) e) keep)
      parser := .readData a (i + e) } := by
  refine .step .ctrl hok fun sc n => ?_
  have h := deviceSendBytes_data { s with sched := sc, tick := n } a i 0 e hp hs
  simp only [hj, dataJob] at h
  simp only [agentStep, ctrlStep, hj, dataJob, if_true, dataStep, Nat.succ_ne_zero, if_false, hf, h]
  rfl

/-- The parser, chip-select and the records of a transaction's release, by the phase's keep_cs (R294). -/
def parserAfter (keep : Bool) (p : Parser) : Parser := if keep then p else .closed

def csAfter (keep : Bool) (c : Nat) : Option Nat := if keep then some c else none

def releaseRecords (keep : Bool) (c : Nat) : List BusEvent := if keep then [] else [.csRelease c]

/-- CTRL ends a data phase: its record, chip-select released unless kept, BUSY cleared (R294). -/
theorem Reaches.phaseEnd {s : State} {way : Way} {nbits e c : Nat} {moved : List Byte} {keep : Bool}
    (hok : s.Live) (hj : s.job = some (dataJob way nbits e 0 moved keep)) (hc : s.cs = some c) :
    Reaches s { s with
      job := none, cs := csAfter keep c, parser := parserAfter keep s.parser
      bus := s.bus ++ .phase .data s.curBw way nbits moved :: releaseRecords keep c } := by
  cases keep with
  | true =>
    have h1 : Reaches s { s with
        job := some { dataJob way nbits e 0 moved true with stage := .clear }
        bus := s.bus ++ [.phase .data s.curBw way nbits moved] } :=
      .step .ctrl hok fun sc n => by
        simp only [agentStep, ctrlStep, hj, dataJob, if_true, dataStep, recordPhase]
        rfl
    have h2 : Reaches { s with
        job := some { dataJob way nbits e 0 moved true with stage := .clear }
        bus := s.bus ++ [.phase .data s.curBw way nbits moved] } { s with
        job := none, bus := s.bus ++ [.phase .data s.curBw way nbits moved] } :=
      .step .ctrl hok fun sc n => rfl
    have h := h1.trans h2
    simp only [csAfter, parserAfter, releaseRecords, if_true, ← hc]
    exact h
  | false =>
    have h1 : Reaches s { s with
        job := some { dataJob way nbits e 0 moved false with stage := .drop }
        bus := s.bus ++ [.phase .data s.curBw way nbits moved] } :=
      .step .ctrl hok fun sc n => by
        simp only [agentStep, ctrlStep, hj, dataJob, if_true, dataStep, recordPhase]
        rfl
    have h2 : Reaches { s with
        job := some { dataJob way nbits e 0 moved false with stage := .drop }
        bus := s.bus ++ [.phase .data s.curBw way nbits moved] } { s with
        job := some { dataJob way nbits e 0 moved false with stage := .clear }
        cs := none, parser := .closed
        bus := s.bus ++ [.phase .data s.curBw way nbits moved] ++ [.csRelease c] } :=
      .step .ctrl hok fun sc n => by
        simp only [agentStep, ctrlStep, dataJob, csRelease, hc, deviceClose, State.record]
    have h3 : Reaches { s with
        job := some { dataJob way nbits e 0 moved false with stage := .clear }
        cs := none, parser := .closed
        bus := s.bus ++ [.phase .data s.curBw way nbits moved] ++ [.csRelease c] } { s with
        job := none, cs := none, parser := .closed
        bus := s.bus ++ [.phase .data s.curBw way nbits moved] ++ [.csRelease c] } :=
      .step .ctrl hok fun sc n => rfl
    have h := h1.trans (h2.trans h3)
    rw [List.append_assoc] at h
    exact h

/-- CTRL sends every FIFO entry of a data phase. -/
theorem Reaches.sendAll {s : State} {nbits e : Nat} {moved : List Byte} {keep : Bool}
    {a i : Nat} (vs : List Word) (hok : s.Live)
    (hj : s.job = some (dataJob .tx nbits e vs.length moved keep)) (hf : s.fifo = vs)
    (hp : s.parser = .writeData a i) (hs : straight s a i (vs.length * e)) :
    Reaches s { s with
      fifo := [], job := some (dataJob .tx nbits e 0 (moved ++ vs.flatMap (elemBytes e)) keep)
      psram := putRange s.psram (a + i) (vs.flatMap (elemBytes e))
      psramPast := pastRange s.psram s.psramPast (a + i) (vs.flatMap (elemBytes e))
      parser := .writeData a (i + vs.length * e) } := by
  induction vs generalizing s moved i with
  | nil =>
    have e1 : s.job = some (dataJob .tx nbits e 0 moved keep) := hj
    simp only [List.flatMap_nil, List.append_nil, List.length_nil, Nat.zero_mul, Nat.add_zero, putRange,
      pastRange]
    rw [← e1, ← hp, ← hf]
    exact .refl _
  | cons v q ih =>
    have hlen : (q.length + 1) * e = e + q.length * e := by ring
    have h1 := Reaches.send hok hj hf hp fun j hj' => hs j (by
      simp only [List.length_cons, hlen]; omega)
    refine h1.trans ?_
    have h2 := ih (s := { s with
      fifo := q, job := some (dataJob .tx nbits e q.length (moved ++ elemBytes e v) keep)
      psram := putRange s.psram (a + i) (elemBytes e v)
      psramPast := pastRange s.psram s.psramPast (a + i) (elemBytes e v)
      parser := .writeData a (i + e) }) hok rfl rfl rfl fun j hj' => by
        have := hs (e + j) (by simp only [List.length_cons, hlen]; omega)
        rw [Nat.add_assoc, show a + (i + e) + j = a + i + (e + j) by omega]
        exact this
    have hpast : ∀ (m : Memory) (past : List Host.Cell) (b : Nat) (xs ys : List Byte),
        pastRange m past b (xs ++ ys) = pastRange (putRange m b xs) (pastRange m past b xs)
          (b + xs.length) ys := by
      intro m past b xs ys
      induction xs generalizing m past b with
      | nil => rfl
      | cons x xs ih => simp [putRange, pastRange, ih, Nat.add_assoc, Nat.add_comm 1]
    simp only [List.flatMap_cons, putRange_append, hpast, elemBytes_length, List.length_cons, hlen,
      Nat.add_assoc, List.append_assoc] at h2 ⊢
    exact h2

/-! ### Lines of the pumps (R142, R143) -/

theorem memRead_bytes (m : Memory) (a e : Nat) (he : e ≤ 4) :
    elemBytes e (memRead m a e) = memBytes m a e :=
  elemBytes_elemOfBytes _ _ (memBytes_length _ _ _) he

/-- The bytes of `g` elements read one after the other. -/
theorem memReads_bytes (m : Memory) (b e g : Nat) (he : e ≤ 4) :
    ((List.range g).map (fun j => memRead m (b + j * e) e)).flatMap (elemBytes e) =
      memBytes m b (g * e) := by
  induction g with
  | zero => simp [memBytes]
  | succ g ih =>
    rw [List.range_succ, List.map_append, List.flatMap_append, ih, Nat.succ_mul, memBytes_add]
    simp [memRead_bytes m _ e he]

/-- PUMP_WRITE fills the FIFO (R142). -/
theorem Reaches.pushAll {s : State} {e : Nat} {r : List Act} (as : List Nat) (hok : s.Live)
    (ha : active s) (ht : s.todo = as.map (fun x => Act.pushElem x e) ++ r) (he : e ≤ 4)
    (hf : s.fifo.length + as.length ≤ s.cfg.fifoDepth) (hq : WriteQuiet s) :
    Reaches s { s with
      todo := r, fifo := s.fifo ++ as.map (fun x => memRead s.mem x e)
      epoch := s.epoch + as.length } := by
  induction as generalizing s with
  | nil =>
    have : s.todo = r := ht
    simp only [List.map_nil, List.append_nil, List.length_nil, Nat.add_zero]
    rw [← this]
    exact .refl _
  | cons x xs ih =>
    have hl : s.fifo.length < s.cfg.fifoDepth := by simp only [List.length_cons] at hf; omega
    have h1 : Reaches s { s with todo := .ctl .pumpWrite (.fifoWrite e (memRead s.mem x e))
        :: (xs.map (fun x => Act.pushElem x e) ++ r) } := .line hok ha ht fun sc n => by
      have hv : elemRead { s with sched := sc, tick := n } x e = memRead s.mem x e :=
        WriteQuiet.elemRead (s := { s with sched := sc, tick := n }) hq x e
      rw [← hv]
      rfl
    have h2 : Reaches { s with todo := .ctl .pumpWrite (.fifoWrite e (memRead s.mem x e))
        :: (xs.map (fun x => Act.pushElem x e) ++ r) } { s with
        todo := xs.map (fun x => Act.pushElem x e) ++ r
        fifo := s.fifo ++ [memRead s.mem x e], epoch := s.epoch + 1 } := by
      refine .ctl (t := { s with
        todo := xs.map (fun x => Act.pushElem x e) ++ r
        fifo := s.fifo ++ [memRead s.mem x e] }) hok ha rfl fun sc n => ?_
      simp only [ctlEffect, hl, if_true, memRead_bytes s.mem x e he]
      rfl
    have h3 := ih (s := { s with
        todo := xs.map (fun x => Act.pushElem x e) ++ r
        fifo := s.fifo ++ [memRead s.mem x e], epoch := s.epoch + 1 }) hok ha rfl
        (by simp only [List.length_append, List.length_cons, List.length_nil] at hf ⊢; omega) hq
    refine h1.trans (h2.trans ?_)
    simp only [List.append_assoc, List.map_cons, List.cons_append, List.nil_append, List.length_cons,
      Nat.add_assoc, Nat.add_comm 1] at h3 ⊢
    exact h3

/-- An accepted Trigger with chip-select asserted (R291). -/
theorem Reaches.trigger {s : State} {op : SeqOp} {way : Way} {e g c : Nat} {keep : Bool} {r : List Act}
    (hok : s.Live) (ha : active s) (ht : s.todo = .ctl op (.trigger way (8 * e * g) c keep) :: r)
    (he : s.curElem.toNat = e) (h0 : 0 < e) (hg : 0 < g) (hm : 8 * e * g ≤ s.cfg.ctrlMaxBits)
    (hen : s.autoEn = false) (hj : s.job = none) (hc : s.cs = some c) :
    Reaches s { s with
      todo := r, epoch := s.epoch + 1, job := some (dataJob way (8 * e * g) e g [] keep) } := by
  refine .ctl (t := { s with todo := r, job := some (dataJob way (8 * e * g) e g [] keep) }) hok ha ht
    fun sc n => ?_
  have hpos : 0 < 8 * e * g := Nat.mul_pos (Nat.mul_pos (by omega) h0) hg
  have hmod : 8 * e * g % (8 * e) = 0 := Nat.mul_mod_right _ _
  have hdiv : 8 * e * g / (8 * e) = g := Nat.mul_div_cancel_left _ (Nat.mul_pos (by omega) h0)
  simp [ctlEffect, triggerOk, he, hpos, h0, hmod, hm, acceptPhase, hen, hj, hc, csAssert, hdiv, dataJob]

theorem Params.ok_bits {p : Config.Params} (h : p.ok = true) :
    8 * p.dmaChunkBytes ≤ p.ctrlMaxBits ∧ 32 * p.fifoDepth ≤ p.ctrlMaxBits ∧ 1 ≤ p.fifoDepth
      ∧ 4 ≤ p.pageBytes ∧ 4 ≤ p.dmaChunkBytes ∧ 1 ≤ p.dmaMaxCount ∧ p.dmaMaxCount ≤ 65535
      ∧ p.density ≤ 2 ^ 32 ∧ 1 ≤ p.density := by
  unfold Config.Params.ok at h
  simp only [Bool.and_eq_true, decide_eq_true_eq] at h
  simp only [addressSpace] at h
  omega

/-- What holds while a transaction's data phase runs under the engine. -/
structure InTransaction (s : State) (e : Nat) : Prop where
  ok : s.Live
  active : active s
  manual : s.autoEn = false
  idle : s.job = none
  selected : s.cs = some (profCsel s.act0)
  drained : s.fifo = []
  elem : s.curElem.toNat = e
  size : e = 1 ∨ e = 2 ∨ e = 4

/-- One group of PUMP_WRITE (R142). -/
theorem Reaches.writeGroup {s : State} {b n e k : Nat} {keep : Bool} {r : List Act} {a i : Nat}
    (h : InTransaction s e) (hk : k < n) (ht : s.todo = .pumpWrite b n e k keep :: r)
    (hp : s.parser = .writeData a i) (hs : straight s a i (groupSize s n k * e)) (hq : WriteQuiet s) :
    let g := groupSize s n k
    let hold := decide (k + g ≠ n) || keep
    ∃ ep sy, Reaches s { s with
      todo := .pumpWrite b n e (k + g) keep :: r, epoch := ep, sync := sy
      psram := putRange s.psram (a + i) (memBytes s.mem (b + k * e) (g * e))
      psramPast := pastRange s.psram s.psramPast (a + i) (memBytes s.mem (b + k * e) (g * e))
      parser := parserAfter hold (.writeData a (i + g * e)), cs := csAfter hold (profCsel s.act0)
      bus := s.bus ++ .phase .data s.curBw .tx (8 * (g * e)) (memBytes s.mem (b + k * e) (g * e))
        :: releaseRecords hold (profCsel s.act0) } := by
  intro g hold
  have hb := Params.ok_bits h.ok.1
  have he4 : e ≤ 4 := by have := h.size; omega
  have he0 : 0 < e := by have := h.size; omega
  have hg0 : 0 < g := by simp only [g, groupSize]; omega
  have hgd : g ≤ s.cfg.fifoDepth := by simp only [g, groupSize]; omega
  have h0 : Reaches s { s with todo := (List.range g).map (fun j => Act.pushElem (b + (k + j) * e) e)
      ++ (.ctl .pumpWrite (.trigger .tx (8 * e * g) (profCsel s.act0) hold)
        :: .wait .pumpWrite .notBusy :: .pumpWrite b n e (k + g) keep :: r) } := by
    refine .line h.ok h.active ht fun sc m => ?_
    simp only [runAct, if_pos hk, Machine.writeGroup, State.goto, List.append_assoc]
    rfl
  have h1 := Reaches.pushAll (e := e) (s := { s with
      todo := (List.range g).map (fun j => Act.pushElem (b + (k + j) * e) e)
        ++ (.ctl .pumpWrite (.trigger .tx (8 * e * g) (profCsel s.act0) hold)
          :: .wait .pumpWrite .notBusy :: .pumpWrite b n e (k + g) keep :: r) })
    (r := .ctl .pumpWrite (.trigger .tx (8 * e * g) (profCsel s.act0) hold)
        :: .wait .pumpWrite .notBusy :: .pumpWrite b n e (k + g) keep :: r)
    ((List.range g).map (fun j => b + (k + j) * e)) h.ok h.active (by simp [Function.comp_def]) he4
    (by simp [h.drained, hgd]) hq
  have hv : ((List.range g).map (fun j => b + (k + j) * e)).map (fun x => memRead s.mem x e) =
      (List.range g).map (fun j => memRead s.mem (b + k * e + j * e) e) := by
    simp [Function.comp_def, Nat.add_mul, Nat.add_assoc]
  have hbits : 8 * e * g ≤ s.cfg.ctrlMaxBits := by
    have : e * g ≤ 4 * s.cfg.fifoDepth := Nat.mul_le_mul he4 hgd
    have e1 : 8 * e * g = 8 * (e * g) := Nat.mul_assoc _ _ _
    omega
  have hn : 8 * (g * e) = 8 * e * g := by ring
  have hmb := memReads_bytes s.mem (b + k * e) e g he4
  simp only [hv] at h1
  generalize hvl : (List.range g).map (fun j => memRead s.mem (b + k * e + j * e) e) = vs at h1 hmb
  have hlen : vs.length = g := by rw [← hvl]; simp
  rw [hn]
  apply Exists.intro
  apply Exists.intro
  refine h0.trans (h1.trans (.trans (.trigger h.ok h.active rfl h.elem he0 hg0 hbits h.manual h.idle
    h.selected) ?_))
  refine .trans (.sendAll (a := a) (i := i) (moved := []) vs h.ok (by rw [hlen])
    (by simp [h.drained]) hp (by rw [hlen]; exact hs)) ?_
  refine .trans (.phaseEnd h.ok rfl h.selected) ?_
  refine .trans (.wait h.ok h.active rfl rfl) ?_
  simp only [hlen, hmb, List.nil_append, ← h.idle, ← h.drained]
  exact .refl _

theorem groupSize_bounds {s : State} (hok : s.cfg.ok = true) {n k : Nat} (hk : k < n) :
    0 < groupSize s n k ∧ k + groupSize s n k ≤ n := by
  have := (Params.ok_bits hok).2.2.1
  simp only [groupSize]
  omega

theorem Reaches.pumpWriteEnd {s : State} {b n e k : Nat} {keep : Bool} {r : List Act}
    (hok : s.Live) (ha : active s) (ht : s.todo = .pumpWrite b n e k keep :: r) (hk : ¬k < n) :
    Reaches s { s with todo := r } := .line hok ha ht fun _ _ => by simp only [runAct, if_neg hk]; rfl

theorem Reaches.pumpReadEnd {s : State} {b n e k : Nat} {keep : Bool} {r : List Act}
    (hok : s.Live) (ha : active s) (ht : s.todo = .pumpRead b n e k keep :: r) (hk : ¬k < n) :
    Reaches s { s with todo := r } := .line hok ha ht fun _ _ => by simp only [runAct, if_neg hk]; rfl

/-- PUMP_WRITE from element `k` on, with chip-select released at its end (R142, R144). -/
theorem Reaches.pumpWrite {s : State} {b n e : Nat} {r : List Act} {a : Nat} (fuel : Nat) (k i : Nat)
    (h : InTransaction s e) (hk : k < n) (hf : n - k ≤ fuel)
    (ht : s.todo = .pumpWrite b n e k false :: r)
    (hp : s.parser = .writeData a i) (hs : straight s a i ((n - k) * e)) (hq : WriteQuiet s) :
    ∃ ep sy past, Reaches s { s with
      todo := r, epoch := ep, sync := sy, psramPast := past
      psram := putRange s.psram (a + i) (memBytes s.mem (b + k * e) ((n - k) * e))
      parser := .closed, cs := none
      bus := s.bus ++ (groupRecords s.curBw .tx e (pumpGroups s.cfg.fifoDepth n false fuel k)
        (memBytes s.mem (b + k * e) ((n - k) * e)) ++ [.csRelease (profCsel s.act0)]) } := by
  induction fuel generalizing s k i with
  | zero => omega
  | succ fuel ih =>
    obtain ⟨hg0, hgn⟩ := groupSize_bounds h.ok.1 hk
    have hg : groupSize s n k = min s.cfg.fifoDepth (n - k) := rfl
    have hsplit : (n - k) * e = groupSize s n k * e + (n - (k + groupSize s n k)) * e := by
      rw [← Nat.add_mul]; congr 1; omega
    obtain ⟨ep, sy, h1⟩ := Reaches.writeGroup h hk ht hp (fun j hj => hs j (by omega)) hq
    have hbytes : memBytes s.mem (b + k * e) ((n - k) * e) =
        memBytes s.mem (b + k * e) (groupSize s n k * e)
          ++ memBytes s.mem (b + (k + groupSize s n k) * e) ((n - (k + groupSize s n k)) * e) := by
      rw [hsplit, memBytes_add, Nat.add_mul, Nat.add_assoc]
    have hlen : (memBytes s.mem (b + k * e) (groupSize s n k * e)).length = groupSize s n k * e :=
      memBytes_length _ _ _
    rw [pumpGroups, if_pos hk]
    simp only [groupRecords, ← hg]
    rw [hbytes, putRange_append, hlen, List.take_left' hlen, List.drop_left' hlen]
    by_cases hlast : k + groupSize s n k = n
    · have hz : n - (k + groupSize s n k) = 0 := by omega
      have hhold : (decide (k + groupSize s n k ≠ n) || false) = false := by simp [hlast]
      simp only [hhold, csAfter, parserAfter, releaseRecords, Bool.false_eq_true, if_false] at h1
      apply Exists.intro
      apply Exists.intro
      apply Exists.intro
      refine h1.trans (.trans (.pumpWriteEnd h.ok h.active rfl (by omega)) ?_)
      · have hpg : pumpGroups s.cfg.fifoDepth n false fuel (k + groupSize s n k) = [] := by
          cases fuel with
          | zero => rfl
          | succ f => rw [pumpGroups, if_neg (by omega)]
        simp only [hz, Nat.zero_mul, memBytes, putRange, hpg, groupRecords, List.cons_append,
          List.nil_append]
        exact .refl _
    · have hlt : k + groupSize s n k < n := by omega
      have hhold : (decide (k + groupSize s n k ≠ n) || false) = true := by simp [hlast]
      simp only [hhold] at h1
      obtain ⟨ep2, sy2, past2, h2⟩ := ih (k + groupSize s n k) (i + groupSize s n k * e) (s := { s with
          todo := .pumpWrite b n e (k + groupSize s n k) false :: r, epoch := ep, sync := sy
          psram := putRange s.psram (a + i) (memBytes s.mem (b + k * e) (groupSize s n k * e))
          psramPast := pastRange s.psram s.psramPast (a + i)
            (memBytes s.mem (b + k * e) (groupSize s n k * e))
          parser := .writeData a (i + groupSize s n k * e), cs := some (profCsel s.act0)
          bus := s.bus ++ [.phase .data s.curBw .tx (8 * (groupSize s n k * e))
            (memBytes s.mem (b + k * e) (groupSize s n k * e))] })
        ⟨h.ok, h.active, h.manual, h.idle, rfl, h.drained, h.elem, h.size⟩ hlt (by omega) rfl rfl
        (fun j hj => by
          have := hs (groupSize s n k * e + j) (by omega)
          rw [Nat.add_assoc, ← Nat.add_assoc a, Nat.add_assoc (a + i)]
          exact this) hq
      refine ⟨ep2, sy2, past2, h1.trans (.trans h2 ?_)⟩
      simp only [List.append_assoc, List.cons_append, List.nil_append, Nat.add_assoc]
      exact .refl _

theorem memPutBytes_append (m : Memory) (a : Nat) (xs ys : List Byte) :
    memPutBytes m a (xs ++ ys) = memPutBytes (memPutBytes m a xs) (a + xs.length) ys := by
  induction xs generalizing m a with
  | nil => rfl
  | cons x xs ih => simp [memPutBytes, ih, Nat.add_assoc, Nat.add_comm 1]

theorem Reaches.pop {s : State} {x e : Nat} {v : Word} {q : List Word} {r : List Act}
    (hok : s.Live) (ha : active s) (ht : s.todo = .popElem x e :: r) (hf : s.fifo = v :: q) :
    Reaches s { s with
      fifo := q, epoch := s.epoch + 1, todo := .store x e (elemOfBytes (elemBytes e v)) :: r } :=
  .line hok ha ht fun sc n => by
    simp only [runAct, ctlOp, ctlEffect, State.goto, fifoHead, hf]
    rfl

theorem Reaches.store {s : State} {x e : Nat} {v : Word} {r : List Act}
    (hok : s.Live) (ha : active s) (ht : s.todo = .store x e v :: r) :
    Reaches s { s with mem := memWrite s.mem x e v, todo := r } := .line hok ha ht fun _ _ => rfl

/-- PUMP_READ drains a group as CTRL receives it (R143). -/
theorem Reaches.popAll {s : State} {e g nbits : Nat} {moved : List Byte} {keep : Bool} {r : List Act}
    {a i x : Nat} (hok : s.Live) (ha : active s)
    (ht : s.todo = (List.range g).flatMap
      (fun j => [Act.wait .pumpRead .fifoReady, .popElem (x + j * e) e]) ++ r)
    (he : e ≤ 4) (hj : s.job = some (dataJob .rx nbits e g moved keep)) (hf : s.fifo = [])
    (hp : s.parser = .readData a i) (hs : straight s a i (g * e)) :
    ∃ ep sy, Reaches s { s with
      todo := r, epoch := ep, sync := sy, parser := .readData a (i + g * e)
      job := some (dataJob .rx nbits e 0 (moved ++ devBytes s.psram (a + i) (g * e)) keep)
      mem := memPutBytes s.mem x (devBytes s.psram (a + i) (g * e)) } := by
  induction g generalizing s moved i x with
  | zero =>
    have e1 : s.todo = r := ht
    refine ⟨s.epoch, s.sync, ?_⟩
    have e2 : devBytes s.psram (a + i) 0 = [] := rfl
    simp only [Nat.zero_mul, e2, List.append_nil, memPutBytes, Nat.add_zero, ← hj, ← hp, ← e1]
    exact .refl _
  | succ g ih =>
    have hge : (g + 1) * e = e + g * e := by ring
    have hsplit : (List.range (g + 1)).flatMap
        (fun j => [Act.wait .pumpRead .fifoReady, .popElem (x + j * e) e]) ++ r =
        .wait .pumpRead .fifoReady :: .popElem x e :: ((List.range g).flatMap
          (fun j => [Act.wait .pumpRead .fifoReady, .popElem (x + e + j * e) e]) ++ r) := by
      rw [List.range_succ_eq_map, List.flatMap_cons, List.flatMap_map]
      simp [Nat.succ_mul, Nat.add_assoc, Nat.add_comm e]
    rw [hsplit] at ht
    have hd := (Params.ok_bits hok.1).2.2.1
    have hbl : (devBytes s.psram (a + i) e).length = e := devBytes_length _ _ _
    have hv : elemBytes e (elemOfBytes (elemBytes e (elemOfBytes (devBytes s.psram (a + i) e)))) =
        devBytes s.psram (a + i) e := by
      rw [elemBytes_elemOfBytes _ e hbl he, elemBytes_elemOfBytes _ e hbl he]
    have h1 := Reaches.receive hok hj (by rw [hf]; simp; omega) hp fun j hj' => hs j (by omega)
    rw [hf, List.nil_append] at h1
    apply Exists.elim (ih (s := { s with
      todo := (List.range g).flatMap
          (fun j => [Act.wait .pumpRead .fifoReady, .popElem (x + e + j * e) e]) ++ r
      fifo := [], epoch := s.epoch + 1
      sync := settledSync { s with
        fifo := [elemOfBytes (devBytes s.psram (a + i) e)]
        job := some (dataJob .rx nbits e g (moved ++ devBytes s.psram (a + i) e) keep)
        parser := .readData a (i + e) }
      job := some (dataJob .rx nbits e g (moved ++ devBytes s.psram (a + i) e) keep)
      parser := .readData a (i + e)
      mem := memPutBytes s.mem x (devBytes s.psram (a + i) e) }) (i := i + e) (x := x + e) hok ha rfl rfl
      rfl rfl fun j hj' => by
        have := hs (e + j) (by omega)
        rw [Nat.add_assoc, show a + (i + e) + j = a + i + (e + j) by omega]
        exact this)
    rintro ep ⟨sy, h5⟩
    refine ⟨ep, sy, h1.trans (.trans (.wait hok ha ht rfl) (.trans (.pop hok ha rfl rfl)
      (.trans (.store hok ha rfl) ?_)))⟩
    simp only [memWrite, hv]
    simp only [hge, devBytes_add, memPutBytes_append, hbl, List.append_assoc, Nat.add_assoc, hf] at h5 ⊢
    exact h5

/-- One group of PUMP_READ (R143). -/
theorem Reaches.readGroup {s : State} {b n e k : Nat} {keep : Bool} {r : List Act} {a i : Nat}
    (h : InTransaction s e) (hk : k < n) (ht : s.todo = .pumpRead b n e k keep :: r)
    (hp : s.parser = .readData a i) (hs : straight s a i (groupSize s n k * e)) :
    let g := groupSize s n k
    let hold := decide (k + g ≠ n) || keep
    ∃ ep sy, Reaches s { s with
      todo := .pumpRead b n e (k + g) keep :: r, epoch := ep, sync := sy
      mem := memPutBytes s.mem (b + k * e) (devBytes s.psram (a + i) (g * e))
      parser := parserAfter hold (.readData a (i + g * e)), cs := csAfter hold (profCsel s.act0)
      bus := s.bus ++ .phase .data s.curBw .rx (8 * (g * e)) (devBytes s.psram (a + i) (g * e))
        :: releaseRecords hold (profCsel s.act0) } := by
  intro g hold
  have hb := Params.ok_bits h.ok.1
  have he4 : e ≤ 4 := by have := h.size; omega
  have he0 : 0 < e := by have := h.size; omega
  have hg0 : 0 < g := by simp only [g, groupSize]; omega
  have hgd : g ≤ s.cfg.fifoDepth := by simp only [g, groupSize]; omega
  have hfm : (List.range g).flatMap
      (fun j => [Act.wait .pumpRead .fifoReady, .popElem (b + (k + j) * e) e]) =
      (List.range g).flatMap
      (fun j => [Act.wait .pumpRead .fifoReady, .popElem (b + k * e + j * e) e]) := by
    simp [Nat.add_mul, Nat.add_assoc]
  have h0 : Reaches s { s with todo := .ctl .pumpRead (.trigger .rx (8 * e * g) (profCsel s.act0) hold)
      :: ((List.range g).flatMap
        (fun j => [Act.wait .pumpRead .fifoReady, .popElem (b + k * e + j * e) e])
        ++ (.wait .pumpRead .notBusy :: .pumpRead b n e (k + g) keep :: r)) } := by
    refine .line h.ok h.active ht fun sc m => ?_
    rw [← hfm]
    simp only [runAct, if_pos hk, Machine.readGroup, State.goto, List.append_assoc, List.cons_append,
      List.nil_append]
    rfl
  have hbits : 8 * e * g ≤ s.cfg.ctrlMaxBits := by
    have : e * g ≤ 4 * s.cfg.fifoDepth := Nat.mul_le_mul he4 hgd
    have e1 : 8 * e * g = 8 * (e * g) := Nat.mul_assoc _ _ _
    omega
  have hn : 8 * (g * e) = 8 * e * g := by ring
  rw [hn]
  obtain ⟨ep, sy, h2⟩ := Reaches.popAll (g := g) (e := e) (x := b + k * e) (a := a) (i := i)
    (moved := []) (keep := hold) (nbits := 8 * e * g)
    (r := .wait .pumpRead .notBusy :: .pumpRead b n e (k + g) keep :: r) (s := { s with
      todo := (List.range g).flatMap
        (fun j => [Act.wait .pumpRead .fifoReady, .popElem (b + k * e + j * e) e])
        ++ (.wait .pumpRead .notBusy :: .pumpRead b n e (k + g) keep :: r)
      epoch := s.epoch + 1, job := some (dataJob .rx (8 * e * g) e g [] hold) })
    h.ok h.active rfl he4 rfl h.drained hp hs
  apply Exists.intro
  apply Exists.intro
  refine h0.trans (.trans (.trigger h.ok h.active rfl h.elem he0 hg0 hbits h.manual h.idle
    h.selected) (h2.trans ?_))
  refine .trans (.phaseEnd h.ok rfl h.selected) ?_
  refine .trans (.wait h.ok h.active rfl rfl) ?_
  simp only [List.nil_append, ← h.idle]
  exact .refl _

/-- PUMP_READ from element `k` on, with chip-select released at its end (R143, R144). -/
theorem Reaches.pumpRead {s : State} {b n e : Nat} {r : List Act} {a : Nat} (fuel : Nat) (k i : Nat)
    (h : InTransaction s e) (hk : k < n) (hf : n - k ≤ fuel)
    (ht : s.todo = .pumpRead b n e k false :: r)
    (hp : s.parser = .readData a i) (hs : straight s a i ((n - k) * e)) :
    ∃ ep sy, Reaches s { s with
      todo := r, epoch := ep, sync := sy
      mem := memPutBytes s.mem (b + k * e) (devBytes s.psram (a + i) ((n - k) * e))
      parser := .closed, cs := none
      bus := s.bus ++ (groupRecords s.curBw .rx e (pumpGroups s.cfg.fifoDepth n false fuel k)
        (devBytes s.psram (a + i) ((n - k) * e)) ++ [.csRelease (profCsel s.act0)]) } := by
  induction fuel generalizing s k i with
  | zero => omega
  | succ fuel ih =>
    obtain ⟨hg0, hgn⟩ := groupSize_bounds h.ok.1 hk
    have hg : groupSize s n k = min s.cfg.fifoDepth (n - k) := rfl
    have hsplit : (n - k) * e = groupSize s n k * e + (n - (k + groupSize s n k)) * e := by
      rw [← Nat.add_mul]; congr 1; omega
    obtain ⟨ep, sy, h1⟩ := Reaches.readGroup h hk ht hp fun j hj => hs j (by omega)
    have hbytes : devBytes s.psram (a + i) ((n - k) * e) =
        devBytes s.psram (a + i) (groupSize s n k * e)
          ++ devBytes s.psram (a + i + groupSize s n k * e) ((n - (k + groupSize s n k)) * e) := by
      rw [hsplit, devBytes_add]
    have hlen : (devBytes s.psram (a + i) (groupSize s n k * e)).length = groupSize s n k * e :=
      devBytes_length _ _ _
    rw [pumpGroups, if_pos hk]
    simp only [groupRecords, ← hg]
    rw [hbytes, memPutBytes_append, hlen, List.take_left' hlen, List.drop_left' hlen]
    by_cases hlast : k + groupSize s n k = n
    · have hz : n - (k + groupSize s n k) = 0 := by omega
      have hhold : (decide (k + groupSize s n k ≠ n) || false) = false := by simp [hlast]
      simp only [hhold, csAfter, parserAfter, releaseRecords, Bool.false_eq_true, if_false] at h1
      apply Exists.intro
      apply Exists.intro
      refine h1.trans (.trans (.pumpReadEnd h.ok h.active rfl (by omega)) ?_)
      have hpg : pumpGroups s.cfg.fifoDepth n false fuel (k + groupSize s n k) = [] := by
        cases fuel with
        | zero => rfl
        | succ f => rw [pumpGroups, if_neg (by omega)]
      have hnil : ∀ m x, devBytes m x 0 = [] := fun _ _ => rfl
      simp only [hz, Nat.zero_mul, hnil, memPutBytes, hpg, groupRecords, List.cons_append,
        List.nil_append]
      exact .refl _
    · have hlt : k + groupSize s n k < n := by omega
      have hhold : (decide (k + groupSize s n k ≠ n) || false) = true := by simp [hlast]
      simp only [hhold] at h1
      obtain ⟨ep2, sy2, h2⟩ := ih (k + groupSize s n k) (i + groupSize s n k * e) (s := { s with
          todo := .pumpRead b n e (k + groupSize s n k) false :: r, epoch := ep, sync := sy
          mem := memPutBytes s.mem (b + k * e) (devBytes s.psram (a + i) (groupSize s n k * e))
          parser := .readData a (i + groupSize s n k * e), cs := some (profCsel s.act0)
          bus := s.bus ++ [.phase .data s.curBw .rx (8 * (groupSize s n k * e))
            (devBytes s.psram (a + i) (groupSize s n k * e))] })
        ⟨h.ok, h.active, h.manual, h.idle, rfl, h.drained, h.elem, h.size⟩ hlt (by omega) rfl rfl
        fun j hj => by
          have := hs (groupSize s n k * e + j) (by omega)
          rw [Nat.add_assoc, ← Nat.add_assoc a, Nat.add_assoc (a + i)]
          exact this
      refine ⟨ep2, sy2, h1.trans (.trans h2 ?_)⟩
      simp only [List.append_assoc, List.cons_append, List.nil_append, Nat.add_assoc, Nat.add_mul]
      exact .refl _

/-! ### One chunk of BLOCKING (R208) -/

/-- The PSRAM and system memory after a transfer of `n` bytes. -/
def psramAfter (s : State) (dir : Dir) (a b n : Nat) : Memory :=
  match dir with
  | .write => putRange s.psram a (memBytes s.mem b n)
  | .read => s.psram

def memAfter (s : State) (dir : Dir) (a b n : Nat) : Memory :=
  match dir with
  | .write => s.mem
  | .read => memPutBytes s.mem b (devBytes s.psram a n)

/-- The bus is free and the profile loaded. -/
structure BusFree (s : State) : Prop where
  ok : s.Live
  active : active s
  idle : s.job = none
  released : s.cs = none
  drained : s.fifo = []
  profile : ProfileLoaded s

theorem Reaches.fifoCheck {s : State} {op : SeqOp} {r : List Act} (hok : s.Live) (ha : active s)
    (ht : s.todo = .fifoCheck op :: r) (hf : s.fifo = []) : Reaches s { s with todo := r } :=
  .line hok ha ht fun sc n => by simp [runAct, hf, State.goto]

/-- A pump and its settings, from the state CA_SEQ leaves. -/
theorem Reaches.pump {s : State} {dir : Dir} {e c a b : Nat} {r : List Act} (hok : s.Live)
    (ha : active s) (hen : s.autoEn = false) (hj : s.job = none) (hc : s.cs = some (profCsel s.act0))
    (hf : s.fifo = []) (hl : ProfileLoaded s) (he : s.work.esz.toNat = e) (hsz : e = 1 ∨ e = 2 ∨ e = 4)
    (hb : s.work.buf.toNat = b) (hc0 : 0 < c) (hce : c % e = 0)
    (ht : s.todo = Machine.pump s dir c ++ r) (hp : s.parser = atData dir a) (hs : straight s a 0 c)
    (hrc : dir = .write → WriteQuiet s) :
    ∃ ep sy past, Reaches s { s with
      todo := r, curBw := profDataBw s.act0, curElem := s.work.esz, epoch := ep, sync := sy
      psramPast := past, psram := psramAfter s dir a b c, mem := memAfter s dir a b c
      parser := .closed, cs := none
      bus := s.bus ++ (groupRecords (profDataBw s.act0) (wayOf dir) e
        (pumpGroups s.cfg.fifoDepth (c / e) false (c / e) 0) (dataOf s dir a b c)
        ++ [.csRelease (profCsel s.act0)]) } := by
  have hq : c / e * e = c := Nat.div_mul_cancel (Nat.dvd_of_mod_eq_zero hce)
  have he0 : 0 < e := by omega
  have hn0 : 0 < c / e := Nat.div_pos (Nat.le_of_dvd hc0 (Nat.dvd_of_mod_eq_zero hce)) he0
  cases dir with
  | write =>
    have ht' : s.todo = .fifoCheck .pumpWrite :: .ctl .pumpWrite (.setWidth (profDataBw s.act0))
        :: .ctl .pumpWrite (.setElem s.work.esz) :: .pumpWrite b (c / e) e 0 false :: r := by
      rw [ht, Machine.pump, he, hb]; rfl
    obtain ⟨ep, sy, past, h⟩ := Reaches.pumpWrite (c / e) 0 0 (a := a) (r := r) (b := b) (n := c / e)
      (s := { s with
        todo := .pumpWrite b (c / e) e 0 false :: r, curBw := profDataBw s.act0
        curElem := s.work.esz, epoch := s.epoch + 1 + 1 })
      ⟨hok, ha, hen, hj, hc, hf, he, hsz⟩ hn0 (by omega) rfl hp
      (by rw [Nat.sub_zero, hq]; exact hs) (hrc rfl)
    refine ⟨ep, sy, past, .trans (.fifoCheck hok ha ht' hf) (.trans (.setWidth hok ha rfl hl.widths.2.2.2.1)
      (.trans (.setElem hok ha rfl) (.trans h ?_)))⟩
    simp only [Nat.sub_zero, hq, Nat.add_zero, Nat.zero_mul]
    exact .refl _
  | read =>
    have ht' : s.todo = .fifoCheck .pumpRead :: .ctl .pumpRead (.setWidth (profDataBw s.act0))
        :: .ctl .pumpRead (.setElem s.work.esz) :: .pumpRead b (c / e) e 0 false :: r := by
      rw [ht, Machine.pump, he, hb]; rfl
    obtain ⟨ep, sy, h⟩ := Reaches.pumpRead (c / e) 0 0 (a := a) (r := r) (b := b) (n := c / e)
      (s := { s with
        todo := .pumpRead b (c / e) e 0 false :: r, curBw := profDataBw s.act0
        curElem := s.work.esz, epoch := s.epoch + 1 + 1 })
      ⟨hok, ha, hen, hj, hc, hf, he, hsz⟩ hn0 (by omega) rfl hp
      (by rw [Nat.sub_zero, hq]; exact hs)
    refine ⟨ep, sy, s.psramPast, .trans (.fifoCheck hok ha ht' hf) (.trans (.setWidth hok ha rfl hl.widths.2.2.2.1)
      (.trans (.setElem hok ha rfl) (.trans h ?_)))⟩
    simp only [Nat.sub_zero, hq, Nat.add_zero, Nat.zero_mul]
    exact .refl _

/-- Without wrap, or with address and wrap size aligned to the element, a chunk is straight (R183, R188). -/
theorem straight_chunk {s : State} {a c : Nat}
    (h : s.act2.toNat = 0 ∨ a % s.act2.toNat + c ≤ s.act2.toNat) (hd : a + c ≤ s.cfg.density) :
    straight s a 0 c := by
  intro j hj
  unfold deviceAddr
  simp only [Nat.zero_add, Nat.add_zero]
  by_cases hw : s.act2.toNat = 0
  · rw [if_pos hw, Nat.mod_eq_of_lt (by omega)]
  · have h' : a % s.act2.toNat + c ≤ s.act2.toNat := h.resolve_left hw
    have := Nat.mod_le a s.act2.toNat
    rw [if_neg hw, Nat.mod_eq_of_lt (a := a % s.act2.toNat + j) (by omega),
      Nat.mod_eq_of_lt (by omega)]
    omega

/-- A wrap that no whole-element chunk crosses: none, or one aligned with the start address (R188 item 3). -/
def wrapAligned (s : State) (a e : Nat) : Prop :=
  s.act2.toNat = 0 ∨ (a % e = 0 ∧ s.act2.toNat % e = 0)

/-- The bookkeeping of a chunk (R208). -/
theorem Reaches.advance {s : State} {c : Nat} {r : List Act} (hok : s.Live) (ha : active s)
    (ht : s.todo = Machine.advance c ++ r) :
    Reaches s { s with
      todo := r
      work := { s.work with
        addr := s.work.addr + BitVec.ofNat 32 c, buf := s.work.buf + BitVec.ofNat 32 c
        rem := s.work.rem - BitVec.ofNat 33 c } } := by
  have h1 : Reaches s { s with
      todo := .advBuf c :: .advRem c :: r
      work := { s.work with addr := s.work.addr + BitVec.ofNat 32 c } } :=
    .line hok ha ht fun _ _ => rfl
  have h2 : Reaches { s with
      todo := .advBuf c :: .advRem c :: r
      work := { s.work with addr := s.work.addr + BitVec.ofNat 32 c } } { s with
      todo := .advRem c :: r
      work := { s.work with
        addr := s.work.addr + BitVec.ofNat 32 c, buf := s.work.buf + BitVec.ofNat 32 c } } :=
    .line (s := { s with
      todo := .advBuf c :: .advRem c :: r
      work := { s.work with addr := s.work.addr + BitVec.ofNat 32 c } }) hok ha rfl fun _ _ => rfl
  exact h1.trans (h2.trans (.line (s := { s with
      todo := .advRem c :: r
      work := { s.work with
        addr := s.work.addr + BitVec.ofNat 32 c, buf := s.work.buf + BitVec.ofNat 32 c } }) hok ha rfl
    fun _ _ => rfl))

/-- One chunk of BLOCKING: its plan, its transaction and its bookkeeping (R208). -/
theorem Reaches.chunk {s : State} {dir : Dir} {e a b rem : Nat} {r : List Act} (h : BusFree s)
    (hen : s.autoEn = false) (hop : opcodesDiffer s dir) (ht : s.todo = .plan dir :: r)
    (he : s.work.esz.toNat = e) (hsz : e = 1 ∨ e = 2 ∨ e = 4) (ha : s.work.addr.toNat = a)
    (hb : s.work.buf.toNat = b) (hrem : s.work.rem.toNat = rem)
    (hoff : s.work.off.toNat = wrapOffset s.act2.toNat a) (h0 : 0 < rem) (hre : rem % e = 0)
    (hd : a + rem ≤ s.cfg.density) (hw : wrapAligned s a e) (hrc : dir = .write → WriteQuiet s) :
    let p := planChunk s.act2.toNat rem (wrapOffset s.act2.toNat a) e s.cfg.pageBytes
    ∃ bw ce ep sy past, Reaches s { s with
      todo := r, curBw := bw, curElem := ce, epoch := ep, sync := sy, psramPast := past
      psram := psramAfter s dir a b p.1, mem := memAfter s dir a b p.1, parser := .closed
      bus := s.bus ++ chunkRecords s dir e a p.1 (dataOf s dir a b p.1)
      work := { s.work with
        addr := s.work.addr + BitVec.ofNat 32 p.1, buf := s.work.buf + BitVec.ofNat 32 p.1
        rem := s.work.rem - BitVec.ofNat 33 p.1, off := BitVec.ofNat 32 p.2 } } := by
  intro p
  have hpb := (Params.ok_bits h.ok.1).2.2.2.1
  obtain ⟨p1, p2, p3, p4, p5, p6⟩ : e ≤ p.1 ∧ p.1 % e = 0 ∧ p.1 ≤ rem ∧ p.1 ≤ s.cfg.pageBytes
      ∧ p.2 = wrapOffset s.act2.toNat (a + p.1)
      ∧ (s.act2.toNat ≠ 0 → a % e = 0 → s.act2.toNat % e = 0 → a % s.act2.toNat + p.1 ≤ s.act2.toNat) :=
    planChunk_spec hsz (by omega) h0 hre
  have hs : straight s a 0 p.1 := by
    refine straight_chunk ?_ (by show a + p.1 ≤ _; omega)
    rcases hw with hw | hw
    · exact .inl hw
    · by_cases hz : s.act2.toNat = 0
      · exact .inl hz
      · exact .inr (p6 hz hw.1 hw.2)
  have hplan : blockingChunk s = p := by rw [blockingChunk, hrem, hoff, he]
  have h0 : Reaches s { s with
      todo := .setWork (.off (BitVec.ofNat 32 p.2)) :: .caSeq dir a :: .callPump dir p.1
        :: (Machine.advance p.1 ++ r) } := by
    refine .line h.ok h.active ht fun sc n => ?_
    rw [← ha, ← hplan]
    rfl
  have h1 : Reaches s { s with
      todo := .caSeq dir a :: .callPump dir p.1 :: (Machine.advance p.1 ++ r)
      work := { s.work with off := BitVec.ofNat 32 p.2 } } :=
    h0.trans (.line h.ok h.active rfl fun _ _ => rfl)
  obtain ⟨bw, ep, sy, h2⟩ := Reaches.caSeq (dir := dir) (a := a) (s := { s with
      todo := .caSeq dir a :: .callPump dir p.1 :: (Machine.advance p.1 ++ r)
      work := { s.work with off := BitVec.ofNat 32 p.2 } }) h.ok h.active rfl
    ⟨h.profile.1, h.profile.2, h.profile.3⟩ hop hen h.idle h.released
    (by show a < s.cfg.density; omega)
  obtain ⟨ep2, sy2, past, h3⟩ := Reaches.pump (dir := dir) (c := p.1) (a := a) (b := b) (e := e)
    (r := Machine.advance p.1 ++ r) (s := { s with
      todo := Machine.pump s dir p.1 ++ (Machine.advance p.1 ++ r), curBw := bw, epoch := ep, sync := sy
      parser := atData dir a, cs := some (profCsel s.act0), bus := s.bus ++ openingRecords s dir a
      work := { s.work with off := BitVec.ofNat 32 p.2 } })
    h.ok h.active hen h.idle rfl h.drained ⟨h.profile.1, h.profile.2, h.profile.3⟩ he hsz hb
    (by show 0 < p.1; omega) p2 (by cases dir <;> rfl) rfl hs hrc
  refine ⟨profDataBw s.act0, s.work.esz, ep2, sy2, past, h1.trans (.trans h2 (.trans (t := { s with
      todo := Machine.advance p.1 ++ r, curBw := profDataBw s.act0, curElem := s.work.esz
      epoch := ep2, sync := sy2, psramPast := past
      psram := psramAfter s dir a b p.1, mem := memAfter s dir a b p.1, parser := .closed
      bus := s.bus ++ chunkRecords s dir e a p.1 (dataOf s dir a b p.1)
      work := { s.work with off := BitVec.ofNat 32 p.2 } }) ?_ ?_))⟩
  · have hg := Reaches.trans (s := { s with
      todo := .callPump dir p.1 :: (Machine.advance p.1 ++ r), curBw := bw, epoch := ep, sync := sy
      parser := atData dir a, cs := some (profCsel s.act0), bus := s.bus ++ openingRecords s dir a
      work := { s.work with off := BitVec.ofNat 32 p.2 } })
      (.line h.ok h.active rfl fun _ _ => rfl) h3
    rw [← h.released] at hg
    simp only [List.append_assoc] at hg
    simp only [chunkRecords, List.append_assoc]
    cases dir <;> exact hg
  · exact .advance h.ok h.active rfl

/-- Bytes stored in system memory read back, while they do not run over themselves. -/
theorem memPutBytes_get {m : Memory} (h : Memory.wf addressSpace m = true) (a : Nat) (bs : List Byte)
    (hl : bs.length ≤ addressSpace) (j : Nat) (hj : j < bs.length) :
    (memPutBytes m a bs).get (sysAddr (a + j)) = bs[j] := by
  induction bs generalizing m a j with
  | nil => simp at hj
  | cons b bs ih =>
    simp only [List.length_cons] at hl hj
    have hw := Memory.wf_put h b (sysAddr_lt a)
    cases j with
    | zero =>
      rw [memPutBytes, memPutBytes_get_other _ _ _ _ fun k hk e => by
        simp only [sysAddr, addressSpace] at e hl; omega]
      exact Memory.get_put_same h _ b
    | succ j =>
      rw [memPutBytes, show a + (j + 1) = a + 1 + j by omega, ih hw _ (by omega) j (by omega)]
      rfl

/-! ### The chunk loop (R208) -/

theorem memBytes_mod (m : Memory) (b n : Nat) : memBytes m (b % addressSpace) n = memBytes m b n := by
  induction n generalizing b with
  | zero => rfl
  | succ n ih =>
    simp only [memBytes]
    rw [show sysAddr (b % addressSpace) = sysAddr b from Nat.mod_mod _ _]
    congr 1
    rw [← ih (b % addressSpace + 1), ← ih (b + 1), Nat.mod_add_mod]

theorem memPutBytes_mod (m : Memory) (b : Nat) (bs : List Byte) :
    memPutBytes m (b % addressSpace) bs = memPutBytes m b bs := by
  induction bs generalizing m b with
  | nil => rfl
  | cons x bs ih =>
    simp only [memPutBytes]
    rw [show sysAddr (b % addressSpace) = sysAddr b from Nat.mod_mod _ _,
      ← ih _ (b % addressSpace + 1), ← ih _ (b + 1), Nat.mod_add_mod]

theorem psramAfter_mod (s : State) (dir : Dir) (a b n : Nat) :
    psramAfter s dir a (b % addressSpace) n = psramAfter s dir a b n := by
  cases dir <;> simp only [psramAfter, memBytes_mod]

theorem memAfter_mod (s : State) (dir : Dir) (a b n : Nat) :
    memAfter s dir a (b % addressSpace) n = memAfter s dir a b n := by
  cases dir <;> simp only [memAfter, memPutBytes_mod]

theorem dataOf_mod (s : State) (dir : Dir) (a b n : Nat) :
    dataOf s dir a (b % addressSpace) n = dataOf s dir a b n := by
  cases dir <;> simp only [dataOf, memBytes_mod]

/-- The records of the whole plan of a blocking transfer. -/
def planRecords (s : State) (dir : Dir) (e a b : Nat) (plan : List PlannedChunk) : List BusEvent :=
  plan.flatMap (fun c => chunkRecords s dir e c.addr c.size (dataOf s dir c.addr (b + c.addr - a) c.size))

/-- The chunk loop from device address `a` with `rem` bytes to go. -/
theorem Reaches.blockingLoop {s : State} {dir : Dir} {e a b rem : Nat} {r : List Act} (fuel : Nat)
    (h : BusFree s) (hen : s.autoEn = false) (hop : opcodesDiffer s dir) (ht : s.todo = .loop dir :: r)
    (he : s.work.esz.toNat = e) (hsz : e = 1 ∨ e = 2 ∨ e = 4)
    (ha : rem ≠ 0 → s.work.addr.toNat = a) (hb : s.work.buf.toNat = b % addressSpace)
    (hrem : s.work.rem.toNat = rem)
    (hoff : rem ≠ 0 → s.work.off.toNat = wrapOffset s.act2.toNat a) (hre : rem % e = 0)
    (hd : a + rem ≤ s.cfg.density) (hw : wrapAligned s a e) (hfuel : rem ≤ fuel * e)
    (hrc : dir = .write → WriteQuiet s) :
    ∃ bw ce ep sy past pa wk, wk.prior = s.work.prior ∧ Reaches s { s with
      todo := r, curBw := bw, curElem := ce, epoch := ep, sync := sy, psramPast := past, parser := pa
      psram := psramAfter s dir a b rem, mem := memAfter s dir a b rem, work := wk
      bus := s.bus ++ planRecords s dir e a b
        (planFrom s.act2.toNat e s.cfg.pageBytes fuel a (wrapOffset s.act2.toNat a) rem) } := by
  induction fuel generalizing s a b rem with
  | zero =>
    have hz : rem = 0 := by omega
    subst hz
    have hr0 : s.work.rem = 0#33 := BitVec.eq_of_toNat_eq hrem
    refine ⟨s.curBw, s.curElem, s.epoch, s.sync, s.psramPast, s.parser, s.work, rfl, ?_⟩
    have h1 : Reaches s { s with todo := r } := .line h.ok h.active ht fun sc n => by
      simp only [runAct, hr0, if_true]; rfl
    refine h1.trans ?_
    have hnil : devBytes s.psram a 0 = [] := rfl
    cases dir <;>
      simp only [psramAfter, memAfter, memBytes, putRange, hnil, memPutBytes, planFrom, planRecords,
        List.flatMap_nil, List.append_nil] <;> exact .refl _
  | succ fuel ih =>
    by_cases hz : rem = 0
    · subst hz
      have hr0 : s.work.rem = 0#33 := BitVec.eq_of_toNat_eq hrem
      refine ⟨s.curBw, s.curElem, s.epoch, s.sync, s.psramPast, s.parser, s.work, rfl, ?_⟩
      have h1 : Reaches s { s with todo := r } := .line h.ok h.active ht fun sc n => by
        simp only [runAct, hr0, if_true]; rfl
      refine h1.trans ?_
      have hnil : devBytes s.psram a 0 = [] := rfl
      cases dir <;>
        simp only [psramAfter, memAfter, memBytes, putRange, hnil, memPutBytes, planFrom, planRecords,
          if_true, List.flatMap_nil, List.append_nil] <;> exact .refl _
    · have hpos : 0 < rem := Nat.pos_of_ne_zero hz
      have hr0 : s.work.rem ≠ 0#33 := fun e0 => hz (by rw [← hrem, e0]; rfl)
      have hb2 := Params.ok_bits h.ok.1
      have hpb := hb2.2.2.2.1
      have hden := hb2.2.2.2.2.2.2.2.1
      obtain ⟨p1, p2, p3, p4, p5, p6⟩ := planChunk_spec (w := s.act2.toNat) (a := a) hsz
        (show e ≤ s.cfg.pageBytes by omega) hpos hre
      have h1 : Reaches s { s with todo := .plan dir :: .loop dir :: r } :=
        .line h.ok h.active ht fun sc n => by simp only [runAct, hr0, if_false]; rfl
      obtain ⟨bw, ce, ep, sy, past, h2⟩ := Reaches.chunk (dir := dir) (e := e) (a := a)
        (b := b % addressSpace) (rem := rem) (r := .loop dir :: r)
        (s := { s with todo := .plan dir :: .loop dir :: r })
        ⟨h.ok, h.active, h.idle, h.released, h.drained, ⟨h.profile.1, h.profile.2, h.profile.3⟩⟩
        hen hop rfl he hsz (ha hz) hb hrem (hoff hz) hpos hre hd hw hrc
      generalize hp : planChunk s.act2.toNat rem (wrapOffset s.act2.toNat a) e s.cfg.pageBytes = p
        at p1 p2 p3 p4 p5 p6 h2
      simp only [psramAfter_mod, memAfter_mod, dataOf_mod] at h2
      have hdvd := Nat.dvd_of_mod_eq_zero p2
      obtain ⟨bw2, ce2, ep2, sy2, past2, pa2, wk, hwk, h3⟩ := ih (a := a + p.1) (b := b + p.1)
        (rem := rem - p.1) (s := { s with
          todo := .loop dir :: r, curBw := bw, curElem := ce, epoch := ep, sync := sy
          psramPast := past, psram := psramAfter s dir a b p.1, mem := memAfter s dir a b p.1
          parser := .closed
          bus := s.bus ++ chunkRecords s dir e a p.1 (dataOf s dir a b p.1)
          work := { s.work with
            addr := s.work.addr + BitVec.ofNat 32 p.1, buf := s.work.buf + BitVec.ofNat 32 p.1
            rem := s.work.rem - BitVec.ofNat 33 p.1, off := BitVec.ofNat 32 p.2 } })
        ⟨h.ok, h.active, h.idle, h.released, h.drained, ⟨h.profile.1, h.profile.2, h.profile.3⟩⟩
        hen hop rfl he
        (fun hne => by
          simp only [BitVec.toNat_add, BitVec.toNat_ofNat, ha hz]; omega)
        (by
          simp only [BitVec.toNat_add, BitVec.toNat_ofNat, hb, addressSpace]; omega)
        (by
          simp only [BitVec.toNat_sub, BitVec.toNat_ofNat, hrem]; omega)
        (fun hne => by
          have : wrapOffset s.act2.toNat (a + p.1) < 2 ^ 32 := by
            have := s.act2.isLt
            unfold wrapOffset
            split
            · omega
            · have := Nat.mod_lt (a + p.1) (show s.act2.toNat > 0 by omega); omega
          simp only [BitVec.toNat_ofNat, p5]; omega)
        (Nat.mod_eq_zero_of_dvd (Nat.dvd_sub (Nat.dvd_of_mod_eq_zero hre) hdvd))
        (by show a + p.1 + (rem - p.1) ≤ s.cfg.density; omega)
        (by
          rcases hw with hw | ⟨hw1, hw2⟩
          · exact .inl hw
          · exact .inr ⟨Nat.mod_eq_zero_of_dvd
              ((Nat.dvd_add_iff_right (Nat.dvd_of_mod_eq_zero hw1)).mp hdvd), hw2⟩)
        (by rw [Nat.succ_mul] at hfuel; omega) (by rintro rfl; exact hrc rfl)
      refine ⟨bw2, ce2, ep2, sy2, past2, pa2, wk, hwk, h1.trans (h2.trans (h3.trans ?_))⟩
      have hsum : p.1 + (rem - p.1) = rem := by omega
      have hps : psramAfter { s with psram := psramAfter s dir a b p.1, mem := memAfter s dir a b p.1 }
          dir (a + p.1) (b + p.1) (rem - p.1) = psramAfter s dir a b rem := by
        cases dir with
        | write =>
          show putRange (putRange _ _ _) _ _ = putRange _ _ (memBytes s.mem b rem)
          conv_rhs => rw [← hsum, memBytes_add, putRange_append, memBytes_length]
          rfl
        | read => rfl
      have hms : memAfter { s with psram := psramAfter s dir a b p.1, mem := memAfter s dir a b p.1 }
          dir (a + p.1) (b + p.1) (rem - p.1) = memAfter s dir a b rem := by
        cases dir with
        | write => rfl
        | read =>
          show memPutBytes (memPutBytes _ _ _) _ _ = memPutBytes _ _ (devBytes s.psram a rem)
          conv_rhs => rw [← hsum, devBytes_add, memPutBytes_append, devBytes_length]
          rfl
      have hrec : ∀ plan, planRecords { s with
          psram := psramAfter s dir a b p.1, mem := memAfter s dir a b p.1 } dir e (a + p.1) (b + p.1) plan =
          planRecords s dir e a b plan := by
        intro plan
        unfold planRecords
        congr 1
        funext c
        rw [show b + p.1 + c.addr - (a + p.1) = b + c.addr - a by omega]
        cases dir <;> rfl
      have hpl : planFrom s.act2.toNat e s.cfg.pageBytes (fuel + 1) a (wrapOffset s.act2.toNat a) rem =
          ⟨a, wrapOffset s.act2.toNat a, p.1⟩ :: planFrom s.act2.toNat e s.cfg.pageBytes fuel (a + p.1)
            (wrapOffset s.act2.toNat (a + p.1)) (rem - p.1) := by
        rw [planFrom, if_neg hz]
        simp only [hp, p5]
      have hcons : planRecords s dir e a b
          (planFrom s.act2.toNat e s.cfg.pageBytes (fuel + 1) a (wrapOffset s.act2.toNat a) rem) =
          chunkRecords s dir e a p.1 (dataOf s dir a b p.1) ++ planRecords s dir e a b
            (planFrom s.act2.toNat e s.cfg.pageBytes fuel (a + p.1)
              (wrapOffset s.act2.toNat (a + p.1)) (rem - p.1)) := by
        rw [hpl]
        simp only [planRecords, List.flatMap_cons, Nat.add_sub_cancel]
      rw [hcons, ← hps, ← hms, ← hrec, ← List.append_assoc]
      exact .refl _

end Sys2Proof.Machine
end

