-- ==== Sys2Proof/Laws/Chain.lean ====
section
/-! SUPPORT. The arbiter, the first lines of the transfer commands, and the DMA chain under a chosen
schedule. -/

namespace Sys2Proof.Machine

/-! ### The arbiter (41_mode_arbiter R165, R166) -/

theorem Reaches.setAutoEn {s : State} {op : SeqOp} {b : Bool} {r : List Act} (hok : s.Live)
    (ha : active s) (ht : s.todo = .ctl op (.setAutoEn b) :: r) :
    Reaches s { s with
      todo := r, autoEn := b, autoActive := b || s.autoActive, epoch := s.epoch + 1 } :=
  .ctl (t := { s with todo := r, autoEn := b, autoActive := b || s.autoActive }) hok ha ht
    fun _ _ => rfl

/-- Auto mode ends once it is disabled and no auto access is in flight (R292). -/
theorem Reaches.autoEnds {s : State} (hok : s.Live) (hen : s.autoEn = false)
    (hfl : s.autoFlight = none) : Reaches s { s with autoActive := false } := by
  refine .step .ctrlMode hok fun sc n => ?_
  simp only [agentStep, ctrlModeStep, hen, hfl, true_and, and_true]
  cases h : s.autoActive
  · simp
  · simp

/-- ARB_MANUAL: manual mode, and what the caller does with the mode it found (R165). -/
theorem Reaches.arbManual {s : State} {use : ArbUse} {r : List Act} (hok : s.Live)
    (ha : active s) (ht : s.todo = Machine.arbManual use ++ r) (hfl : s.autoFlight = none) :
    ∃ ep sy aa, Reaches s { s with
      todo := arbResult use s.autoEn ++ r, autoEn := false, autoActive := aa, epoch := ep, sync := sy } := by
  have h1 := Reaches.wait hok ha ht (by simp [condHolds, rawStatus, hfl])
  cases hen : s.autoEn with
  | false =>
    refine ⟨s.epoch, settledSync s, s.autoActive, h1.trans (.line hok ha rfl fun sc n => ?_)⟩
    simp only [runAct, hen, arbSwitch]
    rfl
  | true =>
    refine ⟨s.epoch + 1, _, false, h1.trans (.trans (t := { s with
      sync := settledSync s
      todo := .ctl .arbManual (.setAutoEn false) :: .wait .arbManual .autoInactive
        :: (arbResult use true ++ r) }) (.line hok ha rfl fun sc n => ?_)
      (.trans (.setAutoEn hok ha rfl) (.trans (.autoEnds hok rfl hfl) (.wait hok ha rfl rfl))))⟩
    simp only [runAct, hen, arbSwitch]
    rfl

/-- ARB_AUTO: auto mode, and what the caller does with the mode it found (R166). -/
theorem Reaches.arbAuto {s : State} {use : ArbUse} {r : List Act} (hok : s.Live)
    (ha : active s) (ht : s.todo = Machine.arbAuto use ++ r) (hfl : s.autoFlight = none)
    (hc : s.cs = none) :
    ∃ ep sy aa, Reaches s { s with
      todo := arbResult use s.autoEn ++ r, autoEn := true, autoActive := aa, epoch := ep, sync := sy } := by
  have h1 := Reaches.wait hok ha ht (by simp [condHolds, rawStatus, hfl])
  cases hen : s.autoEn with
  | true =>
    refine ⟨s.epoch, settledSync s, s.autoActive, h1.trans (.line hok ha rfl fun sc n => ?_)⟩
    simp only [runAct, hen, arbSwitch]
    rfl
  | false =>
    refine ⟨s.epoch + 1, _, true, h1.trans (.trans (t := { s with
      sync := settledSync s
      todo := .wait .arbAuto .csReleased :: .ctl .arbAuto (.setAutoEn true)
        :: (arbResult use false ++ r) }) (.line hok ha rfl fun sc n => ?_)
      (.trans (.wait hok ha rfl (by simp [condHolds, rawStatus, hc])) (.setAutoEn hok ha rfl)))⟩
    simp only [runAct, hen, arbSwitch]
    rfl

/-! ### First lines -/

/-- Operands that pass every check (R200 to R204). -/
theorem validate_valid {s : State} {dma : Bool} {e : BitVec 3} (hi : s.initDone = true)
    (h : OperandsValid s dma e) (p : Nat) (hp : dma = true → p = s.latch.sptr.toNat) :
    validate s dma s.latch.addr.toNat s.latch.buf.toNat e.toNat s.latch.count.toNat p = none := by
  have hn : s.latch.count.toNat ≠ 0 := fun h0 => h.count (BitVec.eq_of_toNat_eq h0)
  have hb : s.latch.buf.toNat ≠ 0 := fun h0 => h.buf (BitVec.eq_of_toNat_eq h0)
  have hs : eszOk e.toNat = true := by
    rcases h.size with h | h | h <;> rw [h] <;> rfl
  have hpz : ¬(dma = true ∧ p = 0) := fun ⟨hd, h0⟩ =>
    h.sptr hd (BitVec.eq_of_toNat_eq ((hp hd).symm.trans h0))
  simp [validate, hi, hs, hn, rangeOk, h.start, h.range, hb, hpz]

/-- The first line of the command in the latch. -/
theorem Reaches.first {s t : State} {i : Instr} (hok : s.Live) (hh : s.handling = false)
    (hx : s.exec = true) (hi : decodeCmd s.latch.cmd = i)
    (h : ∀ sc n, exec i { s with sched := sc, tick := n } = .next { t with sched := sc, tick := n }) :
    Reaches s t :=
  .step .engine hok fun sc n => by
    have hc : currentInstr { s with sched := sc, tick := n } = some i := by
      simp [currentInstr, hh, hx, hi]
    show engineStep _ = _
    unfold engineStep
    rw [hc]
    exact h sc n

theorem Reaches.finish {s : State} {op : SeqOp} {c : Code} {p : Bool} {r : List Act}
    {rc : Option Race} (hok : s.Live) (ha : active s) (ht : s.todo = .finish op c p :: r)
    (hr : raceAfter op c s.race = rc) :
    Reaches s { s with result := ⟨c, p, true⟩, exec := false, todo := [], race := rc } :=
  .line hok ha ht fun _ _ => by
    subst hr
    rfl

/-- Assignments of W_* (R208). -/
theorem Reaches.setWork {s : State} (fs : List WorkField) {r : List Act} (hok : s.Live) (ha : active s)
    (ht : s.todo = fs.map Act.setWork ++ r) :
    Reaches s { s with todo := r, work := fs.foldl Machine.setWork s.work } := by
  induction fs generalizing s with
  | nil => rw [List.map_nil, List.nil_append] at ht; subst ht; exact .refl _
  | cons f fs ih =>
    exact .trans (t := { s with todo := fs.map Act.setWork ++ r, work := Machine.setWork s.work f })
      (.line hok ha ht fun _ _ => rfl)
      (ih (s := { s with todo := fs.map Act.setWork ++ r, work := Machine.setWork s.work f }) hok ha rfl)

/-- A transfer that passes every check: its first line and its Busy test (R200, R208, R230). -/
theorem Reaches.transferFirst {s : State} {dma : Bool} {dir : Dir} {e : BitVec 3} {body : List Act}
    (hok : s.Live) (hh : s.handling = false) (hx : s.exec = true) (hi : decodeCmd s.latch.cmd = transfer dma dir e)
    (hini : s.initDone = true) (hch : chainRunning s = false) (hv : OperandsValid s dma e)
    (hk : CallerKeeps s dma e) (hb : ∀ sc n, exec (transfer dma dir e) { s with sched := sc, tick := n } =
      Machine.transferFirst dma dir e body { s with sched := sc, tick := n }) :
    Reaches s { s with todo := body, race := some (openRace s dir e) } := by
  have h1 : Reaches s { s with todo := .busyTest dma dir e :: body } := by
    refine .first hok hh hx hi fun sc n => ?_
    have e1 : validate { s with sched := sc, tick := n } dma s.latch.addr.toNat s.latch.buf.toNat
      e.toNat s.latch.count.toNat s.latch.sptr.toNat = none := validate_valid hini hv _ fun _ => rfl
    rw [hb]
    simp only [Machine.transferFirst, e1]
    rfl
  refine h1.trans (.line hok (.inl hx) rfl fun sc n => ?_)
  have e2 : chainRunning { s with todo := .busyTest dma dir e :: body, sched := sc, tick := n } = false := hch
  have e3 : callerBreach s.cfg dma s.latch.buf.toNat e.toNat s.latch.count.toNat s.latch.sptr.toNat = none :=
    (callerKeeps_iff s dma e).mp hk
  simp only [runAct, e2, e3]
  rfl

/-- The address as far from `b` as `x` is. -/
theorem sysAddr_offsetFrom (x b : Nat) : sysAddr (b + offsetFrom x b) = sysAddr x := by
  simp only [sysAddr, offsetFrom, addressSpace]
  omega

/-- A transfer whose buffer nobody has changed since the command's acceptance begins quiet (R328). -/
theorem WriteQuiet.of_stable {s t : State} {dir : Dir} {e : BitVec 3} (h : dir = .write → BufferStable s e)
    (hr : t.race = some (openRace s dir e)) (hm : t.mem = s.mem) : WriteQuiet t := by
  intro r hr' hd x hx
  obtain rfl : openRace s dir e = r := Option.some.inj (hr.symm.trans hr')
  have := h hd _ hx
  rw [hm]
  rwa [show s.latch.buf.toNat + offsetFrom x (openRace s dir e).buf =
    (openRace s dir e).buf + offsetFrom x (openRace s dir e).buf from rfl, sysAddr_offsetFrom] at this

/-- BLOCKING begins: its first line, its Busy test and its assignments (R208). -/
theorem Reaches.blockingFirst {s : State} {dir : Dir} {e : BitVec 3} (hok : s.Live)
    (hh : s.handling = false) (hx : s.exec = true) (ht : s.todo = [])
    (hi : decodeCmd s.latch.cmd = transfer false dir e) (hini : s.initDone = true)
    (hch : chainRunning s = false) (hv : OperandsValid s false e) (hk : CallerKeeps s false e) :
    Reaches s { s with
      todo := blockingBody dir, work := startedWork s dir e, race := some (openRace s dir e) } :=
  .trans (.transferFirst (body := blockingWork s dir e ++ blockingBody dir) hok hh hx hi hini hch hv hk fun sc n => by
      cases dir <;> simp only [transfer, exec, execReadBlocking, execWriteBlocking, continueWith, ht] <;> rfl)
    (.setWork [.dir dir, .addr s.latch.addr, .buf s.latch.buf,
      .rem (BitVec.ofNat 33 (s.latch.count.toNat * e.toNat)), .esz e,
      .off (BitVec.ofNat 32 (wrapOffset s.act2.toNat s.latch.addr.toNat))]
      (s := { s with
        todo := blockingWork s dir e ++ blockingBody dir, race := some (openRace s dir e) }) hok (.inl hx) rfl)

/-! ### DMA_ISSUE (R233) -/

/-- The chunk DMA_ISSUE plans: whole elements within the DMA limits (R182, R188). -/
theorem dmaChunk_spec {s : State} {x : IssueArgs} (hok : s.Live)
    (hs : x.s = 1 ∨ x.s = 2 ∨ x.s = 4) (hn : 0 < x.n) :
    let c := dmaChunk s x
    x.s ≤ c ∧ c % x.s = 0 ∧ c ≤ x.n * x.s ∧ c ≤ s.cfg.dmaChunkBytes
      ∧ c / x.s ≤ s.cfg.dmaMaxCount
      ∧ (s.act2.toNat ≠ 0 → x.a % x.s = 0 → s.act2.toNat % x.s = 0 →
        x.a % s.act2.toNat + c ≤ s.act2.toNat) := by
  intro c
  have hb := Params.ok_bits hok.1
  have hmax : x.s ≤ maxDma s.cfg x.s := by
    have : x.s ≤ s.cfg.dmaMaxCount * x.s := Nat.le_mul_of_pos_left _ (by omega)
    simp only [maxDma]
    omega
  obtain ⟨h1, h2, h3, h4, -, h6⟩ := planChunk_spec (w := s.act2.toNat) (a := x.a) hs hmax
    (Nat.mul_pos hn (by omega)) (Nat.mul_mod_left _ _)
  have h4' : c ≤ min s.cfg.dmaChunkBytes (s.cfg.dmaMaxCount * x.s) := h4
  refine ⟨h1, h2, h3, by omega, ?_, h6⟩
  exact Nat.div_le_of_le_mul (by rw [Nat.mul_comm]; omega)

/-- The lines of DMA_ISSUE after ARB_MANUAL (R233). -/
def issueTail (s : State) (x : IssueArgs) (c : Nat) : List Act :=
  [.caSeq x.dir x.a, .fifoCheck .dmaIssue, .ctl .dmaIssue (.setWidth (profDataBw s.act0)),
    .ctl .dmaIssue (.setElem (BitVec.ofNat 3 x.s)),
    .ctl .dmaIssue (.trigger (wayOf x.dir) (8 * c) (profCsel s.act0) true), .dmaTrigger]

theorem configureAllowed_of {s : State} (h : s.chan.state = .off ∨ s.chan.state = .complete) :
    configureAllowed s = true := by
  rcases h with e | e <;> simp [configureAllowed, e]

/-- DMA_ISSUE up to ARB_MANUAL: the context, then the channel configured and enabled (R233). -/
theorem Reaches.configure {s : State} {by_ : Caller} {x : IssueArgs} {r : List Act}
    (hok : s.Live) (ha : active s) (ht : s.todo = .dmaIssue by_ x :: r)
    (hch : s.chan.state = .off ∨ s.chan.state = .complete)
    (hcf : s.configCalls + 1 ∉ s.cfg.configFail) :
    let c := dmaChunk s x
    Reaches s { s with
      todo := Machine.arbManual .drop ++ (issueTail s x c ++ r), ctx := armedCtx x c
      configCalls := s.configCalls + 1
      chan := ⟨.enabled, descOf s.cfg x.dir x.b x.s (c / x.s), 0, false⟩ } := by
  intro c
  have h0 : Reaches s { s with todo := .dmaPlan by_ x :: r } := .line hok ha ht fun _ _ => rfl
  have h1 : Reaches { s with todo := .dmaPlan by_ x :: r } { s with todo := .dmaArm by_ x c :: r } :=
    .line hok ha rfl fun _ _ => rfl
  have h2 : Reaches { s with todo := .dmaArm by_ x c :: r } { s with
      todo := .dmaConfigure by_ x c :: r, ctx := armedCtx x c } := .line hok ha rfl fun _ _ => rfl
  have h3 : Reaches { s with todo := .dmaConfigure by_ x c :: r, ctx := armedCtx x c } { s with
      todo := dmaStart s x c ++ r, ctx := armedCtx x c
      configCalls := s.configCalls + 1
      chan := ⟨.configured, descOf s.cfg x.dir x.b x.s (c / x.s), 0, false⟩ } := by
    refine .line hok ha rfl fun sc n => ?_
    have e1 : configureAllowed { s with
        todo := .dmaConfigure by_ x c :: r, ctx := armedCtx x c, sched := sc, tick := n } = true :=
      configureAllowed_of hch
    have e2 : configureFails { s with
        todo := .dmaConfigure by_ x c :: r, ctx := armedCtx x c, sched := sc, tick := n } = false := by
      simp [configureFails, hcf]
    simp only [runAct, e1, e2]
    rfl
  have h4 : Reaches { s with
      todo := dmaStart s x c ++ r, ctx := armedCtx x c
      configCalls := s.configCalls + 1
      chan := ⟨.configured, descOf s.cfg x.dir x.b x.s (c / x.s), 0, false⟩ } { s with
      todo := Machine.arbManual .drop ++ (issueTail s x c ++ r), ctx := armedCtx x c
      configCalls := s.configCalls + 1
      chan := ⟨.enabled, descOf s.cfg x.dir x.b x.s (c / x.s), 0, false⟩ } :=
    .line (a := .dmaEnable) (r := Machine.arbManual .drop ++ (issueTail s x c ++ r)) hok ha rfl
      fun _ _ => rfl
  exact h0.trans (h1.trans (h2.trans (h3.trans h4)))

/-- DMA_ISSUE after ARB_MANUAL: the transaction's opening, the data phase with chip-select kept, and the
channel triggered (R233). -/
theorem Reaches.issueData {s : State} {x : IssueArgs} {c : Nat} {r : List Act} (h : BusFree s)
    (ht : s.todo = issueTail s x c ++ r) (hop : opcodesDiffer s x.dir) (hen : s.autoEn = false)
    (hch : s.chan.state = .enabled) (hs : x.s = 1 ∨ x.s = 2 ∨ x.s = 4) (hc0 : 0 < c)
    (hcs : c % x.s = 0) (hcb : c ≤ s.cfg.dmaChunkBytes) (hd : x.a < s.cfg.density) :
    ∃ ep sy, Reaches s { s with
      todo := r, chan := { s.chan with state := .running }, epoch := ep, sync := sy
      curBw := profDataBw s.act0, curElem := BitVec.ofNat 3 x.s, parser := atData x.dir x.a
      cs := some (profCsel s.act0)
      job := some (dataJob (wayOf x.dir) (8 * c) x.s (c / x.s) [] true)
      bus := s.bus ++ openingRecords s x.dir x.a } := by
  have hbits := (Params.ok_bits h.ok.1).1
  have hq : x.s * (c / x.s) = c := Nat.mul_div_cancel' (Nat.dvd_of_mod_eq_zero hcs)
  have h8 : 8 * c = 8 * x.s * (c / x.s) := by rw [Nat.mul_assoc, hq]
  have hs0 : 0 < x.s := by omega
  have hg0 : 0 < c / x.s :=
    Nat.div_pos (Nat.le_of_dvd hc0 (Nat.dvd_of_mod_eq_zero hcs)) hs0
  have he3 : (BitVec.ofNat 3 x.s).toNat = x.s := by
    rw [BitVec.toNat_ofNat]; omega
  obtain ⟨bw, ep, sy, h1⟩ := Reaches.caSeq (dir := x.dir) (a := x.a) h.ok h.active ht h.profile hop hen
    h.idle h.released hd
  generalize atData x.dir x.a = pa at h1 ⊢
  generalize openingRecords s x.dir x.a = recs at h1 ⊢
  refine ⟨ep + 1 + 1 + 1, sy, h1.trans (.trans (.fifoCheck h.ok h.active rfl h.drained) (.trans
    (.setWidth h.ok h.active rfl h.profile.widths.2.2.2.1) (.trans (.setElem h.ok h.active rfl) ?_)))⟩
  have h2 := Reaches.trigger (e := x.s) (g := c / x.s) (way := wayOf x.dir) (c := profCsel s.act0)
    (keep := true) (op := .dmaIssue) (r := .dmaTrigger :: r) (s := { s with
      todo := .ctl .dmaIssue (.trigger (wayOf x.dir) (8 * c) (profCsel s.act0) true) :: .dmaTrigger :: r
      epoch := ep + 1 + 1, sync := sy, curBw := profDataBw s.act0, curElem := BitVec.ofNat 3 x.s
      parser := pa, cs := some (profCsel s.act0), bus := s.bus ++ recs }) h.ok h.active
    (by rw [← h8]) he3 hs0 hg0 (by rw [← h8]; show 8 * c ≤ s.cfg.ctrlMaxBits; omega) hen h.idle rfl
  refine .trans h2 ?_
  rw [h8]
  exact .line h.ok h.active rfl fun sc n => by
    simp only [runAct, dmaTriggerOp, State.goto, hch, if_true]

/-- DMA_ISSUE, from its plan to the running channel (R233). -/
theorem Reaches.issue {s : State} {by_ : Caller} {x : IssueArgs} {r : List Act} (h : BusFree s)
    (ht : s.todo = .dmaIssue by_ x :: r) (hop : opcodesDiffer s x.dir) (hfl : s.autoFlight = none)
    (hch : s.chan.state = .off ∨ s.chan.state = .complete) (hcf : s.configCalls + 1 ∉ s.cfg.configFail)
    (hs : x.s = 1 ∨ x.s = 2 ∨ x.s = 4) (hn : 0 < x.n) (hd : x.a + x.n * x.s ≤ s.cfg.density) :
    let c := dmaChunk s x
    ∃ ep sy aa, Reaches s { s with
      todo := r, ctx := armedCtx x c, configCalls := s.configCalls + 1
      chan := ⟨.running, descOf s.cfg x.dir x.b x.s (c / x.s), 0, false⟩
      autoEn := false, autoActive := aa, epoch := ep, sync := sy
      curBw := profDataBw s.act0, curElem := BitVec.ofNat 3 x.s, parser := atData x.dir x.a
      cs := some (profCsel s.act0)
      job := some (dataJob (wayOf x.dir) (8 * c) x.s (c / x.s) [] true)
      bus := s.bus ++ openingRecords s x.dir x.a } := by
  intro c
  obtain ⟨c1, c2, c3, c4, -, -⟩ := dmaChunk_spec h.ok hs hn
  have h1 := Reaches.configure h.ok h.active ht hch hcf
  obtain ⟨ep, sy, aa, h2⟩ := Reaches.arbManual (use := .drop) (r := issueTail s x c ++ r) (s := { s with
      todo := Machine.arbManual .drop ++ (issueTail s x c ++ r), ctx := armedCtx x c
      configCalls := s.configCalls + 1
      chan := ⟨.enabled, descOf s.cfg x.dir x.b x.s (c / x.s), 0, false⟩ }) h.ok h.active rfl hfl
  obtain ⟨ep2, sy2, h3⟩ := Reaches.issueData (x := x) (c := c) (r := r) (s := { s with
      todo := issueTail s x c ++ r, ctx := armedCtx x c
      configCalls := s.configCalls + 1, autoEn := false, autoActive := aa, epoch := ep, sync := sy
      chan := ⟨.enabled, descOf s.cfg x.dir x.b x.s (c / x.s), 0, false⟩ })
    ⟨h.ok, h.active, h.idle, h.released, h.drained, ⟨h.profile.1, h.profile.2, h.profile.3⟩⟩ rfl hop rfl
    rfl hs (Nat.lt_of_lt_of_le (by omega) c1) c2 c4
    (by
      have : 0 < x.n * x.s := Nat.mul_pos hn (by omega)
      show x.a < s.cfg.density
      omega)
  exact ⟨ep2, sy2, aa, h1.trans (h2.trans h3)⟩

/-! ### The DMA channel (R297) -/

/-! The fields of a descriptor as numbers (30_encoding R117). -/

theorem descWidth_toNat (d : Desc) : (descWidth d).toNat = d.w2.toNat / 2 ^ 16 % 2 ^ 2 := by
  rw [descWidth, BitVec.extractLsb'_toNat, Nat.shiftRight_eq_div_pow]

theorem descCount_eq (d : Desc) : descCount d = d.w2.toNat % 2 ^ 16 := by
  rw [descCount, BitVec.extractLsb'_toNat, Nat.shiftRight_zero]

theorem descChannel_toNat (d : Desc) : (descChannel d).toNat = d.w2.toNat / 2 ^ 20 % 2 ^ 4 := by
  rw [descChannel, BitVec.extractLsb'_toNat, Nat.shiftRight_eq_div_pow]

theorem descSrcInc_eq (d : Desc) : descSrcInc d = decide (d.w2.toNat / 2 ^ 18 % 2 = 1) := by
  rw [descSrcInc, BitVec.getLsbD, Nat.testBit_eq_decide_div_mod_eq]

theorem descDstInc_eq (d : Desc) : descDstInc d = decide (d.w2.toNat / 2 ^ 19 % 2 = 1) := by
  rw [descDstInc, BitVec.getLsbD, Nat.testBit_eq_decide_div_mod_eq]

theorem desc_w2 (p : Config.Params) (dir : Dir) (b s ce : Nat) : (descOf p dir b s ce).w2.toNat =
   (ce + 2 ^ 16 * widthCode s + 2 ^ 20 * p.dmaChannel + (if dir = .write then 2 ^ 18 else 2 ^ 19)) % 2 ^ 32 := by
  cases dir
  · rw [descOf, BitVec.toNat_ofNat]; rfl
  · rw [descOf, BitVec.toNat_ofNat]; rfl

/-- What the descriptor of a chunk says (R117, R234). -/
theorem descOf_fields {p : Config.Params} (hok : p.ok = true) (dir : Dir) {b s ce : Nat}
    (hb : b < 2 ^ 32) (hs : s = 1 ∨ s = 2 ∨ s = 4) (hce : ce ≤ p.dmaMaxCount) :
    let d := descOf p dir b s ce
    widthBytes (descWidth d) = s ∧ descWidth d ≠ 3#2 ∧ descCount d = ce
      ∧ (descChannel d).toNat = p.dmaChannel
      ∧ descSrcInc d = decide (dir = .write) ∧ descDstInc d = decide (dir = .read) := by
  have hch := Params.ok_channel hok
  have hmc := (Params.ok_bits hok).2.2.2.2.2.2.1
  have hwc : widthCode s < 3 ∧ 2 ^ widthCode s = s := by
    rcases hs with rfl | rfl | rfl <;> decide
  obtain ⟨hw3, hw2⟩ := hwc
  intro d
  have hw := desc_w2 p dir b s ce
  have e2 : (descWidth d).toNat = widthCode s := by
    rw [descWidth_toNat, hw]; cases dir <;> simp <;> omega
  refine ⟨by rw [widthBytes, e2, hw2], fun e => ?_, ?_, ?_, ?_, ?_⟩
  · rw [e] at e2
    simp at e2
    omega
  · rw [descCount_eq, hw]; cases dir <;> simp <;> omega
  · rw [descChannel_toNat, hw]; cases dir <;> simp <;> omega
  · rw [descSrcInc_eq, hw]; cases dir <;> simp <;> omega
  · rw [descDstInc_eq, hw]; cases dir <;> simp <;> omega

theorem Params.ok_fifo {p : Config.Params} (h : p.ok = true) : p.fifoAddr < 2 ^ 32 := by
  unfold Config.Params.ok at h
  simp only [Bool.and_eq_true, decide_eq_true_eq] at h
  simp only [addressSpace] at h
  omega

/-- The addresses of element `k`: the FIFO on one side, the buffer on the other (R234, R297). -/
theorem descOf_addresses {p : Config.Params} (hok : p.ok = true) (dir : Dir) {b s ce : Nat}
    (hb : b < 2 ^ 32) (hs : s = 1 ∨ s = 2 ∨ s = 4) (hce : ce ≤ p.dmaMaxCount) (k : Nat) :
    let d := descOf p dir b s ce
    dmaSrc d k = (if dir = .write then sysAddr (b + k * s) else p.fifoAddr)
      ∧ dmaDst d k = (if dir = .write then p.fifoAddr else sysAddr (b + k * s)) := by
  obtain ⟨e1, -, -, -, e4, e5⟩ := descOf_fields hok dir hb hs hce
  have hfa := Params.ok_fifo hok
  have hbw : (BitVec.ofNat 32 b).toNat = b := by rw [BitVec.toNat_ofNat, Nat.mod_eq_of_lt hb]
  have hfw : (BitVec.ofNat 32 p.fifoAddr).toNat = p.fifoAddr := by
    rw [BitVec.toNat_ofNat, Nat.mod_eq_of_lt hfa]
  have hfs : sysAddr (p.fifoAddr + 0) = p.fifoAddr := Nat.mod_eq_of_lt hfa
  intro d
  rw [dmaSrc, dmaDst, e1, e4, e5]
  cases dir with
  | write =>
    refine ⟨?_, ?_⟩
    · show sysAddr ((BitVec.ofNat 32 b).toNat + _) = _
      rw [hbw]; rfl
    · show sysAddr ((BitVec.ofNat 32 p.fifoAddr).toNat + _) = _
      rw [hfw]; exact hfs
  | read =>
    refine ⟨?_, ?_⟩
    · show sysAddr ((BitVec.ofNat 32 p.fifoAddr).toNat + _) = _
      rw [hfw]; exact hfs
    · show sysAddr ((BitVec.ofNat 32 b).toNat + _) = _
      rw [hbw]; rfl

/-- The channel as `issue` leaves it, with `k` elements moved. -/
def runningChan (s : State) (dir : Dir) (b e ce k : Nat) : Chan :=
  ⟨.running, descOf s.cfg dir b e ce, k, false⟩

theorem memRead_sysAddr (m : Memory) (a n : Nat) : memRead m (sysAddr a) n = memRead m a n := by
  rw [memRead, memRead, sysAddr, memBytes_mod]

theorem memPutBytes_sysAddr (m : Memory) (a : Nat) (bs : List Byte) :
    memPutBytes m (sysAddr a) bs = memPutBytes m a bs := memPutBytes_mod m a bs

/-- The DMA reads an element of the buffer and pushes it (R297). -/
theorem Reaches.dmaPush {s : State} {b e ce k : Nat} (hok : s.Live)
    (hc : s.chan = runningChan s .write b e ce k) (hb : b < 2 ^ 32) (hs : e = 1 ∨ e = 2 ∨ e = 4)
    (hce : ce ≤ s.cfg.dmaMaxCount) (hk : k < ce) (hf : s.fifo = [])
    (hn : sysAddr (b + k * e) ≠ s.cfg.fifoAddr) (hq : WriteQuiet s) :
    Reaches s { s with
      fifo := [memRead s.mem (b + k * e) e], chan := runningChan s .write b e ce (k + 1) } := by
  obtain ⟨e1, e2, e3, -, -, -⟩ := descOf_fields hok.1 .write hb hs hce
  obtain ⟨e4, e5⟩ := descOf_addresses hok.1 .write hb hs hce k
  have hd := (Params.ok_bits hok.1).2.2.1
  refine .step .dma hok fun sc n => ?_
  have hv : elemOfBytes (elemBytes e (memRead s.mem (b + k * e) e)) = memRead s.mem (b + k * e) e := by
    rw [memRead_bytes s.mem _ e (by omega)]; rfl
  have hlt : 0 < s.cfg.fifoDepth := hd
  have hr : ∀ u : State, u.race = s.race → u.mem = s.mem →
      elemRead u (sysAddr (b + k * e)) e = memRead s.mem (b + k * e) e := fun u h1 h2 => by
    rw [WriteQuiet.elemRead (by unfold WriteQuiet; rw [h1, h2]; exact hq), h2, memRead_sysAddr]
  simp only [agentStep, dmaStep, hc, runningChan, if_true, e2, if_false, e3, hk, dmaMove, e1, e4, e5,
    dmaFetch, hn, dmaDeliver, hf, List.length_nil, hlt]
  simp only [hr, hv]
  rfl

/-- The DMA pops an element and writes it to the buffer (R297). -/
theorem Reaches.dmaPop {s : State} {b e ce k : Nat} {bs : List Byte} (hok : s.Live)
    (hc : s.chan = runningChan s .read b e ce k) (hb : b < 2 ^ 32) (hs : e = 1 ∨ e = 2 ∨ e = 4)
    (hce : ce ≤ s.cfg.dmaMaxCount) (hk : k < ce) (hf : s.fifo = [elemOfBytes bs]) (hl : bs.length = e)
    (hn : sysAddr (b + k * e) ≠ s.cfg.fifoAddr) :
    Reaches s { s with
      fifo := [], mem := memPutBytes s.mem (b + k * e) bs
      chan := runningChan s .read b e ce (k + 1) } := by
  obtain ⟨e1, e2, e3, -, -, -⟩ := descOf_fields hok.1 .read hb hs hce
  obtain ⟨e4, e5⟩ := descOf_addresses hok.1 .read hb hs hce k
  refine .step .dma hok fun sc n => ?_
  have hv : elemBytes e (elemOfBytes (elemBytes e (elemOfBytes bs))) = bs := by
    rw [elemBytes_elemOfBytes _ e hl (by omega), elemBytes_elemOfBytes _ e hl (by omega)]
  simp only [agentStep, dmaStep, hc, runningChan, if_true, e2, if_false, e3, hk, dmaMove, e1, e4, e5,
    dmaFetch, hn, dmaDeliver, hf, reduceCtorEq, memWrite, hv, memPutBytes_sysAddr]

/-- The last element is moved: the channel is Complete and its event pending (R297, R284). -/
theorem Reaches.dmaDone {s : State} {dir : Dir} {b e ce : Nat} (hok : s.Live)
    (hc : s.chan = runningChan s dir b e ce ce) (hb : b < 2 ^ 32) (hs : e = 1 ∨ e = 2 ∨ e = 4)
    (hce : ce ≤ s.cfg.dmaMaxCount) :
    Reaches s { s with
      chan := { runningChan s dir b e ce ce with state := .complete }, evtPending := true } := by
  obtain ⟨-, e2, e3, e4, -, -⟩ := descOf_fields hok.1 dir hb hs hce
  have hw : descToEngine (descOf s.cfg dir b e ce) = true := by
    cases dir <;> (simp only [descOf, descToEngine]; decide)
  have hdec : ∀ ch : BitVec 4, decodeEvt (completeWord ch) = some (.evtDmaComplete ch) := by decide
  refine .step .dma hok fun sc n => ?_
  simp only [agentStep, dmaStep, hc, runningChan, if_true, e2, if_false, e3, Nat.lt_irrefl, dmaComplete,
    hw, deliverEvent, ownComplete, hdec, e4, beq_self_eq_true, Bool.not_false, Bool.and_true, if_true]

theorem pastRange_append (m : Memory) (past : List Host.Cell) (b : Nat) (xs ys : List Byte) :
    pastRange m past b (xs ++ ys) = pastRange (putRange m b xs) (pastRange m past b xs)
      (b + xs.length) ys := by
  induction xs generalizing m past b with
  | nil => rfl
  | cons x xs ih => simp [putRange, pastRange, ih, Nat.add_assoc, Nat.add_comm 1]

/-- DMA and CTRL move the rest of a write chunk, element by element (R293, R297). -/
theorem Reaches.dmaWrite {s : State} {b e ce nbits a : Nat} (m : Nat) (k i : Nat) (moved : List Byte)
    (hok : s.Live) (hc : s.chan = runningChan s .write b e ce k) (hb : b < 2 ^ 32)
    (hs : e = 1 ∨ e = 2 ∨ e = 4) (hce : ce ≤ s.cfg.dmaMaxCount) (hk : k + m = ce) (hf : s.fifo = [])
    (hj : s.job = some (dataJob .tx nbits e m moved true)) (hp : s.parser = .writeData a i)
    (hst : straight s a i (m * e)) (hn : ∀ j < m * e, sysAddr (b + k * e + j) ≠ s.cfg.fifoAddr)
    (hq : WriteQuiet s) : ∃ past, Reaches s { s with
      chan := runningChan s .write b e ce ce
      job := some (dataJob .tx nbits e 0 (moved ++ memBytes s.mem (b + k * e) (m * e)) true)
      psram := putRange s.psram (a + i) (memBytes s.mem (b + k * e) (m * e)), psramPast := past
      parser := .writeData a (i + m * e) } := by
  induction m generalizing s k i moved with
  | zero =>
    have hk' : k = ce := hk
    subst hk'
    refine ⟨s.psramPast, ?_⟩
    simp only [Nat.zero_mul, memBytes, List.append_nil, putRange, Nat.add_zero, ← hc, ← hj, ← hp]
    exact .refl _
  | succ m ih =>
    have hme : (m + 1) * e = e + m * e := by ring
    have he4 : e ≤ 4 := by omega
    have he0 : 0 < e := by omega
    have h1 := Reaches.dmaPush hok hc hb hs hce (by omega) hf (hn 0 (by omega)) hq
    have h2 := Reaches.send (a := a) (i := i) (nbits := nbits) (e := e) (m := m) (moved := moved)
      (keep := true) (v := memRead s.mem (b + k * e) e) (q := []) (s := { s with
        fifo := [memRead s.mem (b + k * e) e], chan := runningChan s .write b e ce (k + 1) })
      hok hj rfl hp fun j hj' => hst j (by omega)
    rw [memRead_bytes s.mem _ e he4] at h2
    have hkb : b + (k + 1) * e = b + k * e + e := by ring
    obtain ⟨past, h3⟩ := ih (k + 1) (i + e) (moved ++ memBytes s.mem (b + k * e) e) (s := { s with
        fifo := [], chan := runningChan s .write b e ce (k + 1)
        job := some (dataJob .tx nbits e m (moved ++ memBytes s.mem (b + k * e) e) true)
        psram := putRange s.psram (a + i) (memBytes s.mem (b + k * e) e)
        psramPast := pastRange s.psram s.psramPast (a + i) (memBytes s.mem (b + k * e) e)
        parser := .writeData a (i + e) }) hok rfl hce (by omega) rfl rfl rfl
      (fun j hj' => by
        have := hst (e + j) (by omega)
        rw [Nat.add_assoc, show a + (i + e) + j = a + i + (e + j) by omega]
        exact this)
      (fun j hj' => by
        rw [hkb, Nat.add_assoc]
        exact hn (e + j) (by omega)) hq
    refine ⟨past, h1.trans (h2.trans ?_)⟩
    simp only [hme, memBytes_add, putRange_append, memBytes_length, List.append_assoc, Nat.add_assoc, hkb,
      hf] at h3 ⊢
    exact h3

/-- CTRL and DMA move the rest of a read chunk, element by element (R293, R297). -/
theorem Reaches.dmaRead {s : State} {b e ce nbits a : Nat} (m : Nat) (k i : Nat) (moved : List Byte)
    (hok : s.Live) (hc : s.chan = runningChan s .read b e ce k) (hb : b < 2 ^ 32)
    (hs : e = 1 ∨ e = 2 ∨ e = 4) (hce : ce ≤ s.cfg.dmaMaxCount) (hk : k + m = ce) (hf : s.fifo = [])
    (hj : s.job = some (dataJob .rx nbits e m moved true)) (hp : s.parser = .readData a i)
    (hst : straight s a i (m * e)) (hn : ∀ j < m * e, sysAddr (b + k * e + j) ≠ s.cfg.fifoAddr) :
    Reaches s { s with
      chan := runningChan s .read b e ce ce
      job := some (dataJob .rx nbits e 0 (moved ++ devBytes s.psram (a + i) (m * e)) true)
      mem := memPutBytes s.mem (b + k * e) (devBytes s.psram (a + i) (m * e))
      parser := .readData a (i + m * e) } := by
  induction m generalizing s k i moved with
  | zero =>
    have hk' : k = ce := hk
    subst hk'
    have hnil : devBytes s.psram (a + i) 0 = [] := rfl
    simp only [Nat.zero_mul, hnil, List.append_nil, memPutBytes, Nat.add_zero, ← hc, ← hj, ← hp]
    exact .refl _
  | succ m ih =>
    have hme : (m + 1) * e = e + m * e := by ring
    have he0 : 0 < e := by omega
    have hd := (Params.ok_bits hok.1).2.2.1
    have h1 := Reaches.receive hok hj (by rw [hf]; simp; omega) hp fun j hj' => hst j (by omega)
    rw [hf, List.nil_append] at h1
    have h2 := Reaches.dmaPop (b := b) (e := e) (ce := ce) (k := k) (bs := devBytes s.psram (a + i) e)
      (s := { s with
        fifo := [elemOfBytes (devBytes s.psram (a + i) e)]
        job := some (dataJob .rx nbits e m (moved ++ devBytes s.psram (a + i) e) true)
        parser := .readData a (i + e) }) hok hc hb hs hce (by omega) rfl (devBytes_length _ _ _)
      (hn 0 (by omega))
    have hkb : b + (k + 1) * e = b + k * e + e := by ring
    have h3 := ih (k + 1) (i + e) (moved ++ devBytes s.psram (a + i) e) (s := { s with
        fifo := [], chan := runningChan s .read b e ce (k + 1)
        job := some (dataJob .rx nbits e m (moved ++ devBytes s.psram (a + i) e) true)
        mem := memPutBytes s.mem (b + k * e) (devBytes s.psram (a + i) e)
        parser := .readData a (i + e) }) hok rfl hce (by omega) rfl rfl rfl
      (fun j hj' => by
        have := hst (e + j) (by omega)
        rw [Nat.add_assoc, show a + (i + e) + j = a + i + (e + j) by omega]
        exact this)
      (fun j hj' => by
        rw [hkb, Nat.add_assoc]
        exact hn (e + j) (by omega))
    refine h1.trans (h2.trans ?_)
    simp only [hme, devBytes_add, memPutBytes_append, devBytes_length, List.append_assoc, Nat.add_assoc,
      hkb, hf] at h3 ⊢
    exact h3

/-- The data phase of a DMA chunk of `c` bytes, to its completion event (R235, R293, R297). -/
theorem Reaches.dmaData {s : State} {dir : Dir} {a b e ce c cs : Nat} (hok : s.Live)
    (hc : s.chan = runningChan s dir b e ce 0) (hb : b < 2 ^ 32)
    (hs : e = 1 ∨ e = 2 ∨ e = 4) (hce : ce ≤ s.cfg.dmaMaxCount) (hf : s.fifo = [])
    (hj : s.job = some (dataJob (wayOf dir) (8 * c) e ce [] true)) (hcc : ce * e = c)
    (hp : s.parser = atData dir a) (hcs : s.cs = some cs)
    (hst : straight s a 0 c) (hn : ∀ j < c, sysAddr (b + j) ≠ s.cfg.fifoAddr)
    (hrc : dir = .write → WriteQuiet s) : ∃ past pa, Reaches s { s with
      chan := { runningChan s dir b e ce ce with state := .complete }, evtPending := true
      job := none, psramPast := past, parser := pa
      psram := psramAfter s dir a b c, mem := memAfter s dir a b c
      bus := s.bus ++ [.phase .data s.curBw (wayOf dir) (8 * c) (dataOf s dir a b c)] } := by
  subst hcc
  cases dir with
  | write =>
    obtain ⟨past, h1⟩ := Reaches.dmaWrite ce 0 0 [] hok hc hb hs hce (by omega) hf hj hp hst
      (fun j hj' => by rw [Nat.zero_mul, Nat.add_zero]; exact hn j hj') (hrc rfl)
    simp only [Nat.zero_mul, Nat.add_zero, List.nil_append, Nat.zero_add] at h1
    refine ⟨past, .writeData a (ce * e), h1.trans (.trans (.dmaDone hok rfl hb hs hce)
      (.trans (.phaseEnd hok rfl hcs) ?_))⟩
    simp only [csAfter, parserAfter, releaseRecords, if_true, ← hcs]
    exact .refl _
  | read =>
    have h1 := Reaches.dmaRead ce 0 0 [] hok hc hb hs hce (by omega) hf hj hp hst
      (fun j hj' => by rw [Nat.zero_mul, Nat.add_zero]; exact hn j hj')
    simp only [Nat.zero_mul, Nat.add_zero, List.nil_append, Nat.zero_add] at h1
    refine ⟨s.psramPast, .readData a (ce * e), h1.trans (.trans (.dmaDone hok rfl hb hs hce)
      (.trans (.phaseEnd hok rfl hcs) ?_))⟩
    simp only [csAfter, parserAfter, releaseRecords, if_true, ← hcs]
    exact .refl _

/-! ### DMA_COMPLETE (R235) -/

/-- The event of a finished chunk, from its taking to the test of what remains (R235, R263). -/
theorem Reaches.eventHead {s : State} {c : Nat} (hok : s.Live) (hx : s.exec = false)
    (hh : s.handling = false) (ht : s.todo = []) (he : s.evtPending = true) (hj : s.job = none)
    (hc : s.cs = some c) (hr : chainRunning s = true) (hcs : s.chan.state = .complete) :
    ∃ ep sy, Reaches s { s with
      evtPending := false, handling := true, todo := [.dmaNext], cs := none, parser := .closed
      chan := { s.chan with state := .off }, epoch := ep, sync := sy
      bus := s.bus ++ [.csRelease c] } := by
  have h1 : Reaches s { s with evtPending := false, handling := true, todo := [] } :=
    .step .engine hok fun sc n => by
      simp only [agentStep, engineStep, currentInstr, hh, hx, Bool.false_eq_true, if_false, takeWork, he,
        if_true]
      rfl
  have h2 : Reaches { s with evtPending := false, handling := true, todo := [] } { s with
      evtPending := false, handling := true, todo := completeBody } :=
    .step .engine hok fun sc n => by
      have hch : (BitVec.ofNat 4 s.cfg.dmaChannel).toNat = s.cfg.dmaChannel := by
        have := Params.ok_channel hok.1
        rw [BitVec.toNat_ofNat]; omega
      have hcr : chainRunning { s with
          evtPending := false, handling := true, todo := [], sched := sc, tick := n } = true := hr
      simp only [agentStep, engineStep, currentInstr, if_true, exec, execEvtDmaComplete, hch,
        continueWith, dmaCompleteFirst, hcr, hcs]
      rfl
  have h3 : Reaches { s with
      evtPending := false, handling := true
      todo := [.ctl .dmaComplete .deassertCs, .dmaDisable, .dmaNext]
      sync := settledSync { s with
        evtPending := false, handling := true, todo := completeBody } } { s with
      evtPending := false, handling := true, todo := [.dmaDisable, .dmaNext], cs := none
      parser := .closed, bus := s.bus ++ [.csRelease c], epoch := s.epoch + 1
      sync := settledSync { s with
        evtPending := false, handling := true, todo := completeBody } } := by
    refine .ctl (t := { s with
      evtPending := false, handling := true, todo := [.dmaDisable, .dmaNext], cs := none
      parser := .closed, bus := s.bus ++ [.csRelease c]
      sync := settledSync { s with
        evtPending := false, handling := true, todo := completeBody } }) hok (.inr rfl) rfl
        fun sc n => ?_
    simp only [ctlEffect, hj, Option.isSome_none, Bool.false_eq_true, if_false, csRelease, hc]
    rfl
  exact ⟨s.epoch + 1, settledSync { s with evtPending := false, handling := true, todo := completeBody },
    h1.trans (h2.trans (.trans (.wait hok (.inr rfl) rfl (by simp [condHolds, rawStatus, hj]))
      (h3.trans (.line (a := .dmaDisable) (r := [.dmaNext]) hok (.inr rfl) rfl fun _ _ => rfl))))⟩

/-- The records of the whole plan of a DMA transfer. -/
def chainRecords (s : State) (dir : Dir) (a b : Nat) (plan : List PlannedChunk) : List BusEvent :=
  plan.flatMap (fun c => dmaRecords s dir c.addr c.size (dataOf s dir c.addr (b + c.addr - a) c.size))

/-- The end of a chain: auto mode, STATE = Idle, DONE in the completion word (R235, R236). -/
theorem Reaches.chainEnd {s : State} (hok : s.Live) (hh : s.handling = true)
    (ht : s.todo = [.dmaNext]) (hr : s.ctx.rem = 0#32) (hfl : s.autoFlight = none) (hc : s.cs = none) :
    ∃ ep sy aa, Reaches s { s with
      todo := [], handling := false, ctx := { s.ctx with state := .idle }, autoEn := true
      autoActive := aa, epoch := ep, sync := sy, mem := memWrite s.mem s.ctx.sptr.toNat 4 1#32
      race := none } := by
  have h1 : Reaches s { s with todo := Machine.arbAuto .drop
      ++ [.ctxState .dmaComplete .idle, .completion doneWord, .leave] } :=
    .line hok (.inr hh) ht fun sc n => by
      simp only [runAct, chainNext, hr, ne_eq, not_true_eq_false, if_false, List.append_nil]
      rfl
  obtain ⟨ep, sy, aa, h2⟩ := Reaches.arbAuto (use := .drop)
    (r := [.ctxState .dmaComplete .idle, .completion doneWord, .leave]) (s := { s with
      todo := Machine.arbAuto .drop ++ [.ctxState .dmaComplete .idle, .completion doneWord, .leave] })
    hok (.inr hh) rfl hfl hc
  have h3 : Reaches { s with
      todo := [.ctxState .dmaComplete .idle, .completion doneWord, .leave], autoEn := true
      autoActive := aa, epoch := ep, sync := sy } { s with
      todo := [.completion doneWord, .leave], ctx := { s.ctx with state := .idle }, autoEn := true
      autoActive := aa, epoch := ep, sync := sy } := .line hok (.inr hh) rfl fun _ _ => rfl
  have h4 : Reaches { s with
      todo := [.completion doneWord, .leave], ctx := { s.ctx with state := .idle }, autoEn := true
      autoActive := aa, epoch := ep, sync := sy } { s with
      todo := [.leave], ctx := { s.ctx with state := .idle }, autoEn := true
      autoActive := aa, epoch := ep, sync := sy
      mem := memWrite s.mem s.ctx.sptr.toNat 4 doneWord, race := none } := .line hok (.inr hh) rfl fun _ _ => rfl
  exact ⟨ep, sy, aa, h1.trans (h2.trans (h3.trans (h4.trans (.line hok (.inr hh) rfl fun _ _ => rfl))))⟩

/-- No later Configure fails (R298). -/
def noConfigFails (s : State) : Prop := ∀ k, s.configCalls < k → k ∉ s.cfg.configFail

/-- An armed chunk, from the state the command or the handler leaves: its data phase, then the event up to
the test of what remains (R235, R297). -/
theorem Reaches.armedChunk {s : State} {dir : Dir} {a b e ce c cs : Nat} (hok : s.Live)
    (hx : s.exec = false) (hh : s.handling = false) (ht : s.todo = []) (hr : chainRunning s = true)
    (hc : s.chan = runningChan s dir b e ce 0) (hb : b < 2 ^ 32)
    (hs : e = 1 ∨ e = 2 ∨ e = 4) (hce : ce ≤ s.cfg.dmaMaxCount) (hf : s.fifo = [])
    (hj : s.job = some (dataJob (wayOf dir) (8 * c) e ce [] true)) (hcc : ce * e = c)
    (hp : s.parser = atData dir a) (hcs : s.cs = some cs)
    (hst : straight s a 0 c) (hn : ∀ j < c, sysAddr (b + j) ≠ s.cfg.fifoAddr)
    (hrc : dir = .write → WriteQuiet s) : ∃ ep sy past d k f, Reaches s { s with
      todo := [.dmaNext], handling := true, evtPending := false, chan := ⟨.off, d, k, f⟩
      job := none, cs := none, parser := .closed, epoch := ep, sync := sy, psramPast := past
      psram := psramAfter s dir a b c, mem := memAfter s dir a b c
      bus := s.bus ++ [.phase .data s.curBw (wayOf dir) (8 * c) (dataOf s dir a b c), .csRelease cs] } := by
  obtain ⟨past, pa, h1⟩ := Reaches.dmaData hok hc hb hs hce hf hj hcc hp hcs hst hn hrc
  obtain ⟨ep, sy, h2⟩ := Reaches.eventHead (c := cs) (s := { s with
      chan := { runningChan s dir b e ce ce with state := .complete }, evtPending := true
      job := none, psramPast := past, parser := pa
      psram := psramAfter s dir a b c, mem := memAfter s dir a b c
      bus := s.bus ++ [.phase .data s.curBw (wayOf dir) (8 * c) (dataOf s dir a b c)] })
    hok hx hh ht rfl rfl hcs hr rfl
  rw [List.append_assoc] at h2
  exact ⟨ep, sy, past, _, _, _, h1.trans h2⟩

/-- A chunk of a continuation: DMA_ISSUE, the data phase, and the next event up to its test (R235, R240). -/
theorem Reaches.chainChunk {s : State} {dir : Dir} {e a b n : Nat} (h : BusFree s)
    (hh : s.handling = true) (hx : s.exec = false) (ht : s.todo = [.dmaNext])
    (hdir : s.ctx.dir = dir) (he : s.ctx.esz.toNat = e) (hsz : e = 1 ∨ e = 2 ∨ e = 4)
    (ha : s.ctx.addr.toNat = a) (hb : s.ctx.buf.toNat = b) (hrem : s.ctx.rem.toNat = n) (h0 : 0 < n)
    (hfl : s.autoFlight = none) (hch : s.chan.state = .off) (hcf : noConfigFails s)
    (hev : s.evtPending = false) (hop : opcodesDiffer s dir)
    (hd : a + n * e ≤ s.cfg.density) (hw : wrapAligned s a e)
    (hn : ∀ j < n * e, sysAddr (b + j) ≠ s.cfg.fifoAddr) (hrc : dir = .write → WriteQuiet s) :
    let x : IssueArgs := ⟨dir, a, b, e, n, s.ctx.sptr.toNat⟩
    let c := dmaChunk s x
    ∃ ep sy aa bw ce past d k f, Reaches s { s with
      ctx := armedCtx x c, chan := ⟨.off, d, k, f⟩, configCalls := s.configCalls + 1
      autoEn := false, autoActive := aa, epoch := ep, sync := sy, curBw := bw, curElem := ce
      psramPast := past, parser := .closed
      psram := psramAfter s dir a b c, mem := memAfter s dir a b c
      bus := s.bus ++ dmaRecords s dir a c (dataOf s dir a b c) } := by
  intro x c
  have hb32 : b < 2 ^ 32 := by rw [← hb]; exact s.ctx.buf.isLt
  obtain ⟨c1, c2, c3, c4, c5, c6⟩ : e ≤ c ∧ c % e = 0 ∧ c ≤ n * e ∧ c ≤ s.cfg.dmaChunkBytes
      ∧ c / e ≤ s.cfg.dmaMaxCount ∧ (s.act2.toNat ≠ 0 → a % e = 0 → s.act2.toNat % e = 0 →
        a % s.act2.toNat + c ≤ s.act2.toNat) := dmaChunk_spec (x := x) h.ok hsz h0
  have hst : straight s a 0 c := by
    refine straight_chunk ?_ (by omega)
    rcases hw with hw | hw
    · exact .inl hw
    · by_cases hz : s.act2.toNat = 0
      · exact .inl hz
      · exact .inr (c6 hz hw.1 hw.2)
  have hr0 : s.ctx.rem ≠ 0#32 := fun e0 => by rw [e0] at hrem; simp at hrem; omega
  have h1 : Reaches s { s with todo := [.dmaIssue .event x, .leave] } := by
    refine .line h.ok h.active ht fun sc m => ?_
    have : chainArgs s = x := by simp only [chainArgs, hdir, ha, hb, he, hrem]; rfl
    rw [← this]
    simp only [runAct, chainNext, ne_eq, hr0, not_false_eq_true, if_true]
    rfl
  obtain ⟨ep, sy, aa, h2⟩ := Reaches.issue (by_ := .event) (x := x) (r := [.leave])
    (s := { s with todo := [.dmaIssue .event x, .leave] })
    ⟨h.ok, h.active, h.idle, h.released, h.drained, ⟨h.profile.1, h.profile.2, h.profile.3⟩⟩
    rfl hop hfl (.inl hch) (hcf _ (Nat.lt_succ_self _)) hsz h0 hd
  have h3 : Reaches { s with
      todo := [.leave], ctx := armedCtx x c, configCalls := s.configCalls + 1
      chan := ⟨.running, descOf s.cfg dir b e (c / e), 0, false⟩
      autoEn := false, autoActive := aa, epoch := ep, sync := sy
      curBw := profDataBw s.act0, curElem := BitVec.ofNat 3 e, parser := atData dir a
      cs := some (profCsel s.act0), job := some (dataJob (wayOf dir) (8 * c) e (c / e) [] true)
      bus := s.bus ++ openingRecords s dir a } { s with
      todo := [], handling := false, ctx := armedCtx x c, configCalls := s.configCalls + 1
      chan := ⟨.running, descOf s.cfg dir b e (c / e), 0, false⟩
      autoEn := false, autoActive := aa, epoch := ep, sync := sy
      curBw := profDataBw s.act0, curElem := BitVec.ofNat 3 e, parser := atData dir a
      cs := some (profCsel s.act0), job := some (dataJob (wayOf dir) (8 * c) e (c / e) [] true)
      bus := s.bus ++ openingRecords s dir a } := .line h.ok (.inr hh) rfl fun _ _ => rfl
  have hrun : chainRunning { s with ctx := armedCtx x c } = true := by
    simp only [chainRunning, armedCtx]; cases dir <;> rfl
  obtain ⟨ep2, sy2, past, d, k, f, h4⟩ := Reaches.armedChunk (dir := dir) (a := a) (b := b) (e := e)
    (ce := c / e) (c := c) (cs := profCsel s.act0) (s := { s with
      todo := [], handling := false, ctx := armedCtx x c, configCalls := s.configCalls + 1
      chan := ⟨.running, descOf s.cfg dir b e (c / e), 0, false⟩
      autoEn := false, autoActive := aa, epoch := ep, sync := sy
      curBw := profDataBw s.act0, curElem := BitVec.ofNat 3 e, parser := atData dir a
      cs := some (profCsel s.act0), job := some (dataJob (wayOf dir) (8 * c) e (c / e) [] true)
      bus := s.bus ++ openingRecords s dir a })
    h.ok hx rfl rfl hrun rfl hb32 hsz c5 h.drained rfl
    (Nat.div_mul_cancel (Nat.dvd_of_mod_eq_zero c2)) rfl rfl hst (fun j hj => hn j (by omega)) hrc
  refine ⟨ep2, sy2, aa, profDataBw s.act0, BitVec.ofNat 3 e, past, d, k, f,
    h1.trans (h2.trans (h3.trans (.trans h4 ?_)))⟩
  simp only [List.append_assoc, dmaRecords, ← hh, ← hev, ← ht, ← h.idle, ← h.released]
  cases dir <;> exact .refl _

/-- A chunk and the rest of a plan leave the PSRAM as the whole does. -/
theorem psramAfter_rest (s : State) (dir : Dir) (a b c n : Nat) (hc : c ≤ n) :
    psramAfter { s with psram := psramAfter s dir a b c, mem := memAfter s dir a b c }
      dir (a + c) (b + c) (n - c) = psramAfter s dir a b n := by
  cases dir with
  | write =>
    show putRange (putRange _ _ _) _ _ = putRange _ _ (memBytes s.mem b n)
    conv_rhs => rw [show n = c + (n - c) by omega, memBytes_add, putRange_append, memBytes_length]
    rfl
  | read => rfl

/-- A chunk and the rest of a plan leave system memory as the whole does. -/
theorem memAfter_rest (s : State) (dir : Dir) (a b c n : Nat) (hc : c ≤ n) :
    memAfter { s with psram := psramAfter s dir a b c, mem := memAfter s dir a b c }
      dir (a + c) (b + c) (n - c) = memAfter s dir a b n := by
  cases dir with
  | write => rfl
  | read =>
    show memPutBytes (memPutBytes _ _ _) _ _ = memPutBytes _ _ (devBytes s.psram a n)
    conv_rhs => rw [show n = c + (n - c) by omega, devBytes_add, memPutBytes_append, devBytes_length]
    rfl

/-- The records of the rest of a plan do not depend on the chunk before it. -/
theorem chainRecords_rest (s : State) (dir : Dir) (a b c : Nat) (plan : List PlannedChunk) :
    chainRecords { s with psram := psramAfter s dir a b c, mem := memAfter s dir a b c }
      dir (a + c) (b + c) plan = chainRecords s dir a b plan := by
  unfold chainRecords
  congr 1
  funext x
  rw [show b + c + x.addr - (a + c) = b + x.addr - a by omega]
  cases dir <;> rfl

/-- `psramAfter_rest` for any state with those memories. -/
theorem psramAfter_from {s S : State} {dir : Dir} {a b c n : Nat} (hc : c ≤ n)
    (hp : S.psram = psramAfter s dir a b c) (hm : S.mem = memAfter s dir a b c) :
    psramAfter S dir (a + c) (b + c) (n - c) = psramAfter s dir a b n := by
  rw [← psramAfter_rest s dir a b c n hc]
  cases dir
  · show putRange S.psram _ (memBytes S.mem _ _) = _; rw [hp, hm]; rfl
  · show S.psram = _; rw [hp]; rfl

/-- `memAfter_rest` for any state with those memories. -/
theorem memAfter_from {s S : State} {dir : Dir} {a b c n : Nat} (hc : c ≤ n)
    (hp : S.psram = psramAfter s dir a b c) (hm : S.mem = memAfter s dir a b c) :
    memAfter S dir (a + c) (b + c) (n - c) = memAfter s dir a b n := by
  rw [← memAfter_rest s dir a b c n hc]
  cases dir
  · show S.mem = _; rw [hm]; rfl
  · show memPutBytes S.mem _ (devBytes S.psram _ _) = _; rw [hp, hm]; rfl

/-- `chainRecords_rest` for any state with those memories and the same profile. -/
theorem chainRecords_from {s S : State} {dir : Dir} {a b c : Nat} (plan : List PlannedChunk)
    (hp : S.psram = psramAfter s dir a b c) (hm : S.mem = memAfter s dir a b c) (h0 : S.act0 = s.act0)
    (h1 : S.act1 = s.act1) (hb : S.addrBytes = s.addrBytes) (he : S.enc = s.enc) :
    chainRecords S dir (a + c) (b + c) plan = chainRecords s dir a b plan := by
  rw [← chainRecords_rest s dir a b c]
  simp only [chainRecords, dmaRecords, openingRecords, h0, h1, hb, he, dataOf]
  cases dir
  · simp only [hm]
  · simp only [hp]

/-- The records of a plan: its first chunk's, then the rest's. -/
theorem chainRecords_cons (s : State) (dir : Dir) (a b c off : Nat) (plan : List PlannedChunk) :
    chainRecords s dir a b (⟨a, off, c⟩ :: plan) =
      dmaRecords s dir a c (dataOf s dir a b c) ++ chainRecords s dir a b plan := by
  simp only [chainRecords, List.flatMap_cons, Nat.add_sub_cancel]

/-- The plan of a DMA transfer: the chunk DMA_ISSUE forms, then the plan of the rest (R188, R233). -/
theorem planFrom_chunk {s : State} {x : IssueArgs} (fuel : Nat) (hs : x.s = 1 ∨ x.s = 2 ∨ x.s = 4)
    (hok : s.Live) (hn : 0 < x.n) :
    planFrom s.act2.toNat x.s (maxDma s.cfg x.s) (fuel + 1) x.a (wrapOffset s.act2.toNat x.a) (x.n * x.s) =
      ⟨x.a, wrapOffset s.act2.toNat x.a, dmaChunk s x⟩ :: planFrom s.act2.toNat x.s (maxDma s.cfg x.s) fuel
        (x.a + dmaChunk s x) (wrapOffset s.act2.toNat (x.a + dmaChunk s x)) (x.n * x.s - dmaChunk s x) := by
  have hb := Params.ok_bits hok.1
  have hp : (planChunk s.act2.toNat (x.n * x.s) (wrapOffset s.act2.toNat x.a) x.s (maxDma s.cfg x.s)).1 =
    dmaChunk s x := rfl
  have hp2 := (planChunk_spec (w := s.act2.toNat) (a := x.a) (rem := x.n * x.s) (max := maxDma s.cfg x.s) hs
    (by
      have : x.s ≤ s.cfg.dmaMaxCount * x.s := Nat.le_mul_of_pos_left _ (by omega)
      simp only [maxDma]; omega)
    (Nat.mul_pos hn (by omega)) (Nat.mul_mod_left _ _)).2.2.2.2.1
  rw [hp] at hp2
  have hnz : x.n * x.s ≠ 0 := Nat.ne_of_gt (Nat.mul_pos hn (by omega))
  rw [planFrom, if_neg hnz]
  simp only [hp, hp2]

/-- The rest of a chain, from the test of what remains to the completion word (R235, R236, R240). -/
theorem Reaches.chain {s : State} {dir : Dir} {e a b n : Nat} (fuel : Nat) (h : BusFree s)
    (hh : s.handling = true) (hx : s.exec = false) (ht : s.todo = [.dmaNext])
    (hdir : s.ctx.dir = dir) (he : s.ctx.esz.toNat = e) (hsz : e = 1 ∨ e = 2 ∨ e = 4)
    (ha : n ≠ 0 → s.ctx.addr.toNat = a) (hb : s.ctx.buf.toNat = b % addressSpace)
    (hrem : s.ctx.rem.toNat = n) (hfl : s.autoFlight = none) (hch : s.chan.state = .off)
    (hcf : noConfigFails s) (hev : s.evtPending = false) (hop : opcodesDiffer s dir)
    (hd : a + n * e ≤ s.cfg.density) (hw : wrapAligned s a e)
    (hn : ∀ j < n * e, sysAddr (b + j) ≠ s.cfg.fifoAddr) (hfuel : n ≤ fuel)
    (hrc : dir = .write → WriteQuiet s) :
    ∃ t : State, t.ctx.state = .idle ∧ t.chan.state = .off ∧ Reaches s { s with
      todo := [], handling := false, ctx := t.ctx, chan := t.chan, configCalls := t.configCalls
      autoEn := true, autoActive := t.autoActive, epoch := t.epoch, sync := t.sync, curBw := t.curBw
      curElem := t.curElem, psramPast := t.psramPast, parser := t.parser
      psram := psramAfter s dir a b (n * e)
      mem := memWrite (memAfter s dir a b (n * e)) s.ctx.sptr.toNat 4 1#32, race := none
      bus := s.bus ++ chainRecords s dir a b
        (planFrom s.act2.toNat e (maxDma s.cfg e) fuel a (wrapOffset s.act2.toNat a) (n * e)) } := by
  induction fuel generalizing s a b n with
  | zero =>
    have hz : n = 0 := by omega
    subst hz
    have hr0 : s.ctx.rem = 0#32 := BitVec.eq_of_toNat_eq hrem
    obtain ⟨ep, sy, aa, h1⟩ := Reaches.chainEnd h.ok hh ht hr0 hfl h.released
    refine ⟨{ s with ctx := { s.ctx with state := .idle }, autoActive := aa, epoch := ep, sync := sy },
      rfl, hch, h1.trans ?_⟩
    have hnil : devBytes s.psram a 0 = [] := rfl
    cases dir <;>
      simp only [psramAfter, memAfter, Nat.zero_mul, memBytes, putRange, hnil, memPutBytes, planFrom,
        chainRecords, List.flatMap_nil, List.append_nil] <;> exact .refl _
  | succ fuel ih =>
    by_cases hz : n = 0
    · subst hz
      have hr0 : s.ctx.rem = 0#32 := BitVec.eq_of_toNat_eq hrem
      obtain ⟨ep, sy, aa, h1⟩ := Reaches.chainEnd h.ok hh ht hr0 hfl h.released
      refine ⟨{ s with ctx := { s.ctx with state := .idle }, autoActive := aa, epoch := ep, sync := sy },
        rfl, hch, h1.trans ?_⟩
      have hnil : devBytes s.psram a 0 = [] := rfl
      cases dir <;>
        simp only [psramAfter, memAfter, Nat.zero_mul, memBytes, putRange, hnil, memPutBytes, planFrom,
          chainRecords, if_true, List.flatMap_nil, List.append_nil] <;> exact .refl _
    · have hpos : 0 < n := Nat.pos_of_ne_zero hz
      have hb2 := Params.ok_bits h.ok.1
      have hden := hb2.2.2.2.2.2.2.2.1
      have hspec := dmaChunk_spec (s := s) (x := ⟨dir, a, b % addressSpace, e, n, s.ctx.sptr.toNat⟩)
        h.ok hsz hpos
      obtain ⟨ep, sy, aa, bw, ce, past, d, k, f, h1⟩ := Reaches.chainChunk (dir := dir) (e := e) (a := a)
        (b := b % addressSpace) (n := n) h hh hx ht hdir he hsz (ha hz) hb hrem hpos hfl hch hcf hev hop
        hd hw (fun j hj => by
          have := hn j hj
          rw [sysAddr] at this ⊢
          rwa [Nat.mod_add_mod]) hrc
      have hpl := planFrom_chunk (s := s) (x := ⟨dir, a, b % addressSpace, e, n, s.ctx.sptr.toNat⟩) fuel hsz
        h.ok hpos
      generalize dmaChunk s ⟨dir, a, b % addressSpace, e, n, s.ctx.sptr.toNat⟩ = c at hspec h1 hpl
      obtain ⟨c1, c2, c3, c4, c5, c6⟩ := hspec
      simp only at c1 c2 c3 c5
      simp only [psramAfter_mod, memAfter_mod, dataOf_mod] at h1
      have hdvd := Nat.dvd_of_mod_eq_zero c2
      have hq : c / e * e = c := Nat.div_mul_cancel hdvd
      have hqn : c / e ≤ n := Nat.div_le_of_le_mul (by rw [Nat.mul_comm]; exact c3)
      have hq1 : 0 < c / e := Nat.div_pos c1 (by omega)
      have hrest : (n - c / e) * e = n * e - c := by rw [Nat.sub_mul, hq]
      have he0 : 0 < e := by omega
      have hpos2 : n - c / e ≠ 0 → 0 < (n - c / e) * e := fun hne =>
        Nat.mul_pos (Nat.pos_of_ne_zero hne) he0
      have hn32 : n < 2 ^ 32 := by rw [← hrem]; exact s.ctx.rem.isLt
      have hsp : (BitVec.ofNat 32 s.ctx.sptr.toNat) = s.ctx.sptr := BitVec.ofNat_toNat ..
      obtain ⟨t, ht1, ht2, h2⟩ := ih (a := a + c) (b := b + c) (n := n - c / e) (s := { s with
          ctx := armedCtx ⟨dir, a, b % addressSpace, e, n, s.ctx.sptr.toNat⟩ c, chan := ⟨.off, d, k, f⟩
          configCalls := s.configCalls + 1, autoEn := false, autoActive := aa, epoch := ep, sync := sy
          curBw := bw, curElem := ce, psramPast := past, parser := .closed
          psram := psramAfter s dir a b c, mem := memAfter s dir a b c
          bus := s.bus ++ dmaRecords s dir a c (dataOf s dir a b c) })
        ⟨h.ok, .inr hh, h.idle, h.released, h.drained, ⟨h.profile.1, h.profile.2, h.profile.3⟩⟩
        hh hx ht rfl (by simp only [armedCtx, BitVec.toNat_ofNat]; omega)
        (fun hne => by
          have := hpos2 hne
          simp only [armedCtx, BitVec.toNat_ofNat]; omega)
        (by simp only [armedCtx, BitVec.toNat_ofNat, addressSpace]; omega)
        (by simp only [armedCtx, BitVec.toNat_ofNat]; omega)
        hfl rfl (fun k hk => hcf k (by simp only at hk; omega)) hev hop
        (by show a + c + (n - c / e) * e ≤ s.cfg.density; omega)
        (by
          rcases hw with hw | ⟨hw1, hw2⟩
          · exact .inl hw
          · exact .inr ⟨Nat.mod_eq_zero_of_dvd
              ((Nat.dvd_add_iff_right (Nat.dvd_of_mod_eq_zero hw1)).mp hdvd), hw2⟩)
        (fun j hj => by
          rw [Nat.add_assoc]
          exact hn (c + j) (by omega))
        (by omega) (by rintro rfl; exact hrc rfl)
      refine ⟨t, ht1, ht2, h1.trans (h2.trans ?_)⟩
      rw [hpl, chainRecords_cons, ← psramAfter_rest s dir a b c (n * e) c3,
        ← memAfter_rest s dir a b c (n * e) c3, ← chainRecords_rest s dir a b c, ← List.append_assoc, ← hrest]
      simp only [armedCtx, hsp]
      exact .refl _

/-! ### The caller's duties (20_memory R97) -/

/-- Ranges that do not meet share no address. -/
theorem rangesMeet_false {a n b m : Nat} (h : rangesMeet a n b m = false) (hn : n ≤ addressSpace)
    (hm : m ≤ addressSpace) {i j : Nat} (hi : i < n) (hj : j < m) : sysAddr (a + i) ≠ sysAddr (b + j) := by
  intro e
  simp only [rangesMeet, decide_eq_false_iff_not, sysAddr, addressSpace] at h e hn hm
  omega

/-- The buffer of a DMA command meets neither the FIFO register nor the completion word. -/
theorem CallerKeeps.disjoint {s : State} {e : BitVec 3} (h : CallerKeeps s true e) :
    rangesMeet s.latch.buf.toNat (s.latch.count.toNat * e.toNat) s.cfg.fifoAddr 4 = false
      ∧ rangesMeet s.latch.buf.toNat (s.latch.count.toNat * e.toNat) s.latch.sptr.toNat 4 = false := by
  simp only [← Bool.not_eq_true, rangesMeet_iff]
  exact ⟨fun h' => h.apart (.inl (.inr (.inl h'))), fun h' => h.apart (.inr ⟨rfl, h'⟩)⟩

/-- DMA_BEGIN passes its checks and enters DMA_ISSUE (R230). -/
theorem Reaches.dmaFirst {s : State} {dir : Dir} {e : BitVec 3} (hok : s.Live)
    (hh : s.handling = false) (hx : s.exec = true) (ht : s.todo = [])
    (hi : decodeCmd s.latch.cmd = transfer true dir e) (hini : s.initDone = true)
    (hch : chainRunning s = false) (hv : OperandsValid s true e) (hk : CallerKeeps s true e) :
    Reaches s { s with todo := dmaBody s dir e, race := some (openRace s dir e) } :=
  .transferFirst hok hh hx hi hini hch hv hk fun sc n => by
    cases dir <;> simp only [transfer, exec, execReadDma, execWriteDma, continueWith, ht] <;> rfl

/-- Reading back the bytes just stored. -/
theorem memBytes_memPutBytes {m : Memory} (h : Memory.wf addressSpace m = true) (a : Nat) (bs : List Byte)
    (hl : bs.length ≤ addressSpace) : memBytes (memPutBytes m a bs) a bs.length = bs := by
  refine List.ext_getElem (memBytes_length _ _ _) fun j h1 h2 => ?_
  rw [memBytes_getElem, memPutBytes_get h a bs hl j h2]

/-- Reading back the word just stored (20_memory R75). -/
theorem memRead_memWrite {m : Memory} (h : Memory.wf addressSpace m = true) (a n : Nat) (v : Word)
    (hn : n ≤ addressSpace) : memRead (memWrite m a n v) a n = elemOfBytes (elemBytes n v) := by
  have := memBytes_memPutBytes h a (elemBytes n v) (by rw [elemBytes_length]; exact hn)
  rw [elemBytes_length] at this
  rw [memRead, memWrite, this]

/-- A DMA command, from DMA_ISSUE to its result: the first chunk armed and running (R230, R233). -/
theorem Reaches.dmaIssued {s : State} {dir : Dir} {e : BitVec 3} (h : BusFree s) (hx : s.exec = true)
    (ht : s.todo = dmaBody s dir e) (hop : opcodesDiffer s dir)
    (hfl : s.autoFlight = none)
    (hch : s.chan.state = .off ∨ s.chan.state = .complete) (hcf : noConfigFails s)
    (hv : OperandsValid s true e) :
    let x := beginArgs s dir e
    let c := dmaChunk s x
    ∃ ep sy aa, Reaches s { s with
      todo := [], exec := false, result := ⟨.ok, false, true⟩
      ctx := armedCtx x c, configCalls := s.configCalls + 1
      chan := ⟨.running, descOf s.cfg dir s.latch.buf.toNat e.toNat (c / e.toNat), 0, false⟩
      autoEn := false, autoActive := aa, epoch := ep, sync := sy
      curBw := profDataBw s.act0, curElem := e, parser := atData dir s.latch.addr.toNat
      cs := some (profCsel s.act0)
      job := some (dataJob (wayOf dir) (8 * c) e.toNat (c / e.toNat) [] true)
      bus := s.bus ++ openingRecords s dir s.latch.addr.toNat } := by
  intro x c
  have h0 : 0 < s.latch.count.toNat := Nat.pos_of_ne_zero fun h0 => hv.count (BitVec.eq_of_toNat_eq h0)
  obtain ⟨ep, sy, aa, h1⟩ := Reaches.issue (by_ := .command) (x := x) (r := [.finish .dmaBegin .ok false])
    h ht hop hfl hch (hcf _ (Nat.lt_succ_self _)) hv.size h0 hv.range
  have he : BitVec.ofNat 3 x.s = e := BitVec.ofNat_toNat ..
  rw [he] at h1
  exact ⟨ep, sy, aa, h1.trans (.finish h.ok (.inl hx) rfl rfl)⟩

end Sys2Proof.Machine
end

