-- ==== Sys2Proof/Laws/Discipline.lean ====
section
/-! SUPPORT. The ENGINE's lines and the bus mode: every line keeps the lines after it disciplined. -/

namespace Sys2Proof.Machine

/-- Mode `b` may stand where `a` was foreseen: the sequence that `a` allows, `b` allows too. -/
def ModeLe : BusMode → BusMode → Prop
  | a, b => a = b ∨ (a = .leaving ∧ b = .manual) ∨ (a = .stable ∧ (b = .auto ∨ b = .manual))

/-- A line allowed in mode `m` is allowed in every mode that may stand for it. -/
theorem modeAfter_mono {m n : BusMode} (h : ModeLe m n) {a : Act} {m' : BusMode}
    (hm : modeAfter m a = some m') : ∃ n', modeAfter n a = some n' ∧ ModeLe m' n' := by
  rcases h with rfl | ⟨rfl, rfl⟩ | ⟨rfl, rfl | rfl⟩
  · exact ⟨m', hm, .inl rfl⟩
  all_goals
    cases a with
    | wait o c => cases c <;> simp [modeAfter, ModeLe] at * <;> subst hm <;> simp
    | ctl o c => cases c <;> simp [modeAfter, ModeLe] at * <;> subst hm <;> simp
    | arbTest q u => cases q <;> simp [modeAfter, ModeLe] at * <;> subst hm <;> simp
    | _ => simp [modeAfter, ModeLe] at * <;> subst hm <;> simp

/-- A disciplined continuation stays so in every mode that may stand for the one foreseen. -/
theorem disciplined_mono {m n : BusMode} (h : ModeLe m n) {l : List Act} (hd : disciplined m l = true) :
    disciplined n l = true := by
  induction l generalizing m n with
  | nil =>
    rcases h with rfl | ⟨rfl, rfl⟩ | ⟨rfl, rfl | rfl⟩ <;> simp_all [disciplined]
  | cons a r ih =>
    simp only [disciplined] at hd
    split at hd
    · rename_i m1 h1
      obtain ⟨n1, h2, h3⟩ := modeAfter_mono h h1
      simp only [disciplined, h2]
      exact ih h3 hd
    · cases hd

theorem ModeLe.refl (m) : ModeLe m m := .inl rfl

theorem disciplined_cons {m n a r} (h : modeAfter m a = some n) : disciplined m (a :: r) = disciplined n r := by
  simp [disciplined, h]

theorem disciplined_append_same {m : BusMode} {l r : List Act} (h : ∀ a ∈ l, modeAfter m a = some m) :
    disciplined m (l ++ r) = disciplined m r := by
  induction l with
  | nil => rfl
  | cons a l ih =>
    rw [List.cons_append, disciplined_cons (h a (by simp))]
    exact ih fun b hb => h b (by simp [hb])

/-- The three bus modes a state can be in, by AUTO enable and auto active. -/
theorem busMode_cases (s : State) : busMode s = .auto ∧ s.autoEn = true ∨
    busMode s = .leaving ∧ s.autoEn = false ∧ s.autoActive = true ∨
    busMode s = .manual ∧ s.autoEn = false ∧ s.autoActive = false := by
  unfold busMode
  cases s.autoEn <;> cases s.autoActive <;> simp

@[simp] theorem busMode_goto (s : State) (l) : busMode (s.goto l) = busMode s := rfl

/-- The clauses of `BusDiscipline` that do not speak of the ENGINE's lines. -/
structure BusRest (s : State) : Prop where
  exclusive : s.autoFlight ≠ none → s.job = none ∧ s.cs = none
  flightActive : s.autoFlight ≠ none → s.autoActive = true
  enabledActive : s.autoEn = true → s.autoActive = true
  samples : ∀ e ∈ s.sync, SampleSound s e

/-- The lines of CA_SEQ keep manual mode. -/
theorem disciplined_phases {s : State} {dir a l} (h : ∀ x ∈ l, x ∈ commandPhases s dir a ++ addressPhase s a ++ dummyPhase s dir)
    (r) : disciplined .manual (l ++ r) = disciplined .manual r := by
  rw [disciplined_append_same]
  intro x hx
  rcases phaseLines (h x hx) with ⟨_, rfl⟩ | ⟨_, _, _, _, _, rfl⟩ | rfl | rfl <;> rfl

/-- The pump's lines keep manual mode. -/
theorem disciplined_pump (s : State) (dir c r) : disciplined .manual (pump s dir c ++ r) = disciplined .manual r := by
  rw [disciplined_append_same]
  intro x hx
  simp only [List.mem_append, pump] at hx
  cases dir <;> simp at hx <;> rcases hx with (rfl | rfl | rfl) | rfl <;> rfl

theorem disciplined_writeGroup (s : State) (b n e k keep r) : disciplined .manual (writeGroup s b n e k keep ++ r) = disciplined .manual r := by
  rw [disciplined_append_same]
  intro x hx
  simp only [List.mem_append, writeGroup, List.mem_map] at hx
  rcases hx with ⟨j, _, rfl⟩ | hx
  · rfl
  · simp at hx; rcases hx with rfl | rfl | rfl <;> rfl

theorem disciplined_readGroup (s : State) (b n e k keep r) : disciplined .manual (readGroup s b n e k keep ++ r) = disciplined .manual r := by
  rw [disciplined_append_same]
  intro x hx
  simp only [List.mem_append, readGroup, List.mem_flatMap] at hx
  rcases hx with (hx | ⟨j, _, hx⟩) | hx
  · simp at hx; subst hx; rfl
  · simp at hx; rcases hx with rfl | rfl <;> rfl
  · simp at hx; rcases hx with rfl | rfl <;> rfl

theorem disciplined_dmaStart (s : State) (x c r) {m : BusMode} (h : m ≠ .leaving) (hr : disciplined .manual r = true) :
    disciplined m (dmaStart s x c ++ r) = true := by
  simp only [dmaStart, arbManual, List.cons_append, List.nil_append]
  simp [disciplined, modeAfter, h, hr]

theorem disciplined_dmaFailure (b) {m : BusMode} (h : m ≠ .leaving) : disciplined m (dmaFailure b) = true := by
  cases b <;> simp [dmaFailure, arbAuto, disciplined, modeAfter, h]

theorem disciplined_chainNext (s : State) {r} {m : BusMode} (h : m ≠ .leaving) (hr : disciplined .stable r = true) :
    disciplined m (chainNext s ++ r) = true := by
  have h1 : disciplined .manual r = true := disciplined_mono (.inr (.inr ⟨rfl, .inr rfl⟩)) hr
  have h2 : disciplined .auto r = true := disciplined_mono (.inr (.inr ⟨rfl, .inl rfl⟩)) hr
  unfold chainNext
  split <;> simp [arbAuto, disciplined, modeAfter, h, h1, h2]

/-- The lines of ARBITER_ENTER are disciplined in every mode. -/
theorem disciplined_arb (m : ArbMode) (use) (s : State) (r) (n)
    (hm : modeAfter (busMode s) (.arbTest m use) = some n) (hr : disciplined n r = true) :
    disciplined (busMode s) (arbSwitch m s.autoEn ++ arbResult use s.autoEn ++ r) = true := by
  rcases busMode_cases s with ⟨h1, h2⟩ | ⟨h1, h2, _⟩ | ⟨h1, h2, _⟩ <;> rw [h1] at hm ⊢ <;> rw [h2] <;>
    cases m <;> simp [modeAfter] at hm <;> subst hm <;> cases use <;>
    simp [arbSwitch, arbResult, disciplined, modeAfter, hr]

theorem sampleSound_bump {s : State} (h : ∀ e ∈ s.sync, SampleSound s e) {t : State} (h1 : t.sync = s.sync)
    (h2 : t.epoch = s.epoch + 1) : ∀ e ∈ t.sync, SampleSound t e := by
  intro e he x hx
  rw [h1] at he
  have := (h e he x hx).1
  exact ⟨by omega, fun h3 => by omega⟩

/-- A step that keeps the mode fields and at most drops the job or the chip select keeps `BusRest`. -/
theorem BusRest.of (s t : State) (h : BusRest s) (hf : t.autoFlight = s.autoFlight) (hj : t.job = s.job ∨ t.job = none)
   (hc : t.cs = s.cs ∨ t.cs = none)
   (ha : t.autoActive = s.autoActive) (he : t.autoEn = s.autoEn) (hs : ∀ e ∈ t.sync, SampleSound t e) : BusRest t where
  exclusive h1 := by
    rw [hf] at h1
    obtain ⟨a, b⟩ := h.exclusive h1
    constructor
    · rcases hj with hj | hj <;> simp [hj, a]
    · rcases hc with hj | hj <;> simp [hj, b]
  flightActive h1 := by rw [hf] at h1; rw [ha]; exact h.flightActive h1
  enabledActive h1 := by rw [he] at h1; rw [ha]; exact h.enabledActive h1
  samples := hs

theorem csRelease_cs (s : State) : (csRelease s).cs = none := by
  unfold csRelease
  split
  · rfl
  · assumption

/-- `ctl(op)` keeps `BusRest` and leaves a mode that may stand for the one its line foresees. -/
theorem ctlOp_busRest {s t : State} {c : CtlOp} (hx : BusRest s) (h : ctlOp s c = .next t) {o} {n}
    (hm : modeAfter (busMode s) (.ctl o c) = some n) : BusRest t ∧ ModeLe n (busMode t) ∧ t.todo = s.todo := by
  obtain ⟨u, hu, rfl⟩ := ctlOp_next h
  have hb := @sampleSound_bump s hx.samples
  have hq := ctlEffect_next hu
  cases c with
  | setWidth w =>
    obtain ⟨_, rfl⟩ := hq
    cases hm
    exact ⟨BusRest.of s _ hx rfl (.inl rfl) (.inl rfl) rfl rfl (@hb _ rfl rfl), ModeLe.refl _, rfl⟩
  | setElem w =>
    cases hq
    cases hm
    exact ⟨BusRest.of s _ hx rfl (.inl rfl) (.inl rfl) rfl rfl (@hb _ rfl rfl), ModeLe.refl _, rfl⟩
  | fifoWrite =>
    obtain ⟨_, rfl⟩ := hq
    cases hm
    exact ⟨BusRest.of s _ hx rfl (.inl rfl) (.inl rfl) rfl rfl (@hb _ rfl rfl), ModeLe.refl _, rfl⟩
  | fifoRead =>
    obtain ⟨_, _, _, rfl⟩ := hq
    cases hm
    exact ⟨BusRest.of s _ hx rfl (.inl rfl) (.inl rfl) rfl rfl (@hb _ rfl rfl), ModeLe.refl _, rfl⟩
  | deassertCs =>
    obtain ⟨_, rfl⟩ := hq
    cases hm
    refine ⟨BusRest.of s _ hx (by simp) (.inl (by simp)) (.inr (by simp [csRelease_cs])) (by simp) (by simp) (@hb _ (by simp) (by simp)), ?_, by simp⟩
    left; simp [busMode]
  | setAutoEn b =>
    cases hq
    cases hm
    refine ⟨⟨hx.exclusive, fun h1 => ?_, fun h1 => ?_, @hb _ rfl rfl⟩, ?_, rfl⟩
    · have := hx.flightActive h1
      simp [State.bumpEpoch, this]
    · simp only [State.bumpEpoch] at h1 ⊢
      simp [h1]
    · cases b <;> cases hq : s.autoActive <;> simp [busMode, State.bumpEpoch, ModeLe]
  | phaseTx kind nb pl cs kp =>
    obtain ⟨h1, h2, h3, rfl⟩ := hq
    rcases busMode_cases s with ⟨b1, _⟩ | ⟨b1, _⟩ | ⟨b1, b2, b3⟩ <;> rw [b1] at hm <;> simp [modeAfter] at hm
    subst hm
    have hf : s.autoFlight = none := by
      by_contra hne
      have := hx.flightActive hne
      simp [b3] at this
    refine ⟨⟨fun h => absurd (by simp [hf]) h, fun h => absurd (by simp [hf]) h, by simp [b2], @hb _ (by simp) (by simp)⟩, ?_, by simp⟩
    left; simp [busMode, b2, b3]
  | trigger way nb cs kp =>
    obtain ⟨_, h1, h2, h3, rfl⟩ := hq
    rcases busMode_cases s with ⟨b1, _⟩ | ⟨b1, _⟩ | ⟨b1, b2, b3⟩ <;> rw [b1] at hm <;> simp [modeAfter] at hm
    subst hm
    have hf : s.autoFlight = none := by
      by_contra hne
      have := hx.flightActive hne
      simp [b3] at this
    refine ⟨⟨fun h => absurd (by simp [hf]) h, fun h => absurd (by simp [hf]) h, by simp [b2], @hb _ (by simp) (by simp)⟩, ?_, by simp⟩
    left; simp [busMode, b2, b3]

theorem BusRest.goto {s : State} (h : BusRest s) (l) : BusRest (s.goto l) :=
  BusRest.of s _ h rfl (.inl rfl) (.inl rfl) rfl rfl h.samples

/-- A wait that ends leaves the mode its line foresees (the auto-inactive wait by its sound sample). -/
theorem waitOver_busMode {s : State} (h : BusRest s) {c o n} (hw : waitOver s c = true)
    (hm : modeAfter (busMode s) (.wait o c) = some n) : n = busMode s := by
  cases c <;> simp [modeAfter] at hm
  case autoInactive =>
    rcases busMode_cases s with ⟨b1, _⟩ | ⟨b1, b2, b3⟩ | ⟨b1, _⟩ <;> rw [b1] at hm <;> simp at hm <;> try simp [hm, b1]
    exfalso
    unfold waitOver at hw
    split at hw
    · rename_i e he
      simp [condHolds] at hw
      have hmem : e ∈ s.sync := List.mem_of_getElem? he
      have := (h.samples e hmem _ hw.1).2 rfl hw.2 b2
      simp [b3] at this
    · cases hw
  all_goals exact hm.symm

theorem not_leaving {s : State} {l} (h : disciplined (busMode s) l = true) {a r} (hl : l = a :: r)
    (ha : ∀ n, modeAfter .leaving a ≠ some n) : busMode s ≠ .leaving := by
  intro hb
  rw [hb, hl] at h
  simp only [disciplined] at h
  split at h
  · exact ha _ ‹_›
  · cases h

/-- One line keeps `BusRest`, and the lines after it are disciplined in the mode it leaves. -/
theorem runAct_disciplined {a : Act} {r : List Act} {s t : State} (hx : BusRest s) (hl : disciplined (busMode s) (a :: r) = true)
    (h : runAct a r s = .next t) (ht : s.todo = a :: r) : BusRest t ∧ disciplined (busMode t) t.todo = true := by
  obtain ⟨n, hm, hr⟩ : ∃ n, modeAfter (busMode s) a = some n ∧ disciplined n r = true := by
    simp only [disciplined] at hl
    split at hl
    · exact ⟨_, ‹_›, hl⟩
    · cases hl
  have man : ∀ k, (if busMode s = BusMode.manual then some BusMode.manual else none) = some k → busMode s = .manual ∧ k = .manual := by
    intro k hk
    split at hk
    · cases hk; exact ⟨‹_›, rfl⟩
    · cases hk
  have nl : ∀ (p : Option BusMode) k, (if busMode s = BusMode.leaving then none else p) = some k → busMode s ≠ .leaving ∧ p = some k := by
    intro p k hk
    split at hk
    · cases hk
    · exact ⟨‹_›, hk⟩
  have plain : ∀ (u : State) l, u = s.goto l → disciplined (busMode s) l = true → BusRest u ∧ disciplined (busMode u) u.todo = true := by
    rintro u l rfl hd
    exact ⟨hx.goto l, hd⟩
  cases a <;> simp only [runAct] at h
  case wait o c =>
    split at h
    · cases h
      exact plain _ _ rfl (waitOver_busMode hx ‹_› hm ▸ hr)
    · cases h
      exact ⟨hx, ht ▸ hl⟩
  case ctl o c =>
    obtain ⟨h1, h2, h3⟩ := ctlOp_busRest (hx.goto r) h (o := o) (n := n) hm
    refine ⟨h1, ?_⟩
    rw [h3]
    exact disciplined_mono h2 hr
  case arbTest m use =>
    cases h
    refine plain _ _ rfl ?_
    rw [List.append_assoc, ← List.append_assoc]
    exact disciplined_arb m use s r n hm hr
  case busyTest d w e =>
    obtain ⟨h1, h2⟩ := nl _ _ hm
    cases h2
    rcases busyTest_next (dma := d) (dir := w) (e := e) (r := r) h with rfl | ⟨-, rfl⟩
    · exact ⟨BusRest.of s _ hx rfl (.inl rfl) (.inl rfl) rfl rfl hx.samples, by show (busMode s != .leaving) = true; simp [h1]⟩
    · exact ⟨BusRest.of s _ hx rfl (.inl rfl) (.inl rfl) rfl rfl hx.samples, hr⟩
  case initTest p =>
    obtain ⟨h1, h2⟩ := nl _ _ hm
    cases h2
    rcases initTest_next (p0 := p) (r := r) h with ⟨c, rfl⟩ | ⟨-, -, rfl⟩
    · exact ⟨BusRest.of s _ hx rfl (.inl rfl) (.inl rfl) rfl rfl hx.samples, by show (busMode s != .leaving) = true; simp [h1]⟩
    · exact plain _ _ rfl hr
  case setProfile f =>
    cases hm
    cases f <;> cases h <;>
      exact ⟨BusRest.of s _ hx rfl (.inl rfl) (.inl rfl) rfl rfl hx.samples, hr⟩
  case setWork =>
    cases h; cases hm
    exact ⟨BusRest.of s _ hx rfl (.inl rfl) (.inl rfl) rfl rfl hx.samples, hr⟩
  case setPrevAuto =>
    cases h; cases hm
    exact ⟨BusRest.of s _ hx rfl (.inl rfl) (.inl rfl) rfl rfl hx.samples, hr⟩
  case loop dir =>
    obtain ⟨h1, rfl⟩ := man _ hm
    split at h <;> cases h
    · exact plain _ _ rfl (h1 ▸ hr)
    · exact plain _ _ rfl (by rw [h1]; simpa [disciplined, modeAfter] using hr)
  case plan dir =>
    obtain ⟨h1, rfl⟩ := man _ hm
    cases h
    refine plain _ _ rfl ?_
    rw [h1]
    simpa [advance, disciplined, modeAfter] using hr
  case caSeq dir a =>
    obtain ⟨h1, rfl⟩ := man _ hm
    cases h
    refine plain _ _ rfl ?_
    rw [h1, disciplined_phases (s := s) (dir := dir) (a := a) (by simp +contextual)]
    exact hr
  case caAddr a =>
    obtain ⟨h1, rfl⟩ := man _ hm
    cases h
    refine plain _ _ rfl ?_
    rw [h1, disciplined_phases (s := s) (dir := .read) (a := a) (by simp +contextual)]
    exact hr
  case caDummy dir =>
    obtain ⟨h1, rfl⟩ := man _ hm
    cases h
    refine plain _ _ rfl ?_
    rw [h1, disciplined_phases (s := s) (dir := dir) (a := 0) (by simp +contextual)]
    exact hr
  case callPump dir c =>
    obtain ⟨h1, rfl⟩ := man _ hm
    cases h
    refine plain _ _ rfl ?_
    rw [h1, disciplined_pump]
    exact hr
  case fifoCheck o =>
    cases hm
    split at h <;> cases h
    exact plain _ _ rfl hr
  case pumpWrite =>
    obtain ⟨h1, rfl⟩ := man _ hm
    split at h <;> cases h
    · exact plain _ _ rfl (by rw [h1, disciplined_writeGroup]; exact hr)
    · exact plain _ _ rfl (h1 ▸ hr)
  case pumpRead =>
    obtain ⟨h1, rfl⟩ := man _ hm
    split at h <;> cases h
    · exact plain _ _ rfl (by rw [h1, disciplined_readGroup]; exact hr)
    · exact plain _ _ rfl (h1 ▸ hr)
  case pushElem =>
    cases hm; cases h
    exact plain _ _ rfl hr
  case popElem ad e =>
    obtain ⟨h1, h2, h3⟩ := ctlOp_busRest (hx.goto _) h (o := .pumpRead) (n := busMode s) rfl
    refine ⟨h1, ?_⟩
    rw [h3]
    cases hm
    exact disciplined_mono h2 hr
  case store =>
    cases hm; cases h
    exact ⟨BusRest.of s _ hx rfl (.inl rfl) (.inl rfl) rfl rfl hx.samples, hr⟩
  case advAddr =>
    cases hm; cases h
    exact ⟨BusRest.of s _ hx rfl (.inl rfl) (.inl rfl) rfl rfl hx.samples, hr⟩
  case advBuf =>
    cases hm; cases h
    exact ⟨BusRest.of s _ hx rfl (.inl rfl) (.inl rfl) rfl rfl hx.samples, hr⟩
  case advRem =>
    cases hm; cases h
    exact ⟨BusRest.of s _ hx rfl (.inl rfl) (.inl rfl) rfl rfl hx.samples, hr⟩
  case restore =>
    obtain ⟨h1, h2⟩ := nl _ _ hm
    cases h2; cases h
    refine plain _ _ rfl ?_
    have r1 : disciplined .manual r = true := disciplined_mono (.inr (.inr ⟨rfl, .inr rfl⟩)) hr
    have r2 : disciplined .auto r = true := disciplined_mono (.inr (.inr ⟨rfl, .inl rfl⟩)) hr
    split
    · simp [arbAuto, disciplined, modeAfter, r2]
    · rcases busMode_cases s with ⟨b1, _⟩ | ⟨b1, _⟩ | ⟨b1, _⟩ <;> rw [b1] at h1 ⊢ <;> simp_all
  case finish =>
    obtain ⟨h1, h2⟩ := nl _ _ hm
    cases h
    exact ⟨BusRest.of s _ hx rfl (.inl rfl) (.inl rfl) rfl rfl hx.samples, by show (busMode s != .leaving) = true; simp [h1]⟩
  case dmaIssue =>
    obtain ⟨h1, h2⟩ := nl _ _ hm
    cases h2; cases h
    refine plain _ _ rfl ?_
    simp [disciplined, modeAfter, h1, hr]
  case dmaPlan =>
    obtain ⟨h1, h2⟩ := nl _ _ hm
    cases h2; cases h
    refine plain _ _ rfl ?_
    simp [disciplined, modeAfter, h1, hr]
  case dmaArm =>
    obtain ⟨h1, h2⟩ := nl _ _ hm
    cases h2; cases h
    refine ⟨BusRest.of s _ hx rfl (.inl rfl) (.inl rfl) rfl rfl hx.samples, ?_⟩
    show disciplined (busMode s) _ = true
    simp [disciplined, modeAfter, h1, hr]
  case dmaConfigure b x c =>
    obtain ⟨h1, h2⟩ := nl _ _ hm
    cases h2
    split at h
    · cases h
    · split at h <;> cases h
      · refine ⟨BusRest.of s _ hx rfl (.inl rfl) (.inl rfl) rfl rfl hx.samples, ?_⟩
        exact disciplined_dmaFailure b h1
      · refine ⟨BusRest.of s _ hx rfl (.inl rfl) (.inl rfl) rfl rfl hx.samples, ?_⟩
        exact disciplined_dmaStart s x c r h1 hr
  case dmaEnable =>
    cases hm
    unfold dmaEnableOp at h
    split at h <;> cases h
    exact ⟨BusRest.of s _ hx rfl (.inl rfl) (.inl rfl) rfl rfl hx.samples, hr⟩
  case dmaTrigger =>
    cases hm
    unfold dmaTriggerOp at h
    split at h <;> cases h
    exact ⟨BusRest.of s _ hx rfl (.inl rfl) (.inl rfl) rfl rfl hx.samples, hr⟩
  case dmaDisable =>
    cases hm; cases h
    exact ⟨BusRest.of s _ hx rfl (.inl rfl) (.inl rfl) rfl rfl hx.samples, hr⟩
  case dmaNext =>
    obtain ⟨h1, h2⟩ := nl _ _ hm
    cases h2; cases h
    exact plain _ _ rfl (disciplined_chainNext s h1 hr)
  case ctxState =>
    cases hm; cases h
    exact ⟨BusRest.of s _ hx rfl (.inl rfl) (.inl rfl) rfl rfl hx.samples, hr⟩
  case completion =>
    cases h
    refine ⟨BusRest.of s _ hx rfl (.inl rfl) (.inl rfl) rfl rfl hx.samples, ?_⟩
    show disciplined (busMode s) r = true
    rcases busMode_cases s with ⟨b1, _⟩ | ⟨b1, _⟩ | ⟨b1, _⟩ <;> rw [b1] at hm ⊢ <;> simp [modeAfter] at hm
    subst hm; exact hr
  case leave =>
    obtain ⟨h1, h2⟩ := nl _ _ hm
    cases h
    exact ⟨BusRest.of s _ hx rfl (.inl rfl) (.inl rfl) rfl rfl hx.samples, by show (busMode s != .leaving) = true; simp [h1]⟩

theorem BusDiscipline.busRest {s : State} (h : BusDiscipline s) : BusRest s := ⟨h.exclusive, h.flightActive, h.enabledActive, h.samples⟩

theorem busMode_of_disciplined_nil {s : State} (h : disciplined (busMode s) [] = true) : busMode s ≠ .leaving := by
  simpa [disciplined] using h

/-- The first line of a command or event does the same. -/
theorem firstLine_disciplined {i : Instr} {s t : State} (h : BusDiscipline s) (h0 : s.todo = []) (hf : FirstLine s i t) :
    BusRest t ∧ disciplined (busMode t) t.todo = true := by
  have hn : busMode s ≠ .leaving := busMode_of_disciplined_nil (h0 ▸ h.lines)
  have R : BusRest s := h.busRest
  cases hf
  case raise => exact ⟨BusRest.of s _ R rfl (.inl rfl) (.inl rfl) rfl rfl R.samples, by show (busMode s != .leaving) = true; simp [hn]⟩
  case profile => exact ⟨BusRest.of s _ R rfl (.inl rfl) (.inl rfl) rfl rfl R.samples, by show disciplined (busMode s) (.initTest _ :: initBody s) = true; simp [initBody, disciplined, modeAfter, hn]⟩
  case spurious => exact ⟨BusRest.of s _ R rfl (.inl rfl) (.inl rfl) rfl rfl R.samples, by show (busMode s != .leaving) = true; simp [hn]⟩
  case readBlocking => exact ⟨BusRest.of s _ R rfl (.inl rfl) (.inl rfl) rfl rfl R.samples, by show disciplined (busMode s) (.busyTest false .read _ :: (blockingWork s .read _ ++ blockingBody .read)) = true; simp [blockingWork, blockingBody, arbManual, disciplined, modeAfter, hn]⟩
  case writeBlocking => exact ⟨BusRest.of s _ R rfl (.inl rfl) (.inl rfl) rfl rfl R.samples, by show disciplined (busMode s) (.busyTest false .write _ :: (blockingWork s .write _ ++ blockingBody .write)) = true; simp [blockingWork, blockingBody, arbManual, disciplined, modeAfter, hn]⟩
  case readDma e _ => exact ⟨BusRest.of s _ R rfl (.inl rfl) (.inl rfl) rfl rfl R.samples, by show disciplined (busMode s) (.busyTest true .read e :: dmaBody s .read e) = true; simp [dmaBody, disciplined, modeAfter, hn]⟩
  case writeDma e _ => exact ⟨BusRest.of s _ R rfl (.inl rfl) (.inl rfl) rfl rfl R.samples, by show disciplined (busMode s) (.busyTest true .write e :: dmaBody s .write e) = true; simp [dmaBody, disciplined, modeAfter, hn]⟩
  case manual => exact ⟨BusRest.of s _ R rfl (.inl rfl) (.inl rfl) rfl rfl R.samples, by show disciplined (busMode s) (arbManual .report) = true; simp [arbManual, disciplined, modeAfter, hn]⟩
  case auto => exact ⟨BusRest.of s _ R rfl (.inl rfl) (.inl rfl) rfl rfl R.samples, by show disciplined (busMode s) (arbAuto .report) = true; simp [arbAuto, disciplined, modeAfter]⟩
  case chain => exact ⟨BusRest.of s _ R rfl (.inl rfl) (.inl rfl) rfl rfl R.samples, by show disciplined (busMode s) completeBody = true; simp [completeBody, disciplined, modeAfter, hn]⟩

/-- After one line the ENGINE still executes, or nothing is left to do. -/
theorem runAct_idle {a r} {s t : State} (h : runAct a r s = .next t) (hs : s.exec = true ∨ s.handling = true) :
    t.exec = false → t.handling = false → t.todo = [] := by
  have key : t.exec = s.exec ∧ t.handling = s.handling ∨ t.todo = [] := by
    cases a <;> simp only [runAct] at h
    case ctl => left; have f := ctlOp_frame h; have e1 := congrArg State.exec f; have e2 := congrArg State.handling f; exact ⟨e1, e2⟩
    case popElem => left; have f := ctlOp_frame h; have e1 := congrArg State.exec f; have e2 := congrArg State.handling f; exact ⟨e1, e2⟩
    case wait => split at h <;> cases h <;> exact .inl ⟨rfl, rfl⟩
    case loop => split at h <;> cases h <;> exact .inl ⟨rfl, rfl⟩
    case fifoCheck => split at h <;> cases h; exact .inl ⟨rfl, rfl⟩
    case pumpWrite => split at h <;> cases h <;> exact .inl ⟨rfl, rfl⟩
    case pumpRead => split at h <;> cases h <;> exact .inl ⟨rfl, rfl⟩
    case dmaConfigure =>
      split at h
      · cases h
      · split at h <;> cases h <;> exact .inl ⟨rfl, rfl⟩
    case busyTest d w e => rcases busyTest_next (dma := d) (dir := w) (e := e) (r := r) h with rfl | ⟨-, rfl⟩ <;> simp
    case initTest p => rcases initTest_next (p0 := p) (r := r) h with ⟨c, rfl⟩ | ⟨-, -, rfl⟩ <;> simp
    case dmaEnable => unfold dmaEnableOp at h; split at h <;> cases h; exact .inl ⟨rfl, rfl⟩
    case dmaTrigger => unfold dmaTriggerOp at h; split at h <;> cases h; exact .inl ⟨rfl, rfl⟩
    case finish => cases h; right; rfl
    case leave => cases h; right; rfl
    case setProfile f => cases f <;> cases h <;> exact .inl ⟨rfl, rfl⟩
    all_goals (cases h; exact .inl ⟨rfl, rfl⟩)
  rcases key with ⟨h1, h2⟩ | h1
  · intro a b; rw [h1] at a; rw [h2] at b; simp [a, b] at hs
  · intro _ _; exact h1

/-- The same after the first line of a command or event. -/
theorem firstLine_idle {i} {s t : State} (h : FirstLine s i t) (hc : currentInstr s = some i) :
    t.exec = false → t.handling = false → t.todo = [] := by
  have : s.exec = true ∨ s.handling = true := by
    unfold currentInstr at hc
    by_cases a : s.handling = true
    · exact .inr a
    · by_cases b : s.exec = true
      · exact .inl b
      · simp [a, b] at hc
  cases h <;> intro a b <;> first | rfl | (exfalso; simp at a b; simp [a, b] at this)

end Sys2Proof.Machine
end

