-- ==== Sys2Proof/Laws/Lines.lean ====
section
/-! SUPPORT. Whose line the ENGINE runs next, and the controller mode its lines lead back to. -/

namespace Sys2Proof.Machine

/-- Line `x` may follow line `a`: it is anybody's, or it belongs to the operation `a` belongs to. -/
abbrev Heir (a x : Act) : Prop := owner x = .either ∨ owner x = owner a

theorem heir_phases (s : State) (dir a) (y) :
    ∀ x ∈ commandPhases s dir a ++ addressPhase s a ++ dummyPhase s dir, Heir y x := by
  intro x hx
  left
  rcases phaseLines hx with ⟨_, rfl⟩ | ⟨_, _, _, _, _, rfl⟩ | rfl | rfl <;> rfl

theorem heir_writeGroup (s : State) (b n e k keep) : ∀ x ∈ writeGroup s b n e k keep, Heir (.pumpWrite b n e k keep) x := by
  intro x hx
  simp only [List.mem_append, writeGroup, List.mem_map] at hx
  rcases hx with ⟨j, _, rfl⟩ | hx
  · right; rfl
  · simp at hx
    rcases hx with rfl | rfl | rfl
    · left; rfl
    · left; rfl
    · right; rfl

theorem heir_readGroup (s : State) (b n e k keep) : ∀ x ∈ readGroup s b n e k keep, Heir (.pumpRead b n e k keep) x := by
  intro x hx
  simp only [List.mem_append, readGroup, List.mem_flatMap] at hx
  rcases hx with (hx | ⟨j, _, hx⟩) | hx
  · simp at hx; subst hx; left; rfl
  · simp at hx; rcases hx with rfl | rfl
    · left; rfl
    · right; rfl
  · simp at hx; rcases hx with rfl | rfl
    · left; rfl
    · right; rfl

theorem heir_pump (s : State) (dir c) : ∀ x ∈ pump s dir c, Heir (.callPump dir c) x := by
  intro x hx
  cases dir <;> simp [pump] at hx <;> rcases hx with rfl | rfl | rfl | rfl <;> first | (left; rfl) | (right; rfl)

theorem heir_arbResult (m use b) : ∀ x ∈ arbSwitch m b ++ arbResult use b, Heir (.arbTest m use) x := by
  cases m <;> cases use <;> cases b <;> simp [arbSwitch, arbResult, Heir, owner]

theorem heir_chainNext (s : State) : ∀ x ∈ chainNext s, Heir .dmaNext x := by
  unfold chainNext
  split <;> simp [Heir, owner, callerOwner, arbAuto]

theorem heir_dmaFailure (b x c) : ∀ y ∈ dmaFailure b, Heir (.dmaConfigure b x c) y := by
  cases b <;> simp [dmaFailure, Heir, owner, callerOwner, arbAuto]

theorem heir_dmaStart (s : State) (b x c) : ∀ y ∈ dmaStart s x c, Heir (.dmaConfigure b x c) y := by
  simp [dmaStart, Heir, owner, arbManual]

/-- Every line after one line was there before or is its heir. -/
theorem runAct_heirs {a : Act} {r : List Act} {s t : State} (h : runAct a r s = .next t) (ht : s.todo = a :: r) :
    ∀ x ∈ t.todo, x ∈ r ∨ Heir a x := by
  have app : ∀ l : List Act, (∀ x ∈ l, Heir a x) → ∀ x ∈ l ++ r, x ∈ r ∨ Heir a x := by
    intro l hl x hx
    rcases List.mem_append.1 hx with hx | hx
    · exact .inr (hl x hx)
    · exact .inl hx
  have none' : ∀ x ∈ r, x ∈ r ∨ Heir a x := fun x hx => .inl hx
  cases a <;> simp only [runAct] at h
  case ctl => have f := ctlOp_frame h; rw [f]; exact none'
  case popElem ad e =>
    have f := ctlOp_frame h; rw [f]
    exact app [_] (by simp [Heir, owner])
  case wait =>
    split at h <;> cases h
    · exact none'
    · rw [ht]; exact app [_] (by simp [Heir])
  case loop dir =>
    split at h <;> cases h
    · exact none'
    · exact app [_, _] (by simp [Heir, owner])
  case fifoCheck => split at h <;> cases h; exact none'
  case pumpWrite b n e k keep =>
    split at h <;> cases h
    · exact app _ (heir_writeGroup _ _ _ _ _ _)
    · exact none'
  case pumpRead b n e k keep =>
    split at h <;> cases h
    · exact app _ (heir_readGroup _ _ _ _ _ _)
    · exact none'
  case dmaConfigure b x c =>
    split at h
    · cases h
    · split at h <;> cases h
      · exact fun y hy => .inr (heir_dmaFailure b x c y hy)
      · exact app _ (heir_dmaStart s b x c)
  case dmaEnable =>
    unfold dmaEnableOp at h
    split at h <;> cases h
    exact none'
  case dmaTrigger =>
    unfold dmaTriggerOp at h
    split at h <;> cases h
    exact none'
  case arbTest m use => cases h; exact app _ (heir_arbResult _ _ _)
  case plan dir =>
    cases h
    exact app [_, _, _, _, _, _] (by simp [Heir, owner])
  case caSeq dir a =>
    cases h
    intro x hx
    rcases List.mem_append.1 hx with hx | hx
    · exact .inr (heir_phases s dir a _ x (by simp [hx]))
    · exact app [_] (by simp [Heir, owner]) x hx
  case caAddr a => cases h; exact app _ fun x hx => heir_phases s .read a _ x (by simp [hx])
  case caDummy dir => cases h; exact app _ fun x hx => heir_phases s dir 0 _ x (by simp [hx])
  case callPump dir c => cases h; exact app _ (heir_pump _ _ _)
  case pushElem => cases h; exact app [_] (by simp [Heir, owner])
  case restore =>
    cases h
    exact app _ (by split <;> simp [arbAuto, Heir, owner])
  case dmaIssue b x => cases h; exact app [_] (by simp [Heir, owner])
  case dmaPlan b x => cases h; exact app [_] (by simp [Heir, owner])
  case dmaArm b x c => cases h; exact app [_] (by simp [Heir, owner])
  case dmaNext => cases h; exact app _ (heir_chainNext s)
  case finish => cases h; exact fun x hx => by cases hx
  case leave => cases h; exact fun x hx => by cases hx
  case setProfile f => cases f <;> cases h <;> exact none'
  case busyTest d w e =>
    rcases busyTest_next (dma := d) (dir := w) (e := e) (r := r) h with rfl | ⟨-, rfl⟩
    · exact fun x hx => by cases hx
    · exact none'
  case initTest p =>
    rcases initTest_next (p0 := p) (r := r) h with ⟨c, rfl⟩ | ⟨-, -, rfl⟩
    · exact fun x hx => by cases hx
    · exact none'
  all_goals (cases h; exact none')

/-- One line leaves `exec` and `handling`, unless it finishes the command or leaves the event. -/
theorem runAct_flags {a : Act} {r : List Act} {s t : State} (h : runAct a r s = .next t) :
    (t.exec = s.exec ∧ t.handling = s.handling) ∨
    (∃ c p, owner a = .command ∧ t = { s.finish c p with race := t.race }) ∨ (a = .leave ∧ t = s.leaveEvent) := by
  cases a <;> simp only [runAct] at h
  case busyTest d w e =>
    rcases busyTest_next (dma := d) (dir := w) (e := e) (r := r) h with rfl | ⟨-, rfl⟩
    · exact .inr (.inl ⟨_, _, rfl, rfl⟩)
    · exact .inl ⟨rfl, rfl⟩
  case initTest p =>
    rcases initTest_next (p0 := p) (r := r) h with ⟨c, rfl⟩ | ⟨-, -, rfl⟩
    · exact .inr (.inl ⟨_, _, rfl, rfl⟩)
    · exact .inl ⟨rfl, rfl⟩
  case ctl => left; have f := ctlOp_frame h; rw [f]; exact ⟨rfl, rfl⟩
  case popElem => left; have f := ctlOp_frame h; rw [f]; exact ⟨rfl, rfl⟩
  case wait => split at h <;> cases h <;> exact .inl ⟨rfl, rfl⟩
  case loop => split at h <;> cases h <;> exact .inl ⟨rfl, rfl⟩
  case fifoCheck => split at h <;> cases h; exact .inl ⟨rfl, rfl⟩
  case pumpWrite => split at h <;> cases h <;> exact .inl ⟨rfl, rfl⟩
  case pumpRead => split at h <;> cases h <;> exact .inl ⟨rfl, rfl⟩
  case dmaConfigure =>
    split at h
    · cases h
    · split at h <;> cases h <;> exact .inl ⟨rfl, rfl⟩
  case dmaEnable => unfold dmaEnableOp at h; split at h <;> cases h; exact .inl ⟨rfl, rfl⟩
  case dmaTrigger => unfold dmaTriggerOp at h; split at h <;> cases h; exact .inl ⟨rfl, rfl⟩
  case finish => cases h; exact .inr (.inl ⟨_, _, rfl, rfl⟩)
  case leave => cases h; exact .inr (.inr ⟨rfl, rfl⟩)
  case setProfile f => cases f <;> cases h <;> exact .inl ⟨rfl, rfl⟩
  all_goals (cases h; exact .inl ⟨rfl, rfl⟩)

/-- What executes: the event being handled, else the latched command. -/
theorem currentInstr_flags {s : State} {i} (hc : currentInstr s = some i) :
    s.handling = true ∧ i = .evtDmaComplete (BitVec.ofNat 4 s.cfg.dmaChannel) ∨ s.handling = false ∧ s.exec = true ∧ i = decodeCmd s.latch.cmd := by
  unfold currentInstr at hc
  by_cases a : s.handling = true
  · left; simp [a] at hc; exact ⟨a, hc.symm⟩
  · by_cases b : s.exec = true
    · right; simp [a, b] at hc; exact ⟨by simpa using a, b, hc.symm⟩
    · simp [a, b] at hc

/-- The lines that a first line starts belong to its own operation. -/
theorem firstLine_owner {i : Instr} {s t : State} (h : FirstLine s i t) :
    ∀ x ∈ t.todo, owner x = .either ∨ owner x = (match portOf i with | .cmd => .command | .evt => .event) := by
  cases h <;> simp [State.finish, State.leaveEvent, State.goto, initBody, blockingWork, blockingBody, arbManual, arbAuto, dmaBody, completeBody, owner, portOf, callerOwner]

/-- A first line leaves `exec` and `handling`, or ends its own operation. -/
theorem firstLine_flags {i : Instr} {s t : State} (h : FirstLine s i t) :
   (t.exec = s.exec ∧ t.handling = s.handling) ∨ (portOf i = .cmd ∧ t.todo = [] ∧ t.exec = false ∧ t.handling = s.handling) ∨ (portOf i = .evt ∧ t.todo = [] ∧ t.handling = false ∧ t.exec = s.exec) := by
  cases h
  case raise hp => right; left; exact ⟨hp, rfl, rfl, rfl⟩
  case spurious => right; right; exact ⟨rfl, rfl, rfl, rfl⟩
  all_goals exact .inl ⟨rfl, rfl⟩

variable {v : Bool}

/-- Line `a` says nothing about the controller mode. -/
def Silent (v : Bool) (a : Act) : Prop := ∀ en p r, restoresMode v en p (a :: r) = restoresMode v en p r

theorem restoresMode_append_silent {l : List Act} (h : ∀ a ∈ l, Silent v a) (en p r) : restoresMode v en p (l ++ r) = restoresMode v en p r := by
  induction l with
  | nil => rfl
  | cons a l ih =>
    rw [List.cons_append, h a (by simp) en p]
    exact ih fun b hb => h b (by simp [hb])

theorem silent_phases (s : State) (dir a) :
    ∀ x ∈ commandPhases s dir a ++ addressPhase s a ++ dummyPhase s dir, Silent v x := by
  intro x hx en p r
  rcases phaseLines hx with ⟨_, rfl⟩ | ⟨_, _, _, _, _, rfl⟩ | rfl | rfl <;> rfl

theorem silent_writeGroup (s : State) (b n e k keep) : ∀ x ∈ writeGroup s b n e k keep, Silent v x := by
  intro x hx en p r
  simp only [List.mem_append, writeGroup, List.mem_map] at hx
  rcases hx with ⟨j, _, rfl⟩ | hx
  · rfl
  · simp at hx
    rcases hx with rfl | rfl | rfl <;> rfl

theorem silent_readGroup (s : State) (b n e k keep) : ∀ x ∈ readGroup s b n e k keep, Silent v x := by
  intro x hx en p r
  simp only [List.mem_append, readGroup, List.mem_flatMap] at hx
  rcases hx with (hx | ⟨j, _, hx⟩) | hx
  · simp at hx; subst hx; rfl
  · simp at hx; rcases hx with rfl | rfl <;> rfl
  · simp at hx; rcases hx with rfl | rfl <;> rfl

theorem silent_pump (s : State) (dir c) : ∀ x ∈ pump s dir c, Silent v x := by
  intro x hx en p r
  cases dir <;> simp [pump] at hx <;> rcases hx with rfl | rfl | rfl | rfl <;> rfl

/-- `ctl(op)` does to the mode what its line foresees. -/
theorem ctlOp_restoresMode {s t : State} {c o} (h : ctlOp s c = .next t) (r) :
    restoresMode v s.autoEn s.work.prior (.ctl o c :: r) = restoresMode v t.autoEn t.work.prior r := by
  have f := ctlOp_frame h
  have hw : t.work = s.work := by rw [f]
  rw [hw]
  obtain ⟨u, hu, rfl⟩ := ctlOp_next h
  have hq := ctlEffect_next hu
  cases c with
  | setAutoEn b => cases hq; rfl
  | setWidth => obtain ⟨_, rfl⟩ := hq; rfl
  | setElem => cases hq; rfl
  | phaseTx => obtain ⟨_, _, _, rfl⟩ := hq; simp [restoresMode]
  | trigger => obtain ⟨_, _, _, _, rfl⟩ := hq; simp [restoresMode]
  | fifoWrite => obtain ⟨_, rfl⟩ := hq; rfl
  | fifoRead => obtain ⟨_, _, _, rfl⟩ := hq; rfl
  | deassertCs => obtain ⟨_, rfl⟩ := hq; simp [restoresMode]

/-- One line keeps `restoresMode`: the lines left still end a blocking transfer in mode `v`. -/
theorem runAct_restoresMode {a : Act} {r : List Act} {s t : State} (h : runAct a r s = .next t) (ht : s.todo = a :: r)
    (hm : restoresMode v s.autoEn s.work.prior (a :: r) = true) : restoresMode v t.autoEn t.work.prior t.todo = true := by
  cases a <;> simp only [runAct] at h
  case ctl o c =>
    rw [← ctlOp_restoresMode (o := o) h]
    have f := ctlOp_frame h
    have e : t.todo = r := by rw [f]; rfl
    rw [e]; exact hm
  case popElem ad e =>
    have := ctlOp_restoresMode (v := v) (o := .pumpRead) h t.todo
    have f := ctlOp_frame h
    have e : t.todo = .store ad e (fifoHead s e) :: r := by rw [f]; rfl
    rw [← this]; rw [e]; exact hm
  case wait =>
    split at h <;> cases h
    · exact hm
    · rw [ht]; exact hm
  case loop dir => split at h <;> cases h <;> exact hm
  case fifoCheck => split at h <;> cases h; exact hm
  case pumpWrite b n e k keep =>
    split at h <;> cases h
    · show restoresMode v s.autoEn s.work.prior (_ ++ r) = true
      rw [restoresMode_append_silent (silent_writeGroup _ _ _ _ _ _)]; exact hm
    · exact hm
  case pumpRead b n e k keep =>
    split at h <;> cases h
    · show restoresMode v s.autoEn s.work.prior (_ ++ r) = true
      rw [restoresMode_append_silent (silent_readGroup _ _ _ _ _ _)]; exact hm
    · exact hm
  case dmaConfigure b x c =>
    split at h
    · cases h
    · split at h <;> cases h
      · show restoresMode v s.autoEn s.work.prior (dmaFailure b) = true
        cases b <;> simp [dmaFailure, arbAuto, restoresMode]
      · show restoresMode v s.autoEn s.work.prior (dmaStart s x c ++ r) = true
        simpa [dmaStart, arbManual, restoresMode] using hm
  case dmaEnable => unfold dmaEnableOp at h; split at h <;> cases h; exact hm
  case dmaTrigger => unfold dmaTriggerOp at h; split at h <;> cases h; exact hm
  case arbTest m use =>
    cases h
    show restoresMode v s.autoEn s.work.prior (_ ++ _ ++ r) = true
    cases m <;> cases use <;> cases he : s.autoEn <;> simp_all [arbSwitch, arbResult, restoresMode]
  case plan dir => cases h; exact hm
  case caSeq dir a =>
    cases h
    show restoresMode v s.autoEn s.work.prior (_ ++ _ :: r) = true
    rw [restoresMode_append_silent fun x hx => silent_phases s dir a x (by simp [hx])]
    exact hm
  case caAddr a =>
    cases h
    show restoresMode v s.autoEn s.work.prior (_ ++ r) = true
    rw [restoresMode_append_silent fun x hx => silent_phases s .read a x (by simp [hx])]
    exact hm
  case caDummy dir =>
    cases h
    show restoresMode v s.autoEn s.work.prior (_ ++ r) = true
    rw [restoresMode_append_silent fun x hx => silent_phases s dir 0 x (by simp [hx])]
    exact hm
  case callPump dir c =>
    cases h
    show restoresMode v s.autoEn s.work.prior (_ ++ r) = true
    rw [restoresMode_append_silent (silent_pump _ _ _)]
    exact hm
  case busyTest d w e =>
    rcases busyTest_next (dma := d) (dir := w) (e := e) (r := r) h with rfl | ⟨-, rfl⟩
    · rfl
    · exact hm
  case initTest p =>
    rcases initTest_next (p0 := p) (r := r) h with ⟨c, rfl⟩ | ⟨-, -, rfl⟩
    · rfl
    · exact hm
  case restore =>
    cases h
    show restoresMode v s.autoEn s.work.prior (_ ++ r) = true
    split <;> simp_all [arbAuto, restoresMode]
  case dmaNext =>
    cases h
    show restoresMode v s.autoEn s.work.prior (chainNext s ++ r) = true
    simp [restoresMode] at hm
    unfold chainNext
    split <;> simp [arbAuto, restoresMode, hm]
  case finish => cases h; rfl
  case leave => cases h; rfl
  case setWork f => cases f <;> cases h <;> exact hm
  case setProfile f => cases f <;> cases h <;> exact hm
  all_goals (cases h; exact hm)

end Sys2Proof.Machine
end

