-- ==== Sys2Proof/Laws/Past.lean ====
section
/-! SUPPORT. The values a device byte held before (60_exceptions R296): what each write records, and what a read of
the auto path may return. -/

namespace Sys2Proof.Machine

/-- One received data byte of a write, then the rest. -/
theorem deviceReceive_write {s : State} {a i : Nat} (hp : s.parser = .writeData a i) (n : Nat) (b : Byte)
    (l : List Byte) :
    deviceReceive s (8 * (n + 1)) (b :: l) =
      deviceReceive { psramPut s (deviceAddr s a i) b with parser := .writeData a (i + 1) } (8 * n) l := by
  rw [deviceReceive, if_neg (by omega), show 8 * (n + 1) - 8 = 8 * n by omega]
  simp [deviceByte, hp]

/-- A write's data bytes: each records what its address held right before it. -/
theorem deviceReceive_past {s : State} {a i : Nat} {bs : List Byte} (hp : s.parser = .writeData a i) (c : Nat × Byte) :
    c ∈ (deviceReceive s (8 * bs.length) bs).psramPast ↔ c ∈ s.psramPast
      ∨ ∃ k < bs.length, c = (deviceAddr s a (i + k),
        (deviceReceive s (8 * k) (bs.take k)).psram.get (deviceAddr s a (i + k))) := by
  induction bs generalizing s i with
  | nil => simp [deviceReceive]
  | cons b bs ih =>
    have e := fun n l => deviceReceive_write hp n b l
    have ha : ∀ x, deviceAddr { psramPut s (deviceAddr s a i) b with parser := .writeData a (i + 1) } a x =
        deviceAddr s a x := fun _ => rfl
    rw [List.length_cons, e, ih rfl]
    simp only [ha]
    constructor
    · rintro (h | ⟨k, hk, h⟩)
      · rcases List.mem_cons.mp (show c ∈ (deviceAddr s a i, _) :: s.psramPast from h) with h | h
        · exact .inr ⟨0, by omega, h⟩
        · exact .inl h
      · refine .inr ⟨k + 1, by omega, ?_⟩
        rw [List.take_succ_cons, e, show i + (k + 1) = i + 1 + k by omega]
        exact h
    · rintro (h | ⟨k, hk, rfl⟩)
      · exact .inl (List.mem_cons_of_mem _ h)
      · cases k with
        | zero => exact .inl (List.mem_cons_self (l := s.psramPast))
        | succ k =>
          refine .inr ⟨k, by omega, ?_⟩
          rw [List.take_succ_cons, e, show i + (k + 1) = i + 1 + k by omega]

/-- An auto write: each byte records what its address held. -/
theorem autoPut_past {s : State} {a : Nat} {bs : List Byte} (c : Nat × Byte) :
    c ∈ (autoPut s a bs).psramPast ↔
      c ∈ s.psramPast ∨ ∃ j < bs.length, c = (a + j, s.psram.get (a + j)) := by
  induction bs generalizing s a with
  | nil => simp [autoPut]
  | cons b bs ih =>
    have g : ∀ j, (psramPut s a b).psram.get (a + 1 + j) = s.psram.get (a + 1 + j) := fun j =>
      Memory.get_put_other s.psram b (by omega)
    rw [autoPut, ih]
    simp only [g]
    constructor
    · rintro (h | ⟨k, hk, h⟩)
      · rcases List.mem_cons.mp (show c ∈ (a, _) :: s.psramPast from h) with h | h
        · exact .inr ⟨0, by simp, h⟩
        · exact .inl h
      · exact .inr ⟨k + 1, by simpa using hk, by rw [show a + (k + 1) = a + 1 + k by omega]; exact h⟩
    · rintro (h | ⟨k, hk, rfl⟩)
      · exact .inl (List.mem_cons_of_mem _ h)
      · cases k with
        | zero => exact .inl (List.mem_cons_self (l := s.psramPast))
        | succ k =>
          exact .inr ⟨k, by simpa using hk, by rw [show a + 1 + k = a + (k + 1) by omega]⟩

/-- The values of a byte are its current one and those recorded. -/
theorem mem_valuesAt {s : State} {a : Nat} {v : Byte} :
    v ∈ valuesAt s a ↔ v = s.psram.get a ∨ (a, v) ∈ s.psramPast := by
  simp only [valuesAt, List.mem_cons, List.mem_map, List.mem_filter, beq_iff_eq]
  refine or_congr_right ⟨?_, fun h => ⟨(a, v), ⟨h, rfl⟩, rfl⟩⟩
  rintro ⟨⟨b, w⟩, ⟨h, rfl⟩, rfl⟩
  exact h

/-- A byte an auto read returns is one of its values, whatever AUTO_PATH_COHERENT is. -/
theorem autoByte_mem (s : State) (a i : Nat) : autoByte s a i ∈ valuesAt s (a + i) := by
  unfold autoByte
  split
  · exact List.mem_cons_self
  · have hlt : Config.freePick s.tick i % (valuesAt s (a + i)).length < (valuesAt s (a + i)).length :=
      Nat.mod_lt _ (by simp [valuesAt])
    simp only [List.getD, List.getElem?_eq_getElem hlt, Option.getD_some]
    exact List.getElem_mem hlt

end Sys2Proof.Machine
end

