-- ==== Sys2Proof/Laws/PerInstr.lean ====
section
/-! SUPPORT. For every instruction: its word against the opcode table. Family TableMatch says that the word
of a well-formed instruction matches the row of its own mnemonic and no other row of its input; an illegal
word matches none (30_encoding R102, R104, R105, R120). -/

namespace Sys2Proof.Laws.TableMatch

/-- One row of spec/opcode_table.json that has a mask: its mnemonic, its input, and its bits. -/
structure Row where
  mnemonic : String
  port : Port
  mask : Word
  value : Word
  deriving DecidableEq, Repr

/-- The rows with a mask, in the table's order. ILLEGAL has none: it is every CMD word no row matches. -/
def rows : List Row :=
  [⟨"INIT", .cmd, 0xFFFFFFFF#32, 0x00000001#32⟩,
    ⟨"READ_BLOCKING", .cmd, 0xFFFFFF8F#32, 0x00000002#32⟩,
    ⟨"WRITE_BLOCKING", .cmd, 0xFFFFFF8F#32, 0x00000003#32⟩,
    ⟨"READ_DMA", .cmd, 0xFFFFFF8F#32, 0x00000004#32⟩,
    ⟨"WRITE_DMA", .cmd, 0xFFFFFF8F#32, 0x00000005#32⟩,
    ⟨"ENTER_MANUAL", .cmd, 0xFFFFFFFF#32, 0x00000006#32⟩,
    ⟨"ENTER_AUTO", .cmd, 0xFFFFFFFF#32, 0x00000007#32⟩,
    ⟨"EVT_DMA_COMPLETE", .evt, 0x0000000F#32, 0x00000001#32⟩]

/-- The mnemonic of an instruction's row. -/
def mnemonicOf : Instr → String
  | .init => "INIT"
  | .readBlocking _ => "READ_BLOCKING"
  | .writeBlocking _ => "WRITE_BLOCKING"
  | .readDma _ => "READ_DMA"
  | .writeDma _ => "WRITE_DMA"
  | .enterManual => "ENTER_MANUAL"
  | .enterAuto => "ENTER_AUTO"
  | .illegal _ => "ILLEGAL"
  | .evtDmaComplete _ => "EVT_DMA_COMPLETE"

/-- The mnemonics of the rows of an input that a word matches. -/
def matching (p : Port) (w : Word) : List String :=
  (rows.filter (fun r => r.port == p && w &&& r.mask == r.value)).map Row.mnemonic

/-- A well-formed instruction's word matches its own row and no other; ILLEGAL's matches none. -/
def Statement (i : Instr) : Prop :=
  i.wf = true →
    matching (portOf i) (encode i) = if mnemonicOf i = "ILLEGAL" then [] else [mnemonicOf i]

theorem init : Statement .init := fun _ => by decide

theorem readBlocking (esz : BitVec 3) : Statement (.readBlocking esz) := by
  revert esz; unfold Statement; decide

theorem writeBlocking (esz : BitVec 3) : Statement (.writeBlocking esz) := by
  revert esz; unfold Statement; decide

theorem readDma (esz : BitVec 3) : Statement (.readDma esz) := by
  revert esz; unfold Statement; decide

theorem writeDma (esz : BitVec 3) : Statement (.writeDma esz) := by
  revert esz; unfold Statement; decide

theorem enterManual : Statement .enterManual := fun _ => by decide

theorem enterAuto : Statement .enterAuto := fun _ => by decide

/-- A word that matches a row of a transfer command has that row's reserved bits and OP. -/
theorem fields_of_opcode {w v : Word} (h : w &&& 0xFFFFFF8F#32 = v) :
    w.extractLsb' 7 25 = v.extractLsb' 7 25 ∧ w.extractLsb' 0 4 = v.extractLsb' 0 4 := by
  subst h
  refine ⟨?_, ?_⟩ <;> apply BitVec.eq_of_getLsbD_eq <;> intro k hk <;> revert hk <;> revert k <;>
    simp only [BitVec.getLsbD_extractLsb', BitVec.getLsbD_and] <;> intro k hk
  · have : (0xFFFFFF8F#32).getLsbD (7 + k) = true := by revert hk; revert k; decide
    simp [this]
  · have : (0xFFFFFF8F#32).getLsbD k = true := by revert hk; revert k; decide
    simp [this]

theorem illegal (w : Word) : Statement (.illegal w) := by
  intro h
  have whole : ∀ v : Word, illegalWord v = false → w ≠ v := fun v hv e => by
    subst e; simp [Instr.wf, hv] at h
  have byFields : ∀ v : Word, v.extractLsb' 7 25 = 0#25 →
      (v.extractLsb' 0 4).toNat ∈ [2, 3, 4, 5] → w &&& 0xFFFFFF8F#32 ≠ v := fun v hr ho e => by
    obtain ⟨h1, h2⟩ := fields_of_opcode e
    rw [← h2] at ho
    have hl : illegalWord w = false := by
      rw [hr] at h1
      unfold illegalWord
      rw [h1]
      generalize w.extractLsb' 0 4 = o at ho ⊢
      generalize w.extractLsb' 4 3 = z
      revert o z; decide
    simp [Instr.wf, hl] at h
  have hi := whole 0x00000001#32 (by decide)
  have hm := whole 0x00000006#32 (by decide)
  have ha := whole 0x00000007#32 (by decide)
  have h2 := byFields 0x00000002#32 (by decide) (by decide)
  have h3 := byFields 0x00000003#32 (by decide) (by decide)
  have h4 := byFields 0x00000004#32 (by decide) (by decide)
  have h5 := byFields 0x00000005#32 (by decide) (by decide)
  have hw : w &&& 0xFFFFFFFF#32 = w := BitVec.and_allOnes
  simp [matching, rows, mnemonicOf, encode, portOf, hw, hi, hm, ha, h2, h3, h4, h5]

theorem evtDmaComplete (ch : BitVec 4) : Statement (.evtDmaComplete ch) := by
  revert ch; unfold Statement; decide

end Sys2Proof.Laws.TableMatch
end

