-- ==== Sys2Proof/Laws/Profile.lean ====
section
/-! SUPPORT. The profile invariant and the ENGINE's lines: INIT's assignments lead to a loaded profile, and no
other line has to do with it (45_command_interface R265, R266). -/

namespace Sys2Proof.Machine

/-- Lines that write nothing of the profile keep the test of the others. -/
theorem profileLines_append {p : Config.Params} {d : Bool} {a0 : Word} {ab : BitVec 3} {e : Enc}
    {l r : List Act} (h : ∀ a ∈ l, profileField a = none) (hr : profileLines p d a0 ab e r = true) :
    profileLines p d a0 ab e (l ++ r) = true := by
  induction l with
  | nil => exact hr
  | cons a l ih =>
    rw [List.cons_append, profileLines, h a (by simp)]
    simp [ih fun b hb => h b (by simp [hb])]

theorem profileField_phases (s : State) (dir : Dir) (a : Nat) :
    ∀ x ∈ commandPhases s dir a ++ addressPhase s a ++ dummyPhase s dir, profileField x = none := by
  intro x hx
  rcases phaseLines hx with ⟨_, rfl⟩ | ⟨_, _, _, _, _, rfl⟩ | rfl | rfl <;> rfl

theorem profileField_writeGroup (s : State) (b n e k : Nat) (keep : Bool) :
    ∀ x ∈ writeGroup s b n e k keep, profileField x = none := by
  intro x hx
  simp only [List.mem_append, writeGroup, List.mem_map] at hx
  rcases hx with ⟨j, _, rfl⟩ | hx
  · rfl
  · simp at hx
    rcases hx with rfl | rfl | rfl <;> rfl

theorem profileField_readGroup (s : State) (b n e k : Nat) (keep : Bool) :
    ∀ x ∈ readGroup s b n e k keep, profileField x = none := by
  intro x hx
  simp only [List.mem_append, readGroup, List.mem_flatMap] at hx
  rcases hx with (hx | ⟨j, _, hx⟩) | hx
  · simp at hx
    subst hx
    rfl
  · simp at hx
    rcases hx with rfl | rfl <;> rfl
  · simp at hx
    rcases hx with rfl | rfl <;> rfl

theorem profileField_pump (s : State) (dir : Dir) (c : Nat) :
    ∀ x ∈ pump s dir c, profileField x = none := by
  cases dir <;> simp [pump, profileField]

theorem profileField_arb (m : ArbMode) (use : ArbUse) (b : Bool) :
    ∀ x ∈ arbSwitch m b ++ arbResult use b, profileField x = none := by
  cases m <;> cases use <;> cases b <;> simp [arbSwitch, arbResult, profileField]

theorem profileField_dmaStart (s : State) (x : IssueArgs) (c : Nat) :
    ∀ y ∈ dmaStart s x c, profileField y = none := by
  simp [dmaStart, arbManual, profileField]

theorem profileField_chainNext (s : State) : ∀ x ∈ chainNext s, profileField x = none := by
  unfold chainNext
  split <;> simp [arbAuto, profileField]

theorem profileField_restore (b : Bool) :
    ∀ x ∈ (if b then arbAuto .drop else []), profileField x = none := by
  cases b <;> simp [arbAuto, profileField]

/-- The two clauses of `ProfileInitialized` read the profile, INIT_DONE and the lines left alone. -/
theorem ProfileInitialized.of {s t : State} (h : ProfileInitialized s) (h0 : t.cfg = s.cfg)
    (h1 : t.initDone = s.initDone) (h2 : t.act0 = s.act0) (h3 : t.addrBytes = s.addrBytes)
    (h4 : t.enc = s.enc)
    (h5 : profileLines s.cfg s.initDone s.act0 s.addrBytes s.enc t.todo = true) : ProfileInitialized t := by
  refine ⟨fun hi => ?_, by rw [h0, h1, h2, h3, h4]; exact h5⟩
  rw [h1] at hi
  obtain ⟨p1, p2, p3⟩ := h.1 hi
  exact ⟨by rw [h0, h2]; exact p1, by rw [h3, h2]; exact p2, by rw [h4, h2]; exact p3⟩

/-- One line keeps the profile invariant. -/
theorem runAct_profile {a : Act} {r : List Act} {s t : State} (h : runAct a r s = .next t)
    (hp : ProfileInitialized s) (ht : s.todo = a :: r) : ProfileInitialized t := by
  have h2 := hp.2
  rw [ht, profileLines] at h2
  by_cases hf : ∃ f, a = .setProfile f
  · obtain ⟨f, rfl⟩ := hf
    cases h
    cases f <;> simp only [profileField, Bool.and_eq_true, Bool.not_eq_true', decide_eq_true_eq] at h2
    case done =>
      obtain ⟨⟨⟨⟨_, h3⟩, h4⟩, h5⟩, h6⟩ := h2
      exact ⟨fun _ => ⟨h3, h4, h5⟩, h6⟩
    all_goals
      refine ⟨fun hi => ?_, h2.2⟩
      exact absurd (h2.1.symm.trans hi) (by decide)
  · have hr : profileField a = none := by
      cases a <;> first | rfl | exact absurd ⟨_, rfl⟩ hf
    rw [hr] at h2
    by_cases hi : ∃ p0, a = .initTest p0
    · obtain ⟨p0, rfl⟩ := hi
      rcases initTest_next h with ⟨c, rfl⟩ | ⟨h1, h3, rfl⟩
      · exact hp.of rfl rfl rfl rfl rfl rfl
      · exact hp.of rfl rfl rfl rfl rfl (by simpa [testFails, h1, h3] using h2)
    replace h2 : profileLines s.cfg s.initDone s.act0 s.addrBytes s.enc r = true := by
      cases a <;> first | exact h2 | exact absurd ⟨_, rfl⟩ hi
    have add : ∀ l : List Act, (∀ x ∈ l, profileField x = none) →
        profileLines s.cfg s.initDone s.act0 s.addrBytes s.enc (l ++ r) = true := fun l hl =>
      profileLines_append hl h2
    cases a <;> simp only [runAct] at h
    case setProfile => exact absurd ⟨_, rfl⟩ hf
    case initTest => exact absurd ⟨_, rfl⟩ hi
    case busyTest d w e =>
      rcases busyTest_next (dma := d) (dir := w) (e := e) (r := r) h with rfl | ⟨-, rfl⟩
      · exact hp.of rfl rfl rfl rfl rfl rfl
      · exact hp.of rfl rfl rfl rfl rfl h2
    case ctl => have f := ctlOp_frame h; rw [f]; exact hp.of rfl rfl rfl rfl rfl h2
    case popElem =>
      have f := ctlOp_frame h
      rw [f]
      exact hp.of rfl rfl rfl rfl rfl (add [_] (by simp [profileField]))
    case wait =>
      split at h <;> cases h
      · exact hp.of rfl rfl rfl rfl rfl h2
      · exact hp
    case loop =>
      split at h <;> cases h
      · exact hp.of rfl rfl rfl rfl rfl h2
      · exact hp.of rfl rfl rfl rfl rfl (add [_, _] (by simp [profileField]))
    case fifoCheck => split at h <;> cases h; exact hp.of rfl rfl rfl rfl rfl h2
    case pumpWrite =>
      split at h <;> cases h
      · exact hp.of rfl rfl rfl rfl rfl (add _ (profileField_writeGroup _ _ _ _ _ _))
      · exact hp.of rfl rfl rfl rfl rfl h2
    case pumpRead =>
      split at h <;> cases h
      · exact hp.of rfl rfl rfl rfl rfl (add _ (profileField_readGroup _ _ _ _ _ _))
      · exact hp.of rfl rfl rfl rfl rfl h2
    case dmaConfigure by_ x c =>
      split at h
      · cases h
      · split at h <;> cases h
        · refine hp.of rfl rfl rfl rfl rfl ?_
          cases by_ <;> rfl
        · exact hp.of rfl rfl rfl rfl rfl (add _ (profileField_dmaStart _ _ _))
    case dmaEnable => unfold dmaEnableOp at h; split at h <;> cases h; exact hp.of rfl rfl rfl rfl rfl h2
    case dmaTrigger => unfold dmaTriggerOp at h; split at h <;> cases h; exact hp.of rfl rfl rfl rfl rfl h2
    case arbTest => cases h; exact hp.of rfl rfl rfl rfl rfl (add _ (profileField_arb _ _ _))
    case plan dir =>
      cases h
      exact hp.of rfl rfl rfl rfl rfl (add [_, _, _, _, _, _] (by simp [profileField]))
    case caSeq dir a =>
      cases h
      exact hp.of rfl rfl rfl rfl rfl (profileLines_append
        (fun x hx => profileField_phases s dir a x (by simp [hx])) (add [_] (by simp [profileField])))
    case caAddr a =>
      cases h
      exact hp.of rfl rfl rfl rfl rfl (add _ fun x hx => profileField_phases s .read a x (by simp [hx]))
    case caDummy dir =>
      cases h
      exact hp.of rfl rfl rfl rfl rfl (add _ fun x hx => profileField_phases s dir 0 x (by simp [hx]))
    case callPump dir c => cases h; exact hp.of rfl rfl rfl rfl rfl (add _ (profileField_pump _ _ _))
    case pushElem => cases h; exact hp.of rfl rfl rfl rfl rfl (add [_] (by simp [profileField]))
    case restore => cases h; exact hp.of rfl rfl rfl rfl rfl (add _ (profileField_restore _))
    case dmaIssue => cases h; exact hp.of rfl rfl rfl rfl rfl (add [_] (by simp [profileField]))
    case dmaPlan => cases h; exact hp.of rfl rfl rfl rfl rfl (add [_] (by simp [profileField]))
    case dmaArm => cases h; exact hp.of rfl rfl rfl rfl rfl (add [_] (by simp [profileField]))
    case dmaNext => cases h; exact hp.of rfl rfl rfl rfl rfl (add _ (profileField_chainNext _))
    case finish => cases h; exact hp.of rfl rfl rfl rfl rfl rfl
    case leave => cases h; exact hp.of rfl rfl rfl rfl rfl rfl
    all_goals (cases h; exact hp.of rfl rfl rfl rfl rfl h2)

/-- The first line of a command or event keeps it: INIT's starts the assignments (R265). -/
theorem firstLine_profile {i : Instr} {s t : State} (h : FirstLine s i t) (hp : ProfileInitialized s) :
    ProfileInitialized t := by
  cases h
  case profile =>
    refine hp.of rfl rfl rfl rfl rfl ?_
    simp only [State.goto, initBody, profileLines, profileField, testFails]
    cases s.initDone <;> cases profileOk s.cfg s.latch.prof0 <;> simp
  all_goals exact hp.of rfl rfl rfl rfl rfl rfl

end Sys2Proof.Machine
end

