-- ==== Sys2Proof/Laws/Pumps.lean ====
section
/-! SUPPORT. What the pumps lay out: the triggers of a group, and where the next group begins (40_phase_driver
R142 to R144). -/

namespace Sys2Proof.Machine

@[simp] theorem triggersOf_nil : triggersOf [] = [] := rfl

@[simp] theorem triggersOf_append (l r : List Act) : triggersOf (l ++ r) = triggersOf l ++ triggersOf r :=
  List.filterMap_append

theorem triggersOf_pushElems (f : Nat → Nat) (e : Nat) (l : List Nat) :
    triggersOf (l.map (fun j => Act.pushElem (f j) e)) = [] := by
  induction l with
  | nil => rfl
  | cons x l ih => exact ih

theorem triggersOf_popElems (f : Nat → Nat) (e : Nat) (l : List Nat) :
    triggersOf (l.flatMap (fun j => [Act.wait .pumpRead .fifoReady, .popElem (f j) e])) = [] := by
  induction l with
  | nil => rfl
  | cons x l ih => exact ih

/-- A group of PUMP_WRITE has one trigger (R142). -/
theorem triggersOf_writeGroup (s : State) (b n e k : Nat) (keep : Bool) :
    triggersOf (writeGroup s b n e k keep) =
      [(8 * e * groupSize s n k, decide (k + groupSize s n k ≠ n) || keep)] := by
  simp only [writeGroup, triggersOf_append, triggersOf_pushElems, List.nil_append]
  rfl

/-- A group of PUMP_READ has one trigger (R143). -/
theorem triggersOf_readGroup (s : State) (b n e k : Nat) (keep : Bool) :
    triggersOf (readGroup s b n e k keep) =
      [(8 * e * groupSize s n k, decide (k + groupSize s n k ≠ n) || keep)] := by
  simp only [readGroup, triggersOf_append, triggersOf_popElems, List.append_nil]
  rfl

theorem pumpNext_writeGroup (s : State) (b n e k : Nat) (keep : Bool) :
    pumpNext (writeGroup s b n e k keep) = some (k + groupSize s n k) := by
  simp [pumpNext, writeGroup]

theorem pumpNext_readGroup (s : State) (b n e k : Nat) (keep : Bool) :
    pumpNext (readGroup s b n e k keep) = some (k + groupSize s n k) := by
  simp only [pumpNext, readGroup, List.getLast?_append]
  rfl

/-- A pump with elements left lays out one trigger and goes on after its group. -/
theorem pumpTriggers_group (s : State) (dir : Dir) (b n e : Nat) (keep : Bool) (fuel k : Nat) (h : k < n) :
    pumpTriggers s dir b n e keep (fuel + 1) k =
      (8 * e * groupSize s n k, decide (k + groupSize s n k ≠ n) || keep)
        :: pumpTriggers s dir b n e keep fuel (k + groupSize s n k) := by
  have hg : ∀ l : List Act, groupSize { s with todo := l } n k = groupSize s n k := fun _ => rfl
  have hp : portOf (transfer false dir (BitVec.ofNat 3 e)) = .cmd := by cases dir <;> rfl
  rw [pumpTriggers, exec_cmd_line hp rfl]
  cases dir
  · simp only [pumpLine, runAct, h, if_true, State.goto_todo, List.append_nil, triggersOf_writeGroup,
      pumpNext_writeGroup, hg]
    rfl
  · simp only [pumpLine, runAct, h, if_true, State.goto_todo, List.append_nil, triggersOf_readGroup,
      pumpNext_readGroup, hg]
    rfl

/-- A pump with nothing left lays out nothing. -/
theorem pumpTriggers_done (s : State) (dir : Dir) (b n e : Nat) (keep : Bool) (fuel k : Nat) (h : n ≤ k) :
    pumpTriggers s dir b n e keep fuel k = [] := by
  cases fuel with
  | zero => rfl
  | succ fuel =>
    have hp : portOf (transfer false dir (BitVec.ofNat 3 e)) = .cmd := by cases dir <;> rfl
    rw [pumpTriggers, exec_cmd_line hp rfl]
    cases dir <;> simp only [pumpLine, runAct, Nat.not_lt.mpr h, if_false, State.goto_todo] <;> rfl

end Sys2Proof.Machine
end

