-- ==== Sys2Proof/Tests/Slice0.lean ====
section
/-! SUPPORT. Tests of single steps, expected values from the vectors V<n> of spec/95_test_vectors.md and the
examples of the rules; and, for each obligation with premises, a state and operands that meet them. -/

namespace Sys2Proof.Tests

open Sys2Proof Sys2Proof.Machine

/-! ### Small states -/

/-- The next state of an outcome, looked at through `f`. -/
def after {α : Type} (o : Out) (f : State → α) : Option α :=
  match o with
  | .next t => some (f t)
  | _ => none

/-- The name of a stop, if the outcome is one. -/
def faultOf (o : Out) : Option Fault :=
  match o with
  | .fault f => some f
  | _ => none
def refusalOf (o : Out) : Option Refusal :=
  match o with
  | .refused r => some r
  | _ => none

/-- After INIT with profile A (95_test_vectors, V57). -/
def ready : State := { State.reset with
  launched := true, act0 := 0x0002020B#32, act1 := 8#32, act2 := 0x400#32, addrBytes := 3#3, enc := .packed
  initDone := true }

/-- A command just taken, with its operands. -/
def taken (s : State) (cmd a b n p : Word) : State :=
  { s with exec := true, latch := ⟨false, cmd, a, b, n, p, 0x0002020B#32, 8#32, 0x400#32⟩ }

/-- A chain under way (V30, after its first chunk). -/
def chaining : State := { ready with
  ctx := ⟨.writeRunning, 0x400#32, 0x20000300#32, 408#32, 4#3, .write, 0x20002000#32⟩ }

/-- Standing at `todo` while a command executes. -/
def inCommand (s : State) (todo : List Act) : State := { s with exec := true, todo := todo }

/-- Standing at `todo` while an event is handled. -/
def inEvent (s : State) (todo : List Act) : State := { s with handling := true, todo := todo }

/-- `s` with agent `a` due to move. -/
def due (a : Config.Agent) (s : State) : State := { s with sched := [a] }

/-! ### Well-formedness and decoding -/

theorem test_wf_refuses_legal_word : (Instr.illegal 0x00000001#32).wf = false
    ∧ (Instr.illegal 0x00000032#32).wf = false ∧ (Instr.illegal 0x00000007#32).wf = false := by decide

theorem test_wf_accepts_illegal_words : (Instr.illegal 0x00000000#32).wf = true
    ∧ (Instr.illegal 0x00000011#32).wf = true ∧ (Instr.illegal 0x00000082#32).wf = true
    ∧ (Instr.illegal 0x00000066#32).wf = true ∧ (Instr.illegal 0x00000017#32).wf = true
    ∧ (Instr.illegal 0x00000008#32).wf = true := by decide

/-- CMD[31:7] CMD[6:4] CMD[3:0] (R101, R102). -/
theorem test_decode_init :
    decodeTableWord 32 0b0000000000000000000000000_000_0001 = some .init := by decide

theorem test_decode_read_blocking :
    decodeTableWord 32 0b0000000000000000000000000_100_0010 = some (.readBlocking 4#3) := by decide

theorem test_decode_write_blocking :
    decodeTableWord 32 0b0000000000000000000000000_001_0011 = some (.writeBlocking 1#3) := by decide

theorem test_decode_read_dma :
    decodeTableWord 32 0b0000000000000000000000000_001_0100 = some (.readDma 1#3) := by decide

theorem test_decode_write_dma :
    decodeTableWord 32 0b0000000000000000000000000_100_0101 = some (.writeDma 4#3) := by decide

theorem test_decode_enter_manual :
    decodeTableWord 32 0b0000000000000000000000000_000_0110 = some .enterManual := by decide

theorem test_decode_enter_auto :
    decodeTableWord 32 0b0000000000000000000000000_000_0111 = some .enterAuto := by decide

/-- V52, V53. -/
theorem test_decode_illegal :
    decodeTableWord 32 0b0000000000000000000000000_001_0110 = some (.illegal 0x16#32)
      ∧ decodeTableWord 32 0b0000000000000000000000001_000_0010 = some (.illegal 0x82#32) := by decide

/-- EVT[7:4] EVT[3:0] (R120). -/
theorem test_decode_evt : decodeTableWord 8 0b0101_0001 = some (.evtDmaComplete 5#4) := by decide

/-- A short word and another kind of event are refused, each by name (R100, R120). -/
theorem test_decode_refusals : decode .cmd [0x01#8, 0#8, 0#8] = .error .tooShort
    ∧ decode .evt [0x52#8, 0#8, 0#8, 0#8] = .error .otherEvent := by decide

/-! ### Commands at their first line -/

/-- V57. -/
theorem test_init_profile_a :
    (after (execLines .init 9 (taken State.reset 1#32 0 0 0 0)) fun t =>
      ([t.act0, t.act1, t.act2, readReg t .result, readReg t .estatus], t.addrBytes, t.enc)) =
      some ([0x0002020B#32, 8#32, 0x400#32, 0x80000000#32, 0x30#32], 3#3, .packed) := by decide

/-- V61: a 16-bit address cannot reach a device of 2^23 bytes. -/
theorem test_init_rejects_short_address :
    (after (execLines .init 2 { State.reset with
      exec := true, latch := { State.reset.latch with prof0 := 0x0001020B#32 } })
      fun t => (readReg t .result, t.initDone)) = some (0x8000000A#32, false) := by decide

/-- R14: INIT_DONE is written before the command ends, and HOST can see it with CMD_BUSY = 1. -/
theorem test_init_done_while_busy :
    (after (execLines .init 8 (taken State.reset 1#32 0 0 0 0)) fun t => (t.initDone, cmdBusy t)) =
      some (true, true) := by decide

/-- V50: reported before NotInitialized. -/
theorem test_illegal_at_reset :
    (after (execIllegal (taken State.reset 0#32 0 0 0 0)) fun t => readReg t .result) = some 0x80000009#32 := by
  decide

/-- V73, V74: the last byte, and one beyond it. -/
theorem test_read_blocking_range :
    (after (execReadBlocking 4#3 (taken ready 0x42#32 0x7FFFFC#32 0x20000000#32 1#32 0)) fun t => t.exec) = some true
      ∧ (after (execReadBlocking 4#3 (taken ready 0x42#32 0x7FFFFD#32 0x20000000#32 1#32 0)) fun t =>
        readReg t .result) = some 0x80000003#32 := by decide

/-- V3: W_OFF = 1008. -/
theorem test_read_blocking_offset :
    (after (execLines (.readBlocking 4#3) 8 (taken ready 0x42#32 0x3F0#32 0x20000100#32 8#32 0)) fun t =>
      (t.work.off, t.work.rem)) = some (1008#32, 32#33) := by decide

/-- V77. -/
theorem test_write_blocking_null :
    (after (execWriteBlocking 1#3 (taken ready 0x13#32 0 0 4#32 0)) fun t => readReg t .result) =
      some 0x80000002#32 := by decide

/-- V5: Busy while a chain runs, but validation first. -/
theorem test_write_blocking_busy :
    (after (execLines (.writeBlocking 1#3) 2 (taken chaining 0x13#32 0 0x20000000#32 4#32 0)) fun t =>
      readReg t .result) = some 0x80000004#32
      ∧ (after (execWriteBlocking 1#3 (taken chaining 0x13#32 0 0x20000000#32 0 0)) fun t => readReg t .result) =
        some 0x80000001#32 := by decide

/-- V31. -/
theorem test_read_dma_busy :
    (after (execLines (.readDma 1#3) 2 (taken chaining 0x14#32 0 0x20005000#32 16#32 0x20002004#32)) fun t =>
      (readReg t .result, t.ctx)) = some (0x80000004#32, chaining.ctx) := by decide

/-- V78 and V80: a null STATUS_PTR, and the range before it. -/
theorem test_write_dma_null :
    (after (execWriteDma 1#3 (taken ready 0x15#32 0 0x20000000#32 4#32 0)) fun t => readReg t .result) =
        some 0x80000002#32
      ∧ (after (execWriteDma 2#3 (taken ready 0x25#32 0x7FFFFF#32 0 1#32 0)) fun t => readReg t .result) =
        some 0x80000003#32 := by decide

/-- V34: a first chunk whose Configure fails. -/
theorem test_write_dma_first_chunk_fails :
    (after (execLines (.writeDma 4#3) 8 (taken { ready with cfg := { ready.cfg with configFail := [1] } }
      0x45#32 0x100#32 0x20000000#32 600#32 0x20002000#32)) fun t =>
      [readReg t .result, readReg t .estatus, readReg t .ctxAddr, readReg t .ctxBuf, readReg t .ctxRem]) =
      some [0x80000006#32, 0x3C#32, 0x400#32, 0x20000300#32, 408#32] := by decide

/-- V56, V94. -/
theorem test_enter_manual_errors :
    (after (execEnterManual (taken State.reset 6#32 0 0 0 0)) fun t => (readReg t .result, t.autoEn)) =
        some (0x80000005#32, true)
      ∧ (after (execEnterManual (taken chaining 6#32 0 0 0 0)) fun t => readReg t .result) =
        some 0x80000004#32 := by decide

/-- V93: the mode already in force is reported. -/
theorem test_enter_auto_reports :
    (after (execLines .enterAuto 3 (inCommand ready [.arbTest .auto .report])) fun t =>
      readReg t .result) = some 0x80000010#32 := by decide

/-- V35: a spurious event ends at once. -/
theorem test_evt_spurious :
    after (execEvtDmaComplete 5#4 (inEvent ready [])) (fun t => (t.handling, t.todo, t.ctx)) =
      some (false, [], ready.ctx) := by decide

/-- V30: after the third event DONE is written at STATUS_PTR (the line itself). -/
theorem test_evt_done :
    (after (execEvtDmaComplete 5#4 (inEvent chaining [.completion doneWord, .leave])) fun t =>
      (memRead t.mem 0x20002000 4, t.mem)) = some (1#32, [(0x20002000, 1#8)]) := by decide

/-! ### Operations -/

/-- V10a, V10b, V11, V12, V13a, V13b, V14, V15, V16a, V17. -/
theorem test_plan_chunk :
    planChunk 1024 40 1000 1 16 = (16, 1016) ∧ planChunk 1024 24 1016 1 16 = (8, 0)
      ∧ planChunk 1024 16 1008 1 16 = (16, 0) ∧ planChunk 1024 8 1022 4 16 = (4, 2)
      ∧ planChunk 1024 10 1021 2 16 = (2, 1023) ∧ planChunk 1024 8 1023 2 16 = (2, 1)
      ∧ planChunk 0 100 0 2 16 = (16, 0) ∧ planChunk 0 100 0 4 18 = (16, 0)
      ∧ planChunk 1024 2400 256 4 4096 = (768, 0) ∧ planChunk 0 3000 0 1 1024 = (1024, 0) := by decide

/-- V41 and V42: the phases of CA_SEQ(RD) for profiles A and B, at its three lines. -/
theorem test_ca_seq :
    (commandPhases ready .read 0x3E8, dummyPhase ready .read) =
        (drivePhase ready .cmdaddr 0#2 32 [0x0B#8, 0x00#8, 0x03#8, 0xE8#8],
          drivePhase ready .dummy 0#2 8 [0#8])
      ∧ (let b := { ready with act0 := 0x22A238EB#32, act1 := 6#32, enc := .split };
        commandPhases b .read 0x1234 = drivePhase b .cmd 0#2 8 [0xEB#8] ++ [.caAddr 0x1234]
          ∧ addressPhase b 0x1234 = drivePhase b .addr 2#2 24 [0x00#8, 0x12#8, 0x34#8]
          ∧ dummyPhase b .read = drivePhase b .dummy 2#2 24 [0#8, 0#8, 0#8]) := by decide

/-- R113's example, and V46. -/
theorem test_address_bytes : abytes 3 true 0x3E8 = [0xE8#8, 0x03#8, 0x00#8]
    ∧ abytes 4 false 0x3E8 = [0#8, 0#8, 0x03#8, 0xE8#8] := by decide

/-- V47: n = 40 and n = 17. -/
theorem test_pump_groups : pumpGroups 16 40 false 40 0 = [(16, true), (16, true), (8, false)]
    ∧ pumpGroups 16 17 false 17 0 = [(16, true), (1, false)] := by decide

/-- V47 again, from the lines the two commands lay out: bits of each trigger, and keep_cs. -/
theorem test_pump_triggers :
    pumpTriggers ready .write 0x20000000 40 1 false 40 0 = [(128, true), (128, true), (64, false)]
      ∧ pumpTriggers ready .read 0x20000000 17 1 false 17 0 = [(128, true), (8, false)] := by decide

/-- V48: packing of a FIFO entry, both ways. -/
theorem test_fifo_packing :
    memRead (memWrite [] 0x20000000 2 0x2211#32) 0x20000000 2 = 0x2211#32
      ∧ memWrite [] 0x20000000 2 0x2211#32 = [(0x20000000, 0x11#8), (0x20000001, 0x22#8)] := by decide

/-- The two examples of R234 (V30, V32). -/
theorem test_descriptor :
    descOf State.reset.cfg .write 0x20000000 4 192 = ⟨0x20000000#32, 0x40010010#32, 0x005600C0#32, 1#32⟩
      ∧ descOf State.reset.cfg .read 0x20001000 1 16 =
        ⟨0x40010010#32, 0x20001000#32, 0x00580010#32, 1#32⟩ := by decide

/-- V97, and V51's neighbourhood: offsets outside the list read 0 (R31). -/
theorem test_registers_at_reset : readReg State.reset .estatus = 0x10#32 ∧ readOffset State.reset 0x14 = 0#32
    ∧ readOffset State.reset 0x1C = 0#32 ∧ readOffset State.reset 0xFC = 0#32 := by decide

/-- R42, V57: ACT0 before INIT completes, and after. -/
theorem test_active_profile_reads : readOffset { ready with initDone := false } 0x30 = 0#32
    ∧ readOffset ready 0x30 = 0x0002020B#32 ∧ readOffset ready 0x34 = 8#32
    ∧ readOffset ready 0x38 = 0x400#32 := by decide

/-- R118: DECODE with VALIDATE; then the Busy test of BLOCKING and of DMA_BEGIN, INIT's tests, DMA_ISSUE's first
line, and CA_SEQ again after a phase. -/
theorem test_seq_state :
    seqCode (taken ready 0x13#32 0 0x20000000#32 4#32 0) = 0x01#8
      ∧ after (execWriteBlocking 1#3 (taken ready 0x13#32 0 0x20000000#32 4#32 0)) seqCode = some 0x40#8
      ∧ after (execWriteDma 1#3 (taken ready 0x15#32 0 0x20000000#32 4#32 0x20002000#32)) seqCode = some 0x50#8
      ∧ after (execLines (.writeDma 1#3) 2 (taken ready 0x15#32 0 0x20000000#32 4#32 0x20002000#32)) seqCode =
        some 0x51#8
      ∧ after (execInit (taken State.reset 1#32 0 0 0 0)) seqCode = some 0x02#8
      ∧ (let s := { ready with
          autoEn := false, autoActive := false, sync := List.replicate 2 ⟨some 0, ⟨false, true, true, false, true⟩⟩ };
        after (exec (.readBlocking 4#3) (inCommand s [.wait .drivePhase .notBusy, .caDummy .read])) seqCode =
          some 0x30#8) := by decide

/-- V65, and R260's snapshots. -/
theorem test_command_acceptance :
    (offerCommand 0x13#32 (taken ready 0x42#32 0 0 0 0)).overrun = true
      ∧ (offerCommand 0x13#32 { ready with addr := 7#32 }).latch.addr = 7#32 := by decide

/-- V36: other channels and kinds do not set EVT_PENDING. -/
theorem test_other_events : (deliverEvent 0x61#32 ready).evtPending = false
    ∧ (deliverEvent 0x52#32 ready).evtPending = false
    ∧ (deliverEvent 0x51#32 ready).evtPending = true := by decide

/-- A chain whose only chunk has moved its last element, after an error event. -/
def stuck : State := { due .dma chaining with
  chan := ⟨.running, descOf chaining.cfg .write 0x20000900 4 24, 24, true⟩ }

/-- V36, R284: an error event of the engine's channel while its chunk runs; no complete event follows. -/
theorem test_error_event :
    after (step { due .event stuck with chan := { stuck.chan with failed := false }, events := [0x52#32] })
        (fun t => (t.evtPending, t.chan)) = some (false, stuck.chan)
      ∧ after (step stuck) (fun t => (t.evtPending, t.chan.state, t.ctx.state)) =
        some (false, .complete, .writeRunning) := by decide

/-- A misaligned buffer and an unaligned register access are refused by name (R79, R80). -/
theorem test_refusals :
    callerBreach State.reset.cfg false 0x20000002 4 1 0 = some .misalignedBuffer
      ∧ hostTarget State.reset.cfg 0x40000002 2 = .registerForm
      ∧ hostTarget State.reset.cfg 0x0A7FFFFE 4 = .pieces
      ∧ hostTarget State.reset.cfg 0x0A7FFFFC 4 = .window 0x7FFFFC := by decide

/-- R299: profile A wraps data at the edge of its 1024-byte window. -/
theorem test_device_wraps : deviceAddr ready 0x3FE 2 = 0 ∧ deviceAddr ready 0x7FE 2 = 0x400 := by decide

/-- The first instruction after reset is the placed one (log 20). -/
theorem test_fetched_word_runs :
    (match step (State.reset.withFetchWord 32 0) with
      | .next t => readReg t .result
      | _ => 0#32) = 0x80000009#32 := by decide

/-- R325: the reset state launches; one with chip-select asserted does not; R9: FIFO_DEPTH = 0 is refused. -/
theorem test_launch : after (step State.reset) (fun t => t.launched) = some true
    ∧ refusalOf (step { State.reset with cs := some 0 }) = some .badLaunch
    ∧ refusalOf (step { State.reset with cfg := { State.reset.cfg with fifoDepth := 0 } }) =
      some .badConfiguration := by decide

/-- R122, R75: a store of 8 bytes, little-endian, and a load of 3 of them. -/
theorem test_host_any_size :
    after (step (due .host { ready with hostProg := [.store 0x20000000 8 0x0807060504030201] }))
        (fun t => t.mem) = some [(0x20000000, 1#8), (0x20000001, 2#8), (0x20000002, 3#8),
          (0x20000003, 4#8), (0x20000004, 5#8), (0x20000005, 6#8), (0x20000006, 7#8), (0x20000007, 8#8)]
      ∧ after (step (due .host { ready with
          hostProg := [.load 0x20000001 3], mem := [(0x20000001, 2#8), (0x20000003, 4#8)] }))
        (fun t => t.hostLog) = some [0x040002] := by decide

/-- R295: an AUTOPATH that starts an access with chip-select asserted breaks R292. -/
theorem test_auto_start_breach :
    faultOf (step (due .autopath { ready with cs := some 0, autoReqs := [⟨.read, 0, 4, 0#32, false, true⟩] })) =
      some .autoStartBreach := by decide

/-- R90, R297 (93 I7): the channel's event before its last element, and a second one. -/
theorem test_complete_event_breaches :
    faultOf (execEvtDmaComplete 5#4 (inEvent { chaining with chan := ⟨.running, ⟨0, 0, 0, 0⟩, 0, false⟩ } [])) =
        some .earlyComplete
      ∧ faultOf (step (due .event { chaining with events := [0x51#32] })) = some .secondComplete := by decide

/-- A write transfer of 40 bytes at 0x20000000, whose byte 4 was 0 at the command's acceptance and is 1 now. -/
def raced : State := { inCommand ready [.pushElem 0x20000004 4] with
  mem := [(0x20000004, 1#8), (0x20000008, 2#8)], race := some ⟨.write, 0x20000000, 40, 4, [(0x20000008, 2#8)]⟩ }

/-- R97, 93 I11: the element stored to meanwhile is the new one or the old one; its neighbour is memory's. -/
theorem test_race_old_or_new : (elemRead raced 0x20000004 4 = 1#32 ∨ elemRead raced 0x20000004 4 = 0#32)
    ∧ elemRead raced 0x20000008 4 = 2#32 := by
  refine ⟨?_, by decide⟩
  cases h : Config.freeOld 0 1 <;> simp [elemRead, racedBytes, racedByte, raced, inCommand, offsetFrom, addressSpace,
    sysAddr, Memory.get, elemOfBytes, h, show ready.tick = 0 from rfl, show unlisted = 0#8 from rfl]

/-- R328: the race is for the transfer's own bytes, from the command's acceptance to its result. -/
theorem test_race_of_a_transfer :
    after (step { due .host ready with hostProg := [.store 0x40000000 4 0x42], mem := [(0x20000100, 7#8)] })
        (fun t => t.memAtCmd) = some [(0x20000100, 7#8)]
      ∧ after (execLines (.readBlocking 4#3) 2 (taken ready 0x42#32 0x3F0#32 0x20000100#32 8#32 0))
        (fun t => t.race) = some (some ⟨.read, 0x20000100, 32, 4, []⟩)
      ∧ after (exec (.readBlocking 4#3) (inCommand raced [.finish .blocking .ok false]))
        (fun t => t.race) = some none := by decide

/-- R328: a HOST load of bytes no transfer writes, while one runs, returns memory's. -/
theorem test_host_load_outside_race :
    after (step { due .host ready with
      hostProg := [.load 0x20000020 1], mem := [(0x20000020, 7#8)]
      race := some ⟨.read, 0x20000000, 32, 4, []⟩ }) (fun t => t.hostLog) = some [7] := by decide

/-! ### Witnesses: for every obligation with premises, states and operands that meet them together -/

/-- `o` answers a next state. -/
def goesOn (o : Out) : Bool := (after o fun _ => ()).isSome

/-- V1's write, V3's read and V30's DMA write, just taken. -/
def write40 : State := taken ready 0x13#32 0x3E8#32 0x20000000#32 40#32 0
def read8 : State := taken ready 0x42#32 0x3F0#32 0x20000100#32 8#32 0
def dma600 : State := taken ready 0x45#32 0x100#32 0x20000000#32 600#32 0x20002000#32
def dmaRead16 : State := taken ready 0x14#32 0#32 0x20001000#32 16#32 0x20002000#32

theorem write40_valid : OperandsValid write40 false 1#3 :=
  ⟨by decide, by decide, by decide, by decide, by decide, by decide⟩

theorem read8_valid : OperandsValid read8 false 4#3 :=
  ⟨by decide, by decide, by decide, by decide, by decide, by decide⟩

theorem dma600_valid : OperandsValid dma600 true 4#3 :=
  ⟨by decide, by decide, by decide, by decide, by decide, by decide⟩

theorem dmaRead16_valid : OperandsValid dmaRead16 true 1#3 :=
  ⟨by decide, by decide, by decide, by decide, by decide, by decide⟩

/-- The last byte of the device, in one element of four. -/
theorem last_element_valid :
    OperandsValid (taken ready 0x42#32 0x7FFFFC#32 0x20000000#32 1#32 0) false 4#3 :=
  ⟨by decide, by decide, by decide, by decide, by decide, by decide⟩

theorem ready_profile : ProfileLoaded ready := ⟨by decide, by decide, by decide⟩

theorem ready_memories : MemoriesCanonical ready :=
  ⟨by decide, by decide, (fun f h => nomatch h), by decide, fun r h => nomatch h⟩

/-- A transfer of bytes at a buffer, and one with a completion word. -/
def blk (b n : Word) : State := taken ready 0x13#32 0 b n 0
def dmaAt (b n p : Word) : State := taken ready 0x15#32 0 b n p

/-- A buffer in a byte of a device's range. -/
theorem overlaps_device {s : State} {dma : Bool} {e : BitVec 3}
    (h : meetsDevice s.cfg s.latch.buf.toNat (s.latch.count.toNat * e.toNat) = true) :
    BufferOverlaps s dma e := .inl ((meetsDevice_iff _ _ _).mp h)

theorem keeps {s : State} {dma : Bool} {e : BitVec 3}
    (h : callerBreach s.cfg dma s.latch.buf.toNat e.toNat s.latch.count.toNat s.latch.sptr.toNat = none) :
    CallerKeeps s dma e := (callerKeeps_iff _ _ _).mpr h

theorem quiet_bus (a : Config.Agent) : BusDiscipline (due a ready) where
  exclusive h := absurd rfl h
  flightActive h := absurd rfl h
  enabledActive _ := rfl
  samples e he t ht := by
    simp only [due, ready, State.reset, State.resetWith, List.mem_replicate] at he
    rw [he.2] at ht
    cases ht
  idle _ _ := rfl
  lines := rfl

theorem test_premises_DecodeOfEncode : (Instr.readDma 7#3).wf = true ∧ (Instr.illegal 0xFFFFFFFF#32).wf = true
    ∧ (Instr.evtDmaComplete 15#4).wf = true := by decide

/-- A command, an event, the launch state, one that is not, and a bad configuration. -/
theorem test_premises_StepRunsTheInstruction :
    (let s := due .engine write40;
      s.Live ∧ nextAgent s = .engine ∧ s.handling = false ∧ s.exec = true
        ∧ decode .cmd (bytesOfWord s.latch.cmd) = .ok (.writeBlocking 1#3, []))
    ∧ (let s := due .engine (inEvent chaining []);
      s.Live ∧ nextAgent s = .engine ∧ s.handling = true)
    ∧ (let s := { State.reset with chan := ⟨.off, ⟨1, 2, 3, 4⟩, 0, false⟩ };
      s.cfg.ok = true ∧ ∃ bw ce de ps m cpu ev prog sc n, s = { State.resetWith s.cfg with
        curBw := bw, curElem := ce, chan := ⟨.off, de, 0, false⟩, psram := ps, mem := m, cpuReqs := cpu
        events := ev, hostProg := prog, sched := sc, tick := n })
    ∧ (let s := { State.reset with cs := some 0 };
      s.cfg.ok = true ∧ s.launched = false ∧ ¬∃ bw ce de ps m cpu ev prog sc n,
        s = { State.resetWith s.cfg with
          curBw := bw, curElem := ce, chan := ⟨.off, de, 0, false⟩, psram := ps, mem := m, cpuReqs := cpu
          events := ev, hostProg := prog, sched := sc, tick := n })
    ∧ { State.reset with cfg := { State.reset.cfg with fifoDepth := 0 } }.cfg.ok = false := by
  refine ⟨by decide, by decide, ⟨by decide, 0, 0, ⟨1, 2, 3, 4⟩, [], [], [], [], [], [], 0, rfl⟩,
    ⟨by decide, by decide, ?_⟩, by decide⟩
  rintro ⟨_, _, _, _, _, _, _, _, _, _, h⟩
  exact nomatch congrArg State.cs h

/-- The engine's three cases; the channel's event with and without a chain; another event; an error event of an
armed chunk; a CPU's request. -/
theorem test_premises_EventsAndCommandsAreTaken :
    (let s := due .engine { chaining with evtPending := true };
      s.Live ∧ nextAgent s = .engine ∧ s.exec = false ∧ s.handling = false ∧ s.evtPending = true)
    ∧ (let s := due .engine { ready with latch := { ready.latch with valid := true } };
      s.Live ∧ s.exec = false ∧ s.handling = false ∧ s.evtPending = false ∧ s.latch.valid = true)
    ∧ (let s := due .engine ready;
      s.Live ∧ s.exec = false ∧ s.handling = false ∧ s.evtPending = false ∧ s.latch.valid = false)
    ∧ (let s := due .event { chaining with events := [0x51#32] };
      s.Live ∧ nextAgent s = .event ∧ s.events = 0x51#32 :: [] ∧ s.ctx.state = .writeRunning
        ∧ (0x51#32).toNat % 16 = 1 ∧ (0x51#32).toNat / 16 % 16 = s.cfg.dmaChannel)
    ∧ (ready.ctx.state = .idle ∧ (0x61#32).toNat / 16 % 16 ≠ ready.cfg.dmaChannel)
    ∧ (let s := due .event { stuck with events := [0x52#32] };
      s.Live ∧ nextAgent s = .event ∧ (0x52#32).toNat % 16 ≠ 1
        ∧ (0x52#32).toNat / 16 % 16 = s.cfg.dmaChannel ∧ s.chan.state = .running)
    ∧ (let s := due .cpu { ready with cpuReqs := [⟨.read, 0, 4, 0#32, false, false⟩] };
      s.Live ∧ nextAgent s = .cpu ∧ s.cpuReqs = ⟨.read, 0, 4, 0#32, false, false⟩ :: []) := by decide

theorem test_premises_BusDisciplineKept : BusDiscipline (due .sync ready)
    ∧ goesOn (step (due .sync ready)) = true := ⟨quiet_bus _, by decide⟩

theorem ready_single (a : Config.Agent) : OneOperation (due a ready) where
  single h := absurd h.1 Bool.false_ne_true
  idle _ _ := rfl
  command h := absurd h Bool.false_ne_true
  event h := absurd h Bool.false_ne_true

theorem test_premises_OneOperationKept : OneOperation (due .ctrl ready)
    ∧ goesOn (step (due .ctrl ready)) = true := ⟨ready_single _, by decide⟩

/-- An idle machine after INIT, and INIT under way. -/
theorem test_premises_MemoriesFifoAndProfileKept : MemoriesCanonical ready ∧ FifoBounded ready
    ∧ ProfileInitialized ready ∧ ready.initDone = true ∧ goesOn (step (due .sync ready)) = true
    ∧ ProfileInitialized (inCommand State.reset (initBody (taken State.reset 1#32 0 0 0 0))) :=
  ⟨ready_memories, by unfold FifoBounded; decide, ⟨fun _ => ready_profile, rfl⟩, by decide, by decide,
    ⟨fun h => absurd h (by decide), by decide⟩⟩

/-- An auto access about to be performed. -/
def autoRead : State := { due .autopath ready with autoFlight := some ⟨⟨.read, 0, 4, 0#32, false, false⟩, none⟩ }

/-- A command phase about to be recorded. -/
def phaseEnds : State := { due .ctrl ready with
  autoEn := false, autoActive := false, cs := some 0
  job := some ⟨.cmdaddr, .tx, 32, [2#8, 0#8, 3#8, 0xE8#8], 0, 0, [], true, .run⟩, parser := .opcode }

theorem test_premises_BusPathsExclude :
    (BusDiscipline autoRead ∧ after (step autoRead) (fun t => t.bus) =
        some [.auto .read 0 [0#8, 0#8, 0#8, 0#8]])
    ∧ (BusDiscipline phaseEnds ∧ after (step phaseEnds) (fun t => t.bus) =
        some [.phase .cmdaddr 0#2 .tx 32 [2#8, 0#8, 3#8, 0xE8#8]]) := by
  refine ⟨⟨⟨fun _ => ⟨rfl, rfl⟩, fun _ => rfl, fun _ => rfl, (quiet_bus .autopath).samples,
      fun _ _ => rfl, rfl⟩, by decide⟩, ⟨⟨fun h => absurd rfl h, fun h => absurd rfl h,
      fun h => absurd h (by decide), ?_, fun _ _ => rfl, by decide⟩, by decide⟩⟩
  intro e he t ht
  simp only [phaseEnds, due, ready, State.reset, State.resetWith, List.mem_replicate] at he
  rw [he.2] at ht
  cases ht

/-- A blocking write in manual mode that found auto mode, about to restore it, and at its end. -/
def restoring : State := due .engine { write40 with
  autoEn := false, work := { write40.work with prior := true }
  todo := [.restore, .finish .blocking .ok false] }
def ending : State := due .engine { write40 with todo := [.finish .blocking .ok false] }

theorem test_premises_BlockingRestoresMode :
    (RestoresMode true restoring ∧ restoring.todo ≠ [] ∧ goesOn (step restoring) = true)
    ∧ (nextAgent (due .engine write40) = .engine
      ∧ currentInstr (due .engine write40) = some (transfer false .write 1#3)
      ∧ (due .engine write40).todo = [] ∧ goesOn (step (due .engine write40)) = true)
    ∧ (RestoresMode true ending ∧ currentInstr ending = some (transfer false .write 1#3)
      ∧ ending.todo = .finish .blocking .ok false :: [] ∧ goesOn (step ending) = true) :=
  ⟨⟨rfl, by decide, by decide⟩, by decide, rfl, by decide, by decide, by decide⟩

theorem event_bus (l : List Act) (h : disciplined .auto l = true) :
    BusDiscipline (due .engine (inEvent chaining l)) :=
  ⟨fun h => absurd rfl h, fun h => absurd rfl h, fun _ => rfl, (quiet_bus .engine).samples,
    fun _ h => Bool.noConfusion h, h⟩

theorem test_premises_CompletionWordInAutoMode :
    let s := due .engine (inEvent chaining [.completion doneWord, .leave])
    BusDiscipline s ∧ s.handling = true ∧ nextAgent s = .engine ∧ s.todo = .completion doneWord :: [.leave]
      ∧ goesOn (step s) = true := ⟨event_bus _ rfl, by decide, by decide, by decide, by decide⟩

theorem test_premises_EventsNeverWriteResult :
    let s := due .engine (inEvent chaining [.leave])
    OneOperation s ∧ s.handling = true ∧ nextAgent s = .engine ∧ goesOn (step s) = true :=
  ⟨⟨fun h => absurd h.1 (by decide), fun _ h => absurd h (by decide), fun h => absurd h (by decide),
    fun _ => by decide⟩, by decide, by decide, by decide⟩

theorem test_premises_LinesKeepOtherAgentsState : goesOn (exec (.writeBlocking 1#3) write40) = true := by decide

/-- Each kind of state is changed by one of its own lines. -/
theorem test_premises_StateWrittenByItsLines :
    after (exec (.writeDma 4#3) (inCommand dma600 [.dmaArm .command (beginArgs dma600 .write 4#3) 768]))
        (fun t => decide (t.ctx ≠ dma600.ctx)) = some true
    ∧ after (exec (.writeBlocking 1#3) (inCommand write40 [.advAddr 16]))
        (fun t => decide (t.work ≠ write40.work)) = some true
    ∧ after (exec (.evtDmaComplete 5#4) (inEvent { chaining with chan := ⟨.complete, ⟨0, 0, 0, 0⟩, 0, false⟩ }
        [.dmaDisable])) (fun t => t.chan.state) = some .off
    ∧ after (exec .enterManual (inCommand ready [.ctl .arbManual (.setAutoEn false)]))
        (fun t => (t.autoEn, t.epoch)) = some (false, 1)
    ∧ after (exec .init (inCommand State.reset [.setProfile .done])) (fun t => t.initDone) = some true
    ∧ after (exec .enterManual (inCommand ready [.setPrevAuto true])) (fun t => t.result.prevAuto) =
        some true
    ∧ after (exec .init (inCommand ready [.finish .init .ok false])) (fun t => t.result.valid) =
        some true := by decide

theorem test_premises_LinesStoreOnlyTheirBytes :
    let s := inCommand read8 [.store 0x20000100 4 5#32]
    goesOn (exec (.readBlocking 4#3) s) = true ∧ outsideLineStores s 0x200000FF
      ∧ outsideLineStores s 0x20000104 ∧ ¬outsideLineStores s 0x20000103 := by
  refine ⟨by decide, ?_, ?_, ?_⟩ <;> simp only [outsideLineStores, lineStores, inCommand] <;> decide

theorem test_premises_OnlyTheEngineWritesItsState :
    (let s := due .sync ready;
      goesOn (step s) = true ∧ nextAgent s ≠ .engine ∧ s.initDone = true ∧ ProfileInitialized s)
    ∧ (let s := due .engine (inCommand ready [.ctl .arbManual (.setAutoEn false)]);
      goesOn (step s) = true ∧ nextAgent s = .engine ∧ s.exec = true
        ∧ nextLine s operatesController = true) :=
  ⟨⟨by decide, by decide, by decide, fun _ => ⟨by decide, by decide, by decide⟩, rfl⟩, by decide⟩

theorem test_premises_InitOutcomes : (taken ready 1#32 0 0 0 0).initDone = true
    ∧ (taken ready 1#32 0 0 0 0).todo = []
    ∧ (taken State.reset 1#32 0 0 0 0).initDone = false
    ∧ profileOk State.reset.cfg (taken State.reset 1#32 0 0 0 0).latch.prof0 = true
    ∧ profileOk State.reset.cfg 0x4002020B#32 = false := by decide

theorem test_premises_NotInitializedAndIllegal : State.reset.todo = [] ∧ State.reset.initDone = false
    ∧ portOf .enterAuto = .cmd ∧ Instr.enterAuto ≠ .init ∧ ∀ w, Instr.enterAuto ≠ .illegal w :=
  ⟨by decide, by decide, by decide, by decide, fun w => by simp⟩

/-- One operand set at the edge of each check (V71, V72, V74, V77, V78). -/
theorem test_premises_ValidationOrder :
    State.reset.initDone = false ∧ ready.todo = [] ∧ ready.initDone = true
    ∧ ¬((5#3).toNat = 1 ∨ (5#3).toNat = 2 ∨ (5#3).toNat = 4)
    ∧ ¬(0x7FFFFD + 1 * 4 ≤ ready.cfg.density) ∧ 0x7FFFFC + 1 * 4 ≤ ready.cfg.density
    ∧ (taken ready 0x13#32 0 0 4#32 0).latch.buf = 0#32
    ∧ (taken ready 0x15#32 0 0x20000000#32 4#32 0).latch.sptr = 0#32 := by decide

theorem test_premises_BusyWhileChainRuns : (taken chaining 0x13#32 0x3E8#32 0x20000000#32 40#32 0).todo = []
    ∧ chaining.initDone = true ∧ chainRunning chaining = true
    ∧ OperandsValid (taken chaining 0x13#32 0x3E8#32 0x20000000#32 40#32 0) false 1#3 :=
  ⟨by decide, by decide, by decide,
    ⟨by decide, by decide, by decide, by decide, by decide, by decide⟩⟩

/-- A misaligned buffer, and a misaligned completion word. -/
theorem test_premises_CallerBreachRefused :
    (let s := taken ready 0x42#32 0#32 0x20000002#32 1#32 0;
      s.todo = [] ∧ s.initDone = true ∧ chainRunning s = false ∧ OperandsValid s false 4#3
        ∧ s.latch.buf.toNat % 4 ≠ 0)
    ∧ (let s := taken ready 0x14#32 0#32 0x20000000#32 1#32 0x20002002#32;
      OperandsValid s true 1#3 ∧ s.latch.buf.toNat % 1 = 0 ∧ s.latch.sptr.toNat % 4 ≠ 0)
    ∧ CallerKeeps write40 false 1#3 ∧ CallerKeeps dma600 true 4#3 :=
  ⟨⟨by decide, by decide, by decide,
      ⟨by decide, by decide, by decide, by decide, by decide, by decide⟩, by decide⟩,
    ⟨⟨by decide, by decide, by decide, by decide, by decide, by decide⟩, by decide, by decide⟩,
    keeps (by decide), keeps (by decide)⟩

/-- Buffers with one byte in a device's range, at each of its edges: the engine's block, the FIFO word, the auto
window. -/
theorem test_premises_CallerBreachRefused_device :
    OperandsValid (blk 0x3FFFFFFD#32 4#32) false 1#3
    ∧ BufferOverlaps (blk 0x3FFFFFFD#32 4#32) false 1#3 ∧ BufferOverlaps (blk 0x400000FF#32 1#32) false 1#3
    ∧ BufferOverlaps (blk 0x4001000D#32 4#32) false 1#3 ∧ BufferOverlaps (blk 0x40010013#32 1#32) false 1#3
    ∧ BufferOverlaps (blk 0x09FFFFFD#32 4#32) false 1#3 ∧ BufferOverlaps (blk 0x0A7FFFFF#32 1#32) false 1#3 :=
  ⟨⟨by decide, by decide, by decide, by decide, by decide, by decide⟩, overlaps_device (by decide),
    overlaps_device (by decide), overlaps_device (by decide), overlaps_device (by decide),
    overlaps_device (by decide), overlaps_device (by decide)⟩

/-- Buffers that end right below such a range, or begin right above it. -/
theorem test_premises_CallerBreachRefused_beside :
    CallerKeeps (blk 0x3FFFFFFD#32 3#32) false 1#3 ∧ CallerKeeps (blk 0x40000100#32 1#32) false 1#3
    ∧ CallerKeeps (blk 0x4001000D#32 3#32) false 1#3 ∧ CallerKeeps (blk 0x40010014#32 1#32) false 1#3
    ∧ CallerKeeps (blk 0x09FFFFFD#32 3#32) false 1#3 ∧ CallerKeeps (blk 0x0A800000#32 1#32) false 1#3 :=
  ⟨keeps (by decide), keeps (by decide), keeps (by decide), keeps (by decide), keeps (by decide),
    keeps (by decide)⟩

/-- A completion word in the buffer's last byte, in its first, right above it, and right below it. -/
theorem test_premises_CallerBreachRefused_word :
    OperandsValid (dmaAt 0x20000000#32 41#32 0x20000028#32) true 1#3
    ∧ BufferOverlaps (dmaAt 0x20000000#32 41#32 0x20000028#32) true 1#3
    ∧ BufferOverlaps (dmaAt 0x2000002B#32 1#32 0x20000028#32) true 1#3
    ∧ CallerKeeps (dmaAt 0x20000000#32 40#32 0x20000028#32) true 1#3
    ∧ CallerKeeps (dmaAt 0x2000002C#32 1#32 0x20000028#32) true 1#3 :=
  ⟨⟨by decide, by decide, by decide, by decide, by decide, by decide⟩,
    .inr ⟨rfl, (rangesMeet_iff _ _ _ _).mp (by decide)⟩, .inr ⟨rfl, (rangesMeet_iff _ _ _ _).mp (by decide)⟩,
    keeps (by decide), keeps (by decide)⟩

/-- A completion word in the last word of a device's range (the buffer elsewhere), and right above it. -/
theorem test_premises_CallerBreachRefused_statusPtr :
    (let s := dmaAt 0x20000000#32 4#32 0x400000FC#32;
      OperandsValid s true 1#3 ∧ ¬BufferOverlaps s true 1#3 ∧ OnDevice s s.latch.sptr.toNat 4)
    ∧ (let s := dmaAt 0x20000000#32 4#32 0x40010010#32; OnDevice s s.latch.sptr.toNat 4)
    ∧ (let s := dmaAt 0x20000000#32 4#32 0x0A7FFFFC#32; OnDevice s s.latch.sptr.toNat 4)
    ∧ CallerKeeps (dmaAt 0x20000000#32 4#32 0x40000100#32) true 1#3
    ∧ CallerKeeps (dmaAt 0x20000000#32 4#32 0x40010014#32) true 1#3
    ∧ CallerKeeps (dmaAt 0x20000000#32 4#32 0x0A800000#32) true 1#3 := by
  refine ⟨⟨⟨by decide, by decide, by decide, by decide, by decide, by decide⟩, ?_, ?_⟩, ?_, ?_,
    keeps (by decide), keeps (by decide), keeps (by decide)⟩
  · rintro (h | ⟨_, h⟩)
    · exact absurd ((meetsDevice_iff _ _ _).mpr h) (by decide)
    · exact absurd ((rangesMeet_iff _ _ _ _).mpr h) (by decide)
  all_goals exact (meetsDevice_iff _ _ _).mp (by decide)

theorem test_premises_LastLineEnds : portOf .enterAuto = .cmd
    ∧ (portOf (.writeBlocking 4#3) = .cmd ∧ raced.race ≠ none
      ∧ (inCommand raced [.finish .blocking .ok false]).todo = .finish .blocking .ok false :: [])
    ∧ (inCommand ready [.finish .decode .ok true]).todo = .finish .decode .ok true :: []
    ∧ (5#4).toNat = chaining.cfg.dmaChannel ∧ (inEvent chaining [.leave]).todo = .leave :: []
    ∧ ready.exec = false ∧ ready.handling = false ∧ ready.todo = [] := by decide

theorem test_premises_BlockingBegins : write40.todo = [] ∧ write40.initDone = true
    ∧ chainRunning write40 = false ∧ OperandsValid write40 false 1#3 ∧ CallerKeeps write40 false 1#3
    ∧ OperandsValid read8 false 4#3 ∧ CallerKeeps read8 false 4#3 :=
  ⟨by decide, by decide, by decide, write40_valid, keeps (by decide), read8_valid,
    keeps (by decide)⟩

theorem test_premises_ChunkLoopLines :
    goesOn (exec (.writeBlocking 1#3) (inCommand write40 [.loop .write])) = true
    ∧ goesOn (exec (.writeBlocking 1#3) (inCommand write40 [.plan .write])) = true
    ∧ goesOn (exec (.writeBlocking 1#3) (inCommand write40 [.callPump .write 16])) = true
    ∧ goesOn (exec (.readBlocking 4#3) (inCommand read8 [.callPump .read 16])) = true
    ∧ goesOn (exec (.readBlocking 4#3) (inCommand read8 [.setWork (.off 0#32)])) = true
    ∧ goesOn (exec (.readBlocking 4#3) (inCommand read8 [.advAddr 16])) = true
    ∧ goesOn (exec (.readBlocking 4#3) (inCommand read8 [.advBuf 16])) = true
    ∧ goesOn (exec (.readBlocking 4#3) (inCommand read8 [.advRem 16])) = true
    ∧ goesOn (exec (.readBlocking 4#3) (inCommand read8 [.setWork (.prior true)])) = true
    ∧ goesOn (exec (.readBlocking 4#3) (inCommand read8 [.restore])) = true := by decide

theorem test_premises_CommandAndAddressPhases :
    (runsHere dma600 (.writeDma 4#3) ∧ runsHere chaining (.evtDmaComplete 5#4))
    ∧ (inCommand write40 [.caSeq .write 0x3E8]).todo = .caSeq .write 0x3E8 :: []
    ∧ (inEvent chaining [.caAddr 0x400]).todo = .caAddr 0x400 :: []
    ∧ (inCommand read8 [.caDummy .read]).todo = .caDummy .read :: [] :=
  ⟨⟨.inl rfl, .inr ⟨5#4, rfl, by decide⟩⟩, by decide, by decide, by decide⟩

/-- A group, the pump's end, and the FIFO's test, of a command and of an event. -/
theorem test_premises_PumpLines :
    (inCommand write40 [.pumpWrite 0x20000000 16 1 0 false]).todo = .pumpWrite 0x20000000 16 1 0 false :: []
    ∧ (inCommand read8 [.pumpRead 0x20000100 4 4 3 false]).todo = .pumpRead 0x20000100 4 4 3 false :: []
    ∧ (0 < 16 ∧ 3 < 4 ∧ 16 ≤ 16)
    ∧ (runsHere write40 (.writeBlocking 1#3) ∧ runsHere chaining (.evtDmaComplete 5#4))
    ∧ (inEvent chaining [.fifoCheck .dmaIssue]).todo = .fifoCheck .dmaIssue :: []
    ∧ faultOf (exec (.writeBlocking 1#3) { inCommand write40 [.fifoCheck .pumpWrite] with fifo := [5#32] }) =
      some .fifoNotEmpty
    ∧ goesOn (exec (.readBlocking 4#3) { inCommand read8 [.popElem 0x20000100 4] with fifo := [5#32] }) =
      true :=
  ⟨by decide, by decide, by decide, ⟨.inl rfl, .inr ⟨5#4, rfl, by decide⟩⟩, by decide, by decide, by decide⟩

theorem test_premises_PumpGroupSizes : 0 < ready.cfg.fifoDepth ∧ 0 < 40 ∧ 40 % ready.cfg.fifoDepth ≠ 0
    ∧ 32 % ready.cfg.fifoDepth = 0 := by decide

/-- The reference configuration is accepted: `ok` is a premise of many obligations. -/
theorem test_premises_reference : Config.Params.reference.ok = true := by decide

theorem test_premises_BlockingTransferCompletes : write40.Live ∧ write40.handling = false
    ∧ write40.exec = true ∧ write40.todo = [] ∧ decodeCmd write40.latch.cmd = transfer false .write 1#3
    ∧ write40.initDone = true ∧ chainRunning write40 = false ∧ OperandsValid write40 false 1#3
    ∧ CallerKeeps write40 false 1#3 ∧ write40.job = none ∧ write40.cs = none ∧ write40.fifo = []
    ∧ write40.autoFlight = none ∧ ProfileLoaded write40 ∧ MemoriesCanonical write40 ∧ BufferStable write40 1#3
    ∧ write40.act0.extractLsb' 8 8 ≠ write40.act0.extractLsb' 0 8
    ∧ (write40.latch.addr.toNat % (1#3).toNat = 0 ∧ write40.act2.toNat % (1#3).toNat = 0) :=
  ⟨by decide, by decide, by decide, by decide, by decide, by decide, by decide, write40_valid,
    keeps (by decide), by decide, by decide, by decide, by decide,
    ⟨by decide, by decide, by decide⟩,
    ⟨by decide, by decide, (fun f h => nomatch h), by decide, fun r h => nomatch h⟩, (fun _ _ => rfl),
    by decide, by decide⟩

theorem test_premises_BlockingTransferCompletes_read : read8.Live ∧ read8.handling = false
    ∧ read8.exec = true ∧ read8.todo = [] ∧ decodeCmd read8.latch.cmd = transfer false .read 4#3
    ∧ read8.initDone = true ∧ chainRunning read8 = false ∧ OperandsValid read8 false 4#3
    ∧ CallerKeeps read8 false 4#3 ∧ read8.job = none ∧ read8.cs = none ∧ read8.fifo = []
    ∧ read8.autoFlight = none ∧ ProfileLoaded read8 ∧ MemoriesCanonical read8
    ∧ (read8.latch.addr.toNat % (4#3).toNat = 0 ∧ read8.act2.toNat % (4#3).toNat = 0) :=
  ⟨by decide, by decide, by decide, by decide, by decide, by decide, by decide, read8_valid,
    keeps (by decide), by decide, by decide, by decide, by decide,
    ⟨by decide, by decide, by decide⟩,
    ⟨by decide, by decide, (fun f h => nomatch h), by decide, fun r h => nomatch h⟩, by decide⟩

theorem test_premises_PlanProperties : (4 = 1 ∨ 4 = 2 ∨ 4 = 4) ∧ 4 ≤ 16 ∧ 0 < 10 ∧ 0 < 1024 ∧ 0x3F0 % 4 = 0
    ∧ 1024 % 4 = 0 := by decide

theorem test_premises_RunningOffsetIsAddress :
    (⟨0x3F8, 1016, 8⟩ : PlannedChunk) ∈ planOf 1024 1 16 0x3E8 40 := by decide

/-- V14; V10a; V11; V10b and V13a; V12: each case at its edge. -/
theorem test_premises_PlanChunkCases :
    (0 < 100 ∧ 100 % 2 = 0)
    ∧ (1000 < 1024 ∧ 1000 + min 40 16 < 1024)
    ∧ (1008 + min 16 16 = 1024)
    ∧ (1024 < 1016 + min 24 16 ∧ 1 ≤ 1024 - 1016) ∧ (1024 < 1021 + min 10 16 ∧ 2 ≤ 1024 - 1021)
    ∧ (1024 < 1022 + min 8 16 ∧ 1024 - 1022 < 4) := by decide

theorem test_premises_WaitHolds :
    (let s := { inCommand ready [.wait .arbManual .autoIdle] with
        sync := [⟨none, rawStatus ready⟩, ⟨some 0, rawStatus ready⟩] };
      syncOut s = some ⟨some s.epoch, rawStatus ready⟩ ∧ condHolds .autoIdle (rawStatus ready) = true)
    ∧ syncOut (inCommand ready [.wait .arbManual .autoIdle]) =
      some ⟨none, ⟨false, false, false, false, false⟩⟩
    ∧ (runsHere ready .enterManual ∧ runsHere ready (.evtDmaComplete 5#4)) :=
  ⟨by decide, by decide, .inl rfl, .inr ⟨5#4, rfl, by decide⟩⟩

theorem test_premises_SyncRoundDelivers : ready.Live := by decide

/-- V90, V92, V91 and V93: the premises of each clause. -/
theorem test_premises_ModeCommandsComplete :
    (let s := taken ready 6#32 0 0 0 0;
      s.Live ∧ s.handling = false ∧ s.exec = true ∧ decodeCmd s.latch.cmd = modeCommand .manual
        ∧ s.todo = [] ∧ s.initDone = true ∧ chainRunning s = false ∧ s.autoFlight = none ∧ s.autoEn = true)
    ∧ (let s := { taken ready 7#32 0 0 0 0 with autoEn := false };
      decodeCmd s.latch.cmd = modeCommand .auto ∧ s.autoEn = false ∧ s.cs = none)
    ∧ ((taken ready 7#32 0 0 0 0).autoEn = (ArbMode.auto == .auto)) := by decide

theorem test_premises_ArbiterLines : (taken ready 6#32 0 0 0 0).todo = [] ∧ ready.initDone = true
    ∧ chainRunning ready = false
    ∧ (inCommand ready [.arbTest .manual .report]).todo = .arbTest .manual .report :: []
    ∧ (inCommand ready [.ctl .arbAuto (.setAutoEn true)]).todo = .ctl .arbAuto (.setAutoEn true) :: [] := by
  decide

theorem test_premises_DmaBegins : dma600.todo = [] ∧ dma600.initDone = true ∧ chainRunning dma600 = false
    ∧ OperandsValid dma600 true 4#3 ∧ CallerKeeps dma600 true 4#3
    ∧ OperandsValid dmaRead16 true 1#3 ∧ CallerKeeps dmaRead16 true 1#3 :=
  ⟨by decide, by decide, by decide, dma600_valid, keeps (by decide), dmaRead16_valid,
    keeps (by decide)⟩

/-- The chunk of V30: 768 bytes. -/
theorem test_premises_DmaChunkWithinLimits : dma600.cfg.ok = true
    ∧ ((beginArgs dma600 .write 4#3).s = 4 ∧ 0 < (beginArgs dma600 .write 4#3).n)
    ∧ dmaChunk dma600 (beginArgs dma600 .write 4#3) = 768 := by decide

theorem test_premises_IssueWritesContext : runsHere dma600 (.writeDma 4#3)
    ∧ runsHere chaining (.evtDmaComplete 5#4)
    ∧ goesOn (execLines (.writeDma 4#3) 3
      (inCommand dma600 [.dmaIssue .command (beginArgs dma600 .write 4#3)])) = true :=
  ⟨.inl rfl, .inr ⟨5#4, rfl, by decide⟩, by decide⟩

theorem test_premises_DescriptorOfChunk : Config.Params.reference.ok = true ∧ 0xFFFFFFFF < 2 ^ 32 ∧ 1 ≤ 1024
    ∧ 1024 ≤ Config.Params.reference.dmaMaxCount := by decide

theorem test_premises_FirstChunkFailure :
    let s := { dma600 with cfg := { dma600.cfg with configFail := [1] } }
    s.todo = [] ∧ s.initDone = true ∧ chainRunning s = false ∧ OperandsValid s true 4#3
      ∧ CallerKeeps s true 4#3 ∧ s.chan.state = .off ∧ s.configCalls + 1 ∈ s.cfg.configFail :=
  ⟨by decide, by decide, by decide, ⟨by decide, by decide, by decide, by decide, by decide, by decide⟩,
    keeps (by decide), by decide, by decide⟩

/-- A command's Configure and a continuation's, both allowed; one not allowed; the other three operations. -/
theorem test_premises_ChannelOperations :
    (runsHere dma600 (.writeDma 4#3) ∧ dma600.chan.state = .off
      ∧ dma600.configCalls + 1 ∉ dma600.cfg.configFail
      ∧ (inCommand dma600 [.dmaConfigure .command (beginArgs dma600 .write 4#3) 768]).todo =
        .dmaConfigure .command (beginArgs dma600 .write 4#3) 768 :: [])
    ∧ (let s := inEvent chaining [.dmaConfigure .event (chainArgs chaining) 1024, .leave];
      runsHere s (.evtDmaComplete 5#4) ∧ s.configCalls + 1 ∉ s.cfg.configFail ∧ s.chan.state = .off)
    ∧ (ChanState.running ≠ .off ∧ ChanState.running ≠ .complete)
    ∧ (inEvent chaining [.dmaEnable]).todo = .dmaEnable :: []
    ∧ (inEvent chaining [.dmaTrigger]).todo = .dmaTrigger :: []
    ∧ (inEvent chaining [.dmaDisable]).todo = .dmaDisable :: [] :=
  ⟨⟨.inl rfl, by decide, by decide, by decide⟩, ⟨.inr ⟨5#4, rfl, by decide⟩, by decide, by decide⟩,
    by decide, by decide, by decide, by decide⟩

/-- A chain whose channel is done, one whose channel is not, and no chain. -/
theorem test_premises_EventBegins : (5#4).toNat = chaining.cfg.dmaChannel ∧ (inEvent chaining []).todo = []
    ∧ chaining.ctx.state = .writeRunning ∧ ready.ctx.state = .idle ∧ chaining.chan.state ≠ .complete
    ∧ { chaining with chan := ⟨.complete, ⟨0, 0, 0, 0⟩, 0, false⟩ }.chan.state = .complete := by decide

/-- The handler's lines with nothing remaining, in manual mode. -/
theorem test_premises_LastEventEndsChain_lines :
    let s := { inEvent chaining [.dmaNext, .leave] with ctx := { chaining.ctx with rem := 0#32 }, autoEn := false }
    (5#4).toNat = s.cfg.dmaChannel ∧ s.todo = .dmaNext :: [.leave] ∧ s.ctx.rem = 0#32
      ∧ (inEvent s [.arbTest .auto .drop]).todo = .arbTest .auto .drop :: []
      ∧ (inEvent s [.ctl .arbAuto (.setAutoEn true)]).todo = .ctl .arbAuto (.setAutoEn true) :: []
      ∧ (inEvent s [.ctxState .dmaComplete .idle]).todo = .ctxState .dmaComplete .idle :: []
      ∧ (inEvent s [.completion 1#32]).todo = .completion 1#32 :: [] := by decide

/-- The end of V30's last chunk. -/
theorem test_premises_LastEventEndsChain :
    let s := { inEvent chaining [] with
      ctx := { chaining.ctx with rem := 0#32 }, cs := some 0, autoEn := false, autoActive := false
      chan := ⟨.complete, descOf chaining.cfg .write 0x20000900 4 24, 24, false⟩ }
    s.Live ∧ s.handling = true ∧ s.todo = [] ∧ chainRunning s = true ∧ s.ctx.rem = 0#32
      ∧ s.job = none ∧ s.cs = some 0 ∧ s.autoFlight = none ∧ s.autoEn = false
      ∧ s.chan.state = .complete := by decide

theorem test_premises_ChainedFailure_lines :
    let s := { inEvent chaining [.dmaConfigure .event (chainArgs chaining) 1024, .leave] with
      cfg := { chaining.cfg with configFail := [2] }, configCalls := 1 }
    (5#4).toNat = s.cfg.dmaChannel ∧ s.todo = .dmaConfigure .event (chainArgs chaining) 1024 :: [.leave]
      ∧ s.chan.state = .off ∧ s.configCalls + 1 ∈ s.cfg.configFail := by decide

theorem test_premises_ChainedFailure :
    let s := { inEvent chaining [.dmaNext] with
      cfg := { chaining.cfg with configFail := [2] }, configCalls := 1, autoEn := false }
    s.Live ∧ s.handling = true ∧ s.todo = [.dmaNext] ∧ s.ctx.rem ≠ 0#32 ∧ s.cs = none
      ∧ s.autoFlight = none ∧ s.autoEn = false ∧ s.chan.state = .off
      ∧ s.configCalls + 1 ∈ s.cfg.configFail := by decide

/-- V30's first chunk: its last element, a read's first, and its end, after an error event too. -/
theorem test_premises_ChannelMovesElements :
    (let s := { due .dma ready with chan := ⟨.running, descOf ready.cfg .write 0x20000000 4 192, 191, false⟩ };
      s.Live ∧ nextAgent s = .dma ∧ s.chan.state = .running ∧ s.chan.k < 192
        ∧ 192 ≤ s.cfg.dmaMaxCount ∧ sysAddr (0x20000000 + 191 * 4) ≠ s.cfg.fifoAddr
        ∧ s.chan.desc = descOf s.cfg .write 0x20000000 4 192)
    ∧ (let s := { due .dma ready with
        chan := ⟨.running, descOf ready.cfg .read 0x20001000 1 16, 0, false⟩, fifo := [0x5A#32] };
      s.chan.k < 16 ∧ s.chan.desc = descOf s.cfg .read 0x20001000 1 16)
    ∧ (let s := { due .dma ready with chan := ⟨.running, descOf ready.cfg .read 0x20001000 1 16, 16, false⟩ };
      s.chan.k = 16 ∧ s.chan.desc = descOf s.cfg .read 0x20001000 1 16)
    ∧ (stuck.chan.k = 24 ∧ stuck.chan.desc = descOf stuck.cfg .write 0x20000900 4 24 ∧ stuck.chan.failed = true) := by
  decide

/-- A chain stuck at its last element, whichever agent moves: the channel, the engine with a mode command, HOST. -/
theorem test_premises_ChannelMovesElements_stuck : ChainStuck stuck ∧ goesOn (step stuck) = true
    ∧ (let s := due .engine { stuck with exec := true, latch := { stuck.latch with cmd := 6#32 } };
      ChainStuck s ∧ goesOn (step s) = true)
    ∧ (let s := due .engine (inCommand stuck [.busyTest true .write 4#3]);
      ChainStuck s ∧ goesOn (step s) = true) :=
  ⟨⟨by decide, by decide, by decide, by decide, by decide⟩, by decide,
    ⟨⟨by decide, by decide, by decide, by decide, by decide⟩, by decide⟩,
    ⟨⟨by decide, by decide, by decide, by decide, by decide⟩, by decide⟩⟩

theorem test_premises_DmaTransferCompletes : dma600.Live ∧ dma600.handling = false
    ∧ dma600.exec = true ∧ dma600.todo = [] ∧ decodeCmd dma600.latch.cmd = transfer true .write 4#3
    ∧ dma600.initDone = true ∧ chainRunning dma600 = false ∧ OperandsValid dma600 true 4#3
    ∧ CallerKeeps dma600 true 4#3 ∧ dma600.job = none ∧ dma600.cs = none ∧ dma600.fifo = []
    ∧ dma600.autoFlight = none ∧ dma600.evtPending = false ∧ dma600.chan.state = .off
    ∧ (∀ k, dma600.configCalls < k → k ∉ dma600.cfg.configFail)
    ∧ ProfileLoaded dma600 ∧ MemoriesCanonical dma600 ∧ BufferStable dma600 4#3
    ∧ dma600.act0.extractLsb' 8 8 ≠ dma600.act0.extractLsb' 0 8
    ∧ (dma600.latch.addr.toNat % (4#3).toNat = 0 ∧ dma600.act2.toNat % (4#3).toNat = 0) :=
  ⟨by decide, by decide, by decide, by decide, by decide, by decide, by decide, dma600_valid,
    keeps (by decide), by decide, by decide, by decide, by decide, by decide, by decide,
    (fun k _ h => nomatch h), ⟨by decide, by decide, by decide⟩,
    ⟨by decide, by decide, (fun f h => nomatch h), by decide, fun r h => nomatch h⟩,
    (fun _ _ => rfl), by decide, by decide⟩

/-- A controller free in manual mode; one with a phase; one in auto mode; triggers that fit and that do not. -/
theorem test_premises_ControllerOperations :
    (let s := { ready with autoEn := false, cs := some 0, curElem := 4#3, fifo := [1#32] };
      s.autoEn = false ∧ s.job = none ∧ s.cs = some 0 ∧ 0 < s.curElem.toNat
        ∧ 8 * s.curElem.toNat * 2048 ≤ s.cfg.ctrlMaxBits ∧ s.fifo = 1#32 :: []
        ∧ 65536 % (8 * s.curElem.toNat) = 0 ∧ 65536 ≤ s.cfg.ctrlMaxBits ∧ 16 % (8 * s.curElem.toNat) ≠ 0
        ∧ s.cfg.ctrlMaxBits < 65568 ∧ 0 ≠ 1)
    ∧ { ready with autoEn := false, curElem := 4#3 }.cs = none
    ∧ (phaseEnds.autoEn = false ∧ phaseEnds.job ≠ none) ∧ (ready.autoEn = true ∧ ready.fifo = []) := by
  decide

/-- CTRL sending an element of a write, at the last byte of the device's window, and receiving one of a read. -/
def sending : State := { due .ctrl ready with
  job := some ⟨.data, .tx, 32, [], 4, 1, [], false, .run⟩, fifo := [0x44332211#32], parser := .writeData 0x3FF 0 }
def receiving : State := { due .ctrl ready with
  job := some ⟨.data, .rx, 32, [], 4, 1, [], false, .run⟩, parser := .readData 0x3FF 0
  psram := [(0x000, 0x22#8), (0x3FF, 0x11#8)] }

/-- R294, R299: the element's bytes wrap inside the 1024-byte window of profile A. -/
theorem test_device_data :
    after (step sending) (fun t => (t.psram, t.parser)) =
        some ([(0x000, 0x22#8), (0x001, 0x33#8), (0x002, 0x44#8), (0x3FF, 0x11#8)], .writeData 0x3FF 4)
      ∧ after (step receiving) (fun t => (t.fifo, t.parser)) = some ([0x00002211#32], .readData 0x3FF 4) := by
  decide

theorem test_premises_ControllerSteps :
    (phaseEnds.Live ∧ nextAgent phaseEnds = .ctrl ∧ phaseEnds.job.isSome = true)
    ∧ (sending.Live ∧ nextAgent sending = .ctrl ∧ sending.fifo = 0x44332211#32 :: []
      ∧ sending.parser = .writeData 0x3FF 0 ∧ Memory.wf sending.cfg.density sending.psram = true)
    ∧ { sending with parser := .ignore, fifo := [] }.fifo = []
    ∧ (receiving.Live ∧ nextAgent receiving = .ctrl ∧ receiving.fifo.length < receiving.cfg.fifoDepth
      ∧ receiving.parser = .readData 0x3FF 0)
    ∧ receiving.cfg.fifoDepth ≤ (List.replicate 16 0#32 : List Word).length
    ∧ (let s := { phaseEnds with job := some ⟨.data, .rx, 8, [], 1, 0, [0#8], false, .drop⟩ };
      s.job.isSome = true ∧ s.cs = some 0) := by decide

/-- A request that may start, at the device's last word; one held; one started early; one past the end. -/
theorem test_premises_AutoModeContract :
    (let q : AutoReq := ⟨.read, 0x7FFFFC, 4, 0#32, false, false⟩;
      let s := { due .autopath ready with autoReqs := [q] };
      s.Live ∧ nextAgent s = .autopath ∧ s.autoFlight = none ∧ s.autoReqs = q :: []
        ∧ q.a + q.n ≤ s.cfg.density ∧ s.autoEn = true ∧ s.autoActive = true ∧ s.cs = none ∧ s.job = none
        ∧ goesOn (step s) = true ∧ goesOn (step { s with cs := some 0 }) = true)
    ∧ (let q : AutoReq := ⟨.read, 0x7FFFFC, 4, 0#32, false, true⟩;
      faultOf (step { due .autopath ready with autoReqs := [q], autoActive := false }) =
        some .autoStartBreach)
    ∧ (let q : AutoReq := ⟨.write, 0x7FFFFD, 4, 0#32, false, false⟩;
      faultOf (step { due .autopath ready with autoReqs := [q] }) = some .autoAccessForm)
    ∧ (let s := { due .ctrlMode ready with autoEn := false };
      nextAgent s = .ctrlMode ∧ s.autoActive = true
        ∧ after (step s) (fun t => t.autoActive) = some false) := by decide

/-- R296: an auto write records what its bytes held. -/
theorem test_auto_write_past :
    after (step { due .autopath ready with
        autoFlight := some ⟨⟨.write, 0x10, 2, 0x2211#32, false, false⟩, none⟩, psram := [(0x11, 7#8)] })
      (fun t => (t.psram, t.psramPast)) =
        some ([(0x10, 0x11#8), (0x11, 0x22#8)], [(0x11, 7#8), (0x10, 0#8)]) := by decide

/-- A non-coherent read of a byte that held another value before. -/
theorem test_premises_AutoAccessPerforms_earlier :
    let s := { autoRead with
      cfg := { autoRead.cfg with autoPathCoherent := false }, psram := [(0, 1#8)], psramPast := [(0, 9#8)] }
    s.Live ∧ nextAgent s = .autopath ∧ s.cfg.autoPathCoherent = false
      ∧ s.autoFlight = some ⟨⟨.read, 0, 4, 0#32, false, false⟩, none⟩ := by decide

theorem test_premises_AutoAccessPerforms :
    (autoRead.Live ∧ nextAgent autoRead = .autopath ∧ autoRead.cfg.autoPathCoherent = true
      ∧ autoRead.autoFlight = some ⟨⟨.read, 0, 4, 0#32, false, false⟩, none⟩)
    ∧ MemoriesCanonical { autoRead with
      autoFlight := some ⟨⟨.write, 0x7FFFFC, 4, 5#32, true, false⟩, none⟩ }
    ∧ { autoRead with
      autoFlight := some ⟨⟨.read, 0, 4, 0#32, true, false⟩, some 7#32⟩, hostPend := .waiting [] }.autoFlight =
        some ⟨⟨.read, 0, 4, 0#32, true, false⟩, some 7#32⟩ :=
  ⟨by decide, ⟨by decide, by decide, (fun f h => by cases h; decide), by decide, fun r h => nomatch h⟩, by decide⟩

theorem test_premises_DeviceParsesTransaction :
    (let s := { ready with parser := .opcode };
      0 < s.cfg.density ∧ s.act2 ≠ 0#32 ∧ s.parser = .opcode ∧ 0 < s.addrBytes.toNat
        ∧ 0xFFFFFF < 2 ^ (8 * s.addrBytes.toNat) ∧ (2#8 : Byte) ≠ 0x0B#8
        ∧ 0x7FFFFF - 0x7FFFFF % s.act2.toNat + s.act2.toNat ≤ s.cfg.density)
    ∧ (sending.parser = .writeData 0x3FF 0 ∧ 0 < sending.cfg.density
      ∧ Memory.wf sending.cfg.density sending.psram = true)
    ∧ receiving.parser = .readData 0x3FF 0 := by decide

theorem test_premises_DmaTransferCompletes_read : dmaRead16.Live ∧ dmaRead16.handling = false
    ∧ dmaRead16.exec = true ∧ dmaRead16.todo = []
    ∧ decodeCmd dmaRead16.latch.cmd = transfer true .read 1#3
    ∧ dmaRead16.initDone = true ∧ chainRunning dmaRead16 = false ∧ OperandsValid dmaRead16 true 1#3
    ∧ CallerKeeps dmaRead16 true 1#3 ∧ dmaRead16.job = none ∧ dmaRead16.cs = none ∧ dmaRead16.fifo = []
    ∧ dmaRead16.autoFlight = none ∧ dmaRead16.evtPending = false ∧ dmaRead16.chan.state = .off
    ∧ (∀ k, dmaRead16.configCalls < k → k ∉ dmaRead16.cfg.configFail)
    ∧ ProfileLoaded dmaRead16 ∧ MemoriesCanonical dmaRead16
    ∧ (dmaRead16.latch.addr.toNat % (1#3).toNat = 0 ∧ dmaRead16.act2.toNat % (1#3).toNat = 0) :=
  ⟨by decide, by decide, by decide, by decide, by decide, by decide, by decide, dmaRead16_valid,
    keeps (by decide), by decide, by decide, by decide, by decide, by decide, by decide,
    (fun k _ h => nomatch h), ⟨by decide, by decide, by decide⟩,
    ⟨by decide, by decide, (fun f h => nomatch h), by decide, fun r h => nomatch h⟩, by decide⟩

/-- A canonical memory; in a race, a byte of the buffer that changed, one that did not, and one outside. -/
theorem test_premises_LittleEndianMemory : (Memory.wf addressSpace [(0x20000000, 1#8)] = true ∧ 4 ≤ 4)
    ∧ ready.race = none
    ∧ (∃ r, raced.race = some r ∧ r.dir = .write ∧ offsetFrom 0x20000004 r.buf < r.n
      ∧ offsetFrom 0x20000004 r.buf / r.esz = 1
      ∧ r.before.get (sysAddr 0x20000004) ≠ raced.mem.get (sysAddr 0x20000004)
      ∧ r.before.get (sysAddr 0x20000008) = raced.mem.get (sysAddr 0x20000008)
      ∧ ¬offsetFrom 0x20000028 r.buf < r.n) :=
  ⟨by decide, by decide, _, rfl, by decide⟩

/-- HOST with one action to do. -/
def hosting (a : HostAct) : State := { due .host ready with hostProg := [a] }

/-- The block's last word, read, written and polled; a half-word; a word on a boundary of 2; 8 bytes that reach the
block's first. -/
theorem test_premises_RegisterBlock :
    (let s := hosting (.load 0x400000FC 4);
      s.Live ∧ nextAgent s = .host ∧ s.hostPend = .idle ∧ s.hostProg = .load 0x400000FC 4 :: []
        ∧ hostForm (.load 0x400000FC 4) = some (.read, 0x400000FC, 4, 0) ∧ 0xFC < 0x100
        ∧ 0x400000FC = s.cfg.engineBase + 0xFC ∧ 0xFC % 4 = 0 ∧ goesOn (step s) = true)
    ∧ hostForm (.store 0x40000004 4 7) = some (.write, ready.cfg.engineBase + 0x04, 4, 7)
    ∧ hostForm (.poll 0x40000018 1#32 0#32) = some (.read, ready.cfg.engineBase + 0x18, 4, 0)
    ∧ refusalOf (step (hosting (.load 0x40000018 2))) = some .registerAccess
    ∧ refusalOf (step (hosting (.load 0x400000FE 4))) = some .registerAccess
    ∧ (ShareByte 0x3FFFFFF9 8 ready.cfg.engineBase 0x100
      ∧ refusalOf (step (hosting (.store 0x3FFFFFF9 8 0))) = some .registerAccess) :=
  ⟨by decide, by decide, by decide, by decide, by decide, (rangesMeet_iff _ _ _ _).mp (by decide), by decide⟩

theorem test_premises_CommandAcceptance :
    (let s := hosting (.store ready.cfg.engineBase 4 0x13);
      s.Live ∧ nextAgent s = .host ∧ s.hostPend = .idle ∧ s.latch.valid = false ∧ s.exec = false
        ∧ s.hostProg = .store s.cfg.engineBase 4 (0x13#32).toNat :: [])
    ∧ write40.exec = true := by decide

/-- Where an access of HOST's lies, tested by the offsets of its ranges. -/
def outside (p : Config.Params) (a n : Nat) : Bool :=
  !rangesMeet a n p.engineBase 0x100 && !rangesMeet a n p.fifoAddr 4 && !rangesMeet a n p.autoBase p.density

theorem outside_apart {s : State} {a n : Nat} (h : outside s.cfg a n = true) :
    ¬ShareByte a n s.cfg.engineBase 0x100 ∧ ¬ShareByte a n s.cfg.fifoAddr 4
      ∧ ¬ShareByte a n s.cfg.autoBase s.cfg.density := by
  simp only [outside, Bool.and_eq_true, Bool.not_eq_true', ← Bool.not_eq_true, rangesMeet_iff] at h
  exact ⟨h.1.1, h.1.2, h.2⟩

/-- Accesses to memory that end right below a device's range; the FIFO word's last byte; the two breaches. -/
theorem test_premises_HostAccesses :
    (let s := hosting (.store 0x3FFFFFFB 5 0x0504030201);
      s.Live ∧ nextAgent s = .host ∧ s.hostPend = .idle
        ∧ hostForm (.store 0x3FFFFFFB 5 0x0504030201) = some (.write, 0x3FFFFFFB, 5, 0x0504030201)
        ∧ (¬ShareByte 0x3FFFFFFB 5 s.cfg.engineBase 0x100 ∧ ¬ShareByte 0x3FFFFFFB 5 s.cfg.fifoAddr 4
          ∧ ¬ShareByte 0x3FFFFFFB 5 s.cfg.autoBase s.cfg.density) ∧ goesOn (step s) = true)
    ∧ (hostForm (.load 0x09FFFFF8 8) = some (.read, 0x09FFFFF8, 8, 0) ∧ outside ready.cfg 0x09FFFFF8 8 = true)
    ∧ (hostForm (.poll 0x0A800000 1#32 1#32) = some (.read, 0x0A800000, 4, 0)
      ∧ outside ready.cfg 0x0A800000 4 = true)
    ∧ (ShareByte 0x40010013 1 ready.cfg.fifoAddr 4 ∧ ¬ShareByte 0x40010013 1 ready.cfg.engineBase 0x100
      ∧ faultOf (step (hosting (.load 0x40010013 1))) = some .hostTouchedController)
    ∧ faultOf (step (hosting .touchCtrl)) = some .hostTouchedController
    ∧ faultOf (step (hosting .touchDma)) = some .hostTouchedChannel := by
  refine ⟨⟨by decide, by decide, by decide, by decide, outside_apart (by decide), by decide⟩, by decide,
    by decide, ⟨(rangesMeet_iff _ _ _ _).mp (by decide), ?_, by decide⟩, by decide, by decide⟩
  intro h
  exact absurd ((rangesMeet_iff _ _ _ _).mpr h) (by decide)

/-- The window's last word; 4 bytes across its end; 8 bytes inside it; a HOST that waits, and one in between. -/
theorem test_premises_HostAccesses_window :
    (let s := hosting (.load 0x0A7FFFFC 4);
      0x0A7FFFFC = s.cfg.autoBase + 0x7FFFFC ∧ 0x7FFFFC + 4 ≤ s.cfg.density
        ∧ after (step s) (fun t => t.hostPend) = some (.waiting []))
    ∧ (ShareByte 0x0A7FFFFE 4 ready.cfg.autoBase ready.cfg.density
      ∧ (∀ d, d + 4 ≤ ready.cfg.density → sysAddr 0x0A7FFFFE ≠ sysAddr (ready.cfg.autoBase + d))
      ∧ after (step (hosting (.load 0x0A7FFFFE 4))) (fun t => t.hostPend) = some (.part []))
    ∧ after (step (hosting (.load 0x0A000000 8))) (fun t => t.hostPend) = some (.part [])
    ∧ (let s := { hosting (.load 0x0A7FFFFE 4) with hostPend := .part [1#8] };
      sysAddr (0x0A7FFFFE + 1) = sysAddr (s.cfg.autoBase + 0x7FFFFF) ∧ 0x7FFFFF < s.cfg.density
        ∧ after (step s) (fun t => t.hostPend) = some (.waiting [1#8]))
    ∧ (let s := { hosting (.load 0x0A7FFFFE 4) with hostPend := .part [1#8, 2#8] };
      (∀ d < s.cfg.density, sysAddr (0x0A7FFFFE + 2) ≠ sysAddr (s.cfg.autoBase + d))
        ∧ after (step s) (fun t => t.hostPend) = some (.part [1#8, 2#8, 0#8]))
    ∧ (let s := { hosting (.load 0x0A7FFFFE 4) with hostPend := .part [1#8, 2#8, 3#8, 4#8] };
      after (step s) (fun t => t.hostLog) = some [0x04030201])
    ∧ after (step { hosting (.load 0x0A000000 4) with hostPend := .waiting [] }) (fun t => t.hostPend) =
      some (.waiting []) := by
  refine ⟨by decide, ⟨(rangesMeet_iff _ _ _ _).mp (by decide), ?_, by decide⟩, by decide, by decide,
    ⟨?_, by decide⟩, by decide, by decide⟩
  · intro d h e
    have hd : ready.cfg.density = 8388608 := rfl
    have hb : ready.cfg.autoBase = 167772160 := rfl
    rw [hd] at h
    rw [hb] at e
    simp only [sysAddr, addressSpace] at e
    omega
  · intro d h e
    have hd : ready.cfg.density = 8388608 := rfl
    have hb : ready.cfg.autoBase = 167772160 := rfl
    change d < ready.cfg.density at h
    change _ = sysAddr (ready.cfg.autoBase + d) at e
    rw [hd] at h
    rw [hb] at e
    simp only [sysAddr, addressSpace] at e
    omega

end Sys2Proof.Tests
end

section
/-! Every step keeps the memories canonical, the FIFO within its depth and the profile loaded: what CTRL's and the
DMA channel's steps do to memory and the FIFO, then one lemma per agent for each invariant, from the frame of that
agent's step. -/

namespace Sys2Proof.Machine

/-! ### CTRL's data path (R293, R294) -/

/-- A step of a data phase keeps the PSRAM canonical: the device stores inside its density (R299). -/
theorem dataStep_psramWf {s : State} (h : PsramWf s) (hd : 0 < s.cfg.density) (j : Job) :
    PsramWf (dataStep s j) := by
  unfold dataStep
  split
  · simpa [PsramWf] using h
  · split
    · split
      · exact h
      · rename_i r _
        have := deviceReceive_wf (s := { s with fifo := r }) h hd
        simpa [PsramWf] using this _ _
    · split
      · simpa [PsramWf] using h
      · exact h

/-- A step of CTRL's manual datapath keeps the PSRAM canonical. -/
theorem ctrlStep_psramWf {s : State} (h : PsramWf s) (hd : 0 < s.cfg.density) : PsramWf (ctrlStep s) := by
  unfold ctrlStep
  split
  · exact h
  · rename_i j _
    split
    · split
      · exact dataStep_psramWf h hd j
      · have := deviceReceive_wf h hd j.nbits (j.payload.take (bytesFor j.nbits))
        simpa [PsramWf] using this
    · simpa [PsramWf] using h
    · exact h

/-- A step of a data phase keeps the FIFO within its depth: it pops, or pushes where there is room (R293). -/
theorem dataStep_fifoBounded {s : State} (h : FifoBounded s) (j : Job) : FifoBounded (dataStep s j) := by
  unfold dataStep
  split
  · simpa [FifoBounded] using h
  · split
    · split
      · exact h
      · rename_i hf
        simp only [FifoBounded, hf, List.length_cons] at h
        simpa [FifoBounded] using Nat.le_of_succ_le h
    · split
      · rename_i hroom
        simpa [FifoBounded] using hroom
      · exact h

/-- A step of CTRL's manual datapath keeps the FIFO within its depth. -/
theorem ctrlStep_fifoBounded {s : State} (h : FifoBounded s) : FifoBounded (ctrlStep s) := by
  unfold ctrlStep
  split
  · exact h
  · rename_i j _
    split
    · split
      · exact dataStep_fifoBounded h j
      · simpa [FifoBounded] using h
    · simpa [FifoBounded] using h
    · exact h

/-! ### The DMA channel's step (R297) -/

/-- An element's source access leaves the state, or pops the FIFO. -/
theorem dmaFetch_some {s u : State} {src w : Nat} {v : Word} (h : dmaFetch s src w = some (v, u)) :
    u = s ∨ ∃ e r, s.fifo = e :: r ∧ u = { s with fifo := r } := by
  unfold dmaFetch at h
  split at h
  · split at h <;> cases h
    exact .inr ⟨_, _, ‹_›, rfl⟩
  · cases h
    exact .inl rfl

/-- An element's destination access pushes into a FIFO that is not full, or writes memory. -/
theorem dmaDeliver_some {s u : State} {dst w : Nat} {v : Word} (h : dmaDeliver s dst w v = some u) :
    (s.fifo.length < s.cfg.fifoDepth ∧ u = { s with fifo := s.fifo ++ [elemOfBytes (elemBytes w v)] })
      ∨ u = { s with mem := memWrite s.mem dst w v } := by
  unfold dmaDeliver at h
  split at h
  · split at h <;> cases h
    exact .inl ⟨‹_›, rfl⟩
  · cases h
    exact .inr rfl

/-- The move of one element does both accesses, or waits. -/
theorem dmaMove_cases (s : State) :
    dmaMove s = s ∨ ∃ (v : Word) (src dst w : Nat) (u x : State), dmaFetch s src w = some (v, u)
      ∧ dmaDeliver u dst w v = some x ∧ dmaMove s = { x with chan := (dmaMove s).chan } := by
  unfold dmaMove
  dsimp only
  split
  · exact .inl rfl
  · rename_i v u hu
    split
    · exact .inl rfl
    · rename_i x hx
      exact .inr ⟨v, _, _, _, u, x, hu, hx, rfl⟩

/-- The move of one element keeps system memory canonical. -/
theorem dmaMove_mem_wf {s : State} (h : Memory.wf addressSpace s.mem = true) :
    Memory.wf addressSpace (dmaMove s).mem = true := by
  rcases dmaMove_cases s with e | ⟨v, src, dst, w, u, x, hu, hx, e⟩ <;> rw [e]
  · exact h
  · have hum : u.mem = s.mem := by
      rcases dmaFetch_some hu with rfl | ⟨_, _, -, rfl⟩ <;> rfl
    rcases dmaDeliver_some hx with ⟨-, rfl⟩ | rfl
    · exact hum ▸ h
    · exact memWrite_wf (hum ▸ h) dst w v

/-- The move of one element keeps the FIFO within its depth. -/
theorem dmaMove_fifoBounded {s : State} (h : FifoBounded s) : FifoBounded (dmaMove s) := by
  rcases dmaMove_cases s with e | ⟨v, src, dst, w, u, x, hu, hx, e⟩ <;> rw [e]
  · exact h
  · have hub : FifoBounded u := by
      rcases dmaFetch_some hu with rfl | ⟨_, r, hf, rfl⟩
      · exact h
      · simp only [FifoBounded, hf, List.length_cons] at h
        exact Nat.le_of_succ_le h
    rcases dmaDeliver_some hx with ⟨hroom, rfl⟩ | rfl
    · simpa [FifoBounded] using hroom
    · exact hub

/-- The channel's step does nothing, moves an element, or completes. -/
theorem dmaStep_next {s t : State} (h : dmaStep s = .next t) :
    t = s ∨ t = dmaMove s ∨ t = dmaComplete s := by
  unfold dmaStep at h
  split at h
  · split at h
    · cases h
    · split at h <;> cases h
      · exact .inr (.inl rfl)
      · exact .inr (.inr rfl)
  · cases h
    exact .inl rfl

theorem dmaComplete_frame (s : State) :
    dmaComplete s = { s with chan := (dmaComplete s).chan, evtPending := (dmaComplete s).evtPending } := by
  unfold dmaComplete
  dsimp only
  split
  · rw [deliverEvent_frame]
  · rfl

theorem dmaStep_mem_wf {s t : State} (h : dmaStep s = .next t) (hm : Memory.wf addressSpace s.mem = true) :
    Memory.wf addressSpace t.mem = true := by
  rcases dmaStep_next h with rfl | rfl | rfl
  · exact hm
  · exact dmaMove_mem_wf hm
  · rw [dmaComplete_frame]
    exact hm

theorem dmaStep_fifoBounded {s t : State} (h : dmaStep s = .next t) (hb : FifoBounded s) : FifoBounded t := by
  rcases dmaStep_next h with rfl | rfl | rfl
  · exact hb
  · exact dmaMove_fifoBounded hb
  · rw [dmaComplete_frame]
    exact hb

/-! ### The memories, agent by agent (R60, R61, R296) -/

theorem hostStep_memories {s t : State} (h : hostStep s = .next t) (hm : MemoriesCanonical s) :
    MemoriesCanonical t := by
  obtain ⟨hmem, hpsram, hflight, hnote, hrace⟩ := hm
  have hmem' : Memory.wf addressSpace t.mem = true := by
    rcases hostStep_mem h with e | ⟨x, bs, e⟩ <;> rw [e]
    · exact hmem
    · exact memPutBytes_wf hmem x bs
  have hnote' : Memory.wf addressSpace t.memAtCmd = true := by
    rcases hostStep_memAtCmd h with e | e <;> rw [e]
    · exact hnote
    · exact hmem
  rw [hostStep_frame h]
  exact ⟨hmem', hpsram, hflight, hnote', hrace⟩

/-- A line writes memory by MemWrite alone, and opens a race against what memory held at the acceptance. -/
theorem runAct_memories {a : Act} {r : List Act} {s t : State} (h : runAct a r s = .next t)
    (hm : MemoriesCanonical s) : MemoriesCanonical t := by
  obtain ⟨hmem, hpsram, hflight, hnote, hrace⟩ := hm
  have hmem' : Memory.wf addressSpace t.mem = true := by
    rcases runAct_mem h with e | ⟨x, n, v, e⟩ <;> rw [e]
    · exact hmem
    · exact memWrite_wf hmem x n v
  have hrace' : ∀ q, t.race = some q → Memory.wf addressSpace q.before = true := by
    intro q hq
    rcases runAct_race h with e | e | ⟨d, w, e⟩ <;> rw [e] at hq
    · exact hrace q hq
    · cases hq
    · cases hq
      exact hnote
  rw [runAct_frame h]
  exact ⟨hmem', hpsram, hflight, hnote, hrace'⟩

/-- A first line writes RESULT and the position alone: VALIDATE and the tests are no bus activity (R205). -/
theorem firstLine_frame {i : Instr} {s t : State} (h : FirstLine s i t) :
    t = { s with todo := t.todo, exec := t.exec, handling := t.handling, result := t.result } := by
  cases h <;> rfl

theorem engineStep_memories {s t : State} (h : engineStep s = .next t) (hm : MemoriesCanonical s) :
    MemoriesCanonical t := by
  rcases engineStep_next h with ⟨i, -, h⟩ | ⟨-, -, rfl⟩
  · rcases exec_next h with ⟨-, h⟩ | ⟨a, r, -, h⟩ | rfl
    · rw [firstLine_frame h]
      exact hm
    · exact runAct_memories h hm
    · exact hm
  · rw [takeWork_frame]
    exact hm

theorem ctrlStep_memories {s : State} (hok : s.cfg.ok = true) (hm : MemoriesCanonical s) :
    MemoriesCanonical (ctrlStep s) := by
  obtain ⟨hmem, hpsram, hflight, hnote, hrace⟩ := hm
  have hpsram' := ctrlStep_psramWf hpsram (density_pos hok)
  rw [ctrlStep_frame] at hpsram' ⊢
  exact ⟨hmem, hpsram', hflight, hnote, hrace⟩

/-- The access in flight stays inside the PSRAM, so what it stores does too (R296). -/
theorem autoPerform_memories {s : State} {f : AutoFlight} (hf : s.autoFlight = some f) (hm : MemoriesCanonical s) :
    MemoriesCanonical (autoPerform s f.req) := by
  obtain ⟨hmem, hpsram, hflight, hnote, hrace⟩ := hm
  have hin := hflight f hf
  unfold autoPerform
  split
  · refine ⟨hmem, hpsram, ?_, hnote, hrace⟩
    rintro g ⟨⟩
    exact hin
  · have hput : PsramWf (autoPut s f.req.a (elemBytes f.req.n f.req.data)) :=
      autoPut_wf hpsram (by simpa using hin)
    dsimp only
    rw [autoPut_frame] at hput ⊢
    refine ⟨hmem, hput, ?_, hnote, hrace⟩
    rintro g ⟨⟩
    exact hin

theorem autopathStep_memories {s t : State} (h : autopathStep s = .next t) (hm : MemoriesCanonical s) :
    MemoriesCanonical t := by
  unfold autopathStep at h
  split at h
  · split at h
    · cases h
      exact hm
    · rename_i q _ _
      split at h
      · cases h
      · rename_i hform
        split at h
        · cases h
          obtain ⟨hmem, hpsram, -, hnote, hrace⟩ := hm
          refine ⟨hmem, hpsram, ?_, hnote, hrace⟩
          rintro g ⟨⟩
          simp only [autoFormOk, Bool.and_eq_false_iff, not_or, Bool.not_eq_false, decide_eq_true_eq] at hform
          exact hform.2
        · split at h <;> cases h
          exact hm
  · rename_i f hf
    split at h <;> cases h
    · exact autoPerform_memories hf hm
    · obtain ⟨hmem, hpsram, -, hnote, hrace⟩ := hm
      exact ⟨hmem, hpsram, (by rintro g ⟨⟩), hnote, hrace⟩

theorem dmaStep_memories {s t : State} (h : dmaStep s = .next t) (hm : MemoriesCanonical s) :
    MemoriesCanonical t := by
  obtain ⟨hmem, hpsram, hflight, hnote, hrace⟩ := hm
  have hmem' := dmaStep_mem_wf h hmem
  rw [dmaStep_frame h]
  exact ⟨hmem', hpsram, hflight, hnote, hrace⟩

/-- Every agent keeps both memories canonical. -/
theorem agentStep_memories {a : Config.Agent} {s t : State} (hok : s.cfg.ok = true)
    (h : agentStep a s = .next t) (hm : MemoriesCanonical s) : MemoriesCanonical t := by
  cases a with
  | host => exact hostStep_memories h hm
  | engine => exact engineStep_memories h hm
  | ctrl => cases h; exact ctrlStep_memories hok hm
  | ctrlMode => cases h; rw [ctrlModeStep_frame]; exact hm
  | autopath => exact autopathStep_memories h hm
  | sync => cases h; exact hm
  | dma => exact dmaStep_memories h hm
  | event => rw [eventStep_frame h]; exact hm
  | cpu => cases h; rw [cpuStep_frame]; exact hm

/-! ### The FIFO, agent by agent (R57, R293) -/

theorem engineStep_fifoBounded {s t : State} (h : engineStep s = .next t) (hb : FifoBounded s) : FifoBounded t := by
  rcases engineStep_next h with ⟨i, -, h⟩ | ⟨-, -, rfl⟩
  · rcases exec_next h with ⟨-, h⟩ | ⟨a, r, -, h⟩ | rfl
    · rw [firstLine_frame h]
      exact hb
    · exact runAct_fifoBounded h hb
    · exact hb
  · rw [takeWork_frame]
    exact hb

/-- Every agent keeps the FIFO within its depth: ENGINE, CTRL and DMA push where there is room, the others do not
push. -/
theorem agentStep_fifoBounded {a : Config.Agent} {s t : State} (h : agentStep a s = .next t) (hb : FifoBounded s) :
    FifoBounded t := by
  cases a with
  | host => rw [hostStep_frame h]; exact hb
  | engine => exact engineStep_fifoBounded h hb
  | ctrl => cases h; exact ctrlStep_fifoBounded hb
  | ctrlMode => cases h; rw [ctrlModeStep_frame]; exact hb
  | autopath => rw [autopathStep_frame h]; exact hb
  | sync => cases h; exact hb
  | dma => exact dmaStep_fifoBounded h hb
  | event => rw [eventStep_frame h]; exact hb
  | cpu => cases h; rw [cpuStep_frame]; exact hb

/-! ### The profile, agent by agent (R265, R266) -/

/-- Taking work leaves no line of INIT, or leaves the lines as they are. -/
theorem takeWork_profile {s : State} (hp : ProfileInitialized s) : ProfileInitialized (takeWork s) := by
  unfold takeWork
  split
  · exact hp.of rfl rfl rfl rfl rfl rfl
  · split
    · exact hp.of rfl rfl rfl rfl rfl rfl
    · exact hp

theorem engineStep_profile {s t : State} (h : engineStep s = .next t) (hp : ProfileInitialized s) :
    ProfileInitialized t := by
  rcases engineStep_next h with ⟨i, -, h⟩ | ⟨-, -, rfl⟩
  · rcases exec_next h with ⟨-, h⟩ | ⟨a, r, ht, h⟩ | rfl
    · exact firstLine_profile h hp
    · exact runAct_profile h hp ht
    · exact hp
  · exact takeWork_profile hp

/-- What the profile invariant reads. -/
def profilePart (s : State) : Config.Params × Bool × Word × BitVec 3 × Enc × List Act :=
  (s.cfg, s.initDone, s.act0, s.addrBytes, s.enc, s.todo)

theorem ProfileInitialized.congr {s t : State} (hp : ProfileInitialized s) (h : profilePart t = profilePart s) :
    ProfileInitialized t := by
  simp only [profilePart, Prod.mk.injEq] at h
  obtain ⟨hcfg, hdone, hact, hbytes, henc, htodo⟩ := h
  exact hp.of hcfg hdone hact hbytes henc (htodo ▸ hp.2)

/-- Every agent keeps the profile invariant: the ENGINE alone writes the profile and the lines left. -/
theorem agentStep_profile {a : Config.Agent} {s t : State} (h : agentStep a s = .next t) (hp : ProfileInitialized s) :
    ProfileInitialized t := by
  cases a with
  | host => rw [hostStep_frame h]; exact hp.congr rfl
  | engine => exact engineStep_profile h hp
  | ctrl => cases h; rw [ctrlStep_frame]; exact hp.congr rfl
  | ctrlMode => cases h; rw [ctrlModeStep_frame]; exact hp.congr rfl
  | autopath => rw [autopathStep_frame h]; exact hp.congr rfl
  | sync => cases h; exact hp.congr rfl
  | dma => rw [dmaStep_frame h]; exact hp.congr rfl
  | event => rw [eventStep_frame h]; exact hp.congr rfl
  | cpu => cases h; rw [cpuStep_frame]; exact hp.congr rfl

/-- Settles O10: a step is one agent's action, which keeps each invariant, or the launch, which writes `launched`
alone. -/
theorem memoriesFifoAndProfileKept : Obligations.MemoriesFifoAndProfileKept := by
  intro s t h
  rcases step_next h with ⟨⟨hok, -⟩, h⟩ | ⟨-, -, rfl⟩
  · exact ⟨fun hm => agentStep_memories (s := s.turn) hok h hm, fun hb => agentStep_fifoBounded (s := s.turn) h hb,
      fun hp => agentStep_profile h (hp.congr (t := s.turn) rfl)⟩
  · exact ⟨id, id, fun hp => hp.congr rfl⟩

end Sys2Proof.Machine
end

section
/-! The ENGINE's step and the launch: what `step` adds to the instruction it runs (45_command_interface R263, R269;
70_reset R325). -/

namespace Sys2Proof.Machine

/-! ### The ENGINE's step -/

/-- The four bytes of a word make that word again (20_memory R75). -/
theorem decode_cmd_bytesOfWord (w : Word) : decode .cmd (bytesOfWord w) = .ok (decodeCmd w, []) := by
  have : wordOfBytes (w.extractLsb' 0 8) (w.extractLsb' 8 8) (w.extractLsb' 16 8) (w.extractLsb' 24 8) = w := by
    unfold wordOfBytes
    ext i hi
    simp only [BitVec.getElem_append, BitVec.getElem_extractLsb']
    grind
  simp only [bytesOfWord, decode, this]

/-- A machine that runs, with the ENGINE due to move, runs the current instruction. -/
theorem step_engine {s : State} {i : Instr} (hl : s.Live) (hn : nextAgent s = .engine)
    (hi : currentInstr s = some i) : step s = exec i s.turn := by
  have ht : currentInstr s.turn = some i := hi
  rw [step_live hl, hn]
  simp only [agentStep, engineStep, ht]

/-! ### The launch -/

/-- The state after reset, but for R325's draws, the channel's descriptor and the inputs (log 33). -/
def AtReset (s : State) : Prop :=
  ∃ bw ce de ps m cpu ev prog sc n, s = { State.resetWith s.cfg with
    curBw := bw, curElem := ce, chan := ⟨.off, de, 0, false⟩, psram := ps, mem := m, cpuReqs := cpu
    events := ev, hostProg := prog, sched := sc, tick := n }

/-- The premises a launch tests are that the state is one after reset. -/
theorem launchOk_iff (s : State) : launchOk s = true ↔ AtReset s := by
  constructor
  · intro h
    exact ⟨_, _, _, _, _, _, _, _, _, _, launch_state h⟩
  · rintro ⟨bw, ce, de, ps, m, cpu, ev, prog, sc, n, h⟩
    have fixed : s = launchState s := by
      rw [h]
      rfl
    exact decide_eq_true fixed

theorem AtReset.launched {s : State} (h : AtReset s) : s.launched = false := by
  rw [launch_state ((launchOk_iff s).mpr h)]
  rfl

theorem step_badConfiguration {s : State} (h : s.cfg.ok = false) : step s = .refused .badConfiguration := by
  cases hl : s.launched <;> simp [step, launchStep, hl, h]

/-- Out of reset, in a configuration that keeps R9, a step is the launch. -/
theorem step_launch {s : State} (hc : s.cfg.ok = true) (hl : s.launched = false) :
    step s = if launchOk s then .next { s with launched := true } else .refused .badLaunch := by
  simp [step, launchStep, hl, hc]

/-- Settles O4: a live ENGINE runs the current instruction, and the launch tests exactly `AtReset`. -/
theorem stepRunsTheInstruction : Obligations.StepRunsTheInstruction := by
  refine ⟨fun s hl hn => ⟨fun i hh hx hd => ?_, fun hh => ?_⟩, fun s => ⟨step_badConfiguration, ?_, ?_⟩⟩
  · rw [decode_cmd_bytesOfWord] at hd
    cases hd
    exact step_engine hl hn (by simp [currentInstr, hh, hx])
  · exact step_engine hl hn (by simp [currentInstr, hh])
  · intro hc (h : AtReset s)
    rw [step_launch hc h.launched, if_pos ((launchOk_iff s).mpr h)]
  · intro hc hl (h : ¬AtReset s)
    rw [step_launch hc hl, if_neg (mt (launchOk_iff s).mp h)]

end Sys2Proof.Machine
end

section
/-! Lines of a command one after the other: INIT's tests and assignments, how a blocking transfer begins, and the
lines of its chunk loop (45_command_interface R265; 43_blocking_path R206 to R208). -/

namespace Sys2Proof.Machine

/-! ### Lines in a row -/

theorem execLines_succ {i : Instr} {s t : State} (h : exec i s = .next t) (k : Nat) :
    execLines i (k + 1) s = execLines i k t := by
  simp only [execLines, h]

/-- One line of a command that goes on. -/
theorem execLines_line {i : Instr} {s t : State} {a : Act} {r : List Act} (hi : portOf i = .cmd)
    (ht : s.todo = a :: r) (h : runAct a r s = .next t) (k : Nat) : execLines i (k + 1) s = execLines i k t :=
  execLines_succ ((exec_cmd_line hi ht).trans h) k

/-- Assignments of W_*, one line each (R208). -/
theorem execLines_setWork {i : Instr} (hi : portOf i = .cmd) (fs : List WorkField) {r : List Act} {s : State}
    (ht : s.todo = fs.map Act.setWork ++ r) (k : Nat) :
    execLines i (fs.length + k) s = execLines i k { s with todo := r, work := fs.foldl setWork s.work } := by
  induction fs generalizing s with
  | nil =>
    rw [List.map_nil, List.nil_append] at ht
    subst ht
    rw [List.length_nil, Nat.zero_add]
    rfl
  | cons f fs ih =>
    rw [List.length_cons, Nat.add_right_comm, execLines_line hi ht rfl, ih rfl]
    rfl

/-- An assignment of INIT reads and writes nothing of the position. -/
theorem setProfile_goto (s : State) (f : ProfileField) (l : List Act) :
    setProfile (s.goto l) f = (setProfile s f).goto l := by
  cases f <;> rfl

/-- Assignments of INIT, one line each (R265). -/
theorem execLines_setProfile {i : Instr} (hi : portOf i = .cmd) (fs : List ProfileField) (r : List Act) (s : State)
    (k : Nat) : execLines i (fs.length + k) (s.goto (fs.map Act.setProfile ++ r)) =
      execLines i k ((fs.foldl setProfile s).goto r) := by
  induction fs generalizing s with
  | nil => rw [List.length_nil, Nat.zero_add, List.map_nil, List.nil_append, List.foldl_nil]
  | cons f fs ih =>
    rw [List.length_cons, Nat.add_right_comm, execLines_line hi rfl rfl, List.foldl_cons, ← ih]
    exact congrArg _ (setProfile_goto s f _)

/-! ### INIT (R265) -/

/-- ADDR_BYTES is PROF0[17:16] + 1 (30_encoding R109). -/
theorem addrBytesOf_eq (p0 : Word) : addrBytesOf p0 = BitVec.ofNat 3 (p0.toNat / 2 ^ 16 % 4 + 1) := by
  apply BitVec.eq_of_toNat_eq
  simp only [addrBytesOf, profAddrLen, BitVec.toNat_add, BitVec.toNat_append, BitVec.extractLsb'_toNat,
    Nat.shiftRight_eq_div_pow, BitVec.toNat_ofNat]
  simp

/-- ENC compares PROF0[19:18] with PROF0[21:20] (30_encoding R110). -/
theorem encOf_eq (p0 : Word) :
    encOf p0 = if p0.toNat / 2 ^ 18 % 4 = p0.toNat / 2 ^ 20 % 4 then .packed else .split := by
  simp [encOf, profInstBw, profAddrBw, ← BitVec.toNat_inj, Nat.shiftRight_eq_div_pow]

/-- The assignments of INIT, in their order. -/
def profileFields (s : State) : List ProfileField :=
  [.act0 s.latch.prof0, .act1 s.latch.prof1, .act2 s.latch.prof2, .addrBytes, .enc, .done]

theorem initBody_eq (s : State) :
    initBody s = (profileFields s).map Act.setProfile ++ [.finish .init .ok false] := rfl

/-- What INIT's assignments leave (R265). -/
def initLoaded (s : State) : State :=
  { s with
    act0 := s.latch.prof0, act1 := s.latch.prof1, act2 := s.latch.prof2
    addrBytes := addrBytesOf s.latch.prof0, enc := encOf s.latch.prof0, initDone := true }

theorem foldl_profileFields (s : State) : (profileFields s).foldl setProfile s = initLoaded s := by
  simp only [profileFields, List.foldl_cons, List.foldl_nil, setProfile, initLoaded]

/-- A command that ends where no line is left writes RESULT and EXEC alone (R264). -/
theorem finish_of_todo_nil {s : State} (h : s.todo = []) (c : Code) (p : Bool) :
    s.finish c p = { s with result := ⟨c, p, true⟩, exec := false } := by
  rw [State.finish, ← h]

/-- INIT's first line (R269). -/
theorem exec_init_first {s : State} (h : s.todo = []) :
    exec .init s = .next (s.goto (.initTest s.latch.prof0 :: initBody s)) := by
  simp only [exec, execInit, continueWith, h, initFirst]

theorem runAct_initTest_done {s : State} {p0 : Word} {r : List Act} (hd : s.initDone = true) :
    runAct (.initTest p0) r s = .next (s.finish .alreadyInitialized false) := by
  simp only [runAct, hd, if_true]

theorem runAct_initTest_rejected {s : State} {p0 : Word} {r : List Act} (hd : s.initDone = false)
    (hp : profileOk s.cfg p0 = false) : runAct (.initTest p0) r s = .next (s.finish .invalidProfile false) := by
  simp only [runAct, hd, hp, if_true, Bool.false_eq_true, if_false]

theorem runAct_initTest_accepted {s : State} {p0 : Word} {r : List Act} (hd : s.initDone = false)
    (hp : profileOk s.cfg p0 = true) : runAct (.initTest p0) r s = .next (s.goto r) := by
  simp only [runAct, hd, hp, Bool.false_eq_true, Bool.true_eq_false, if_false]

/-- INIT up to its tests, when they answer `t`. -/
theorem execLines_init_tests {s t : State} (h0 : s.todo = [])
    (h : runAct (.initTest s.latch.prof0) (initBody s) (s.goto (.initTest s.latch.prof0 :: initBody s)) = .next t)
    (k : Nat) : execLines .init (k + 2) s = execLines .init k t := by
  rw [execLines_succ (exec_init_first h0), execLines_line rfl rfl h]

/-- INIT with an accepted profile, up to its last line. -/
theorem execLines_init_accepted {s : State} (h0 : s.todo = []) (hd : s.initDone = false)
    (hp : profileOk s.cfg s.latch.prof0 = true) (k : Nat) : execLines .init (k + 8) s =
      execLines .init k ((initLoaded s).goto [.finish .init .ok false]) :=
  calc execLines .init (k + 8) s
    _ = execLines .init (k + 6) (s.goto (initBody s)) :=
      execLines_init_tests h0 (runAct_initTest_accepted (s := s.goto _) hd hp) (k + 6)
    _ = execLines .init ((profileFields s).length + k)
        (s.goto ((profileFields s).map Act.setProfile ++ [.finish .init .ok false])) := by
      rw [initBody_eq, Nat.add_comm]
      rfl
    _ = execLines .init k (((profileFields s).foldl setProfile s).goto [.finish .init .ok false]) :=
      execLines_setProfile rfl (profileFields s) [.finish .init .ok false] s k
    _ = _ := by rw [foldl_profileFields]

/-- Settles O19: DECODE's line and INIT's tests, then the assignments, which all go on. -/
theorem initOutcomes : Obligations.InitOutcomes := by
  intro s h0
  refine ⟨exec_init_first h0, fun hd => ?_, fun hd hp => ?_, fun hd hp => ?_⟩
  · rw [← finish_of_todo_nil h0]
    exact execLines_init_tests h0 (runAct_initTest_done (s := s.goto _) hd) 0
  · rw [← finish_of_todo_nil h0]
    exact execLines_init_tests h0 (runAct_initTest_rejected (s := s.goto _) hd hp) 0
  · have assigned := execLines_init_accepted h0 hd hp
    rw [← addrBytesOf_eq, ← encOf_eq]
    refine ⟨?_, assigned 0, ?_⟩
    · exact execLines_init_tests h0 (runAct_initTest_accepted (s := s.goto _) hd hp) 0
    · exact (assigned 1).trans ((execLines_line rfl rfl rfl 0).trans
        (congrArg Host.Outcome.next (finish_of_todo_nil (s := initLoaded s) h0 .ok false)))

/-! ### BLOCKING begins (R208) -/

theorem portOf_transfer (dma : Bool) (dir : Dir) (e : BitVec 3) : portOf (transfer dma dir e) = .cmd := by
  cases dma <;> cases dir <;> rfl

/-- A blocking command's first line. -/
theorem exec_blocking_first {s : State} (dir : Dir) (e : BitVec 3) (h : s.todo = []) :
    exec (transfer false dir e) s = blockingBegin dir e s := by
  cases dir <;> simp only [transfer, exec, execReadBlocking, execWriteBlocking, continueWith, h]

/-- The first line of a blocking command whose operands are valid (R200). -/
theorem blockingBegin_valid {s : State} {dir : Dir} {e : BitVec 3} (hi : s.initDone = true)
    (hv : OperandsValid s false e) : blockingBegin dir e s =
      .next (s.goto (.busyTest false dir e :: (blockingWork s dir e ++ blockingBody dir))) := by
  simp only [blockingBegin, transferFirst, validate_valid hi hv _ fun _ => rfl]

/-- The Busy test goes on while no chain runs and the caller keeps its duties (R208). -/
theorem runAct_busyTest_passes {s : State} {dma : Bool} (dir : Dir) {e : BitVec 3} (r : List Act)
    (hr : chainRunning s = false) (hk : CallerKeeps s dma e) :
    runAct (.busyTest dma dir e) r s = .next { s.goto r with race := some (openRace s dir e) } := by
  simp [runAct, hr, (callerKeeps_iff s dma e).mp hk]

/-- CallerKeeps reads nothing of the position. -/
theorem CallerKeeps.goto {s : State} {dma : Bool} {e : BitVec 3} (h : CallerKeeps s dma e) (l : List Act) :
    CallerKeeps (s.goto l) dma e :=
  ⟨h.buffer, h.sptr, h.apart, h.word⟩

/-- The assignments of BLOCKING, in their order (R208). -/
def workFields (s : State) (dir : Dir) (e : BitVec 3) : List WorkField :=
  [.dir dir, .addr s.latch.addr, .buf s.latch.buf, .rem (BitVec.ofNat 33 (s.latch.count.toNat * e.toNat)), .esz e,
    .off (BitVec.ofNat 32 (wrapOffset s.act2.toNat s.latch.addr.toNat))]

theorem blockingWork_eq (s : State) (dir : Dir) (e : BitVec 3) :
    blockingWork s dir e = (workFields s dir e).map Act.setWork := rfl

/-- Settles O26: the first line and the Busy test pass, then the six assignments follow. -/
theorem blockingBegins : Obligations.BlockingBegins := by
  intro s dir e h0 hi hr hv hk
  have hp := portOf_transfer false dir e
  have first := (exec_blocking_first dir e h0).trans (blockingBegin_valid hi hv)
  have test (k : Nat) : execLines (transfer false dir e) (k + 2) s = execLines (transfer false dir e) k
      { s with todo := blockingWork s dir e ++ blockingBody dir, race := some (openRace s dir e) } :=
    (execLines_succ first _).trans
      (execLines_line hp (State.goto_todo s _) (runAct_busyTest_passes dir _ hr (hk.goto _)) k)
  refine ⟨first, test 0, (test 6).trans ?_⟩
  rw [blockingWork_eq]
  exact execLines_setWork hp (workFields s dir e) rfl 0

/-! ### The chunk loop (R208) -/

/-- Settles O27: every line is the one `runAct` gives. -/
theorem chunkLoopLines : Obligations.ChunkLoopLines := by
  intro s dir e r
  have line {a : Act} (ht : s.todo = a :: r) : exec (transfer false dir e) s = runAct a r s :=
    exec_cmd_line (portOf_transfer false dir e) ht
  refine ⟨fun ht => ?_, fun ht => line ht, fun c ht => ?_, fun v ht => line ht, fun c ht => line ht,
    fun c ht => line ht, fun c ht => line ht, fun b ht => line ht, fun ht => ?_⟩
  · rw [line ht]
    have hz : s.work.rem = 0#33 ↔ s.work.rem.toNat = 0 := BitVec.toNat_inj.symm
    simp only [runAct, hz]
    split <;> rfl
  · rw [line ht]
    cases dir <;> rfl
  · rw [line ht]
    simp only [runAct]
    cases s.work.prior <;> rfl

end Sys2Proof.Machine
end

section
/-! Which line writes which state (R14, R42 to R55): one frame for every line, in which each field stands under the
test of the lines that write it, and from it the frame of every instruction. -/

namespace Sys2Proof.Machine

/-- A field that stands under the test `b` has changed only if `b` holds. -/
theorem writes_of_ne {α : Type} {x y : α} {b : Bool} (h : y = bif b then y else x) (hne : y ≠ x) : b = true := by
  cases b
  · exact absurd h hne
  · rfl

/-- A controller operation other than SetAutoEn leaves the bus mode (R55, R291). -/
theorem ctlOp_mode {s t : State} {c : CtlOp} (op : SeqOp) (h : ctlOp s c = .next t)
    (hc : writesAutoEn (.ctl op c) = false) : t.autoEn = s.autoEn ∧ t.autoActive = s.autoActive := by
  obtain ⟨u, hu, rfl⟩ := ctlOp_next h
  have effect := ctlEffect_next hu
  cases c with
  | setWidth w => obtain ⟨-, rfl⟩ := effect; exact ⟨rfl, rfl⟩
  | setElem e => cases effect; exact ⟨rfl, rfl⟩
  | phaseTx => obtain ⟨-, -, -, rfl⟩ := effect; simp
  | trigger => obtain ⟨-, -, -, -, rfl⟩ := effect; simp
  | fifoWrite => obtain ⟨-, rfl⟩ := effect; exact ⟨rfl, rfl⟩
  | fifoRead => obtain ⟨_, _, -, rfl⟩ := effect; exact ⟨rfl, rfl⟩
  | deassertCs => obtain ⟨-, rfl⟩ := effect; simp
  | setAutoEn b => cases hc

/-- Lines that write RESULT: the tests that raise, the assignment of PREV_AUTO and a command's last line. -/
def writesResult : Act → Bool
  | .busyTest .. | .initTest _ | .setPrevAuto _ | .finish .. => true
  | _ => false

/-- From `s` to `t` each field is written only where `p` holds of its lines, RESULT only where `res` holds; the
position, the two flags and memory are left open, and the fields that are not named stay. -/
def WritesOnly (p : (Act → Bool) → Bool) (res : Bool) (s t : State) : Prop :=
  t = { s with
    todo := t.todo, exec := t.exec, handling := t.handling, mem := t.mem
    result := bif res then t.result else s.result
    ctx := bif p writesCtx then t.ctx else s.ctx
    work := bif p writesWork then t.work else s.work
    chan := bif p operatesDma then t.chan else s.chan
    configCalls := bif p operatesDma then t.configCalls else s.configCalls
    autoEn := bif p writesAutoEn then t.autoEn else s.autoEn
    autoActive := bif p writesAutoEn then t.autoActive else s.autoActive
    epoch := bif p operatesController then t.epoch else s.epoch
    fifo := bif p operatesController then t.fifo else s.fifo
    job := bif p operatesController then t.job else s.job
    cs := bif p operatesController then t.cs else s.cs
    parser := bif p operatesController then t.parser else s.parser
    curBw := bif p operatesController then t.curBw else s.curBw
    curElem := bif p operatesController then t.curElem else s.curElem
    bus := bif p operatesController then t.bus else s.bus
    act0 := bif p writesProfile then t.act0 else s.act0
    act1 := bif p writesProfile then t.act1 else s.act1
    act2 := bif p writesProfile then t.act2 else s.act2
    addrBytes := bif p writesProfile then t.addrBytes else s.addrBytes
    enc := bif p writesProfile then t.enc else s.enc
    initDone := bif p writesProfile then t.initDone else s.initDone
    race := bif p writesRace then t.race else s.race }

theorem WritesOnly.refl (p : (Act → Bool) → Bool) (res : Bool) (s : State) : WritesOnly p res s s := by
  simp only [WritesOnly, Bool.cond_self]

theorem WritesOnly.result_kept {p : (Act → Bool) → Bool} {s t : State} (h : WritesOnly p false s t) :
    t.result = s.result :=
  (congrArg State.result h).trans rfl

theorem WritesOnly.anyResult {p : (Act → Bool) → Bool} {res : Bool} {s t : State} (h : WritesOnly p res s t) :
    WritesOnly p true s t := by
  cases res with
  | true => exact h
  | false =>
    have hr := h.result_kept
    simp only [WritesOnly, cond_false, cond_true] at h ⊢
    rwa [hr]

/-- A controller operation writes AUTO_EN and AUTO_ACTIVE only as SetAutoEn (R291). -/
theorem ctlOp_writes {s t : State} {c : CtlOp} (op : SeqOp) (h : ctlOp s c = .next t) :
    WritesOnly (fun p => p (.ctl op c)) false s t := by
  have frame := ctlOp_frame h
  simp only [WritesOnly]
  cases hc : writesAutoEn (.ctl op c) with
  | true => rw [frame]; rfl
  | false =>
    obtain ⟨hen, hact⟩ := ctlOp_mode op h hc
    rw [hen, hact] at frame
    rw [frame]
    rfl

/-- Each line writes the fields of its own tests. -/
theorem runAct_writes {a : Act} {r : List Act} {s t : State} (h : runAct a r s = .next t) :
    WritesOnly (fun p => p a) (writesResult a) s t := by
  cases a
  case ctl op c => exact ctlOp_writes (s := s.goto r) op h
  case popElem addr e => exact ctlOp_writes (s := s.goto _) .pumpRead h
  case setProfile f => cases f <;> cases h <;> rfl
  case busyTest => rcases busyTest_next h with rfl | ⟨-, rfl⟩ <;> rfl
  case initTest => rcases initTest_next h with ⟨c, rfl⟩ | ⟨-, -, rfl⟩ <;> rfl
  all_goals simp only [runAct] at h
  case wait => split at h <;> cases h <;> rfl
  case loop => split at h <;> cases h <;> rfl
  case fifoCheck => split at h <;> cases h; rfl
  case pumpWrite => split at h <;> cases h <;> rfl
  case pumpRead => split at h <;> cases h <;> rfl
  case dmaConfigure =>
    split at h
    · cases h
    · split at h <;> cases h <;> rfl
  case dmaEnable =>
    unfold dmaEnableOp at h
    split at h <;> cases h
    rfl
  case dmaTrigger =>
    unfold dmaTriggerOp at h
    split at h <;> cases h
    rfl
  all_goals (cases h; rfl)

/-- What a line does to RESULT: nothing, PREV_AUTO, or the end of the command (R37, R264). -/
theorem runAct_result {a : Act} {r : List Act} {s t : State} (h : runAct a r s = .next t) :
    t.result = s.result
      ∨ (writesPrevAuto a = true ∧ t.result = { s.result with prevAuto := t.result.prevAuto })
      ∨ (t.exec = false ∧ t.todo = [] ∧ t.result.valid = true) := by
  cases hw : writesResult a with
  | false =>
    have frame := runAct_writes h
    rw [hw] at frame
    exact .inl frame.result_kept
  | true =>
    cases a
    case busyTest =>
      rcases busyTest_next h with rfl | ⟨-, rfl⟩
      · exact .inr (.inr ⟨rfl, rfl, rfl⟩)
      · exact .inl rfl
    case initTest =>
      rcases initTest_next h with ⟨c, rfl⟩ | ⟨-, -, rfl⟩
      · exact .inr (.inr ⟨rfl, rfl, rfl⟩)
      · exact .inl rfl
    case setPrevAuto => cases h; exact .inr (.inl ⟨rfl, rfl⟩)
    case finish => cases h; exact .inr (.inr ⟨rfl, rfl, rfl⟩)
    all_goals cases hw

/-! ### Every instruction -/

theorem nextLine_nil {s : State} (h : s.todo = []) (p : Act → Bool) : nextLine s p = false := by
  simp only [nextLine, h]

theorem nextLine_cons {s : State} {a : Act} {r : List Act} (h : s.todo = a :: r) (p : Act → Bool) :
    nextLine s p = p a := by
  simp only [nextLine, h]

/-- An instruction's step writes the fields of the line at hand; a first line none of them. -/
theorem exec_writes {i : Instr} {s t : State} (h : exec i s = .next t) : WritesOnly (nextLine s) true s t := by
  rcases exec_next h with ⟨h0, h⟩ | ⟨a, r, ht, h⟩ | rfl
  · rw [show nextLine s = fun _ => false from funext (nextLine_nil h0)]
    cases h <;> rfl
  · rw [show nextLine s = fun p => p a from funext (nextLine_cons ht)]
    exact (runAct_writes h).anyResult
  · exact .refl _ _ _

theorem firstLine_result {i : Instr} {s t : State} (h : FirstLine s i t) :
    t.result = s.result ∨ (t.exec = false ∧ t.todo = [] ∧ t.result.valid = true) := by
  cases h
  case raise => exact .inr ⟨rfl, rfl, rfl⟩
  all_goals exact .inl rfl

theorem exec_result {i : Instr} {s t : State} (h : exec i s = .next t) (hne : t.result ≠ s.result) :
    (nextLine s writesPrevAuto = true ∧ t.result = { s.result with prevAuto := t.result.prevAuto })
      ∨ (t.exec = false ∧ t.todo = [] ∧ t.result.valid = true) := by
  rcases exec_next h with ⟨-, h⟩ | ⟨a, r, ht, h⟩ | rfl
  · exact .inr ((firstLine_result h).resolve_left hne)
  · rw [nextLine_cons ht]
    exact (runAct_result h).resolve_left hne
  · exact absurd rfl hne

/-- Settles O16: every clause but RESULT's reads one field off the frame. -/
theorem stateWrittenByItsLines : Obligations.StateWrittenByItsLines := by
  intro i s t h
  have frame := exec_writes h
  refine ⟨writes_of_ne (congrArg State.ctx frame), writes_of_ne (congrArg State.work frame), ?chan, ?mode, ?controller,
    ?profile, exec_result h, writes_of_ne (congrArg State.race frame)⟩
  case chan =>
    rintro (hne | hne)
    · exact writes_of_ne (congrArg State.chan frame) hne
    · exact writes_of_ne (congrArg State.configCalls frame) hne
  case mode =>
    rintro (hne | hne)
    · exact writes_of_ne (congrArg State.autoEn frame) hne
    · exact writes_of_ne (congrArg State.autoActive frame) hne
  case controller =>
    rintro (hne | hne | hne | hne | hne | hne | hne | hne)
    · exact writes_of_ne (congrArg State.epoch frame) hne
    · exact writes_of_ne (congrArg State.fifo frame) hne
    · exact writes_of_ne (congrArg State.job frame) hne
    · exact writes_of_ne (congrArg State.cs frame) hne
    · exact writes_of_ne (congrArg State.parser frame) hne
    · exact writes_of_ne (congrArg State.curBw frame) hne
    · exact writes_of_ne (congrArg State.curElem frame) hne
    · exact writes_of_ne (congrArg State.bus frame) hne
  case profile =>
    rintro (hne | hne | hne | hne | hne | hne)
    · exact writes_of_ne (congrArg State.act0 frame) hne
    · exact writes_of_ne (congrArg State.act1 frame) hne
    · exact writes_of_ne (congrArg State.act2 frame) hne
    · exact writes_of_ne (congrArg State.addrBytes frame) hne
    · exact writes_of_ne (congrArg State.enc frame) hne
    · exact writes_of_ne (congrArg State.initDone frame) hne

end Sys2Proof.Machine
end

section
/-! Who may write what: no line touches the state of the agents around the ENGINE, and none of them touches the
ENGINE's; a DMA event leaves RESULT; EPOCH counts controller operations (R14, R37, R44 to R55, R62, R162). -/

namespace Sys2Proof.Machine

/-! ### The lines and the state around the ENGINE (R205, R262) -/

/-- Settles O15: the frame of every instruction names none of these fields. -/
theorem linesKeepOtherAgentsState : Obligations.LinesKeepOtherAgentsState := by
  intro i s t h
  have frame : t = _ := exec_writes h
  rw [frame]
  simp only [and_self]

/-! ### Events and RESULT (R37, R264) -/

theorem currentInstr_active {s : State} {i : Instr} (h : currentInstr s = some i) : active s := by
  rcases currentInstr_flags h with ⟨hh, -⟩ | ⟨-, hx, -⟩
  · exact .inr hh
  · exact .inl hx

/-- The lines that write RESULT are a command's. -/
theorem owner_of_writesResult {a : Act} (h : writesResult a = true) : owner a = .command := by
  cases a
  case busyTest | initTest | setPrevAuto | finish => rfl
  all_goals cases h

/-- The first line of an event is no end of a command. -/
theorem firstLine_event_result {ch : BitVec 4} {s t : State} (h : FirstLine s (.evtDmaComplete ch) t) :
    t.result = s.result := by
  cases h with
  | raise _ _ _ hp => cases hp
  | chain => rfl
  | spurious => rfl

/-- An event's step leaves RESULT where none of the lines left is a command's. -/
theorem exec_event_result {ch : BitVec 4} {s t : State} (h : exec (.evtDmaComplete ch) s = .next t)
    (hown : ∀ a ∈ s.todo, owner a ≠ .command) : t.result = s.result := by
  rcases exec_next h with ⟨-, h⟩ | ⟨a, r, ht, h⟩ | rfl
  · exact firstLine_event_result h
  · have hw : writesResult a = false :=
      Bool.eq_false_iff.mpr fun hw => hown a (by simp [ht]) (owner_of_writesResult hw)
    have frame := runAct_writes h
    rw [hw] at frame
    exact frame.result_kept
  · rfl

/-- Settles O14: while an event is handled the ENGINE's step is that event's. -/
theorem eventsNeverWriteResult : Obligations.EventsNeverWriteResult := by
  intro s t hone hh hn h
  rcases step_next h with ⟨hl, -⟩ | ⟨-, hok, -⟩
  · have hi : currentInstr s = some (.evtDmaComplete (BitVec.ofNat 4 s.cfg.dmaChannel)) := by
      simp [currentInstr, hh]
    rw [step_engine hl hn hi] at h
    refine ⟨exec_event_result (s := s.turn) h (hone.event hh), ?_⟩
    have frame : t = _ := exec_writes h
    rw [frame]
    rfl
  · exact absurd (launch_handling hok) (by simp [hh])

/-! ### EPOCH (R51, R162) -/

/-- The effect of a controller operation leaves EPOCH, which `ctl` advances after it (R14). -/
theorem ctlEffect_epoch {s t : State} {c : CtlOp} (h : ctlEffect s c = .next t) : t.epoch = s.epoch := by
  have effect := ctlEffect_next h
  cases c with
  | setWidth => obtain ⟨-, rfl⟩ := effect; rfl
  | setElem => cases effect; rfl
  | phaseTx => obtain ⟨-, -, -, rfl⟩ := effect; exact csAssert_epoch _ _
  | trigger => obtain ⟨-, -, -, -, rfl⟩ := effect; exact csAssert_epoch _ _
  | fifoWrite => obtain ⟨-, rfl⟩ := effect; rfl
  | fifoRead => obtain ⟨_, _, -, rfl⟩ := effect; rfl
  | deassertCs => obtain ⟨-, rfl⟩ := effect; exact csRelease_epoch _
  | setAutoEn => cases effect; rfl

theorem ctlOp_epoch {s t : State} {c : CtlOp} (h : ctlOp s c = .next t) : t.epoch = s.epoch + 1 := by
  obtain ⟨u, hu, rfl⟩ := ctlOp_next h
  rw [State.bumpEpoch_epoch, ctlEffect_epoch hu]

/-- A line advances EPOCH by one if it operates the controller, and otherwise leaves it. -/
theorem runAct_epoch {a : Act} {r : List Act} {s t : State} (h : runAct a r s = .next t) :
    t.epoch = s.epoch + if operatesController a = true then 1 else 0 := by
  by_cases hc : operatesController a = true
  · rw [if_pos hc]
    cases a
    case ctl => exact ctlOp_epoch (s := s.goto r) h
    case popElem addr e => exact ctlOp_epoch (s := s.goto (.store addr e (fifoHead s e) :: r)) h
    all_goals cases hc
  · have frame : t.epoch = bif operatesController a then t.epoch else s.epoch :=
      congrArg State.epoch (runAct_writes h)
    rw [if_neg hc]
    rwa [Bool.eq_false_iff.mpr hc] at frame

/-- The ENGINE's step advances EPOCH exactly at a line that operates the controller. -/
theorem engineStep_epoch {s t : State} (hok : s.cfg.ok = true) (h : engineStep s = .next t) :
    t.epoch = s.epoch +
      if (s.exec = true ∨ s.handling = true) ∧ nextLine s operatesController = true then 1 else 0 := by
  by_cases ha : s.exec = true ∨ s.handling = true
  · simp only [ha, true_and]
    cases ht : s.todo with
    | cons a r =>
      rw [engineStep_line hok ha ht] at h
      rw [nextLine_cons ht]
      exact runAct_epoch h
    | nil =>
      rcases engineStep_next h with ⟨i, -, h⟩ | ⟨hx, hh, -⟩
      · have frame : t.epoch = bif nextLine s operatesController then t.epoch else s.epoch :=
          congrArg State.epoch (exec_writes h)
        rw [nextLine_nil ht] at frame ⊢
        exact frame
      · simp [hx, hh] at ha
  · rcases engineStep_next h with ⟨i, hi, -⟩ | ⟨-, -, rfl⟩
    · exact absurd (currentInstr_active hi) ha
    · rw [if_neg fun hc => ha hc.1]
      exact takeWork_epoch s

/-! ### The ENGINE's own state (R62, R172, R327) -/

/-- What INIT latches (R42, R44, R45). -/
def initPart (s : State) :=
  (s.initDone, s.act0, s.act1, s.act2, s.addrBytes, s.enc)

/-- What the ENGINE alone writes: its position, context and working state, EPOCH, AUTO_EN and the controller's
settings, what INIT latches, the Configure count and the race (log 32). -/
def enginePart (s : State) :=
  ((s.ctx, s.work, s.todo, s.exec, s.handling), (s.epoch, s.autoEn, s.curBw, s.curElem, s.configCalls),
    initPart s, s.race)

/-- The other agents leave the parameters and the ENGINE's part; HOST alone notes what memory holds, at an acceptance
(R14, log 32). -/
theorem otherAgent_kept {a : Config.Agent} {s t : State} (ha : a ≠ .engine) (h : agentStep a s = .next t) :
    t.cfg = s.cfg ∧ enginePart t = enginePart s ∧ (a ≠ .host → t.memAtCmd = s.memAtCmd) := by
  cases a with
  | engine => exact absurd rfl ha
  | host => rw [hostStep_frame h]; exact ⟨rfl, rfl, absurd rfl⟩
  | ctrl => cases h; rw [ctrlStep_frame]; exact ⟨rfl, rfl, fun _ => rfl⟩
  | ctrlMode => cases h; rw [ctrlModeStep_frame]; exact ⟨rfl, rfl, fun _ => rfl⟩
  | autopath => rw [autopathStep_frame h]; exact ⟨rfl, rfl, fun _ => rfl⟩
  | sync => cases h; exact ⟨rfl, rfl, fun _ => rfl⟩
  | dma => rw [dmaStep_frame h]; exact ⟨rfl, rfl, fun _ => rfl⟩
  | event => rw [eventStep_frame h]; exact ⟨rfl, rfl, fun _ => rfl⟩
  | cpu => cases h; rw [cpuStep_frame]; exact ⟨rfl, rfl, fun _ => rfl⟩

theorem enginePart_kept {a : Config.Agent} {s t : State} (ha : a ≠ .engine) (h : agentStep a s = .next t) :
    enginePart t = enginePart s := by
  obtain ⟨-, kept, -⟩ := otherAgent_kept ha h
  exact kept

/-- What the ENGINE's step leaves, whatever it does. -/
theorem engineStep_kept {s t : State} (h : engineStep s = .next t) : t.cfg = s.cfg ∧ t.memAtCmd = s.memAtCmd := by
  rcases engineStep_next h with ⟨i, -, h⟩ | ⟨-, -, rfl⟩
  · have frame : t = _ := exec_writes h
    rw [frame]
    exact ⟨rfl, rfl⟩
  · exact ⟨takeWork_cfg s, takeWork_memAtCmd s⟩

/-- Every agent leaves the parameters, and every one but HOST what memory held at the last acceptance. -/
theorem agentStep_kept {a : Config.Agent} {s t : State} (h : agentStep a s = .next t) :
    t.cfg = s.cfg ∧ (a ≠ .host → t.memAtCmd = s.memAtCmd) := by
  by_cases ha : a = .engine
  · subst ha
    obtain ⟨hcfg, hnote⟩ := engineStep_kept h
    exact ⟨hcfg, fun _ => hnote⟩
  · obtain ⟨hcfg, -, hnote⟩ := otherAgent_kept ha h
    exact ⟨hcfg, hnote⟩

theorem agentStep_epoch {a : Config.Agent} {s t : State} (hok : s.cfg.ok = true) (h : agentStep a s = .next t) :
    t.epoch = s.epoch +
      if a = .engine ∧ (s.exec = true ∨ s.handling = true) ∧ nextLine s operatesController = true then 1 else 0 := by
  by_cases ha : a = .engine
  · subst ha
    simpa using engineStep_epoch hok h
  · rw [if_neg fun hc => ha hc.1]
    have kept := enginePart_kept ha h
    simp only [enginePart, Prod.mk.injEq] at kept
    obtain ⟨-, ⟨hepoch, -⟩, -⟩ := kept
    exact hepoch

/-! ### The loaded profile (R44, R45) -/

/-- Once INIT has succeeded no line left writes the profile. -/
theorem ProfileInitialized.nextLine_writesProfile {s : State} (hp : ProfileInitialized s) (hd : s.initDone = true) :
    nextLine s writesProfile = false := by
  have lines := hp.2
  rw [hd] at lines
  cases ht : s.todo with
  | nil => exact nextLine_nil ht _
  | cons a r =>
    rw [nextLine_cons ht]
    rw [ht] at lines
    cases a
    case setProfile f => cases f <;> cases lines
    all_goals rfl

/-- An instruction's step leaves what INIT latches where the line at hand does not write it. -/
theorem exec_initPart {i : Instr} {s t : State} (hn : nextLine s writesProfile = false) (h : exec i s = .next t) :
    initPart t = initPart s := by
  have frame := congrArg initPart (exec_writes h)
  rwa [hn] at frame

theorem agentStep_initPart {a : Config.Agent} {s t : State} (hn : nextLine s writesProfile = false)
    (h : agentStep a s = .next t) : initPart t = initPart s := by
  by_cases ha : a = .engine
  · subst ha
    rcases engineStep_next h with ⟨i, -, h⟩ | ⟨-, -, rfl⟩
    · exact exec_initPart hn h
    · rw [takeWork_frame]
      rfl
  · have kept := enginePart_kept ha h
    simp only [enginePart, Prod.mk.injEq] at kept
    obtain ⟨-, -, hinit, -⟩ := kept
    exact hinit

/-- Settles O18: a step is one agent's action, or the launch, which writes `launched` alone. -/
theorem onlyTheEngineWritesItsState : Obligations.OnlyTheEngineWritesItsState := by
  intro s t h
  rcases step_next h with ⟨⟨hok, -⟩, h⟩ | ⟨-, hlaunch, rfl⟩
  · obtain ⟨hcfg, hnote⟩ := agentStep_kept (s := s.turn) h
    refine ⟨hcfg, fun ha => ?_, hnote, agentStep_epoch (s := s.turn) hok h, fun hp hd => ?_⟩
    · have kept : enginePart t = enginePart s := enginePart_kept (s := s.turn) ha h
      simpa only [enginePart, initPart, Prod.mk.injEq, and_assoc] using kept
    · have kept : initPart t = initPart s := agentStep_initPart (s := s.turn) (hp.nextLine_writesProfile hd) h
      simp only [initPart, Prod.mk.injEq] at kept
      obtain ⟨hdone, hrest⟩ := kept
      exact ⟨hdone.trans hd, hrest⟩
  · simp [launch_exec hlaunch, launch_handling hlaunch]

end Sys2Proof.Machine
end

section
/-! DMA_ISSUE up to its Configure line (44_dma_chainer R233). -/

namespace Sys2Proof.Machine

/-- One line of whatever runs here, a command or the channel's event, that goes on. -/
theorem execLines_lineHere {i : Instr} {s t : State} {a : Act} {r : List Act} (hi : runsHere s i)
    (ht : s.todo = a :: r) (h : runAct a r s = .next t) (k : Nat) : execLines i (k + 1) s = execLines i k t :=
  execLines_succ ((exec_line hi ht).trans h) k

/-- The context of an armed chunk, with its running state by direction (R233). -/
theorem armedCtx_eq (x : IssueArgs) (c : Nat) : armedCtx x c = {
    state := if x.dir = .write then .writeRunning else .readRunning
    addr := BitVec.ofNat 32 (x.a + c), buf := BitVec.ofNat 32 (x.b + c)
    rem := BitVec.ofNat 32 (x.n - c / x.s), esz := BitVec.ofNat 3 x.s, dir := x.dir
    sptr := BitVec.ofNat 32 x.p } := by
  unfold armedCtx
  cases x.dir <;> rfl

/-- Settles O41: `off`, the plan and `ctx`, one line each, whoever called DMA_ISSUE. -/
theorem issueWritesContext : Obligations.IssueWritesContext := by
  intro s i by_ x r hi ht
  dsimp only
  rw [← armedCtx_eq]
  calc execLines i 3 s
    _ = execLines i 2 (s.goto (.dmaPlan by_ x :: r)) := execLines_lineHere hi ht rfl 2
    _ = execLines i 1 (s.goto (.dmaArm by_ x (dmaChunk s x) :: r)) :=
      execLines_lineHere (s := s.goto (.dmaPlan by_ x :: r)) hi rfl rfl 1
    _ = _ := execLines_lineHere (s := s.goto (.dmaArm by_ x (dmaChunk s x) :: r)) hi rfl rfl 0

end Sys2Proof.Machine
end

section
/-! The engine register block (10_state R31 to R54): what each offset reads and writes, the fields of the status
words, and HOST's access to the block (20_memory R80; 30_encoding R122). -/

namespace Sys2Proof.Machine

/-! ### Registers by offset (R31) -/

/-- The offsets R31 lists. -/
def listedOffsets : List Nat :=
  [0x00, 0x04, 0x08, 0x0C, 0x10, 0x14, 0x18, 0x20, 0x24, 0x28, 0x30, 0x34, 0x38, 0x40, 0x44, 0x48, 0x4C, 0x50]

theorem regAt_unlisted {off : Nat} (h : off ∉ listedOffsets) : regAt off = none := by
  simp only [listedOffsets, List.mem_cons, List.not_mem_nil, or_false, not_or] at h
  simp only [regAt, h, if_false]

theorem readOffset_unlisted {off : Nat} (s : State) (h : off ∉ listedOffsets) : readOffset s off = 0#32 := by
  rw [readOffset, regAt_unlisted h]

theorem writeOffset_unlisted {off : Nat} (s : State) (v : Word) (h : off ∉ listedOffsets) :
    writeOffset s off v = s := by
  rw [writeOffset, regAt_unlisted h]

/-- The reserved bits of PROF1 read 0 (R40). -/
theorem profOneMask_eq (p : Word) : profOneMask p = p &&& 0xFF#32 := by
  have low : p.toNat &&& 255 = p.toNat % 256 := Nat.and_two_pow_sub_one_eq_mod _ 8
  apply BitVec.eq_of_toNat_eq
  rw [profOneMask, BitVec.toNat_append, BitVec.toNat_and]
  simp [low]

theorem profOneMask_profOneMask (p : Word) : profOneMask (profOneMask p) = profOneMask p := by
  rw [profOneMask_eq (profOneMask p), profOneMask_eq, BitVec.and_assoc, BitVec.and_self]

/-- Taking a turn changes nothing a register shows. -/
theorem readOffset_turn (s : State) (off : Nat) : readOffset s.turn off = readOffset s off := by
  unfold readOffset
  cases regAt off with
  | none => rfl
  | some r => cases r <;> rfl

/-! ### The status words (R37, R38, R48, R54) -/

/-! `BitVec.getLsbD_append` in its two cases, each with a premise to decide: which part of a status word a bit lies in
is then found without a tree of conditionals. -/

theorem getLsbD_append_low {n m i : Nat} (x : BitVec n) (y : BitVec m) (h : i < m) :
    (x ++ y).getLsbD i = y.getLsbD i := by
  rw [BitVec.getLsbD_append, if_pos h]

theorem getLsbD_append_high {n m i : Nat} (x : BitVec n) (y : BitVec m) (h : m ≤ i) :
    (x ++ y).getLsbD i = x.getLsbD (i - m) := by
  rw [BitVec.getLsbD_append, if_neg (Nat.not_lt.mpr h)]

/-- The fields of RESULT (R37). -/
theorem resultWord_fields (r : ResultReg) :
    (resultWord r).extractLsb' 0 4 = codeBits r.code ∧ (resultWord r).getLsbD 4 = r.prevAuto
      ∧ (resultWord r).extractLsb' 5 26 = 0#26 ∧ (resultWord r).getLsbD 31 = r.valid := by
  simp (disch := decide) only [resultWord, BitVec.extractLsb'_append_eq_of_le,
    BitVec.extractLsb'_append_eq_of_add_le, getLsbD_append_low, getLsbD_append_high]
  simp

/-- The fields of ESTATUS (R38, R54). -/
theorem estatusWord_fields (s : State) :
    (estatusWord s).getLsbD 0 = cmdBusy s ∧ (estatusWord s).getLsbD 1 = evtBusy s
      ∧ (estatusWord s).extractLsb' 2 2 = ctxStateBits s.ctx.state ∧ (estatusWord s).getLsbD 4 = s.autoEn
      ∧ (estatusWord s).getLsbD 5 = s.initDone ∧ (estatusWord s).getLsbD 6 = s.overrun
      ∧ (estatusWord s).getLsbD 7 = false ∧ (estatusWord s).extractLsb' 8 8 = seqCode s
      ∧ (estatusWord s).extractLsb' 16 16 = 0#16 := by
  simp (disch := decide) only [estatusWord, BitVec.extractLsb'_append_eq_of_le,
    BitVec.extractLsb'_append_eq_of_add_le, getLsbD_append_low, getLsbD_append_high]
  simp

/-- The fields of CTX_INFO (R48). -/
theorem ctxInfoWord_fields (c : Ctx) :
    (ctxInfoWord c).extractLsb' 0 3 = c.esz ∧ (ctxInfoWord c).getLsbD 3 = dirBit c.dir
      ∧ (ctxInfoWord c).extractLsb' 4 28 = 0#28 := by
  simp (disch := decide) only [ctxInfoWord, BitVec.extractLsb'_append_eq_of_le,
    BitVec.extractLsb'_append_eq_of_add_le, getLsbD_append_low, getLsbD_append_high]
  simp

theorem dirBit_eq (d : Dir) : dirBit d = decide (d = .read) := by
  cases d <;> rfl

/-! ### SEQ_STATE (R54, R118) -/

theorem seqCode_nil {s : State} (h : s.todo = []) :
    seqCode s = if s.handling then 0x52#8 else if s.exec then 0x01#8 else 0x00#8 := by
  simp only [seqCode, currentOp, h]
  cases s.handling <;> cases s.exec <;> rfl

theorem seqCode_cons {s : State} {a : Act} {r : List Act} (h : s.todo = a :: r) :
    seqCode s = seqOpCode (actOp a) := by
  simp only [seqCode, currentOp, h]

/-- Settles O58: the fields of the words at their offsets, the tables of codes, and SEQ_STATE line by line. -/
theorem statusFields : Obligations.StatusFields := by
  intro s
  refine ⟨resultWord_fields s.result, estatusWord_fields s, ?info, by decide, by decide, by decide, seqCode_nil,
    ?seq, rfl, rfl, rfl, rfl, fun hd => ?active, fun hd => ?inactive⟩
  case info =>
    have fields := ctxInfoWord_fields s.ctx
    rwa [dirBit_eq] at fields
  case seq =>
    intro a r ht
    rw [seqCode_cons ht]
    cases a
    case arbTest m use => cases m <;> rfl
    case busyTest dma dir esz => cases dma <;> rfl
    all_goals rfl
  case active =>
    rw [← profOneMask_eq]
    simp [readOffset, regAt, readReg, hd]
  case inactive => simp [readOffset, regAt, readReg, hd]

/-! ### HOST's access to the block (R80, R122) -/

theorem Params.ok_engineBase {p : Config.Params} (h : p.ok = true) :
    p.engineBase % 4 = 0 ∧ p.engineBase < addressSpace := by
  unfold Config.Params.ok at h
  simp only [Bool.and_eq_true, decide_eq_true_eq] at h
  exact h.1.1.2

/-- An aligned 32-bit access at an offset of the block reaches its register. -/
theorem hostTarget_register {p : Config.Params} (hok : p.ok = true) {off : Nat} (ho : off < 0x100)
    (h4 : off % 4 = 0) : hostTarget p (p.engineBase + off) 4 = .register off := by
  obtain ⟨halign, hbase⟩ := Params.ok_engineBase hok
  have hmeet : rangesMeet (p.engineBase + off) 4 p.engineBase 0x100 = true :=
    (rangesMeet_iff _ _ _ _).mpr ⟨0, off, by decide, ho, rfl⟩
  have haligned : 4 = 4 ∧ sysAddr (p.engineBase + off) % 4 = 0 := by
    refine ⟨rfl, ?_⟩
    simp only [sysAddr, addressSpace]
    omega
  have hoff : offsetFrom (p.engineBase + off) p.engineBase = off := by
    simp only [offsetFrom, addressSpace] at hbase ⊢
    omega
  rw [hostTarget, if_pos hmeet, if_pos haligned, hoff]

/-- Any other access that shares a byte with the block has no meaning. -/
theorem hostTarget_registerForm {p : Config.Params} {addr n : Nat} (hb : ShareByte addr n p.engineBase 0x100)
    (hn : n ≠ 4 ∨ addr % 4 ≠ 0) : hostTarget p addr n = .registerForm := by
  have hform : ¬(n = 4 ∧ sysAddr addr % 4 = 0) := by
    simp only [sysAddr, addressSpace]
    omega
  rw [hostTarget, if_pos ((rangesMeet_iff _ _ _ _).mpr hb), if_neg hform]

/-- HOST, due to move and with no access begun, starts the access of its next action. -/
theorem step_host_access {s : State} {act : HostAct} {r : List HostAct} {dir : Dir} {addr n v : Nat} (hl : s.Live)
    (hn : nextAgent s = .host) (hp : s.hostPend = .idle) (hr : s.hostProg = act :: r)
    (hf : hostForm act = some (dir, addr, n, v)) : step s = hostAccess s.turn act dir addr n v := by
  rw [step_live hl, hn]
  simp only [agentStep, hostStep, State.turn_hostProg, hr, State.turn_hostPend, hp]
  cases act <;> cases hf <;> rfl

/-- HOST's action ends: the next one is due. -/
theorem hostNext_of_idle {s : State} {act : HostAct} {r : List HostAct} (hp : s.hostPend = .idle)
    (hr : s.hostProg = act :: r) : hostNext s = { s with hostProg := r } := by
  rw [hostNext, hr, ← hp, List.tail_cons]

theorem hostSaw_of_idle {s : State} {act : HostAct} {r : List HostAct} (hp : s.hostPend = .idle)
    (hr : s.hostProg = act :: r) (v : Nat) : hostSaw s v = { s with hostProg := r, hostLog := s.hostLog ++ [v] } := by
  rw [hostSaw, hostNext_of_idle hp hr]

/-- A poll ends on a match, and otherwise leaves everything for its next round. -/
theorem hostCompare_of_idle {s : State} {act : HostAct} {r : List HostAct} (hp : s.hostPend = .idle)
    (hr : s.hostProg = act :: r) (mask value v : Word) : hostCompare s mask value v =
      if v &&& mask = value then { s with hostProg := r, hostLog := s.hostLog ++ [v.toNat] } else s := by
  rw [hostCompare, hostSaw_of_idle hp hr, ← hp]

/-- The number a word's bytes make. -/
theorem natOfBytes_elemBytes (n : Nat) (v : Word) : natOfBytes (elemBytes n v) = v.toNat % 256 ^ n := by
  induction n generalizing v with
  | zero => simp [elemBytes, natOfBytes, Nat.mod_one]
  | succ n ih =>
    rw [elemBytes, natOfBytes, ih, pow_succ', Nat.mod_mul]
    simp [Nat.shiftRight_eq_div_pow]

theorem elemOfBytes_elemBytes_four (v : Word) : elemOfBytes (elemBytes 4 v) = v := by
  apply BitVec.eq_of_getLsbD_eq
  intro k hk
  rw [elemOfBytes_getLsbD _ _ hk, elemBytes_getD 4 v _ (by omega), BitVec.getLsbD_extractLsb', Nat.div_add_mod]
  simp [Nat.mod_lt]

/-! ### HOST at a register: load, poll and store -/

theorem hostAccess_readRegister {s : State} {act : HostAct} {addr n v off : Nat}
    (ht : hostTarget s.cfg addr n = .register off) :
    hostAccess s act .read addr n v = .next (hostFinish s act (elemBytes 4 (readOffset s off))) := by
  unfold hostAccess
  rw [ht]

theorem hostAccess_writeRegister {s : State} {act : HostAct} {addr n v off : Nat}
    (ht : hostTarget s.cfg addr n = .register off) :
    hostAccess s act .write addr n v = .next (hostFinish (writeOffset s off (BitVec.ofNat 32 v)) act []) := by
  unfold hostAccess
  rw [ht]

theorem hostAccess_registerForm {s : State} {act : HostAct} {dir : Dir} {addr n v : Nat}
    (ht : hostTarget s.cfg addr n = .registerForm) :
    hostAccess s act dir addr n v = .refused .registerAccess := by
  unfold hostAccess
  rw [ht]

/-- A load of a register ends with the number it holds. -/
theorem hostFinish_load {s : State} {addr n : Nat} {r : List HostAct} (hp : s.hostPend = .idle)
    (hr : s.hostProg = .load addr n :: r) (w : Word) :
    hostFinish s (.load addr n) (elemBytes 4 w) = { s with hostProg := r, hostLog := s.hostLog ++ [w.toNat] } := by
  have number : natOfBytes (elemBytes 4 w) = w.toNat := by
    rw [natOfBytes_elemBytes]
    exact Nat.mod_eq_of_lt w.isLt
  rw [hostFinish, number, hostSaw_of_idle hp hr]

theorem hostFinish_poll {s : State} {addr : Nat} {mask value : Word} {r : List HostAct} (hp : s.hostPend = .idle)
    (hr : s.hostProg = .poll addr mask value :: r) (w : Word) :
    hostFinish s (.poll addr mask value) (elemBytes 4 w) = if w &&& mask = value then
      { s with hostProg := r, hostLog := s.hostLog ++ [w.toNat] } else s := by
  rw [hostFinish, elemOfBytes_elemBytes_four, hostCompare_of_idle hp hr]

/-- A store to a register leaves HOST's progress to the end of the action. -/
theorem hostFinish_store {s : State} {addr n v off : Nat} {r : List HostAct} (hp : s.hostPend = .idle)
    (hr : s.hostProg = .store addr n v :: r) (w : Word) :
    hostFinish (writeOffset s off w) (.store addr n v) [] = { writeOffset s off w with hostProg := r } := by
  have hp' : (writeOffset s off w).hostPend = .idle := by rw [writeOffset_frame, hp]
  have hr' : (writeOffset s off w).hostProg = .store addr n v :: r := by rw [writeOffset_frame, hr]
  rw [hostFinish, hostNext_of_idle hp' hr']

/-! ### What a register returns of a write (R31, R32, R40, R270) -/

theorem readOffset_writeOffset (s : State) (v : Word) :
    ∀ off ∈ [0x04, 0x08, 0x0C, 0x10, 0x20, 0x28], readOffset (writeOffset s off v) off = v := by
  intro off h
  simp only [List.mem_cons, List.not_mem_nil, or_false] at h
  rcases h with rfl | rfl | rfl | rfl | rfl | rfl <;> rfl

theorem writeOffset_readOnly (s : State) (v : Word) :
    ∀ off ∈ [0x14, 0x18, 0x30, 0x34, 0x38, 0x40, 0x44, 0x48, 0x4C, 0x50], writeOffset s off v = s := by
  intro off h
  simp only [List.mem_cons, List.not_mem_nil, or_false] at h
  rcases h with rfl | rfl | rfl | rfl | rfl | rfl | rfl | rfl | rfl | rfl <;> rfl

/-- An accepted command notes memory as it is (log 32). -/
theorem offerCommand_memAtCmd {s : State} (hv : s.latch.valid = false) (hx : s.exec = false) (w : Word) :
    (offerCommand w s).memAtCmd = s.mem := by
  simp [offerCommand, cmdBusy, hv, hx]

/-- HOST at an aligned word of the block: a load, a poll or a store of the register there. -/
theorem step_host_register {s : State} {act : HostAct} {r : List HostAct} {dir : Dir} {addr v off : Nat} (hl : s.Live)
    (hn : nextAgent s = .host) (hp : s.hostPend = .idle) (hr : s.hostProg = act :: r)
    (hf : hostForm act = some (dir, addr, 4, v)) (ht : hostTarget s.cfg addr 4 = .register off) :
    step s = .next (match dir with
      | .read => hostFinish s.turn act (elemBytes 4 (readOffset s off))
      | .write => hostFinish (writeOffset s.turn off (BitVec.ofNat 32 v)) act []) := by
  rw [step_host_access hl hn hp hr hf]
  cases dir with
  | read => rw [hostAccess_readRegister (s := s.turn) ht, readOffset_turn]
  | write => rw [hostAccess_writeRegister (s := s.turn) ht]

/-- Settles O57: HOST's access is the one its target gives, and each offset is one register's or none's. -/
theorem registerBlock : Obligations.RegisterBlock := by
  refine ⟨fun s act r dir addr n v hl hn hp hr hf => ⟨?_, fun hb hform => ?_⟩, fun s v => ?_⟩
  · rintro off ho rfl rfl h4
    rw [step_host_register hl hn hp hr hf (hostTarget_register hl.1 ho h4)]
    refine ⟨?_, ?_, ?_⟩
    · rintro rfl
      cases hf
      exact congrArg _ (hostFinish_load (s := s.turn) hp hr _)
    · rintro mask value rfl
      cases hf
      exact congrArg _ (hostFinish_poll (s := s.turn) hp hr _)
    · rintro rfl
      cases hf
      exact congrArg _ (hostFinish_store (s := s.turn) hp hr _)
  · rw [step_host_access hl hn hp hr hf]
    exact hostAccess_registerForm (s := s.turn) (hostTarget_registerForm hb hform)
  · refine ⟨readOffset_writeOffset s v, ?_, writeOffset_readOnly s v, fun off ho => ?_, rfl, fun hv hx => ?_⟩
    · exact (profOneMask_profOneMask v).trans (profOneMask_eq v)
    · exact ⟨readOffset_unlisted s ho, writeOffset_unlisted s v ho⟩
    · exact offerCommand_memAtCmd hv hx v

end Sys2Proof.Machine
end

section
/-! What a line stores to system memory, the duties of a transfer's caller, the event's first line and the auto mode
contract (20_memory R75, R79, R81, R97; 44_dma_chainer R235, R244; 60_exceptions R292, R296). -/

namespace Sys2Proof.Machine

/-! ### The lines that store to system memory (R143, R235) -/

/-- What a line makes of system memory: the element of PUMP_READ and the completion word are stored. -/
def lineMemory (s : State) : Act → Memory
  | .store addr n v => memWrite s.mem addr n v
  | .completion v => memWrite s.mem s.ctx.sptr.toNat 4 v
  | _ => s.mem

theorem runAct_lineMemory {a : Act} {r : List Act} {s t : State} (h : runAct a r s = .next t) :
    t.mem = lineMemory s a := by
  cases a
  case ctl op c => rw [ctlOp_frame (s := s.goto r) h]; rfl
  case popElem addr e => rw [ctlOp_frame (s := s.goto _) h]; rfl
  case setProfile f => cases f <;> cases h <;> rfl
  case busyTest => rcases busyTest_next h with rfl | ⟨-, rfl⟩ <;> rfl
  case initTest => rcases initTest_next h with ⟨c, rfl⟩ | ⟨-, -, rfl⟩ <;> rfl
  all_goals simp only [runAct] at h
  case wait => split at h <;> cases h <;> rfl
  case loop => split at h <;> cases h <;> rfl
  case fifoCheck => split at h <;> cases h; rfl
  case pumpWrite => split at h <;> cases h <;> rfl
  case pumpRead => split at h <;> cases h <;> rfl
  case dmaConfigure =>
    split at h
    · cases h
    · split at h <;> cases h <;> rfl
  case dmaEnable =>
    unfold dmaEnableOp at h
    split at h <;> cases h
    rfl
  case dmaTrigger =>
    unfold dmaTriggerOp at h
    split at h <;> cases h
    rfl
  all_goals (cases h; rfl)

/-- A line leaves every byte alone that is outside what it stores to. -/
theorem lineMemory_get {s : State} {a : Act} {r : List Act} (ht : s.todo = a :: r) {x : Nat}
    (hx : outsideLineStores s x) : (lineMemory s a).get x = s.mem.get x := by
  unfold outsideLineStores lineStores at hx
  rw [ht] at hx
  cases a
  case store addr n v => exact memWrite_get_other _ _ _ _ _ hx
  case completion v => exact memWrite_get_other _ _ _ _ _ hx
  all_goals rfl

/-- Settles O17: a first line leaves memory, and every later one stores to the bytes `lineStores` computes. -/
theorem linesStoreOnlyTheirBytes : Obligations.LinesStoreOnlyTheirBytes := by
  intro i s t h x hx
  rcases exec_next h with ⟨-, h⟩ | ⟨a, r, ht, h⟩ | rfl
  · rw [firstLine_frame h]
  · rw [runAct_lineMemory h, lineMemory_get ht hx]
  · rfl

/-! ### The caller's duties (R79, R81, R97) -/

theorem exec_dma_first {s : State} (dir : Dir) (e : BitVec 3) (h : s.todo = []) :
    exec (transfer true dir e) s = dmaBeginFirst dir e s := by
  cases dir <;> simp only [transfer, exec, execReadDma, execWriteDma, continueWith, h]

/-- The first line of a transfer whose operands are valid leads to its Busy test (R200). -/
theorem exec_transfer_valid {s : State} {dma : Bool} {e : BitVec 3} (dir : Dir) (h0 : s.todo = [])
    (hi : s.initDone = true) (hv : OperandsValid s dma e) :
    ∃ body, exec (transfer dma dir e) s = .next (s.goto (.busyTest dma dir e :: body)) := by
  cases dma with
  | false => exact ⟨_, (exec_blocking_first dir e h0).trans (blockingBegin_valid hi hv)⟩
  | true =>
    refine ⟨dmaBody s dir e, (exec_dma_first dir e h0).trans ?_⟩
    simp only [dmaBeginFirst, transferFirst, validate_valid hi hv _ fun _ => rfl]

/-- The Busy test refuses a transfer whose caller breaks a duty, by the duty's name (R304). -/
theorem runAct_busyTest_refuses {s : State} {dma : Bool} (dir : Dir) {e : BitVec 3} (r : List Act) {x : Refusal}
    (hr : chainRunning s = false)
    (hb : callerBreach s.cfg dma s.latch.buf.toNat e.toNat s.latch.count.toNat s.latch.sptr.toNat = some x) :
    runAct (.busyTest dma dir e) r s = .refused x := by
  simp only [runAct, hr, hb, Bool.false_eq_true, if_false]

theorem execLines_succ_refused {i : Instr} {s : State} {x : Refusal} (h : exec i s = .refused x) (k : Nat) :
    execLines i (k + 1) s = .refused x := by
  simp only [execLines, h]

/-- The Busy test's overlap test is the overlap of R97. -/
theorem bufferOverlaps_iff (s : State) (dma : Bool) (e : BitVec 3) :
    (meetsDevice s.cfg s.latch.buf.toNat (s.latch.count.toNat * e.toNat) = true ∨ (dma = true ∧
      rangesMeet s.latch.buf.toNat (s.latch.count.toNat * e.toNat) s.latch.sptr.toNat 4 = true)) ↔
      BufferOverlaps s dma e := by
  rw [BufferOverlaps, meetsDevice_iff, rangesMeet_iff]

open Classical in
/-- The duties the Busy test goes through, in its order (log 12). -/
theorem callerBreach_eq (s : State) (dma : Bool) (e : BitVec 3) :
    callerBreach s.cfg dma s.latch.buf.toNat e.toNat s.latch.count.toNat s.latch.sptr.toNat =
      if s.latch.buf.toNat % e.toNat ≠ 0 then some .misalignedBuffer
      else if dma = true ∧ s.latch.sptr.toNat % 4 ≠ 0 then some .misalignedStatusPtr
      else if BufferOverlaps s dma e then some .overlappingBuffer
      else if dma = true ∧ OnDevice s s.latch.sptr.toNat 4 then some .statusPtrNotMemory
      else none := by
  simp only [callerBreach, ← bufferOverlaps_iff, ← meetsDevice_iff]

/-- Settles O24: VALIDATE's line passes, and the Busy test names the first duty broken. -/
theorem callerBreachRefused : Obligations.CallerBreachRefused := by
  intro s dma dir e h0 hi hr hv
  obtain ⟨body, first⟩ := exec_transfer_valid dir h0 hi hv
  have line := exec_cmd_line (portOf_transfer dma dir e) (State.goto_todo s (.busyTest dma dir e :: body))
  have refused {x : Refusal}
      (hb : callerBreach s.cfg dma s.latch.buf.toNat e.toNat s.latch.count.toNat s.latch.sptr.toNat = some x) :
      execLines (transfer dma dir e) 2 s = .refused x :=
    (execLines_succ first 1).trans
      (execLines_succ_refused (line.trans (runAct_busyTest_refuses (s := s.goto _) dir body hr hb)) 0)
  have passed (hk : CallerKeeps s dma e) : ∃ t, execLines (transfer dma dir e) 2 s = .next t :=
    ⟨_, (execLines_succ first 1).trans
      (execLines_succ (line.trans (runAct_busyTest_passes (s := s.goto _) dir body hr (hk.goto _))) 0)⟩
  dsimp only
  refine ⟨fun ha => refused ?_, fun ha hw => refused ?_, fun ha hw ho => refused ?_,
    fun ha hw ho hd hp => refused ?_, passed, fun ⟨t, h⟩ => ?_⟩
  · rw [callerBreach_eq, if_pos ha]
  · rw [callerBreach_eq, if_neg (not_not.mpr ha), if_pos (Classical.not_imp.mp hw)]
  · rw [callerBreach_eq, if_neg (not_not.mpr ha), if_neg (fun ⟨hd, h⟩ => h (hw hd)), if_pos ho]
  · rw [callerBreach_eq, if_neg (not_not.mpr ha), if_neg (fun ⟨hd, h⟩ => h (hw hd)), if_neg ho, if_pos ⟨hd, hp⟩]
  · refine (callerKeeps_iff s dma e).mpr ?_
    cases hb : callerBreach s.cfg dma s.latch.buf.toNat e.toNat s.latch.count.toNat s.latch.sptr.toNat with
    | none => rfl
    | some x => cases (refused hb).symm.trans h

/-! ### The channel-complete event begins (R235, R244) -/

theorem chainRunning_iff (s : State) :
    chainRunning s = true ↔ s.ctx.state = .writeRunning ∨ s.ctx.state = .readRunning := by
  simp only [chainRunning, Bool.or_eq_true, beq_iff_eq]

/-- The first line of the event of the engine's own channel. -/
theorem exec_event_first {s : State} {ch : BitVec 4} (hch : ch.toNat = s.cfg.dmaChannel) (h0 : s.todo = []) :
    exec (.evtDmaComplete ch) s = dmaCompleteFirst s := by
  simp only [exec, execEvtDmaComplete, hch, if_true, continueWith, h0]

/-- Settles O45: DMA_COMPLETE's first line by STATE and, while a chain runs, by the channel. -/
theorem eventBegins : Obligations.EventBegins := by
  intro s ch hch h0
  rw [exec_event_first hch h0, dmaCompleteFirst]
  refine ⟨fun hrun => ?_, fun hidle => ?_⟩
  · rw [if_pos ((chainRunning_iff s).mpr hrun)]
    exact ⟨fun hc => if_pos hc, fun hc => if_neg hc⟩
  · have hno : ¬chainRunning s = true := by
      rw [chainRunning_iff]
      rcases hidle with h | h <;> simp [h]
    rw [if_neg hno, State.leaveEvent, ← h0]

/-! ### The auto mode contract (R292, R296) -/

theorem eszOk_iff (n : Nat) : eszOk n = true ↔ n = 1 ∨ n = 2 ∨ n = 4 := by
  simp only [eszOk, Bool.or_eq_true, beq_iff_eq, or_assoc]

theorem autoFormOk_iff (s : State) (q : AutoReq) :
    autoFormOk s q = true ↔ (q.n = 1 ∨ q.n = 2 ∨ q.n = 4) ∧ q.a + q.n ≤ s.cfg.density := by
  simp only [autoFormOk, Bool.and_eq_true, eszOk_iff, decide_eq_true_eq]

theorem autoMayStart_iff (s : State) :
    autoMayStart s = true ↔ s.autoEn = true ∧ s.autoActive = true ∧ s.cs = none ∧ s.job = none := by
  simp only [autoMayStart, Bool.and_eq_true, Option.isNone_iff_eq_none, and_assoc]

/-- AUTOPATH with no access in flight and a request that waits (R296). -/
theorem autopathStep_request {s : State} {q : AutoReq} {r : List AutoReq} (hf : s.autoFlight = none)
    (hq : s.autoReqs = q :: r) : autopathStep s =
      if autoFormOk s q = false then .fault .autoAccessForm
      else if autoMayStart s then .next { s with autoFlight := some ⟨q, none⟩, autoReqs := r }
      else if q.eager then .fault .autoStartBreach
      else .next s := by
  simp only [autopathStep, hf, hq]

/-- No line takes auto mode out of effect (R292). -/
theorem runAct_autoActive {a : Act} {r : List Act} {s t : State} (h : runAct a r s = .next t)
    (ha : s.autoActive = true) : t.autoActive = true := by
  cases hw : writesAutoEn a with
  | false =>
    have kept : t.autoActive = bif writesAutoEn a then t.autoActive else s.autoActive :=
      congrArg State.autoActive (runAct_writes h)
    rw [hw] at kept
    exact kept.trans ha
  | true =>
    unfold writesAutoEn at hw
    split at hw
    · cases h
      exact (Bool.or_eq_true _ _).mpr (.inr ha)
    · cases hw

theorem engineStep_autoActive {s t : State} (h : engineStep s = .next t) (ha : s.autoActive = true) :
    t.autoActive = true := by
  rcases engineStep_next h with ⟨i, -, h⟩ | ⟨-, -, rfl⟩
  · rcases exec_next h with ⟨-, h⟩ | ⟨a, r, -, h⟩ | rfl
    · rw [firstLine_frame h]
      exact ha
    · exact runAct_autoActive h ha
    · exact ha
  · rwa [takeWork_autoActive]

/-- Auto mode goes out of effect only in CTRL's own step, with AUTO_EN = 0 and no access in flight (R292). -/
theorem agentStep_autoActive_falls {a : Config.Agent} {s t : State} (h : agentStep a s = .next t)
    (ha : s.autoActive = true) (hf : t.autoActive = false) :
    a = .ctrlMode ∧ s.autoEn = false ∧ s.autoFlight = none := by
  have never {p : Prop} (kept : t.autoActive = true) : p := absurd kept (by simp [hf])
  cases a with
  | engine => exact never (engineStep_autoActive h ha)
  | host => exact never (by rw [hostStep_frame h]; exact ha)
  | ctrl => cases h; exact never (by rw [ctrlStep_frame]; exact ha)
  | autopath => exact never (by rw [autopathStep_frame h]; exact ha)
  | sync => cases h; exact never ha
  | dma => exact never (by rw [dmaStep_frame h]; exact ha)
  | event => exact never (by rw [eventStep_frame h]; exact ha)
  | cpu => cases h; exact never (by rw [cpuStep_frame]; exact ha)
  | ctrlMode =>
    cases h
    unfold ctrlModeStep at hf
    split at hf
    · rename_i hc
      exact ⟨rfl, hc.1, hc.2.2⟩
    · exact absurd ha (by simp [hf])

/-- Settles O52: AUTOPATH's step on the oldest request, CTRL's mode step, and the steps that keep AUTO_ACTIVE. -/
theorem autoModeContract : Obligations.AutoModeContract := by
  intro s hl
  refine ⟨fun q r hn hf hq => ?_, fun hn => ?_, fun t h ha hfall => ?_⟩
  · have form := autoFormOk_iff s.turn q
    have free := autoMayStart_iff s.turn
    rw [step_live hl, hn, agentStep, autopathStep_request (s := s.turn) hf hq]
    refine ⟨fun h hg => ?_, fun h hg hq => ?_, fun h hg hq => ?_, fun h => ?_⟩
    · rw [if_neg (by simp [form.mpr h]), if_pos (free.mpr hg)]
    · rw [if_neg (by simp [form.mpr h]), if_neg (mt free.mp hg), if_neg (by simp [hq])]
    · rw [if_neg (by simp [form.mpr h]), if_neg (mt free.mp hg), if_pos hq]
    · rw [if_pos (Bool.eq_false_iff.mpr (mt form.mp h))]
  · rw [step_live hl, hn]
    rfl
  · rw [step_live hl] at h
    exact agentStep_autoActive_falls (s := s.turn) h ha hfall

end Sys2Proof.Machine
end

section
/-! Bytes and numbers: little-endian memory (20_memory R75) and what an element read finds in a race (R97, 70 R328). -/

namespace Sys2Proof.Machine

/-! ### The number of bytes (R75) -/

theorem natOfBytes_lt (bs : List Byte) : natOfBytes bs < 256 ^ bs.length := by
  induction bs with
  | nil => exact Nat.one_pos
  | cons b bs ih =>
    have hb := b.isLt
    rw [natOfBytes, List.length_cons, Nat.pow_succ']
    omega

/-- The number of up to four bytes fits a word. -/
theorem elemOfBytes_toNat {bs : List Byte} (h : bs.length ≤ 4) : (elemOfBytes bs).toNat = natOfBytes bs := by
  induction bs with
  | nil => rfl
  | cons b bs ih =>
    have hl : bs.length ≤ 3 := Nat.le_of_succ_le_succ h
    have hlt : natOfBytes bs < 256 ^ 3 := (natOfBytes_lt bs).trans_le (Nat.pow_le_pow_right (by decide) hl)
    have hb : b.toNat < 2 ^ 8 := b.isLt
    have high : natOfBytes bs <<< 8 % 2 ^ 32 = natOfBytes bs <<< 8 := by
      rw [Nat.shiftLeft_eq]
      omega
    rw [elemOfBytes, BitVec.toNat_or, BitVec.toNat_shiftLeft, ih (Nat.le_succ_of_le hl), high, BitVec.toNat_append,
      Nat.or_comm, BitVec.toNat_ofNat, Nat.zero_mod, Nat.zero_shiftLeft, Nat.zero_or,
      ← Nat.shiftLeft_add_eq_or_of_lt hb, natOfBytes, Nat.shiftLeft_eq]
    omega

/-- The number of bytes is their sum weighted by place. -/
theorem natOfBytes_eq_sum (bs : List Byte) :
    natOfBytes bs = ((List.range bs.length).map (fun j => (bs.getD j 0#8).toNat * 256 ^ j)).sum := by
  induction bs with
  | nil => rfl
  | cons b bs ih =>
    have tail (j : Nat) : (bs.getD j 0#8).toNat * 256 ^ (j + 1) = 256 * ((bs.getD j 0#8).toNat * 256 ^ j) := by
      rw [Nat.pow_succ']
      ac_rfl
    simp only [natOfBytes, ih, List.length_cons, List.range_succ_eq_map, List.map_cons, List.map_map, Function.comp_def,
      List.sum_cons, List.getD_cons_zero, List.getD_cons_succ, Nat.succ_eq_add_one, tail, List.sum_map_mul_left,
      Nat.pow_zero, Nat.mul_one]

@[simp] theorem bytesLsb_length (v n : Nat) : (bytesLsb v n).length = n := by
  induction n generalizing v with
  | zero => rfl
  | succ n ih => rw [bytesLsb, List.length_cons, ih]

theorem bytesLsb_getElem (v n j : Nat) (h : j < (bytesLsb v n).length) :
    (bytesLsb v n)[j] = BitVec.ofNat 8 (v / 256 ^ j) := by
  induction n generalizing v j with
  | zero => simp [bytesLsb] at h
  | succ n ih =>
    cases j with
    | zero => simp [bytesLsb]
    | succ j =>
      simp only [bytesLsb, List.getElem_cons_succ]
      rw [ih, Nat.div_div_eq_div_mul, Nat.pow_succ']

/-! ### MemWrite and MemRead (R75, R84) -/

theorem memBytes_getD (m : Memory) {a n j : Nat} (h : j < n) :
    (memBytes m a n).getD j 0#8 = m.get (sysAddr (a + j)) := by
  have hl : j < (memBytes m a n).length := by rwa [memBytes_length]
  rw [List.getD_eq_getElem _ _ hl, memBytes_getElem]

/-- Byte `j` of a stored value is its bits 8j+7 to 8j. -/
theorem memWrite_get {m : Memory} (h : Memory.wf addressSpace m = true) {a n j : Nat} (v : Word)
    (hn : n ≤ addressSpace) (hj : j < n) : (memWrite m a n v).get (sysAddr (a + j)) = v.extractLsb' (8 * j) 8 := by
  have hl : j < (elemBytes n v).length := by rwa [elemBytes_length]
  rw [memWrite, memPutBytes_get h a _ (by rwa [elemBytes_length]) j hl, ← List.getD_eq_getElem _ 0#8 hl,
    elemBytes_getD n v j hj]

/-- MemRead is the sum of its bytes weighted by place. -/
theorem memRead_toNat (m : Memory) (a : Nat) {n : Nat} (hn : n ≤ 4) : (memRead m a n).toNat =
    ((List.range n).map (fun j => (m.get (sysAddr (a + j))).toNat * 2 ^ (8 * j))).sum := by
  rw [memRead, elemOfBytes_toNat (by rwa [memBytes_length]), natOfBytes_eq_sum, memBytes_length]
  refine congrArg List.sum (List.map_congr_left fun j hj => ?_)
  rw [memBytes_getD m (List.mem_range.mp hj), Nat.pow_mul]

/-- The low `n` bytes of a word make the word without its other bits. -/
theorem elemOfBytes_elemBytes {n : Nat} (hn : n ≤ 4) (v : Word) :
    elemOfBytes (elemBytes n v) = v &&& BitVec.ofNat 32 (2 ^ (8 * n) - 1) := by
  have hpow : 2 ^ (8 * n) ≤ 2 ^ 32 := Nat.pow_le_pow_right (by decide) (by omega)
  have hmask : 2 ^ (8 * n) - 1 < 2 ^ 32 := by omega
  apply BitVec.eq_of_toNat_eq
  rw [elemOfBytes_toNat (by rwa [elemBytes_length]), natOfBytes_elemBytes, BitVec.toNat_and, BitVec.toNat_ofNat,
    Nat.mod_eq_of_lt hmask, Nat.and_two_pow_sub_one_eq_mod, Nat.pow_mul]

/-! ### Races for a buffer (R97, R328) -/

theorem racedBytes_getD (d : Dir) (s : State) {a n j : Nat} (h : j < n) :
    (racedBytes d s a n).getD j 0#8 = racedByte d s (a + j) := by
  induction n generalizing a j with
  | zero => omega
  | succ n ih =>
    cases j with
    | zero => rfl
    | succ j => rw [racedBytes, List.getD_cons_succ, ih (by omega), Nat.add_right_comm, Nat.add_assoc]

/-- A byte of the race's buffer is the one its element's free value chooses. -/
theorem racedByte_inside {d : Dir} {s : State} {r : Race} {a : Nat} (hr : s.race = some r) (hd : r.dir = d)
    (ho : offsetFrom a r.buf < r.n) : racedByte d s a =
      if Config.freeOld s.tick (offsetFrom a r.buf / r.esz) = true then r.before.get (sysAddr a)
      else s.mem.get (sysAddr a) := by
  by_cases same : r.before.get (sysAddr a) = s.mem.get (sysAddr a)
  · simp [racedByte, hr, same]
  · simp [racedByte, hr, hd, ho, same]

theorem racedByte_outside {d : Dir} {s : State} {r : Race} {a : Nat} (hr : s.race = some r)
    (h : ¬(r.dir = d ∧ offsetFrom a r.buf < r.n)) : racedByte d s a = s.mem.get (sysAddr a) :=
  racedByte_quiet fun _ hq hd ho => absurd ⟨hd, ho⟩ (Option.some.inj (hr.symm.trans hq) ▸ h)

/-- Settles O56: bytes stored and read byte by byte; in a race one free value decides for a whole element. -/
theorem littleEndianMemory : Obligations.LittleEndianMemory := by
  refine ⟨fun m a n v hm hn => ?_, fun s d a n => ?_⟩
  · have hspace : n ≤ addressSpace := hn.trans (by decide)
    exact ⟨fun j hj => memWrite_get hm v hspace hj, memRead_toNat m a hn,
      (memRead_memWrite hm a n v hspace).trans (elemOfBytes_elemBytes hn v)⟩
  · refine ⟨racedBytes_length d s a n, ?_, fun hr => ?_,
      fun r hr => ⟨fun j hj hout => ?_, fun hquiet => ?_, fun k => ?_⟩⟩
    · rintro rfl
      rfl
    · exact racedBytes_quiet fun r h => absurd h (by simp [hr])
    · rw [racedBytes_getD d s hj, racedByte_outside hr hout]
    · refine racedBytes_quiet fun q hq hd j hj ho => ?_
      cases hr.symm.trans hq
      exact hquiet j hj ⟨hd, ho⟩
    · have element (j : Nat) (hj : j < n) (hin : r.dir = d ∧ offsetFrom (a + j) r.buf < r.n)
          (hk : offsetFrom (a + j) r.buf / r.esz = k) : (racedBytes d s a n).getD j 0#8 =
            if Config.freeOld s.tick k = true then r.before.get (sysAddr (a + j)) else s.mem.get (sysAddr (a + j)) := by
        rw [racedBytes_getD d s hj, racedByte_inside hr hin.1 hin.2, hk]
      cases hold : Config.freeOld s.tick k with
      | false => exact .inl fun j ⟨hj, hin, hk⟩ => by simpa [hold] using element j hj hin hk
      | true => exact .inr fun j ⟨hj, hin, hk⟩ => by simpa [hold] using element j hj hin hk

end Sys2Proof.Machine
end

section
/-! HOST's accesses outside the register block: system memory, the auto window, the FIFO word (20_memory R70, R71,
R97; 30_encoding R122; 60_exceptions R296; 70_reset_and_hazards R326, R327). -/

namespace Sys2Proof.Machine

/-! ### Where an access goes (R70, R71; log 10) -/

/-- The offset of an address that stands `d` bytes after the base. -/
theorem offsetFrom_eq {x b d : Nat} (hd : d < addressSpace) (h : sysAddr x = sysAddr (b + d)) : offsetFrom x b = d := by
  simp only [sysAddr, offsetFrom, addressSpace] at *
  omega

theorem Params.ok_density {p : Config.Params} (h : p.ok = true) : p.density ≤ addressSpace := by
  unfold Config.Params.ok at h
  simp only [Bool.and_eq_true, decide_eq_true_eq, and_assoc] at h
  exact h.2.1

theorem not_rangesMeet {a n b m : Nat} (h : ¬ShareByte a n b m) : ¬rangesMeet a n b m = true :=
  mt (rangesMeet_iff a n b m).mp h

theorem hostTarget_controller {p : Config.Params} {addr n : Nat} (he : ¬ShareByte addr n p.engineBase 0x100)
    (hf : ShareByte addr n p.fifoAddr 4) : hostTarget p addr n = .controller := by
  rw [hostTarget, if_neg (not_rangesMeet he), if_pos ((rangesMeet_iff _ _ _ _).mpr hf)]

theorem hostTarget_memory {p : Config.Params} {addr n : Nat} (he : ¬ShareByte addr n p.engineBase 0x100)
    (hf : ¬ShareByte addr n p.fifoAddr 4) (hw : ¬ShareByte addr n p.autoBase p.density) :
    hostTarget p addr n = .memory := by
  rw [hostTarget, if_neg (not_rangesMeet he), if_neg (not_rangesMeet hf), if_neg (not_rangesMeet hw)]

/-- An access inside the window in R296's form. -/
theorem hostTarget_window {p : Config.Params} (hok : p.ok = true) {d n : Nat}
    (he : ¬ShareByte (p.autoBase + d) n p.engineBase 0x100) (hf : ¬ShareByte (p.autoBase + d) n p.fifoAddr 4)
    (hn : n = 1 ∨ n = 2 ∨ n = 4) (hd : d + n ≤ p.density) : hostTarget p (p.autoBase + d) n = .window d := by
  have hspace := Params.ok_density hok
  have hoff : offsetFrom (p.autoBase + d) p.autoBase = d := offsetFrom_eq (by omega) rfl
  have hmeet : ShareByte (p.autoBase + d) n p.autoBase p.density := ⟨0, d, by omega, by omega, rfl⟩
  have hform : (eszOk n && decide (d + n ≤ p.density)) = true := by
    rw [(eszOk_iff n).mpr hn, decide_eq_true hd, Bool.and_self]
  rw [hostTarget, if_neg (not_rangesMeet he), if_neg (not_rangesMeet hf),
    if_pos ((rangesMeet_iff _ _ _ _).mpr hmeet), hoff, if_pos hform]

/-- An access that meets the window in another form. -/
theorem hostTarget_pieces {p : Config.Params} {addr n : Nat} (he : ¬ShareByte addr n p.engineBase 0x100)
    (hf : ¬ShareByte addr n p.fifoAddr 4) (hw : ShareByte addr n p.autoBase p.density)
    (h : ¬(n = 1 ∨ n = 2 ∨ n = 4) ∨ ∀ d, d + n ≤ p.density → sysAddr addr ≠ sysAddr (p.autoBase + d)) :
    hostTarget p addr n = .pieces := by
  have hform : ¬(eszOk n && decide (offsetFrom addr p.autoBase + n ≤ p.density)) = true := by
    rw [Bool.and_eq_true, eszOk_iff, decide_eq_true_eq]
    rintro ⟨hn, hd⟩
    rcases h with h | h
    · exact h hn
    · exact h _ hd (sysAddr_offsetFrom addr p.autoBase).symm
  rw [hostTarget, if_neg (not_rangesMeet he), if_neg (not_rangesMeet hf),
    if_pos ((rangesMeet_iff _ _ _ _).mpr hw), if_neg hform]

/-! ### An access by its target -/

section
variable {s : State} {act : HostAct} {dir : Dir} {addr n v : Nat}

theorem hostAccess_controller (ht : hostTarget s.cfg addr n = .controller) :
    hostAccess s act dir addr n v = .fault .hostTouchedController := by
  unfold hostAccess
  rw [ht]

theorem hostAccess_window {d : Nat} (ht : hostTarget s.cfg addr n = .window d) :
    hostAccess s act dir addr n v = .next (hostAsk s [] dir d n v) := by
  unfold hostAccess
  rw [ht]

theorem hostAccess_pieces (ht : hostTarget s.cfg addr n = .pieces) :
    hostAccess s act dir addr n v = .next { s with hostPend := .part [] } := by
  unfold hostAccess
  rw [ht]

theorem hostAccess_readMemory (ht : hostTarget s.cfg addr n = .memory) :
    hostAccess s act .read addr n v = .next (hostFinish s act (racedBytes .read s addr n)) := by
  unfold hostAccess
  rw [ht]

theorem hostAccess_writeMemory (ht : hostTarget s.cfg addr n = .memory) : hostAccess s act .write addr n v =
    .next (hostFinish { s with mem := memPutBytes s.mem addr (bytesLsb v n) } act []) := by
  unfold hostAccess
  rw [ht]

/-! ### An access that goes byte by byte (log 10) -/

theorem hostContinue_end {done : List Byte} (hf : hostForm act = some (dir, addr, n, v)) (h : n ≤ done.length) :
    hostContinue s act done = hostFinish s act done := by
  cases act <;> cases hf <;> exact if_pos h

theorem hostContinue_piece {done : List Byte} (hf : hostForm act = some (dir, addr, n, v)) (h : done.length < n) :
    hostContinue s act done = hostPiece s done dir addr v := by
  cases act <;> cases hf <;> exact if_neg (Nat.not_le.mpr h)

/-- A byte inside the window is AUTOPATH's to move. -/
theorem hostPiece_window {done : List Byte} {d : Nat} (hspace : s.cfg.density ≤ addressSpace) (hd : d < s.cfg.density)
    (h : sysAddr (addr + done.length) = sysAddr (s.cfg.autoBase + d)) : hostPiece s done dir addr v =
      hostAsk s done dir d 1 (BitVec.ofNat 8 (v / 256 ^ done.length)).toNat := by
  have hoff := offsetFrom_eq (hd.trans_le hspace) h
  simp only [hostPiece, hoff, if_pos hd]

theorem offsetFrom_outside {x b m : Nat} (h : ∀ d < m, sysAddr x ≠ sysAddr (b + d)) : ¬offsetFrom x b < m :=
  fun hd => h _ hd (sysAddr_offsetFrom x b).symm

/-- A byte outside the window is memory's, found old or new in a race (R97). -/
theorem hostPiece_readMemory {done : List Byte}
    (h : ∀ d < s.cfg.density, sysAddr (addr + done.length) ≠ sysAddr (s.cfg.autoBase + d)) :
    hostPiece s done .read addr v =
      { s with hostPend := .part (done ++ [racedByte .read s (addr + done.length)]) } := by
  simp only [hostPiece, if_neg (offsetFrom_outside h)]

theorem hostPiece_writeMemory {done : List Byte}
    (h : ∀ d < s.cfg.density, sysAddr (addr + done.length) ≠ sysAddr (s.cfg.autoBase + d)) :
    hostPiece s done .write addr v = { s with
      mem := s.mem.put (sysAddr (addr + done.length)) (BitVec.ofNat 8 (v / 256 ^ done.length))
      hostPend := .part (done ++ [BitVec.ofNat 8 (v / 256 ^ done.length)]) } := by
  simp only [hostPiece, if_neg (offsetFrom_outside h)]

end

/-! ### HOST's step -/

section
variable {s : State} {act : HostAct} {r : List HostAct} (hl : s.Live) (hn : nextAgent s = .host)
  (hr : s.hostProg = act :: r)
include hl hn hr

theorem step_host_start (hp : s.hostPend = .idle) : step s = hostStart s.turn act := by
  rw [step_live hl, hn]
  simp only [agentStep, hostStep, State.turn_hostProg, hr, State.turn_hostPend, hp]

/-- HOST has no step while its access is held (R296, R326). -/
theorem step_host_waiting {done : List Byte} (hp : s.hostPend = .waiting done) : step s = .next s.turn := by
  rw [step_live hl, hn]
  simp only [agentStep, hostStep, State.turn_hostProg, hr, State.turn_hostPend, hp]

theorem step_host_part {done : List Byte} (hp : s.hostPend = .part done) :
    step s = .next (hostContinue s.turn act done) := by
  rw [step_live hl, hn]
  simp only [agentStep, hostStep, State.turn_hostProg, hr, State.turn_hostPend, hp]

end

/-- The end of HOST's action, however far its access was. -/
theorem hostNext_of_prog {s : State} {act : HostAct} {r : List HostAct} (hr : s.hostProg = act :: r) :
    hostNext s = { s with hostProg := r, hostPend := .idle } := by
  rw [hostNext, hr, List.tail_cons]

theorem hostSaw_of_prog {s : State} {act : HostAct} {r : List HostAct} (hr : s.hostProg = act :: r) (v : Nat) :
    hostSaw s v = { s with hostProg := r, hostPend := .idle, hostLog := s.hostLog ++ [v] } := by
  rw [hostSaw, hostNext_of_prog hr]

/-! ### System memory (R70, R75, R97) -/

/-- A store puts its bytes little-endian (R75). -/
theorem memPutBytes_bytesLsb_get {m : Memory} (h : Memory.wf addressSpace m = true) {a n j : Nat} (v : Nat)
    (hn : n ≤ addressSpace) (hj : j < n) :
    (memPutBytes m a (bytesLsb v n)).get (sysAddr (a + j)) = BitVec.ofNat 8 (v / 256 ^ j) := by
  have hlen : j < (bytesLsb v n).length := by rwa [bytesLsb_length]
  rw [memPutBytes_get h a _ (by rwa [bytesLsb_length]) j hlen, bytesLsb_getElem]

theorem memPutBytes_get_outside (m : Memory) {a : Nat} {bs : List Byte} {x : Nat}
    (h : inStored a bs.length x = false) : (memPutBytes m a bs).get x = m.get x := by
  refine memPutBytes_get_other m a bs x fun j hj e => ?_
  simp only [inStored, decide_eq_false_iff_not, not_exists, not_and] at h
  exact h j hj e

/-- What HOST may find at an address: memory's byte or, of the buffer of a read transfer in progress, the one it held
at the command's acceptance (R97; log 32). -/
def HostMayRead (s : State) (x : Nat) (b : Byte) : Prop :=
  b = s.mem.get (sysAddr x) ∨ ∃ q, s.race = some q ∧ q.dir = .read ∧ offsetFrom x q.buf < q.n
    ∧ b = q.before.get (sysAddr x)

theorem hostMayRead_racedByte (s : State) (x : Nat) : HostMayRead s x (racedByte .read s.turn x) :=
  racedByte_mem .read s.turn x

theorem hostMayRead_racedBytes (s : State) (a n : Nat) :
    ∀ j < n, HostMayRead s (a + j) ((racedBytes .read s.turn a n).getD j 0#8) := by
  intro j hj
  rw [racedBytes_getD .read s.turn hj]
  exact hostMayRead_racedByte s (a + j)

/-! ### The accesses -/

/-- Settles O60: each access is the one its target gives, and each of HOST's steps the one its progress gives. -/
theorem hostAccesses : Obligations.HostAccesses := by
  intro s act r hl hn hr
  refine ⟨fun hp ha => ?_, fun hp ha => ?_, fun done hp => step_host_waiting hl hn hr hp, fun dir addr n v hf => ?_⟩
  · rw [step_host_start hl hn hr hp, ha, hostStart]
  · rw [step_host_start hl hn hr hp, ha, hostStart]
  dsimp only
  have access (hp : s.hostPend = .idle) := step_host_access hl hn hp hr hf
  refine ⟨fun hp he hw => ?fifo, fun hp he hx hw => ⟨?store, ?load, ?poll⟩, fun d hp he hx ha hform hd => ?window,
    fun hp he hx hw hform => ?pieces, fun done hp => ⟨fun hlt => ⟨fun d hd hat => ?byteWindow, fun hout =>
      ⟨?byteRead, ?byteWrite⟩⟩, fun hle => ⟨?endStore, ?endLoad, ?endPoll⟩⟩⟩
  case fifo => exact (access hp).trans (hostAccess_controller (s := s.turn) (hostTarget_controller he hw))
  case store =>
    rintro rfl
    cases hf
    have target := hostTarget_memory he hx hw
    refine ⟨memPutBytes s.mem addr (bytesLsb v n), ?_, fun hm hsize j hj => memPutBytes_bytesLsb_get hm v hsize hj,
      fun x hout => memPutBytes_get_outside _ (by rwa [bytesLsb_length])⟩
    rw [access hp, hostAccess_writeMemory (s := s.turn) target, hostFinish]
    exact congrArg _ (hostNext_of_idle hp hr)
  case load =>
    rintro rfl
    cases hf
    have target := hostTarget_memory he hx hw
    refine ⟨racedBytes .read s.turn addr n, racedBytes_length _ _ _ _, hostMayRead_racedBytes s addr n, ?_⟩
    rw [access hp, hostAccess_readMemory (s := s.turn) target, hostFinish, natOfBytes_eq_sum]
    exact congrArg _ (hostSaw_of_idle (s := s.turn) hp hr _)
  case poll =>
    rintro mask value rfl
    cases hf
    have target := hostTarget_memory he hx hw
    refine ⟨racedBytes .read s.turn addr 4, racedBytes_length _ _ _ _, hostMayRead_racedBytes s addr 4, ?_⟩
    rw [access hp, hostAccess_readMemory (s := s.turn) target, hostFinish]
    exact congrArg _ (hostCompare_of_idle (s := s.turn) hp hr _ _ _)
  case window =>
    subst ha
    exact (access hp).trans (hostAccess_window (s := s.turn) (hostTarget_window hl.1 he hx hform hd))
  case pieces => exact (access hp).trans (hostAccess_pieces (s := s.turn) (hostTarget_pieces he hx hw hform))
  case byteWindow =>
    rw [step_host_part hl hn hr hp, hostContinue_piece hf hlt,
      hostPiece_window (s := s.turn) (Params.ok_density hl.1) hd hat]
    rfl
  case byteRead =>
    rintro rfl
    refine ⟨_, hostMayRead_racedByte s _, ?_⟩
    rw [step_host_part hl hn hr hp, hostContinue_piece hf hlt, hostPiece_readMemory (s := s.turn) hout]
  case byteWrite =>
    rintro rfl
    rw [step_host_part hl hn hr hp, hostContinue_piece hf hlt, hostPiece_writeMemory (s := s.turn) hout]
    rfl
  all_goals rw [step_host_part hl hn hr hp, hostContinue_end hf hle]
  case endStore =>
    rintro rfl
    exact congrArg _ (hostNext_of_prog (s := s.turn) hr)
  case endLoad =>
    rintro rfl
    rw [← natOfBytes_eq_sum]
    exact congrArg _ (hostSaw_of_prog (s := s.turn) hr _)
  case endPoll =>
    rintro mask value rfl
    rw [hostFinish, hostCompare, hostSaw_of_prog (s := s.turn) hr]
    rfl

end Sys2Proof.Machine
end

section
/-! Words and instructions (30_encoding R101 to R105, R120, R124): the fields of an encoded word, and that on command
words the decoder and the encoder are inverse to each other. -/

namespace Sys2Proof.Machine

/-! ### Words and their bytes (20_memory R75) -/

theorem wordOfBytes_extractLsb' (w : Word) :
    wordOfBytes (w.extractLsb' 0 8) (w.extractLsb' 8 8) (w.extractLsb' 16 8) (w.extractLsb' 24 8) = w := by
  simp only [wordOfBytes]
  rw [BitVec.extractLsb'_append_extractLsb'_eq_extractLsb' (by rfl),
    BitVec.extractLsb'_append_extractLsb'_eq_extractLsb' (by rfl),
    BitVec.extractLsb'_append_extractLsb'_eq_extractLsb' (by rfl)]
  exact BitVec.extractLsb'_eq_self

theorem decode_cmd_append (w : Word) (rest : List Byte) :
    decode .cmd (bytesOfWord w ++ rest) = .ok (decodeCmd w, rest) := by
  simp only [bytesOfWord, List.cons_append, List.nil_append, decode, wordOfBytes_extractLsb']

theorem decode_evt_append {w : Word} {i : Instr} (h : decodeEvt w = some i) (rest : List Byte) :
    decode .evt (bytesOfWord w ++ rest) = .ok (i, rest) := by
  simp only [bytesOfWord, List.cons_append, List.nil_append, decode, wordOfBytes_extractLsb', h]

/-! ### The fields of a command word (R101) -/

@[simp] theorem cmdReserved_cmdWord (op : BitVec 4) (esz : BitVec 3) : cmdReserved (cmdWord op esz) = 0#25 := by
  revert op esz; decide

@[simp] theorem cmdOp_cmdWord (op : BitVec 4) (esz : BitVec 3) : cmdOp (cmdWord op esz) = op := by
  revert op esz; decide

@[simp] theorem cmdEsz_cmdWord (op : BitVec 4) (esz : BitVec 3) : cmdEsz (cmdWord op esz) = esz := by
  revert op esz; decide

/-- A command word's number is OP + 16 * ESZ (R101). -/
theorem cmdWord_toNat (op : BitVec 4) (esz : BitVec 3) : (cmdWord op esz).toNat = op.toNat + 16 * esz.toNat := by
  revert op esz; decide

theorem cmdOp_toNat (w : Word) : (cmdOp w).toNat = w.toNat % 16 := by
  simp [cmdOp]

theorem cmdEsz_toNat (w : Word) : (cmdEsz w).toNat = w.toNat / 16 % 8 := by
  simp [cmdEsz, Nat.shiftRight_eq_div_pow]

theorem cmdReserved_toNat (w : Word) : (cmdReserved w).toNat = w.toNat / 128 := by
  simp [cmdReserved, Nat.shiftRight_eq_div_pow]
  omega

/-- A word without reserved bits is the command word of its own OP and ESZ. -/
theorem cmdWord_fields {w : Word} {op : BitVec 4} {esz : BitVec 3} (hr : cmdReserved w = 0#25) (ho : cmdOp w = op)
    (he : cmdEsz w = esz) : cmdWord op esz = w := by
  subst ho he
  have hz := cmdReserved_toNat w
  rw [hr, BitVec.toNat_ofNat] at hz
  apply BitVec.eq_of_toNat_eq
  rw [cmdWord_toNat, cmdOp_toNat, cmdEsz_toNat]
  omega

/-- R104, field by field. -/
theorem illegalWord_iff (w : Word) : illegalWord w = true ↔ cmdReserved w ≠ 0#25 ∨ cmdOp w = 0#4
    ∨ 8 ≤ (cmdOp w).toNat ∨ ((cmdOp w = 1#4 ∨ cmdOp w = 6#4 ∨ cmdOp w = 7#4) ∧ cmdEsz w ≠ 0#3) := by
  simp only [illegalWord, cmdReserved, cmdOp, cmdEsz, Bool.or_eq_true, Bool.and_eq_true, bne_iff_ne, beq_iff_eq,
    decide_eq_true_eq]
  tauto

/-! ### Decoder and encoder -/

/-- Decoding a command word loses nothing of it (R105). -/
theorem encode_decodeCmd (w : Word) : encode (decodeCmd w) = w := by
  fun_cases decodeCmd w
  case case1 | case3 | case9 | case11 | case12 => rfl
  case case2 | case8 | case10 => exact cmdWord_fields (not_not.mp ‹_›) ‹_› ‹_›
  case case4 | case5 | case6 | case7 => exact cmdWord_fields (not_not.mp ‹_›) ‹_› rfl

/-- The decoder answers instructions of the encoding alone (R104, R105). -/
theorem wf_decodeCmd (w : Word) : (decodeCmd w).wf = true := by
  fun_cases decodeCmd w
  case case1 | case3 | case9 | case11 => simp [Instr.wf, illegalWord_iff, *]
  case case12 =>
    rw [Instr.wf, illegalWord_iff]
    bv_omega
  all_goals rfl

/-- A word that R104 calls illegal is no other command's, so it decodes to itself. -/
theorem decodeCmd_of_illegalWord {w : Word} (h : illegalWord w = true) : decodeCmd w = .illegal w := by
  have hp := decodeCmd_port w
  have he := encode_decodeCmd w
  generalize decodeCmd w = i at hp he ⊢
  subst he
  cases i with
  | illegal v => rfl
  | evtDmaComplete ch => cases hp
  | _ => simp [illegalWord_iff, encode] at h

/-- Every well-formed command decodes from its own word (R101, R102, R104). -/
theorem decodeCmd_encode {i : Instr} (hp : portOf i = .cmd) (hw : i.wf = true) : decodeCmd (encode i) = i := by
  cases i with
  | illegal w => exact decodeCmd_of_illegalWord hw
  | evtDmaComplete ch => cases hp
  | _ => simp [encode, decodeCmd]

/-- Decoder and encoder are inverse to each other on commands. -/
theorem decodeCmd_eq_iff {i : Instr} (hp : portOf i = .cmd) (hw : i.wf = true) (w : Word) :
    decodeCmd w = i ↔ w = encode i := by
  constructor
  · rintro rfl
    exact (encode_decodeCmd w).symm
  · rintro rfl
    exact decodeCmd_encode hp hw

theorem decodeCmd_eq_illegal_iff (w : Word) : decodeCmd w = .illegal w ↔ illegalWord w = true := by
  refine ⟨fun h => ?_, decodeCmd_of_illegalWord⟩
  have hw := wf_decodeCmd w
  rwa [h] at hw

/-- An event of a channel decodes from its own word (R120). -/
theorem decodeEvt_encode (ch : BitVec 4) : decodeEvt (encode (.evtDmaComplete ch)) = some (.evtDmaComplete ch) := by
  revert ch; decide

/-- Settles O2: on either port the four bytes make the encoded word again, and that decodes to its instruction. -/
theorem decodeOfEncode : Obligations.DecodeOfEncode := by
  intro i rest hw
  cases hp : portOf i with
  | cmd => rw [encodeBytes, decode_cmd_append, decodeCmd_encode hp hw]
  | evt =>
    cases i with
    | evtDmaComplete ch => exact decode_evt_append (decodeEvt_encode ch) rest
    | _ => cases hp

/-- A word decodes to a command exactly when its number is that command's OP + 16 * ESZ (R101, R105). -/
theorem decodeCmd_eq_iff_toNat {i : Instr} (hp : portOf i = .cmd) (hw : i.wf = true) {op : BitVec 4} {e : BitVec 3}
    (he : encode i = cmdWord op e) (w : Word) : decodeCmd w = i ↔ w.toNat = op.toNat + 16 * e.toNat := by
  rw [decodeCmd_eq_iff hp hw, he, ← BitVec.toNat_inj, cmdWord_toNat]

/-- Settles O3: a word decodes to a command exactly when it is that command's word. -/
theorem everyWordIsOneCommand : Obligations.EveryWordIsOneCommand := by
  intro w
  refine ⟨?illegal, decodeCmd_eq_iff rfl rfl w, decodeCmd_eq_iff rfl rfl w, decodeCmd_eq_iff rfl rfl w,
    fun _ => decodeCmd_eq_iff_toNat (op := 2#4) rfl rfl rfl w,
    fun _ => decodeCmd_eq_iff_toNat (op := 3#4) rfl rfl rfl w,
    fun _ => decodeCmd_eq_iff_toNat (op := 4#4) rfl rfl rfl w,
    fun _ => decodeCmd_eq_iff_toNat (op := 5#4) rfl rfl rfl w, encode_decodeCmd w, decodeCmd_port w⟩
  rw [decodeCmd_eq_illegal_iff, illegalWord_iff, ← cmdReserved_toNat, ← cmdOp_toNat, ← cmdEsz_toNat]
  simp only [ne_eq, ← BitVec.toNat_inj, BitVec.toNat_ofNat]

/-- Settles O1: each word is decoded by the machine's own decoder. -/
theorem specWordsDecode : Obligations.SpecWordsDecode := by
  unfold Obligations.SpecWordsDecode
  decide

end Sys2Proof.Machine
end

section
/-! CA_SEQ on the bus (30_encoding R110 to R114; 40_phase_driver R140, R141): the address bytes, and the lines of its
phases. -/

namespace Sys2Proof.Machine

/-! ### Address bytes (R113) -/

/-- Byte `j` from the front is byte `n - 1 - j` of the number. -/
theorem bytesMsb_getD (a : Nat) {n j : Nat} (h : j < n) :
    (bytesMsb a n).getD j 0#8 = BitVec.ofNat 8 (a / 2 ^ (8 * (n - 1 - j))) := by
  induction n generalizing j with
  | zero => omega
  | succ n ih =>
    cases j with
    | zero => rfl
    | succ j =>
      rw [bytesMsb, List.getD_cons_succ, ih (by omega)]
      congr 4
      omega

/-- Settles O54: the bytes are `bytesMsb`'s, in one order or the other. -/
theorem addressBytes : Obligations.AddressBytes := fun n a bswap =>
  ⟨abytes_length n bswap a, fun _ hj => bytesMsb_getD a hj, rfl, addrOfBytes_abytes n a bswap⟩

/-! ### The lines of CA_SEQ (R110 to R114, R141) -/

theorem profCsel_eq (p0 : Word) : profCsel p0 = p0.toNat / 2 ^ 29 := by
  simp [profCsel, Nat.shiftRight_eq_div_pow]
  omega

theorem profDummyCycles_eq (p1 : Word) : profDummyCycles p1 = p1.toNat % 256 := by
  simp [profDummyCycles]

/-- Settles O28: each line is the one `runAct` gives, with the profile's fields read as numbers. -/
theorem commandAndAddressPhases : Obligations.CommandAndAddressPhases := by
  intro s i dir a r hi
  have line {x : Act} (ht : s.todo = x :: r) : exec i s = runAct x r s := exec_line hi ht
  dsimp only
  rw [← profCsel_eq, ← profDummyCycles_eq]
  refine ⟨fun ht => (line ht).trans ?_, fun ht => line ht, fun ht => line ht⟩
  cases dir <;> rfl

end Sys2Proof.Machine
end

section
/-! A whole blocking transfer (43_blocking_path R206 to R209): its beginning, the arbiter, the chunk loop and the
restored mode, one after the other, and what its bytes are at the end. -/

namespace Sys2Proof.Machine

/-! ### The bytes a transfer moves -/

/-- A write puts the buffer's bytes in the device's range and no others (R115). -/
theorem psramAfter_write {s : State} {a b n : Nat} (hw : PsramWf s) (hn : a + n ≤ s.cfg.density) :
    (∀ j < n, (psramAfter s .write a b n).get (a + j) = s.mem.get (sysAddr (b + j)))
      ∧ ∀ x, (x < a ∨ a + n ≤ x) → (psramAfter s .write a b n).get x = s.psram.get x := by
  have hlen := memBytes_length s.mem b n
  refine ⟨fun j hj => ?_, fun x hx => putRange_get_other _ _ _ x (by rwa [hlen])⟩
  rw [psramAfter, putRange_get hw a _ (by rwa [hlen]) j (by rwa [hlen]), memBytes_getElem]

/-- A read puts the device's bytes in the buffer and no others (R115). -/
theorem memAfter_read {s : State} {a b n : Nat} (hw : Memory.wf addressSpace s.mem = true) (hn : n ≤ addressSpace) :
    (∀ j < n, (memAfter s .read a b n).get (sysAddr (b + j)) = s.psram.get (a + j))
      ∧ ∀ x, inStored b n x = false → (memAfter s .read a b n).get x = s.mem.get x := by
  have hlen := devBytes_length s.psram a n
  refine ⟨fun j hj => ?_, fun x hx => memPutBytes_get_outside _ (by rwa [hlen])⟩
  rw [memAfter, memPutBytes_get hw b _ (by rwa [hlen]) j (by rwa [hlen])]
  simp only [devBytes, List.getElem_map, List.getElem_range]

/-! ### From the first line to the last -/

/-- BLOCKING's last lines: the mode that ARB_MANUAL found is restored, then RESULT is OK (R208, R209, R264). -/
theorem Reaches.blockingEnd {s0 s : State} (h : Reaches s0 s) (hok : s.Live) (hx : s.exec = true)
    (ht : s.todo = [.restore, .finish .blocking .ok false]) (hen : s.autoEn = false) (hfl : s.autoFlight = none)
    (hc : s.cs = none) : ∃ ep sy aa, Reaches s0 { s with
      result := ⟨.ok, false, true⟩, exec := false, todo := [], race := none
      autoEn := s.work.prior, autoActive := aa, epoch := ep, sync := sy } := by
  have h1 : Reaches s0 { s with
      todo := (if s.work.prior then Machine.arbAuto .drop else []) ++ [.finish .blocking .ok false] } :=
    h.trans (.line hok (.inl hx) ht fun _ _ => rfl)
  rcases Bool.eq_false_or_eq_true s.work.prior with hp | hp
  · rw [hp] at h1 ⊢
    obtain ⟨ep, sy, aa, h2⟩ := Reaches.arbAuto (s := { s with
      todo := Machine.arbAuto .drop ++ [.finish .blocking .ok false] }) hok (.inl hx) rfl hfl hc
    exact ⟨ep, sy, aa, h1.trans (h2.trans (.finish hok (.inl hx) rfl rfl))⟩
  · rw [hp] at h1
    rw [hp.trans hen.symm]
    exact ⟨s.epoch, s.sync, s.autoActive, h1.trans (.finish hok (.inl hx) rfl rfl)⟩

/-- A running offset is a 32-bit number (R183). -/
theorem wrapOffset_lt (w : Word) (a : Nat) : wrapOffset w.toNat a < 2 ^ 32 := by
  unfold wrapOffset
  split
  · decide
  · exact (Nat.mod_lt a (by omega)).trans w.isLt

section

variable {s : State} {dir : Dir} {e : BitVec 3} (hh : s.handling = false) (hx : s.exec = true) (ht : s.todo = [])
  (hi : decodeCmd s.latch.cmd = transfer false dir e) (hini : s.initDone = true) (hch : chainRunning s = false)
  (hv : OperandsValid s false e) (hk : CallerKeeps s false e) (hfl : s.autoFlight = none)

include hh hx ht hi hini hch hv hk hfl

/-- BLOCKING up to its chunk loop: W_* and W_PRIOR assigned, manual mode (R208). -/
theorem Reaches.blockingStart (hok : s.Live) : ∃ ep sy aa, Reaches s { s with
      todo := [.loop dir, .restore, .finish .blocking .ok false], race := some (openRace s dir e)
      work := { startedWork s dir e with prior := s.autoEn }
      autoEn := false, autoActive := aa, epoch := ep, sync := sy } := by
  have h1 := Reaches.blockingFirst hok hh hx ht hi hini hch hv hk
  obtain ⟨ep, sy, aa, h2⟩ := Reaches.arbManual (use := .prior)
    (r := [.loop dir, .restore, .finish .blocking .ok false]) (s := { s with
      todo := blockingBody dir, work := startedWork s dir e, race := some (openRace s dir e) })
    hok (.inl hx) rfl hfl
  exact ⟨ep, sy, aa, h1.trans (h2.trans (.setWork [.prior s.autoEn] hok (.inl hx) rfl))⟩

/-- The whole transfer: OK in RESULT, the mode as it was, its bytes and its records (R206 to R209). -/
theorem Reaches.blocking (h : BusFree s) (hst : dir = .write → BufferStable s e) (hop : opcodesDiffer s dir)
    (hw : wrapAligned s s.latch.addr.toNat e.toNat) :
    let a := s.latch.addr.toNat
    let b := s.latch.buf.toNat
    let n := s.latch.count.toNat * e.toNat
    ∃ bw ce ep sy past pa wk aa, Reaches s { s with
      result := ⟨.ok, false, true⟩, exec := false, todo := [], race := none, autoActive := aa
      curBw := bw, curElem := ce, epoch := ep, sync := sy, psramPast := past, parser := pa, work := wk
      psram := psramAfter s dir a b n, mem := memAfter s dir a b n
      bus := s.bus ++ planRecords s dir e.toNat a b
        (planOf s.act2.toNat e.toNat s.cfg.pageBytes a s.latch.count.toNat) } := by
  intro a b n
  obtain ⟨ep, sy, aa, h1⟩ := Reaches.blockingStart hh hx ht hi hini hch hv hk hfl h.ok
  have hrange : a + n ≤ s.cfg.density := hv.range
  have hspace : s.cfg.density ≤ 2 ^ 32 := Params.ok_density h.ok.1
  obtain ⟨bw, ce, ep2, sy2, past, pa, wk, hprior, h2⟩ := Reaches.blockingLoop (a := a) (b := b) (rem := n)
    (e := e.toNat) (r := [.restore, .finish .blocking .ok false]) s.latch.count.toNat
    (s := { s with
      todo := [.loop dir, .restore, .finish .blocking .ok false], race := some (openRace s dir e)
      work := { startedWork s dir e with prior := s.autoEn }
      autoEn := false, autoActive := aa, epoch := ep, sync := sy })
    ⟨h.ok, h.active, h.idle, h.released, h.drained, ⟨h.profile.accepted, h.profile.bytes, h.profile.enc⟩⟩
    rfl hop rfl rfl hv.size (fun _ => rfl) (Nat.mod_eq_of_lt s.latch.buf.isLt).symm
    ((BitVec.toNat_ofNat _ _).trans (Nat.mod_eq_of_lt (by omega)))
    (fun _ => (BitVec.toNat_ofNat _ _).trans (Nat.mod_eq_of_lt (wrapOffset_lt s.act2 a)))
    (Nat.mul_mod_left _ _) hrange hw (Nat.le_refl _)
    (fun _ => WriteQuiet.of_stable (s := s) (t := { s with race := some (openRace s dir e) }) hst rfl rfl)
  obtain ⟨ep3, sy3, aa3, h3⟩ := Reaches.blockingEnd (h1.trans h2) h.ok hx rfl rfl hfl h.released
  have hp : wk.prior = s.autoEn := hprior
  rw [hp] at h3
  exact ⟨bw, ce, ep3, sy3, past, pa, wk, aa3, h3⟩

end

/-- Settles O31: the transfer reaches its end, where the bytes stored read back and the others are as they were. -/
theorem blockingTransferCompletes : Obligations.BlockingTransferCompletes := by
  intro s dir e hok hh hx ht hi hini hch hv hk hj hc hf hfl hl hm hst hop hw
  obtain ⟨hmem, hpsram, -, -, -⟩ := hm
  have hrange := hv.range
  have hspace := Params.ok_density hok.1
  have hw' : wrapAligned s s.latch.addr.toNat e.toNat := hw.imp_left (congrArg BitVec.toNat)
  obtain ⟨bw, ce, ep, sy, past, pa, wk, aa, h⟩ :=
    Reaches.blocking hh hx ht hi hini hch hv hk hfl ⟨hok, .inl hx, hj, hc, hf, hl⟩ hst hop hw'
  refine ⟨_, h, rfl, rfl, rfl, rfl, hj, hc, hf, ⟨rfl, rfl, rfl, hini⟩, rfl, ?write, ?read⟩
  case write =>
    rintro rfl
    exact ⟨rfl, psramAfter_write hpsram hrange⟩
  case read =>
    rintro rfl
    exact ⟨rfl, memAfter_read hmem (by omega)⟩

end Sys2Proof.Machine
end

section
/-! The two bus paths stay apart (41_mode_arbiter R164, R169, R170; 60_exceptions R292): every agent keeps the bus
discipline, and what each agent may record on the bus. -/

namespace Sys2Proof.Machine

/-! ### The discipline, agent by agent -/

/-- What the bus discipline reads. -/
def busPart (s : State) :=
  (s.autoFlight, s.job, s.cs, s.autoActive, s.autoEn, (s.epoch, s.sync), s.exec, s.handling, s.todo)

theorem BusDiscipline.congr {s t : State} (h : BusDiscipline s) (e : busPart t = busPart s) : BusDiscipline t := by
  simp only [busPart, Prod.mk.injEq] at e
  obtain ⟨hflight, hjob, hcs, hactive, hen, ⟨hepoch, hsync⟩, hexec, hhandling, htodo⟩ := e
  refine ⟨?_, ?_, ?_, ?_, ?_, ?_⟩
  · rw [hflight, hjob, hcs]; exact h.exclusive
  · rw [hflight, hactive]; exact h.flightActive
  · rw [hen, hactive]; exact h.enabledActive
  · simp only [SampleSound, hsync, hepoch, hen, hactive]; exact h.samples
  · rw [hexec, hhandling, htodo]; exact h.idle
  · simp only [busMode, hen, hactive, htodo]; exact h.lines

theorem BusRest.discipline {s : State} (h : BusRest s) (hidle : s.exec = false → s.handling = false → s.todo = [])
    (hlines : disciplined (busMode s) s.todo = true) : BusDiscipline s :=
  ⟨h.exclusive, h.flightActive, h.enabledActive, h.samples, hidle, hlines⟩

/-- An idle ENGINE has no line left, and taking work gives it none. -/
theorem takeWork_busDiscipline {s : State} (h : BusDiscipline s) (h0 : s.todo = []) : BusDiscipline (takeWork s) := by
  have lines : disciplined (busMode s) [] = true := h0 ▸ h.lines
  unfold takeWork
  split
  · exact ⟨h.exclusive, h.flightActive, h.enabledActive, h.samples, fun _ _ => rfl, lines⟩
  · split
    · exact ⟨h.exclusive, h.flightActive, h.enabledActive, h.samples, fun _ _ => rfl, lines⟩
    · exact h

theorem engineStep_busDiscipline {s t : State} (h : BusDiscipline s) (hs : engineStep s = .next t) :
    BusDiscipline t := by
  rcases engineStep_next hs with ⟨i, hi, he⟩ | ⟨hx, hh, rfl⟩
  · rcases exec_next he with ⟨h0, hf⟩ | ⟨a, r, ht, ha⟩ | rfl
    · obtain ⟨rest, lines⟩ := firstLine_disciplined h h0 hf
      exact rest.discipline (firstLine_idle hf hi) lines
    · obtain ⟨rest, lines⟩ := runAct_disciplined h.busRest (ht ▸ h.lines) ha ht
      exact rest.discipline (runAct_idle ha (currentInstr_active hi)) lines
    · exact h
  · exact takeWork_busDiscipline h (h.idle hx hh)

/-- CTRL's datapath moves only while no auto access is in flight: with one in flight no phase is accepted (R292). -/
theorem ctrlStep_busDiscipline {s : State} (h : BusDiscipline s) : BusDiscipline (ctrlStep s) := by
  by_cases hf : s.autoFlight = none
  · rw [ctrlStep_frame]
    exact ⟨fun hne => absurd hf hne, h.flightActive, h.enabledActive, h.samples, h.idle, h.lines⟩
  · obtain ⟨hj, -⟩ := h.exclusive hf
    rw [ctrlStep_idle hj]
    exact h

/-- Auto mode goes out of effect where no access is in flight and AUTO_EN = 0, and then manual mode stands for the mode
it was leaving (R292). -/
theorem ctrlModeStep_busDiscipline {s : State} (h : BusDiscipline s) : BusDiscipline (ctrlModeStep s) := by
  unfold ctrlModeStep
  split
  · rename_i hc
    obtain ⟨hen, hact, hf⟩ := hc
    have leaving : busMode s = .leaving := by simp [busMode, hen, hact]
    have manual : busMode { s with autoActive := false } = .manual := by simp [busMode, hen]
    refine ⟨h.exclusive, fun hne => absurd hf hne, fun he => by simp [hen] at he, fun e he t ht => ?_, h.idle, ?_⟩
    · exact ⟨(h.samples e he t ht).1, fun _ _ _ => rfl⟩
    · rw [manual]
      exact disciplined_mono (.inr (.inl ⟨rfl, rfl⟩)) (leaving ▸ h.lines)
  · exact h

/-- AUTOPATH starts an access only where R292 allows it, and its other steps start none. -/
theorem autopathStep_busDiscipline {s t : State} (h : BusDiscipline s) (hs : autopathStep s = .next t) :
    BusDiscipline t := by
  have frame := autopathStep_frame hs
  have starts : t.autoFlight ≠ none → s.autoFlight ≠ none ∨ autoMayStart s = true := by
    intro hne
    by_cases hf : s.autoFlight = none
    · refine .inr ?_
      unfold autopathStep at hs
      rw [hf] at hs
      dsimp only at hs
      split at hs
      · cases hs; exact absurd hf hne
      · split at hs
        · cases hs
        · split at hs
          · assumption
          · split at hs <;> cases hs
            exact absurd hf hne
    · exact .inl hf
  have free : t.autoFlight ≠ none → (s.job = none ∧ s.cs = none) ∧ s.autoActive = true := by
    intro hne
    rcases starts hne with hf | hm
    · exact ⟨h.exclusive hf, h.flightActive hf⟩
    · obtain ⟨-, hact, hc, hj⟩ := (autoMayStart_iff s).mp hm
      exact ⟨⟨hj, hc⟩, hact⟩
  rw [frame]
  exact ⟨fun hne => (free hne).1, fun hne => (free hne).2, h.enabledActive, h.samples, h.idle, h.lines⟩

/-- SYNC's new sample is the raw status of now (R161). -/
theorem syncStep_busDiscipline {s : State} (h : BusDiscipline s) : BusDiscipline (syncStep s) := by
  refine ⟨h.exclusive, h.flightActive, h.enabledActive, fun e he => ?_, h.idle, h.lines⟩
  rcases List.mem_cons.mp (List.mem_of_mem_take he) with rfl | hold
  · rintro _ ⟨⟩
    exact ⟨Nat.le_refl _, fun _ hact _ => hact⟩
  · exact h.samples e hold

/-- Every agent keeps the bus discipline. -/
theorem agentStep_busDiscipline {a : Config.Agent} {s t : State} (h : BusDiscipline s) (hs : agentStep a s = .next t) :
    BusDiscipline t := by
  cases a with
  | host => rw [hostStep_frame hs]; exact h.congr rfl
  | engine => exact engineStep_busDiscipline h hs
  | ctrl => cases hs; exact ctrlStep_busDiscipline h
  | ctrlMode => cases hs; exact ctrlModeStep_busDiscipline h
  | autopath => exact autopathStep_busDiscipline h hs
  | sync => cases hs; exact syncStep_busDiscipline h
  | dma => rw [dmaStep_frame hs]; exact h.congr rfl
  | event => rw [eventStep_frame hs]; exact h.congr rfl
  | cpu => cases hs; rw [cpuStep_frame]; exact h.congr rfl

/-- Settles O8: a step is one agent's action, or the launch, which writes `launched` alone. -/
theorem busDisciplineKept : Obligations.BusDisciplineKept := by
  intro s t h hs
  rcases step_next hs with ⟨-, hs⟩ | ⟨-, -, rfl⟩
  · exact agentStep_busDiscipline (h.congr (t := s.turn) rfl) hs
  · exact h.congr rfl

/-! ### What a step records (30_encoding R119) -/

/-- The step from `s` to `t` records nothing, or appends records of which an auto access needs one in flight and a phase
one that CTRL has accepted. -/
def RecordsInFlight (s t : State) : Prop :=
  ∃ l, t.bus = s.bus ++ l ∧ (∀ d a bs, .auto d a bs ∈ l → s.autoFlight ≠ none)
    ∧ ∀ k w d n bs, .phase k w d n bs ∈ l → s.job ≠ none

theorem RecordsInFlight.of_bus_eq {s t : State} (h : t.bus = s.bus) : RecordsInFlight s t :=
  ⟨[], by simpa using h, by simp, by simp⟩

/-- Chip-select alone is asserted and released without a phase in progress. -/
theorem RecordsInFlight.of_csAssert {s t : State} {c : Nat} (h : t.bus = (csAssert s c).bus) : RecordsInFlight s t := by
  unfold csAssert at h
  split at h
  · exact .of_bus_eq h
  · exact ⟨[.csAssert c], h, by simp, by simp⟩

theorem RecordsInFlight.of_csRelease {s t : State} (h : t.bus = (csRelease s).bus) : RecordsInFlight s t := by
  unfold csRelease at h
  split at h
  · exact ⟨[.csRelease _], h, by simp, by simp⟩
  · exact .of_bus_eq h

/-- A controller operation records chip-select alone; the phases it accepts are CTRL's to record (R291, R294). -/
theorem ctlOp_records {s t : State} {c : CtlOp} (h : ctlOp s c = .next t) : RecordsInFlight s t := by
  obtain ⟨u, hu, rfl⟩ := ctlOp_next h
  have effect := ctlEffect_next hu
  cases c with
  | setWidth => obtain ⟨-, rfl⟩ := effect; exact .of_bus_eq rfl
  | setElem => cases effect; exact .of_bus_eq rfl
  | phaseTx => obtain ⟨-, -, -, rfl⟩ := effect; exact .of_csAssert rfl
  | trigger => obtain ⟨-, -, -, -, rfl⟩ := effect; exact .of_csAssert rfl
  | fifoWrite => obtain ⟨-, rfl⟩ := effect; exact .of_bus_eq rfl
  | fifoRead => obtain ⟨_, _, -, rfl⟩ := effect; exact .of_bus_eq rfl
  | deassertCs => obtain ⟨-, rfl⟩ := effect; exact .of_csRelease rfl
  | setAutoEn => cases effect; exact .of_bus_eq rfl

theorem runAct_records {a : Act} {r : List Act} {s t : State} (h : runAct a r s = .next t) : RecordsInFlight s t := by
  cases hc : operatesController a with
  | false =>
    have kept : t.bus = bif operatesController a then t.bus else s.bus := congrArg State.bus (runAct_writes h)
    rw [hc] at kept
    exact .of_bus_eq kept
  | true =>
    cases a
    case ctl => exact ctlOp_records (s := s.goto r) h
    case popElem addr e => exact ctlOp_records (s := s.goto (.store addr e (fifoHead s e) :: r)) h
    all_goals cases hc

theorem engineStep_records {s t : State} (h : engineStep s = .next t) : RecordsInFlight s t := by
  rcases engineStep_next h with ⟨i, -, h⟩ | ⟨-, -, rfl⟩
  · rcases exec_next h with ⟨-, h⟩ | ⟨a, r, -, h⟩ | rfl
    · rw [firstLine_frame h]
      exact .of_bus_eq rfl
    · exact runAct_records h
    · exact .of_bus_eq rfl
  · rw [takeWork_frame]
    exact .of_bus_eq rfl

/-- CTRL records a phase it has accepted, or chip-select's release (R294). -/
theorem ctrlStep_records (s : State) : RecordsInFlight s (ctrlStep s) := by
  cases hj : s.job with
  | none => rw [ctrlStep_idle hj]; exact .of_bus_eq rfl
  | some j =>
    have phase {u : State} {e : BusEvent} (hu : u.bus = s.bus ++ [e]) (he : ∀ d a bs, e ≠ .auto d a bs) :
        RecordsInFlight s u :=
      ⟨[e], hu, fun d a bs hm => absurd (List.mem_singleton.mp hm).symm (he d a bs), fun _ _ _ _ _ _ => by simp [hj]⟩
    unfold ctrlStep
    rw [hj]
    dsimp only
    split
    · split
      · unfold dataStep
        split
        · exact phase rfl (by simp)
        · split
          · split
            · exact .of_bus_eq rfl
            · exact .of_bus_eq (by simp)
          · split
            · exact .of_bus_eq (by simp)
            · exact .of_bus_eq rfl
      · exact phase (e := .phase j.kind s.curBw j.way j.nbits (j.payload.take (bytesFor j.nbits)))
          (by simp [recordPhase, State.record]) (by simp)
    · exact .of_csRelease rfl
    · exact .of_bus_eq rfl

/-- AUTOPATH records the access it has in flight (R296). -/
theorem autopathStep_records {s t : State} (h : autopathStep s = .next t) : RecordsInFlight s t := by
  unfold autopathStep at h
  split at h
  · split at h
    · cases h; exact .of_bus_eq rfl
    · split at h
      · cases h
      · split at h
        · cases h; exact .of_bus_eq rfl
        · split at h <;> cases h
          exact .of_bus_eq rfl
  · rename_i f hf
    split at h <;> cases h
    · unfold autoPerform
      split
      · exact ⟨[.auto .read _ _], rfl, by simp [hf], by simp⟩
      · exact ⟨[.auto .write f.req.a (elemBytes f.req.n f.req.data)], by simp [State.record], by simp [hf], by simp⟩
    · exact .of_bus_eq rfl

theorem agentStep_records {a : Config.Agent} {s t : State} (h : agentStep a s = .next t) : RecordsInFlight s t := by
  cases a with
  | host => rw [hostStep_frame h]; exact .of_bus_eq rfl
  | engine => exact engineStep_records h
  | ctrl => cases h; exact ctrlStep_records s
  | ctrlMode => cases h; rw [ctrlModeStep_frame]; exact .of_bus_eq rfl
  | autopath => exact autopathStep_records h
  | sync => cases h; exact .of_bus_eq rfl
  | dma => rw [dmaStep_frame h]; exact .of_bus_eq rfl
  | event => rw [eventStep_frame h]; exact .of_bus_eq rfl
  | cpu => cases h; rw [cpuStep_frame]; exact .of_bus_eq rfl

theorem step_records {s t : State} (h : step s = .next t) : RecordsInFlight s t := by
  rcases step_next h with ⟨-, h⟩ | ⟨-, -, rfl⟩
  · exact agentStep_records (s := s.turn) h
  · exact .of_bus_eq rfl

/-! ### Manual phases in auto mode (R169, R291) -/

/-- The fault is raised only by an operation that starts a phase, while AUTO_EN = 1 (R291). -/
theorem ctlOp_phaseInAutoMode {s : State} {c : CtlOp} (op : SeqOp) (h : ctlOp s c = .fault .phaseInAutoMode) :
    s.autoEn = true ∧ modeAfter .auto (.ctl op c) = none := by
  have accept {u : State} {cs : Nat} {j : Job} (h : acceptPhase u cs j = .fault .phaseInAutoMode) : u.autoEn = true := by
    unfold acceptPhase at h
    split at h
    · assumption
    · split at h
      · cases h
      · split at h <;> cases h
  unfold ctlOp at h
  split at h
  · cases h
  · rename_i f hf
    cases h
    cases c <;> simp only [ctlEffect] at hf
    case phaseTx => exact ⟨accept hf, rfl⟩
    case trigger =>
      split at hf
      · cases hf
      · exact ⟨accept hf, rfl⟩
    case setElem => cases hf
    case setAutoEn => cases hf
    all_goals (split at hf <;> cases hf)
  · cases h

theorem runAct_phaseInAutoMode {a : Act} {r : List Act} {s : State} (h : runAct a r s = .fault .phaseInAutoMode) :
    s.autoEn = true ∧ modeAfter .auto a = none := by
  cases a
  case ctl op c => exact ctlOp_phaseInAutoMode (s := s.goto r) op h
  case popElem addr e => cases (ctlOp_phaseInAutoMode (s := s.goto _) .pumpRead h).2
  all_goals simp only [runAct] at h
  case busyTest =>
    split at h
    · cases h
    · split at h <;> cases h
  case initTest =>
    split at h
    · cases h
    · split at h <;> cases h
  case dmaConfigure =>
    split at h
    · cases h
    · split at h <;> cases h
  case dmaEnable => unfold dmaEnableOp at h; split at h <;> cases h
  case dmaTrigger => unfold dmaTriggerOp at h; split at h <;> cases h
  case wait | loop | fifoCheck | pumpWrite | pumpRead => split at h <;> cases h
  all_goals cases h

theorem transferFirst_ne_fault (dma : Bool) (dir : Dir) (e : BitVec 3) (body : List Act) (s : State) (f : Fault) :
    transferFirst dma dir e body s ≠ .fault f := by
  unfold transferFirst
  split <;> simp

theorem enterFirst_ne_fault (body : List Act) (s : State) (f : Fault) : enterFirst body s ≠ .fault f := by
  unfold enterFirst
  split
  · simp
  · split <;> simp

/-- The one fault of a first line is the early completion event (R90). -/
theorem exec_first_fault {i : Instr} {s : State} {f : Fault} (h0 : s.todo = []) (h : exec i s = .fault f) :
    f = .earlyComplete := by
  have first {g : State → Out} (h : continueWith g s = .fault f) : g s = .fault f := by
    simpa only [continueWith, h0] using h
  cases i with
  | init => cases first h
  | illegal => cases first h
  | readBlocking | writeBlocking | readDma | writeDma => exact absurd (first h) (transferFirst_ne_fault _ _ _ _ _ _)
  | enterManual | enterAuto => exact absurd (first h) (enterFirst_ne_fault _ _ _)
  | evtDmaComplete ch =>
    simp only [exec, execEvtDmaComplete] at h
    split at h
    · have h := first h
      unfold dmaCompleteFirst at h
      split at h
      · split at h <;> cases h
        rfl
      · cases h
    · cases h

/-- The ENGINE's lines break no mode contract: a phase stands only where the lines left foresee manual mode. -/
theorem engineStep_ne_phaseInAutoMode {s : State} (hok : s.cfg.ok = true) (hb : BusDiscipline s) :
    engineStep s ≠ .fault .phaseInAutoMode := by
  intro h
  cases hi : currentInstr s with
  | none => simp [engineStep, hi] at h
  | some i =>
    cases ht : s.todo with
    | nil =>
      simp only [engineStep, hi] at h
      cases exec_first_fault ht h
    | cons a r =>
      rw [engineStep_line hok (currentInstr_active hi) ht] at h
      obtain ⟨hen, hmode⟩ := runAct_phaseInAutoMode h
      have lines := hb.lines
      have auto : busMode s = .auto := by simp [busMode, hen]
      simp [ht, auto, disciplined, hmode] at lines

theorem hostStep_ne_phaseInAutoMode (s : State) : hostStep s ≠ .fault .phaseInAutoMode := by
  have access (a : HostAct) (dir : Dir) (addr n v : Nat) : hostAccess s a dir addr n v ≠ .fault .phaseInAutoMode := by
    unfold hostAccess
    split
    case h_1 | h_6 => cases dir <;> simp
    all_goals simp
  unfold hostStep
  split
  · simp
  · split
    · unfold hostStart
      split
      case h_1 | h_2 | h_3 => exact access _ _ _ _ _
      all_goals simp
    · simp
    · simp

theorem autopathStep_ne_phaseInAutoMode (s : State) : autopathStep s ≠ .fault .phaseInAutoMode := by
  unfold autopathStep
  split
  · split
    · simp
    · split
      · simp
      · split
        · simp
        · split <;> simp
  · split <;> simp

theorem dmaStep_ne_phaseInAutoMode (s : State) : dmaStep s ≠ .fault .phaseInAutoMode := by
  unfold dmaStep
  split
  · split
    · simp
    · split <;> simp
  · simp

theorem eventStep_ne_phaseInAutoMode (s : State) : eventStep s ≠ .fault .phaseInAutoMode := by
  unfold eventStep
  split
  · simp
  · split <;> simp

/-- No agent starts a manual phase in auto mode: the other agents start none at all. -/
theorem agentStep_ne_phaseInAutoMode {a : Config.Agent} {s : State} (hok : s.cfg.ok = true) (hb : BusDiscipline s) :
    agentStep a s ≠ .fault .phaseInAutoMode := by
  cases a with
  | host => exact hostStep_ne_phaseInAutoMode s
  | engine => exact engineStep_ne_phaseInAutoMode hok hb
  | autopath => exact autopathStep_ne_phaseInAutoMode s
  | dma => exact dmaStep_ne_phaseInAutoMode s
  | event => exact eventStep_ne_phaseInAutoMode s
  | ctrl | ctrlMode | sync | cpu => nofun

theorem step_ne_phaseInAutoMode {s : State} (hb : BusDiscipline s) : step s ≠ .fault .phaseInAutoMode := by
  unfold step
  split
  · unfold launchStep
    split
    · simp
    · split <;> simp
  · split
    · simp
    · rename_i hok
      exact agentStep_ne_phaseInAutoMode (s := s.turn) (by simpa using hok) (hb.congr rfl)

/-- Settles O11: an access is recorded while it is in flight and a phase while CTRL carries it out, and the discipline
keeps the two apart. -/
theorem busPathsExclude : Obligations.BusPathsExclude := by
  intro s hb
  refine ⟨step_ne_phaseInAutoMode hb, fun t h => ?_⟩
  obtain ⟨l, hl, hauto, hphase⟩ := step_records h
  have only {e : BusEvent} (he : t.bus = s.bus ++ [e]) : e ∈ l := by
    rw [hl] at he
    simp [List.append_cancel_left he]
  refine ⟨fun d a bs he => ?_, fun k w d n bs he => ?_⟩
  · have hf := hauto d a bs (only he)
    obtain ⟨hj, hc⟩ := hb.exclusive hf
    exact ⟨hj, hc, hb.flightActive hf⟩
  · by_contra hf
    exact hphase k w d n bs (only he) (hb.exclusive hf).1

end Sys2Proof.Machine
end

section
/-! The pumps (40_phase_driver R142 to R146): their lines, and the triggers of all their groups. -/

namespace Sys2Proof.Machine

/-- Settles O29: every line is the one `runAct` gives; a group's lines follow only while elements are left. -/
theorem pumpLines : Obligations.PumpLines := by
  intro s e r
  have line {i : Instr} {x : Act} (hi : portOf i = .cmd) (ht : s.todo = x :: r) : exec i s = runAct x r s :=
    exec_cmd_line hi ht
  dsimp only
  rw [← profCsel_eq]
  refine ⟨fun b n k w keep hk => ⟨fun ht => ?_, fun ht => ?_⟩, fun b n k w keep hk => ⟨fun ht => ?_, fun ht => ?_⟩,
    fun i op hi ht => ?_, fun addr w ht => line rfl ht, fun addr w v q hf ht => ?_, fun addr w v ht => line rfl ht⟩
  · rw [line rfl ht]
    exact if_pos hk
  · rw [line rfl ht]
    exact if_pos hk
  · rw [line rfl ht]
    exact if_neg (Nat.not_lt.mpr hk)
  · rw [line rfl ht]
    exact if_neg (Nat.not_lt.mpr hk)
  · rw [exec_line hi ht]
    simp only [runAct, List.isEmpty_iff]
    rfl
  · rw [line rfl ht]
    simp only [runAct, ctlOp, ctlEffect, fifoHead, State.goto_fifo, hf]
    rfl

/-! ### The groups of a pump (R144) -/

/-- The triggers of a pump with `m` elements of `e` bytes left: full groups that keep chip-select, and a last one that
carries the caller's keep_cs. -/
def triggersLeft (d e m : Nat) (keep : Bool) : List (Nat × Bool) :=
  if m % d = 0 then List.replicate (m / d - 1) (8 * e * d, true) ++ [(8 * e * d, keep)]
  else List.replicate (m / d) (8 * e * d, true) ++ [(8 * e * (m % d), keep)]

/-- The last group takes all that is left. -/
theorem triggersLeft_last {d m : Nat} (e : Nat) (keep : Bool) (hm : 0 < m) (hd : m ≤ d) :
    triggersLeft d e m keep = [(8 * e * m, keep)] := by
  unfold triggersLeft
  rcases Nat.lt_or_eq_of_le hd with hlt | rfl
  · rw [Nat.mod_eq_of_lt hlt, if_neg (by omega), Nat.div_eq_of_lt hlt]
    rfl
  · rw [Nat.mod_self, if_pos rfl, Nat.div_self hm]
    rfl

/-- A full group comes first where more than one group is left. -/
theorem triggersLeft_more {d m : Nat} (e : Nat) (keep : Bool) (hd : 0 < d) (hm : d < m) :
    triggersLeft d e m keep = (8 * e * d, true) :: triggersLeft d e (m - d) keep := by
  have hdiv : m / d = (m - d) / d + 1 := Nat.div_eq_sub_div hd hm.le
  have hmod : m % d = (m - d) % d := Nat.mod_eq_sub_mod hm.le
  unfold triggersLeft
  rw [hdiv, hmod]
  split
  · rename_i h0
    have hpos : 0 < (m - d) / d :=
      Nat.div_pos (Nat.le_of_dvd (by omega) (Nat.dvd_of_mod_eq_zero h0)) hd
    rw [Nat.add_sub_cancel, ← List.cons_append, ← List.replicate_succ, Nat.sub_add_cancel hpos]
  · rw [List.replicate_succ, List.cons_append]

/-- The triggers from element `k` on, by induction on the groups still allowed. -/
theorem pumpTriggers_eq {s : State} (dir : Dir) (b n e : Nat) (keep : Bool) (hd : 0 < s.cfg.fifoDepth) (fuel k : Nat)
    (hk : k < n) (hf : n - k ≤ fuel) :
    pumpTriggers s dir b n e keep fuel k = triggersLeft s.cfg.fifoDepth e (n - k) keep := by
  induction fuel generalizing k with
  | zero => omega
  | succ fuel ih =>
    rw [pumpTriggers_group s dir b n e keep fuel k hk]
    by_cases hlast : n - k ≤ s.cfg.fifoDepth
    · have hg : groupSize s n k = n - k := Nat.min_eq_right hlast
      rw [hg, pumpTriggers_done s dir b n e keep fuel _ (by omega), triggersLeft_last e keep (by omega) hlast]
      simp [Nat.add_sub_cancel' hk.le]
    · have hg : groupSize s n k = s.cfg.fifoDepth := Nat.min_eq_left (by omega)
      have hne : k + s.cfg.fifoDepth ≠ n := by omega
      rw [triggersLeft_more e keep hd (show _ < n - k by omega), hg, ih _ (by omega) (by omega), Nat.sub_add_eq]
      simp [hne]

/-- Settles O30: the triggers of the whole pump, from its first element on. -/
theorem pumpGroupSizes : Obligations.PumpGroupSizes := fun _ dir b n e keep hd hn =>
  pumpTriggers_eq dir b n e keep hd n 0 hn (Nat.sub_le n 0)

end Sys2Proof.Machine
end

section
/-! Runs under a given schedule (00_scope R15; log 1): `Runs` composes as `Reaches` does, and says which agents move. -/

namespace Sys2Proof.Machine

/-- The agents `l`, moving one after the other, take `s` to `t`, whoever is due afterwards and however many steps have
been counted before. -/
def Runs (l : List Config.Agent) (s t : State) : Prop :=
  ∀ (rest : List Config.Agent) (n : Nat),
    core.run l.length { s with sched := l ++ rest, tick := n } = .next { t with sched := rest, tick := n + l.length }

theorem reaches_iff_runs {s t : State} : Reaches s t ↔ ∃ l, Runs l s t := .rfl

/-- A run from a state whose schedule is given. -/
theorem Runs.scheduled {l : List Config.Agent} {s t : State} (h : Runs l s t) (rest : List Config.Agent) :
    core.run l.length (s.scheduled l rest) = .next { t with sched := rest, tick := s.tick + l.length } :=
  h rest s.tick

theorem Runs.trans {l m : List Config.Agent} {s t u : State} (h : Runs l s t) (h2 : Runs m t u) : Runs (l ++ m) s u := by
  intro rest n
  rw [List.length_append, List.append_assoc, run_add _ _ _ _ (h (m ++ rest) n), h2 rest, Nat.add_assoc]

/-- One step of agent `a`. -/
theorem Runs.step {s t : State} (a : Config.Agent) (hok : s.Live)
    (h : ∀ sc n, agentStep a { s with sched := sc, tick := n } = .next { t with sched := sc, tick := n }) :
    Runs [a] s t := by
  intro rest n
  have hl : State.Live { s with sched := [a] ++ rest, tick := n } := hok
  have e : core.step { s with sched := [a] ++ rest, tick := n } = .next { t with sched := rest, tick := n + 1 } :=
    (step_live hl).trans (h rest (n + 1))
  simp only [List.length_singleton, Host.Core.run, e]

/-- One line of the operation in progress. -/
theorem Runs.line {s t : State} {a : Act} {r : List Act} (hok : s.Live) (ha : active s) (ht : s.todo = a :: r)
    (h : ∀ sc n, runAct a r { s with sched := sc, tick := n } = .next { t with sched := sc, tick := n }) :
    Runs [.engine] s t :=
  .step .engine hok fun sc n => (engineStep_line (s := { s with sched := sc, tick := n }) hok.1 ha ht).trans (h sc n)

/-! ### The synchroniser (41_mode_arbiter R161, R162) -/

theorem Params.ok_syncStages {p : Config.Params} (h : p.ok = true) : 2 ≤ p.syncStages := by
  unfold Config.Params.ok at h
  simp only [Bool.and_eq_true, decide_eq_true_eq] at h
  omega

/-- After `k` steps of SYNC the newest `k` stages hold the raw status of now. -/
theorem Runs.syncSteps (s : State) (hok : s.Live) (k : Nat) (hk : k ≠ 0) :
    Runs (List.replicate k .sync) s { s with
      sync := (List.replicate k (SyncEntry.mk (some s.epoch) (rawStatus s)) ++ s.sync).take s.cfg.syncStages } := by
  induction k with
  | zero => exact absurd rfl hk
  | succ k ih =>
    by_cases h0 : k = 0
    · subst h0
      exact .step .sync hok fun _ _ => rfl
    · rw [List.replicate_succ']
      refine (ih h0).trans (.step .sync hok fun sc n => ?_)
      simp only [agentStep, syncStep]
      congr 2
      exact take_cons_take _ _ _

/-- A round of SYNC brings the raw status of now to the ENGINE (70 R331). -/
theorem Runs.syncSettles (s : State) (hok : s.Live) :
    Runs (syncRound s) s { s with sync := settledSync s } := by
  have h2 := Params.ok_syncStages hok.1
  have h := Runs.syncSteps s hok s.cfg.syncStages (by omega)
  rw [List.take_left' (by simp)] at h
  exact h

/-- A wait is over on a sample of the current epoch that shows its condition (R162). -/
theorem waitOver_settled {s u : State} {c : Cond} (hok : s.cfg.ok = true) (hs : s.sync = settledSync u)
    (hcfg : u.cfg = s.cfg) (he : u.epoch = s.epoch) (hc : condHolds c (rawStatus u) = true) : waitOver s c = true := by
  have h2 := Params.ok_syncStages hok
  have hlast : s.cfg.syncStages - 1 < s.cfg.syncStages := by omega
  simp [waitOver, syncOut, hs, settledSync, hcfg, hlast, he, hc]

/-- A wait whose condition the synchroniser shows is passed in one line. -/
theorem Runs.wait {s u : State} {op : SeqOp} {c : Cond} {r : List Act} (hok : s.Live) (ha : active s)
    (ht : s.todo = .wait op c :: r) (hs : s.sync = settledSync u) (hcfg : u.cfg = s.cfg) (he : u.epoch = s.epoch)
    (hc : condHolds c (rawStatus u) = true) : Runs [.engine] s { s with todo := r } :=
  .line hok ha ht fun sc n =>
    if_pos (waitOver_settled (s := { s with sched := sc, tick := n }) hok.1 hs hcfg he hc)

end Sys2Proof.Machine
end

section
/-! The end of a DMA chain (44_dma_chainer R235, R236, R243): the handler's teardown, and the terminal order of ARB_AUTO,
STATE, completion word and return. -/

namespace Sys2Proof.Machine

/-- The handler from its first line: the wait for BUSY = 0, chip-select released and the channel Off (R235). -/
theorem Runs.teardown {s : State} {c : Nat} (hok : s.Live) (hh : s.handling = true) (ht : s.todo = [])
    (hr : chainRunning s = true) (hcs : s.chan.state = .complete) (hj : s.job = none) (hc : s.cs = some c) :
    Runs (engineSteps 1 ++ (syncRound s ++ engineSteps 3)) s { s with
      todo := [.dmaNext], sync := settledSync s, epoch := s.epoch + 1
      cs := none, parser := .closed, bus := s.bus ++ [.csRelease c], chan := { s.chan with state := .off } } := by
  have ha : active s := .inr hh
  have first : Runs [.engine] s { s with todo := completeBody } := .step .engine hok fun sc n => by
    have hch : (BitVec.ofNat 4 s.cfg.dmaChannel).toNat = s.cfg.dmaChannel := by
      have := Params.ok_channel hok.1
      rw [BitVec.toNat_ofNat]
      omega
    have hi : currentInstr { s with sched := sc, tick := n } =
        some (.evtDmaComplete (BitVec.ofNat 4 s.cfg.dmaChannel)) := by
      simp [currentInstr, hh]
    have hrun : chainRunning { s with sched := sc, tick := n } = true := hr
    simp only [agentStep, engineStep, hi]
    rw [exec_event_first (s := { s with sched := sc, tick := n }) hch ht]
    simp only [dmaCompleteFirst, hrun, hcs, if_true]
    rfl
  have wait : Runs [.engine] { s with todo := completeBody, sync := settledSync s } { s with
      todo := [.ctl .dmaComplete .deassertCs, .dmaDisable, .dmaNext], sync := settledSync s } :=
    .wait hok ha rfl rfl rfl rfl (by simp [condHolds, rawStatus, hj])
  have release : Runs [.engine] { s with
      todo := [.ctl .dmaComplete .deassertCs, .dmaDisable, .dmaNext], sync := settledSync s } { s with
      todo := [.dmaDisable, .dmaNext], sync := settledSync s, epoch := s.epoch + 1
      cs := none, parser := .closed, bus := s.bus ++ [.csRelease c] } := .line hok ha rfl fun sc n => by
    simp only [runAct, ctlOp, ctlEffect, State.goto, hj, Option.isSome_none, Bool.false_eq_true, if_false, csRelease, hc]
    rfl
  have disable : Runs [.engine] { s with
      todo := [.dmaDisable, .dmaNext], sync := settledSync s, epoch := s.epoch + 1
      cs := none, parser := .closed, bus := s.bus ++ [.csRelease c] } { s with
      todo := [.dmaNext], sync := settledSync s, epoch := s.epoch + 1
      cs := none, parser := .closed, bus := s.bus ++ [.csRelease c], chan := { s.chan with state := .off } } :=
    .line hok ha rfl fun _ _ => rfl
  exact first.trans ((Runs.syncSettles { s with todo := completeBody } hok).trans (wait.trans (release.trans disable)))

/-- The terminal order of a chain that leaves manual mode: auto mode, STATE, the completion word, the return (R236). -/
theorem Runs.terminal {s : State} {st : CtxState} {v : Word} (hok : s.Live) (hh : s.handling = true)
    (ht : s.todo = arbAuto .drop ++ [.ctxState .dmaComplete st, .completion v, .leave])
    (hfl : s.autoFlight = none) (hc : s.cs = none) (hen : s.autoEn = false) :
    Runs (syncRound s ++ engineSteps 7) s { s with
      todo := [], handling := false, sync := settledSync s, epoch := s.epoch + 1, autoEn := true, autoActive := true
      ctx := { s.ctx with state := st }, mem := memWrite s.mem s.ctx.sptr.toNat 4 v, race := none } := by
  have ha : active s := .inr hh
  have idle : Runs [.engine] { s with sync := settledSync s } { s with
      sync := settledSync s
      todo := [.arbTest .auto .drop, .ctxState .dmaComplete st, .completion v, .leave] } :=
    .wait hok ha ht rfl rfl rfl (by simp [condHolds, rawStatus, hfl])
  have test : Runs [.engine] { s with
      sync := settledSync s
      todo := [.arbTest .auto .drop, .ctxState .dmaComplete st, .completion v, .leave] } { s with
      sync := settledSync s
      todo := [.wait .arbAuto .csReleased, .ctl .arbAuto (.setAutoEn true), .ctxState .dmaComplete st, .completion v,
        .leave] } := .line hok ha rfl fun _ _ => by
    simp only [runAct, hen]
    rfl
  have released : Runs [.engine] { s with
      sync := settledSync s
      todo := [.wait .arbAuto .csReleased, .ctl .arbAuto (.setAutoEn true), .ctxState .dmaComplete st, .completion v,
        .leave] } { s with
      sync := settledSync s
      todo := [.ctl .arbAuto (.setAutoEn true), .ctxState .dmaComplete st, .completion v, .leave] } :=
    .wait hok ha rfl rfl rfl rfl (by simp [condHolds, rawStatus, hc])
  have enable : Runs [.engine] { s with
      sync := settledSync s
      todo := [.ctl .arbAuto (.setAutoEn true), .ctxState .dmaComplete st, .completion v, .leave] } { s with
      sync := settledSync s, epoch := s.epoch + 1, autoEn := true, autoActive := true
      todo := [.ctxState .dmaComplete st, .completion v, .leave] } := .line hok ha rfl fun _ _ => rfl
  have state : Runs [.engine] { s with
      sync := settledSync s, epoch := s.epoch + 1, autoEn := true, autoActive := true
      todo := [.ctxState .dmaComplete st, .completion v, .leave] } { s with
      sync := settledSync s, epoch := s.epoch + 1, autoEn := true, autoActive := true
      ctx := { s.ctx with state := st }, todo := [.completion v, .leave] } := .line hok ha rfl fun _ _ => rfl
  have word : Runs [.engine] { s with
      sync := settledSync s, epoch := s.epoch + 1, autoEn := true, autoActive := true
      ctx := { s.ctx with state := st }, todo := [.completion v, .leave] } { s with
      sync := settledSync s, epoch := s.epoch + 1, autoEn := true, autoActive := true
      ctx := { s.ctx with state := st }, mem := memWrite s.mem s.ctx.sptr.toNat 4 v, race := none
      todo := [.leave] } := .line hok ha rfl fun _ _ => rfl
  have leave : Runs [.engine] { s with
      sync := settledSync s, epoch := s.epoch + 1, autoEn := true, autoActive := true
      ctx := { s.ctx with state := st }, mem := memWrite s.mem s.ctx.sptr.toNat 4 v, race := none
      todo := [.leave] } { s with
      todo := [], handling := false, sync := settledSync s, epoch := s.epoch + 1, autoEn := true, autoActive := true
      ctx := { s.ctx with state := st }, mem := memWrite s.mem s.ctx.sptr.toNat 4 v, race := none } :=
    .line hok ha rfl fun _ _ => rfl
  exact (Runs.syncSettles s hok).trans
    (idle.trans (test.trans (released.trans (enable.trans (state.trans (word.trans leave))))))

/-- With nothing remaining the handler's line lays out the terminal order with Idle and DONE (R235). -/
theorem runAct_dmaNext_done {s : State} (r : List Act) (h : s.ctx.rem = 0#32) :
    runAct .dmaNext r s =
      .next (s.goto (arbAuto .drop ++ [.ctxState .dmaComplete .idle, .completion doneWord, .leave] ++ r)) := by
  simp [runAct, chainNext, h]

/-- The event of the last chunk, from its first line to its return (R235, R236). -/
theorem Runs.lastEvent {s : State} {c : Nat} (hok : s.Live) (hh : s.handling = true) (ht : s.todo = [])
    (hr : chainRunning s = true) (hrem : s.ctx.rem = 0#32) (hj : s.job = none) (hc : s.cs = some c)
    (hfl : s.autoFlight = none) (hen : s.autoEn = false) (hcs : s.chan.state = .complete) :
    Runs (engineSteps 1 ++ syncRound s ++ engineSteps 4 ++ syncRound s ++ engineSteps 7) s { s with
      cs := none, parser := .closed, bus := s.bus ++ [.csRelease c]
      chan := { s.chan with state := .off }, autoEn := true, autoActive := true
      epoch := s.epoch + 2, sync := settledSync { s with cs := none, epoch := s.epoch + 1 }
      ctx := { s.ctx with state := .idle }, mem := memWrite s.mem s.ctx.sptr.toNat 4 1#32, race := none
      handling := false } := by
  have torn := Runs.teardown hok hh ht hr hcs hj hc
  have next : Runs [.engine] { s with
      todo := [.dmaNext], sync := settledSync s, epoch := s.epoch + 1
      cs := none, parser := .closed, bus := s.bus ++ [.csRelease c], chan := { s.chan with state := .off } } { s with
      todo := arbAuto .drop ++ [.ctxState .dmaComplete .idle, .completion doneWord, .leave]
      sync := settledSync s, epoch := s.epoch + 1
      cs := none, parser := .closed, bus := s.bus ++ [.csRelease c], chan := { s.chan with state := .off } } :=
    .line hok (.inr hh) rfl fun _ _ => runAct_dmaNext_done [] hrem
  have done := Runs.terminal (st := .idle) (v := doneWord) (s := { s with
      todo := arbAuto .drop ++ [.ctxState .dmaComplete .idle, .completion doneWord, .leave]
      sync := settledSync s, epoch := s.epoch + 1
      cs := none, parser := .closed, bus := s.bus ++ [.csRelease c], chan := { s.chan with state := .off } })
    hok hh rfl hfl rfl hen
  have run := torn.trans (next.trans done)
  have order : engineSteps 1 ++ (syncRound s ++ engineSteps 3) ++ ([.engine] ++ (syncRound s ++ engineSteps 7)) =
      engineSteps 1 ++ syncRound s ++ engineSteps 4 ++ syncRound s ++ engineSteps 7 := by
    simp only [List.append_assoc]
    rfl
  rw [← order]
  rw [← ht] at run
  exact run

/-- Settles O46: each line is the one `runAct` gives, and the whole event runs under its schedule. -/
theorem lastEventEndsChain : Obligations.LastEventEndsChain := by
  refine ⟨fun s ch r hch => ?lines, fun s c rest hok hh ht hr hrem hj hc hfl hen hcs => ?run⟩
  case lines =>
    have line {a : Act} (ht : s.todo = a :: r) : exec (.evtDmaComplete ch) s = runAct a r s :=
      exec_line (.inr ⟨ch, rfl, hch⟩) ht
    refine ⟨fun ht hrem => (line ht).trans (runAct_dmaNext_done r hrem), fun ht => ?_, fun ht => line ht,
      fun st ht => line ht, fun v ht => line ht⟩
    have order : arbSwitch .auto s.autoEn ++ arbResult .drop s.autoEn ++ r =
        if s.autoEn then r else .wait .arbAuto .csReleased :: .ctl .arbAuto (.setAutoEn true) :: r := by
      cases s.autoEn <;> rfl
    rw [line ht]
    exact congrArg (fun l => Host.Outcome.next (s.goto l)) order
  case run =>
    have run := (Runs.lastEvent hok hh ht hr hrem hj hc hfl hen hcs).scheduled rest
    have steps : (engineSteps 1 ++ syncRound s ++ engineSteps 4 ++ syncRound s ++ engineSteps 7).length =
        2 * s.cfg.syncStages + 12 := by
      simp only [List.length_append, engineSteps, syncRound, List.length_replicate]
      omega
    rw [steps] at run
    exact run

end Sys2Proof.Machine
end

section
/-! A whole DMA transfer (44_dma_chainer R230 to R236): the command to its OK with the first chunk running, that chunk,
the rest of the chain, and what its bytes are at the end. -/

namespace Sys2Proof.Machine

theorem OperandsValid.count_pos {s : State} {dma : Bool} {e : BitVec 3} (h : OperandsValid s dma e) :
    0 < s.latch.count.toNat :=
  Nat.pos_of_ne_zero fun h0 => h.count (BitVec.eq_of_toNat_eq h0)

/-- No byte of a DMA command's buffer is the FIFO register (R97; log 11). -/
theorem CallerKeeps.offFifo {s : State} {e : BitVec 3} (h : CallerKeeps s true e) (hok : s.Live)
    (hn : s.latch.count.toNat * e.toNat ≤ addressSpace) :
    ∀ j < s.latch.count.toNat * e.toNat, sysAddr (s.latch.buf.toNat + j) ≠ s.cfg.fifoAddr := by
  intro j hj
  have hapart := rangesMeet_false h.disjoint.1 hn (by decide) hj (show 0 < 4 by decide)
  rwa [Nat.add_zero, sysAddr, sysAddr, Nat.mod_eq_of_lt (b := addressSpace) (Params.ok_fifo hok.1)] at hapart

/-- A chunk is a whole number of elements, at least one and at most what remains (R233). -/
theorem dmaChunk_elements {s : State} {x : IssueArgs} (hok : s.Live) (hs : x.s = 1 ∨ x.s = 2 ∨ x.s = 4) (hn : 0 < x.n) :
    let c := dmaChunk s x
    c / x.s * x.s = c ∧ 0 < c / x.s ∧ c / x.s ≤ x.n ∧ (x.n - c / x.s) * x.s = x.n * x.s - c := by
  intro c
  obtain ⟨hmin, hdvd, hmax, -⟩ := dmaChunk_spec hok hs hn
  have hmul : c / x.s * x.s = c := Nat.div_mul_cancel (Nat.dvd_of_mod_eq_zero hdvd)
  refine ⟨hmul, Nat.div_pos hmin (by omega), Nat.div_le_of_le_mul (by rwa [Nat.mul_comm]), ?_⟩
  rw [Nat.sub_mul, hmul]

/-- The context that DMA_ISSUE leaves: what remains, and where it goes on (R232, R240). -/
theorem armedCtx_numbers {s : State} {x : IssueArgs} (hok : s.Live) (hs : x.s = 1 ∨ x.s = 2 ∨ x.s = 4) (hn : 0 < x.n)
    (hd : x.a + x.n * x.s ≤ s.cfg.density) (hlt : x.n < 2 ^ 32) :
    let c := dmaChunk s x
    (armedCtx x c).esz.toNat = x.s ∧ (x.n - c / x.s ≠ 0 → (armedCtx x c).addr.toNat = x.a + c)
      ∧ (armedCtx x c).buf.toNat = (x.b + c) % addressSpace ∧ (armedCtx x c).rem.toNat = x.n - c / x.s := by
  dsimp only
  have hspace : s.cfg.density ≤ 2 ^ 32 := Params.ok_density hok.1
  have hmax := (dmaChunk_spec hok hs hn).2.2.1
  have hrest := (dmaChunk_elements hok hs hn).2.2.2
  generalize dmaChunk s x = c at *
  simp only [armedCtx, BitVec.toNat_ofNat]
  refine ⟨by omega, fun h0 => ?_, trivial, Nat.mod_eq_of_lt ((Nat.sub_le ..).trans_lt hlt)⟩
  have hsome : 0 < (x.n - c / x.s) * x.s := Nat.mul_pos (Nat.pos_of_ne_zero h0) (by omega)
  omega

/-- The device takes a chunk of aligned elements at consecutive addresses (R180, R233). -/
theorem straight_dmaChunk {s : State} {x : IssueArgs} (hok : s.Live) (hs : x.s = 1 ∨ x.s = 2 ∨ x.s = 4) (hn : 0 < x.n)
    (hd : x.a + x.n * x.s ≤ s.cfg.density) (hw : wrapAligned s x.a x.s) : straight s x.a 0 (dmaChunk s x) := by
  obtain ⟨-, -, hmax, -, -, hwrap⟩ := dmaChunk_spec hok hs hn
  refine straight_chunk ?_ (by omega)
  rcases hw with hz | ⟨ha, hw⟩
  · exact .inl hz
  · exact (Nat.eq_zero_or_pos s.act2.toNat).imp_right fun hz => hwrap (by omega) ha hw

/-- The state in which a DMA command returns OK, its first chunk armed and running (R233, R234). -/
def firstArmed (s : State) (dir : Dir) (e : BitVec 3) (ep : Nat) (sy : List SyncEntry) (aa : Bool) : State :=
  let x := beginArgs s dir e
  let c := dmaChunk s x
  { s with
    todo := [], exec := false, result := ⟨.ok, false, true⟩
    ctx := armedCtx x c, configCalls := s.configCalls + 1
    chan := runningChan s dir s.latch.buf.toNat e.toNat (c / e.toNat) 0
    autoEn := false, autoActive := aa, epoch := ep, sync := sy
    curBw := profDataBw s.act0, curElem := e, parser := atData dir s.latch.addr.toNat
    cs := some (profCsel s.act0)
    job := some (dataJob (wayOf dir) (8 * c) e.toNat (c / e.toNat) [] true)
    bus := s.bus ++ openingRecords s dir s.latch.addr.toNat }

/-- The state in which the event of that chunk stands at the test of what remains, as far as `t` does not say (R235). -/
def firstMoved (s : State) (dir : Dir) (e : BitVec 3) (t : State) : State :=
  let x := beginArgs s dir e
  let c := dmaChunk s x
  { firstArmed s dir e t.epoch t.sync t.autoActive with
    todo := [.dmaNext], handling := true, evtPending := false, chan := { t.chan with state := .off }
    job := none, cs := none, parser := .closed, psramPast := t.psramPast
    psram := psramAfter s dir x.a x.b c, mem := memAfter s dir x.a x.b c
    bus := s.bus ++ dmaRecords s dir x.a c (dataOf s dir x.a x.b c) }

theorem chainRunning_armedCtx {s : State} {x : IssueArgs} {c : Nat} (h : s.ctx = armedCtx x c) :
    chainRunning s = true := by
  rw [chainRunning, h, armedCtx]
  cases x.dir <;> rfl

section

variable {s : State} {dir : Dir} {e : BitVec 3} {ep : Nat} {sy : List SyncEntry} {aa : Bool} (h : BusFree s)
  (hv : OperandsValid s true e) (hw : wrapAligned s s.latch.addr.toNat e.toNat)
  (hn : ∀ j < s.latch.count.toNat * e.toNat, sysAddr (s.latch.buf.toNat + j) ≠ s.cfg.fifoAddr)
  (hq : dir = .write → WriteQuiet s)

include h hv hw hn hq

/-- The first chunk, from the command's OK to the test of what remains (R235, R297). -/
theorem Reaches.firstChunk (hh : s.handling = false) :
    ∃ t, Reaches (firstArmed s dir e ep sy aa) (firstMoved s dir e t) := by
  let x := beginArgs s dir e
  let c := dmaChunk s x
  have hpos : 0 < x.n := hv.count_pos
  obtain ⟨-, -, hmax, -, hcount, -⟩ := dmaChunk_spec (x := x) h.ok hv.size hpos
  obtain ⟨ep2, sy2, past, d, k, f, run⟩ := Reaches.armedChunk (s := firstArmed s dir e ep sy aa) (dir := dir)
    (a := x.a) (b := x.b) (c := c) h.ok rfl hh rfl (chainRunning_armedCtx rfl) rfl s.latch.buf.isLt hv.size hcount
    h.drained rfl (dmaChunk_elements (x := x) h.ok hv.size hpos).1 rfl rfl
    (straight_dmaChunk (x := x) h.ok hv.size hpos hv.range hw) (fun j hj => hn j (hj.trans_le hmax)) hq
  refine ⟨{ s with epoch := ep2, sync := sy2, autoActive := aa, psramPast := past, chan := ⟨.off, d, k, f⟩ },
    run.trans ?_⟩
  simp only [firstArmed, firstMoved, List.append_assoc, dmaRecords]
  exact .refl _

/-- The chain after its first chunk, to the completion word (R235, R236, R240). -/
theorem Reaches.firstRest (t : State) (hop : opcodesDiffer s dir) (hfl : s.autoFlight = none)
    (hcf : noConfigFails s) :
    let x := beginArgs s dir e
    ∃ t' : State, t'.ctx.state = .idle ∧ t'.chan.state = .off ∧ Reaches (firstMoved s dir e t) { s with
      todo := [], exec := false, handling := false, evtPending := false, result := ⟨.ok, false, true⟩
      ctx := t'.ctx, chan := t'.chan, configCalls := t'.configCalls, autoEn := true, autoActive := t'.autoActive
      epoch := t'.epoch, sync := t'.sync, curBw := t'.curBw, curElem := t'.curElem, parser := t'.parser
      job := none, cs := none, psramPast := t'.psramPast, race := none
      psram := psramAfter s dir x.a x.b (x.n * x.s)
      mem := memWrite (memAfter s dir x.a x.b (x.n * x.s)) s.latch.sptr.toNat 4 1#32
      bus := s.bus ++ chainRecords s dir x.a x.b (planOf s.act2.toNat x.s (maxDma s.cfg x.s) x.a x.n) } := by
  intro x
  have hpos : 0 < x.n := hv.count_pos
  have hlt : x.n < 2 ^ 32 := s.latch.count.isLt
  have hrange : x.a + x.n * x.s ≤ s.cfg.density := hv.range
  obtain ⟨fuel, hfuel⟩ : ∃ fuel, x.n = fuel + 1 := Nat.exists_eq_succ_of_ne_zero hpos.ne'
  have hplan := planFrom_chunk (x := x) fuel hv.size h.ok hpos
  obtain ⟨-, hdvd, hmax, -⟩ := dmaChunk_spec (x := x) h.ok hv.size hpos
  obtain ⟨-, hone, -, hrest⟩ := dmaChunk_elements (x := x) h.ok hv.size hpos
  obtain ⟨hesz, haddr, hbuf, hrem⟩ := armedCtx_numbers (x := x) h.ok hv.size hpos hrange hlt
  have haligned : wrapAligned s (x.a + dmaChunk s x) x.s := hw.imp_right fun ⟨ha, hw⟩ =>
    ⟨Nat.mod_eq_zero_of_dvd (Nat.dvd_add (Nat.dvd_of_mod_eq_zero ha) (Nat.dvd_of_mod_eq_zero hdvd)), hw⟩
  have hfifo : ∀ j < (x.n - dmaChunk s x / x.s) * x.s, sysAddr (x.b + dmaChunk s x + j) ≠ s.cfg.fifoAddr :=
    fun j hj => by
      rw [Nat.add_assoc]
      exact hn _ (show _ < x.n * x.s by omega)
  obtain ⟨t', hidle, hoff, run⟩ := Reaches.chain (s := firstMoved s dir e t) fuel
    ⟨h.ok, .inr rfl, rfl, rfl, h.drained, ⟨h.profile.accepted, h.profile.bytes, h.profile.enc⟩⟩
    rfl rfl rfl rfl hesz hv.size haddr hbuf hrem hfl rfl (fun k hk => hcf k (Nat.lt_of_succ_lt hk)) rfl hop
    (show x.a + dmaChunk s x + _ ≤ s.cfg.density by omega) haligned hfifo (by omega) (by rintro rfl; exact hq rfl)
  refine ⟨t', hidle, hoff, ?_⟩
  rw [← hfuel] at hplan
  have hpsram : (firstMoved s dir e t).psram = psramAfter s dir x.a x.b (dmaChunk s x) := rfl
  have hmem : (firstMoved s dir e t).mem = memAfter s dir x.a x.b (dmaChunk s x) := rfl
  have hbus : s.bus ++ chainRecords s dir x.a x.b (planOf s.act2.toNat x.s (maxDma s.cfg x.s) x.a x.n) =
      (firstMoved s dir e t).bus ++ chainRecords (firstMoved s dir e t) dir (x.a + dmaChunk s x) (x.b + dmaChunk s x)
        (planFrom s.act2.toNat x.s (maxDma s.cfg x.s) fuel (x.a + dmaChunk s x)
          (wrapOffset s.act2.toNat (x.a + dmaChunk s x)) (x.n * x.s - dmaChunk s x)) := by
    rw [planOf, hplan, chainRecords_cons, chainRecords_from _ hpsram hmem rfl rfl rfl rfl, ← List.append_assoc]
    rfl
  rw [hbus, ← psramAfter_from hmax hpsram hmem,
    ← memAfter_from hmax hpsram hmem, ← hrest]
  have hsptr : (armedCtx x (dmaChunk s x)).sptr = s.latch.sptr := BitVec.ofNat_toNat ..
  rw [← hsptr]
  exact run

end

/-! ### What its memories hold at the end -/

theorem memAfter_wf {s : State} (h : Memory.wf addressSpace s.mem = true) (dir : Dir) (a b n : Nat) :
    Memory.wf addressSpace (memAfter s dir a b n) = true := by
  cases dir with
  | write => exact h
  | read => exact memPutBytes_wf h b _

/-- A completion word is none of the bytes of a buffer it does not meet. -/
theorem inStored_of_apart {a n b m : Nat} (h : rangesMeet a n b m = false) (hn : n ≤ addressSpace)
    (hm : m ≤ addressSpace) {j : Nat} (hj : j < n) : inStored b m (sysAddr (a + j)) = false := by
  simp only [inStored, decide_eq_false_iff_not]
  rintro ⟨k, hk, heq⟩
  exact rangesMeet_false h hn hm hj hk heq.symm

/-- Settles O49: the command arms its first chunk, and the chain runs from there to its completion word. -/
theorem dmaTransferCompletes : Obligations.DmaTransferCompletes := by
  intro s dir e hok hh hx ht hi hini hch hv hk hj hc hf hfl _ hoff hcf hl hm hst hop hw
  obtain ⟨hmem, hpsram, -, -, -⟩ := hm
  have hrange := hv.range
  have hspace := Params.ok_density hok.1
  have hword : 4 ≤ addressSpace := by decide
  have hw' : wrapAligned s s.latch.addr.toNat e.toNat := hw.imp_left (congrArg BitVec.toNat)
  let s0 : State := { s with todo := dmaBody s dir e, race := some (openRace s dir e) }
  have hfree : BusFree s0 := ⟨hok, .inl hx, hj, hc, hf, ⟨hl.accepted, hl.bytes, hl.enc⟩⟩
  have hn := hk.offFifo hok (show s.latch.count.toNat * e.toNat ≤ addressSpace by omega)
  have hq : dir = .write → WriteQuiet s0 := fun _ => WriteQuiet.of_stable hst rfl rfl
  have hbegun : Reaches s s0 := Reaches.dmaFirst hok hh hx ht hi hini hch hv hk
  have hv0 : OperandsValid s0 true e := ⟨hv.size, hv.count, hv.start, hv.range, hv.buf, hv.sptr⟩
  obtain ⟨ep, sy, aa, hissued⟩ := Reaches.dmaIssued (s := s0) hfree hx rfl hop hfl hoff hcf hv0
  obtain ⟨t1, hmoved⟩ := Reaches.firstChunk (ep := ep) (sy := sy) (aa := aa) hfree hv0 hw' hn hq hh
  obtain ⟨t, hidle, hoff, hrest⟩ := Reaches.firstRest hfree hv0 hw' hn hq t1 hop hfl hcf
  have hwf := memAfter_wf hmem dir s.latch.addr.toNat s.latch.buf.toNat (s.latch.count.toNat * e.toNat)
  refine ⟨firstArmed s0 dir e ep sy aa, _, hbegun.trans hissued, hmoved.trans hrest,
    ⟨rfl, rfl, hh, rfl, chainRunning_armedCtx rfl, rfl, rfl⟩,
    ⟨rfl, rfl, rfl, rfl, hidle, hoff, rfl, rfl, rfl, hf, memRead_memWrite hwf _ 4 _ hword⟩, rfl, ?write, ?read⟩
  case write =>
    rintro rfl
    obtain ⟨hmoved, hother⟩ := psramAfter_write (b := s.latch.buf.toNat) hpsram hrange
    exact ⟨hmoved, hother, fun x hx => memWrite_get_other _ _ 4 _ x hx⟩
  case read =>
    rintro rfl
    obtain ⟨hmoved, hother⟩ := memAfter_read (b := s.latch.buf.toNat) (a := s.latch.addr.toNat) hmem
      (show s.latch.count.toNat * e.toNat ≤ _ by omega)
    exact ⟨rfl, fun j hj => (memWrite_get_other _ _ 4 _ _ (inStored_of_apart hk.disjoint.2 (by omega) hword hj)).trans
      (hmoved j hj), fun x hbuf hptr => (memWrite_get_other _ _ 4 _ x hptr).trans (hother x hbuf)⟩

end Sys2Proof.Machine
end

section
/-! BLOCKING keeps AUTO_EN (43_blocking_path R205, R209): the lines of a whole blocking command foresee the mode that
it found, and every step of every agent keeps that. -/

namespace Sys2Proof.Machine

theorem RestoresMode.congr {v : Bool} {s t : State} (h : RestoresMode v s) (e : enginePart t = enginePart s) :
    RestoresMode v t := by
  simp only [enginePart, Prod.mk.injEq] at e
  obtain ⟨⟨-, hwork, htodo, -, -⟩, ⟨-, hen, -⟩, -⟩ := e
  rw [RestoresMode, hwork, htodo, hen]
  exact h

/-- The operation ends where no line is left. -/
theorem RestoresMode.of_todo_nil {v : Bool} {s : State} (h : s.todo = []) : RestoresMode v s := by
  rw [RestoresMode, h]
  rfl

/-- Taking work leaves no line, or leaves the lines as they are. -/
theorem takeWork_restoresMode {v : Bool} {s : State} (h : RestoresMode v s) : RestoresMode v (takeWork s) := by
  unfold takeWork
  split
  · exact .of_todo_nil rfl
  · split
    · exact .of_todo_nil rfl
    · exact h

/-- After its first line an operation's every ENGINE step keeps the mode it is to end in. -/
theorem engineStep_restoresMode {v : Bool} {s t : State} (hs : engineStep s = .next t) (h : RestoresMode v s)
    (hne : s.todo ≠ []) : RestoresMode v t := by
  rcases engineStep_next hs with ⟨i, -, he⟩ | ⟨-, -, rfl⟩
  · rcases exec_next he with ⟨h0, -⟩ | ⟨a, r, ht, ha⟩ | rfl
    · exact absurd h0 hne
    · exact runAct_restoresMode ha ht (ht ▸ h)
    · exact h
  · exact takeWork_restoresMode h

theorem agentStep_restoresMode {v : Bool} {a : Config.Agent} {s t : State} (hs : agentStep a s = .next t)
    (h : RestoresMode v s) (hne : s.todo ≠ []) : RestoresMode v t := by
  by_cases ha : a = .engine
  · subst ha
    exact engineStep_restoresMode hs h hne
  · exact h.congr (enginePart_kept ha hs)

/-- Where an instruction is current the machine runs: its step, with the ENGINE due to move, is that instruction's. -/
theorem step_currentInstr {s t : State} {i : Instr} (hs : step s = .next t) (hn : nextAgent s = .engine)
    (hi : currentInstr s = some i) : exec i s.turn = .next t := by
  rcases step_next hs with ⟨hl, -⟩ | ⟨-, hlaunch, -⟩
  · exact (step_engine hl hn hi).symm.trans hs
  · rcases currentInstr_active hi with hx | hh
    · simp [launch_exec hlaunch] at hx
    · simp [launch_handling hlaunch] at hh

/-- The lines of a whole blocking command end with the AUTO_EN that it starts with: W_PRIOR notes it, and the restore
reads W_PRIOR (R208). -/
theorem restoresMode_blocking (s : State) (prior : Bool) (dir : Dir) (e : BitVec 3) :
    restoresMode s.autoEn s.autoEn prior (.busyTest false dir e :: (blockingWork s dir e ++ blockingBody dir)) =
      true := by
  cases hen : s.autoEn <;> simp [blockingWork, blockingBody, arbManual, restoresMode]

/-- The first line of a blocking command leaves AUTO_EN and starts the invariant, whether VALIDATE passes or not. -/
theorem exec_blocking_restoresMode {s t : State} {dir : Dir} {e : BitVec 3} (h0 : s.todo = [])
    (h : exec (transfer false dir e) s = .next t) : RestoresMode s.autoEn t ∧ t.autoEn = s.autoEn := by
  rw [exec_blocking_first dir e h0] at h
  rcases transferFirst_next h with ⟨c, rfl⟩ | ⟨-, rfl⟩
  · exact ⟨.of_todo_nil rfl, rfl⟩
  · exact ⟨restoresMode_blocking s s.work.prior dir e, rfl⟩

/-- At BLOCKING's last line the invariant says what AUTO_EN is. -/
theorem RestoresMode.autoEn_of_finish {v p : Bool} {s : State} {c : Code} {r : List Act} (h : RestoresMode v s)
    (ht : s.todo = .finish .blocking c p :: r) : s.autoEn = v := by
  simp only [RestoresMode, ht, restoresMode, Bool.and_eq_true, beq_iff_eq] at h
  exact h.1

/-- Settles O12: the first line starts the invariant, the others keep it, and the last reads AUTO_EN off it. -/
theorem blockingRestoresMode : Obligations.BlockingRestoresMode := by
  intro s t h
  refine ⟨fun v hm hne => ?kept, fun dir e hn hi h0 => ?started, fun v dir e p r hm hn hi ht => ?ended⟩
  case kept =>
    rcases step_next h with ⟨-, h⟩ | ⟨-, -, rfl⟩
    · exact agentStep_restoresMode (s := s.turn) h hm hne
    · exact hm
  case started => exact exec_blocking_restoresMode (s := s.turn) h0 (step_currentInstr h hn hi)
  case ended =>
    have line := step_currentInstr h hn hi
    rw [exec_cmd_line (s := s.turn) (portOf_transfer false dir e) ht] at line
    cases line
    exact ⟨hm.autoEn_of_finish ht, rfl, rfl⟩

end Sys2Proof.Machine
end

section
/-! The mode commands and the waits (41_mode_arbiter R161 to R171): the lines of ENTER_MANUAL and ENTER_AUTO, their
refusal while a chain runs, and their whole runs. -/

namespace Sys2Proof.Machine

/-! ### Synchronised waits (R161 to R163) -/

/-- A wait is over on a sample of the current epoch that shows its condition (R162). -/
theorem waitOver_iff (s : State) (c : Cond) :
    waitOver s c = true ↔ ∃ st, syncOut s = some ⟨some s.epoch, st⟩ ∧ condHolds c st = true := by
  unfold waitOver
  cases syncOut s with
  | none => simp
  | some e =>
    obtain ⟨tag, st⟩ := e
    simp

/-- Settles O35: the wait's line tests exactly such a sample. -/
theorem waitHolds : Obligations.WaitHolds := by
  intro s i op c r hi ht
  rw [exec_line hi ht, ← waitOver_iff]
  exact ⟨fun h => if_pos h, fun h => if_neg h⟩

/-- The ENGINE reads what a round of SYNC delivers. -/
theorem syncOut_settledSync {s : State} (hok : s.cfg.ok = true) :
    syncOut { s with sync := settledSync s } = some ⟨some s.epoch, rawStatus s⟩ := by
  have hlast : s.cfg.syncStages - 1 < s.cfg.syncStages := by
    have := Params.ok_syncStages hok
    omega
  simp [syncOut, settledSync, hlast]

/-- Settles O36: a round of SYNC fills every stage, and the ENGINE reads the last. -/
theorem syncRoundDelivers : Obligations.SyncRoundDelivers := by
  intro s rest hok
  have run := (Runs.syncSettles s hok).scheduled rest
  rw [syncRound, List.length_replicate] at run
  exact ⟨run, syncOut_settledSync hok.1⟩

/-! ### The lines of the mode commands (R165 to R168) -/

/-- The arbiter operation of a mode command, with the lines after it. -/
def modeBody : ArbMode → List Act
  | .manual => arbManual .report
  | .auto => arbAuto .report

theorem portOf_modeCommand (m : ArbMode) : portOf (modeCommand m) = .cmd := by
  cases m <;> rfl

/-- A mode command's first line. -/
theorem exec_mode_first {s : State} (m : ArbMode) (h : s.todo = []) :
    exec (modeCommand m) s = enterFirst (modeBody m) s := by
  cases m <;> simp only [modeCommand, exec, execEnterManual, execEnterAuto, continueWith, h, modeBody]

theorem enterFirst_busy {s : State} (body : List Act) (hi : s.initDone = true) (hr : chainRunning s = true) :
    enterFirst body s = .next (s.finish .busy false) := by
  simp [enterFirst, hi, hr]

theorem enterFirst_passes {s : State} (body : List Act) (hi : s.initDone = true) (hr : chainRunning s = false) :
    enterFirst body s = .next (s.goto body) := by
  simp [enterFirst, hi, hr]

theorem runAct_busyTest_busy {s : State} (dma : Bool) (dir : Dir) (e : BitVec 3) (r : List Act)
    (hr : chainRunning s = true) : runAct (.busyTest dma dir e) r s = .next (s.finish .busy false) := by
  simp only [runAct, hr, if_true]

/-- Settles O23: a transfer passes VALIDATE's line and ends at its Busy test, a mode command at its first line. -/
theorem busyWhileChainRuns : Obligations.BusyWhileChainRuns := by
  intro s h0 hi hr
  rw [← finish_of_todo_nil h0]
  refine ⟨fun dma dir e hv => ?_, fun m => (exec_mode_first m h0).trans (enterFirst_busy _ hi hr)⟩
  obtain ⟨body, first⟩ := exec_transfer_valid dir h0 hi hv
  exact (execLines_succ first 1).trans (execLines_line (portOf_transfer dma dir e) (State.goto_todo s _)
    (runAct_busyTest_busy (s := s.goto _) dma dir e body hr) 0)

/-- The line of `ctl(SetAutoEn(b))`: AUTO_EN, and auto mode in effect once it is enabled (R291, R292). -/
theorem runAct_setAutoEn (s : State) (op : SeqOp) (b : Bool) (r : List Act) :
    runAct (.ctl op (.setAutoEn b)) r s = .next { s with
      autoEn := b, autoActive := b || s.autoActive, epoch := s.epoch + 1, todo := r } := rfl

/-- Settles O38: each line is the one `runAct` gives. -/
theorem arbiterLines : Obligations.ArbiterLines := by
  intro s m r
  have line {a : Act} (ht : s.todo = a :: r) : exec (modeCommand m) s = runAct a r s :=
    exec_cmd_line (portOf_modeCommand m) ht
  refine ⟨fun h0 hi hr => ?_, fun ht => ?_, fun ht => ?_, fun b ht => line ht, fun b op ht => ?_⟩
  · rw [exec_mode_first m h0, enterFirst_passes _ hi hr]
    cases m <;> rfl
  · rw [line ht]
    exact congrArg (fun l => Host.Outcome.next (s.goto l)) (List.append_assoc ..)
  · rw [line ht]
    exact congrArg (fun l => Host.Outcome.next (s.goto l)) (List.append_assoc ..)
  · rw [line ht, runAct_setAutoEn]
    cases b <;> rfl

/-! ### Whole mode commands (R165 to R168) -/

/-- A run from a state whose schedule is given another way, and its length. -/
theorem Runs.scheduled_as {l l' : List Config.Agent} {s t : State} {k : Nat} (h : Runs l s t) (hl : l = l')
    (hk : l'.length = k) (rest : List Config.Agent) :
    core.run k (s.scheduled l' rest) = .next { t with sched := rest, tick := s.tick + k } :=
  hk ▸ (hl ▸ h).scheduled rest

section

variable {s : State} {b : Bool} (hok : s.Live) (hx : s.exec = true)

include hok hx

/-- The first line of the command in the latch. -/
theorem Runs.first {t : State} {i : Instr} (hh : s.handling = false) (hi : decodeCmd s.latch.cmd = i)
    (h : ∀ sc n, exec i { s with sched := sc, tick := n } = .next { t with sched := sc, tick := n }) :
    Runs [.engine] s t :=
  .step .engine hok fun sc n => by
    have hcur : currentInstr { s with sched := sc, tick := n } = some i := by
      simp [currentInstr, hh, hx, hi]
    simp only [agentStep, engineStep, hcur]
    exact h sc n

/-- A mode command up to the branch on the mode `b` it finds. -/
theorem Runs.modeFound {m : ArbMode} (hh : s.handling = false)
    (hcmd : decodeCmd s.latch.cmd = modeCommand m) (h0 : s.todo = []) (hi : s.initDone = true)
    (hr : chainRunning s = false) (hfl : s.autoFlight = none) (hen : s.autoEn = b) :
    Runs (engineSteps 1 ++ (syncRound s ++ engineSteps 2)) s { s with
      sync := settledSync s, todo := arbSwitch m b ++ arbResult .report b } := by
  have first : Runs [.engine] s { s with todo := modeBody m } := .first hok hx hh hcmd fun sc n =>
    (exec_mode_first (s := { s with sched := sc, tick := n }) m h0).trans (enterFirst_passes _ hi hr)
  obtain ⟨op, hbody⟩ : ∃ op, modeBody m = [.wait op .autoIdle, .arbTest m .report] := by
    cases m <;> exact ⟨_, rfl⟩
  have idle : Runs [.engine] { s with todo := modeBody m, sync := settledSync s } { s with
      todo := [.arbTest m .report], sync := settledSync s } :=
    .wait hok (.inl hx) hbody rfl rfl rfl (by simp [condHolds, rawStatus, hfl])
  have test : Runs [.engine] { s with todo := [.arbTest m .report], sync := settledSync s } { s with
      sync := settledSync s, todo := arbSwitch m b ++ arbResult .report b } :=
    .line hok (.inl hx) rfl fun _ _ => by
      simp only [runAct, hen, List.append_nil]
      rfl
  exact first.trans ((Runs.syncSettles { s with todo := modeBody m } hok).trans (idle.trans test))

/-- The end of a mode command: the mode it found in RESULT, and OK (R167, R168). -/
theorem Runs.modeReport (ht : s.todo = arbResult .report b) :
    Runs (engineSteps 2) s { s with result := ⟨.ok, b, true⟩, exec := false, todo := [] } := by
  have prev : Runs [.engine] s { s with
      result := { s.result with prevAuto := b }, todo := [.finish .decode .ok b] } :=
    .line hok (.inl hx) ht fun _ _ => rfl
  exact prev.trans (.line hok (.inl hx) rfl fun _ _ => rfl)

/-- ENTER_MANUAL out of auto mode: AUTO_EN cleared, auto mode ended by CTRL, and the second sample that shows it
(R165). -/
theorem Runs.leaveAuto (ht : s.todo = arbSwitch .manual true ++ arbResult .report true) (hfl : s.autoFlight = none) :
    Runs (engineSteps 1 ++ ([.ctrlMode] ++ (syncRound s ++ engineSteps 3))) s { s with
      autoEn := false, autoActive := false, epoch := s.epoch + 1
      sync := settledSync { s with autoActive := false, epoch := s.epoch + 1 }
      result := ⟨.ok, true, true⟩, exec := false, todo := [] } := by
  let after : List Act := .wait .arbManual .autoInactive :: arbResult .report true
  let left : State := { s with autoEn := false, autoActive := false, epoch := s.epoch + 1, todo := after }
  have disable : Runs [.engine] s { left with autoActive := s.autoActive } :=
    .line hok (.inl hx) ht fun _ _ => rfl
  have fall : Runs [.ctrlMode] { left with autoActive := s.autoActive } left := .step .ctrlMode hok fun _ _ => by
    cases hact : s.autoActive <;> simp [agentStep, ctrlModeStep, hfl, left]
  have settle : Runs (syncRound s) left { left with sync := settledSync left } := .syncSettles left hok
  have seen : Runs [.engine] { left with sync := settledSync left } { left with
      sync := settledSync left, todo := arbResult .report true } :=
    .wait hok (.inl hx) rfl rfl rfl rfl rfl
  have report : Runs (engineSteps 2) { left with sync := settledSync left, todo := arbResult .report true } { left with
      sync := settledSync left, result := ⟨.ok, true, true⟩, exec := false, todo := [] } :=
    .modeReport hok hx rfl
  exact disable.trans (fall.trans (settle.trans (seen.trans report)))

/-- ENTER_AUTO out of manual mode, with chip-select seen released: AUTO_EN set (R166). -/
theorem Runs.enterAuto {u : State} (ht : s.todo = arbSwitch .auto false ++ arbResult .report false)
    (hs : s.sync = settledSync u) (hcfg : u.cfg = s.cfg) (he : u.epoch = s.epoch) (hc : u.cs = none) :
    Runs (engineSteps 4) s { s with
      autoEn := true, autoActive := true, epoch := s.epoch + 1
      result := ⟨.ok, false, true⟩, exec := false, todo := [] } := by
  have released : Runs [.engine] s { s with todo := .ctl .arbAuto (.setAutoEn true) :: arbResult .report false } :=
    .wait hok (.inl hx) ht hs hcfg he (by simp [condHolds, rawStatus, hc])
  have enable : Runs [.engine] { s with todo := .ctl .arbAuto (.setAutoEn true) :: arbResult .report false } { s with
      autoEn := true, autoActive := true, epoch := s.epoch + 1, todo := arbResult .report false } :=
    .line hok (.inl hx) rfl fun _ _ => rfl
  have report : Runs (engineSteps 2) { s with
      autoEn := true, autoActive := true, epoch := s.epoch + 1, todo := arbResult .report false } { s with
      autoEn := true, autoActive := true, epoch := s.epoch + 1
      result := ⟨.ok, false, true⟩, exec := false, todo := [] } := .modeReport hok hx rfl
  exact released.trans (enable.trans report)

end

/-- A mode already in force is not switched (R165, R166). -/
theorem arbSwitch_inForce (m : ArbMode) : arbSwitch m (m == .auto) = [] := by
  cases m <;> rfl

/-- Settles O37: up to the branch on the mode found, through the switch where the mode changes, and the report. -/
theorem modeCommandsComplete : Obligations.ModeCommandsComplete := by
  intro s rest m hok hh hx hcmd h0 hi hr hfl
  have found {b : Bool} (hen : s.autoEn = b) := Runs.modeFound hok hx hh hcmd h0 hi hr hfl hen
  refine ⟨fun hm hen => ?manual, fun hm hen hc => ?auto, fun hen => ?stays⟩
  case manual =>
    subst hm
    have run := (found hen).trans (Runs.leaveAuto (s := { s with sync := settledSync s, todo := _ }) hok hx rfl hfl)
    refine (run.scheduled_as ?_ ?_ rest).trans (by rw [h0]; rfl)
    · simp only [List.append_assoc]
      rfl
    · simp [engineSteps, syncRound]
      omega
  case auto =>
    subst hm
    have run := (found hen).trans
      (Runs.enterAuto (s := { s with sync := settledSync s, todo := _ }) hok hx rfl rfl rfl rfl hc)
    refine (run.scheduled_as ?_ ?_ rest).trans (by rw [h0])
    · simp only [List.append_assoc]
      rfl
    · simp [engineSteps, syncRound]
  case stays =>
    have lines : arbSwitch m s.autoEn ++ arbResult .report s.autoEn = arbResult .report s.autoEn := by
      rw [hen, arbSwitch_inForce, List.nil_append]
    have run := (found rfl).trans (Runs.modeReport (s := { s with sync := settledSync s, todo := _ }) hok hx lines)
    refine (run.scheduled_as ?_ ?_ rest).trans (by rw [h0])
    · simp only [List.append_assoc]
      rfl
    · simp [engineSteps, syncRound]

end Sys2Proof.Machine
end

section
/-! The chunk planner (42_chunk_planner R180 to R189): one call of PLAN_CHUNK case by case, and what holds of every
chunk of a whole plan. -/

namespace Sys2Proof.Machine

/-! ### One call of PLAN_CHUNK (R180 to R187) -/

section
variable {w rem off s max : Nat}

/-- Without a wrap size nothing is clamped and the offset stays 0 (R187). -/
theorem planChunk_noWrap : planChunk 0 rem off s max = (min rem (max - max % s), 0) := by
  simp [planChunk]

/-- A chunk that ends in the window or on its edge is not clamped (R184). -/
theorem planChunk_unclamped (hw : w ≠ 0) (h : off + min rem (max - max % s) ≤ w) :
    planChunk w rem off s max = (min rem (max - max % s), (off + min rem (max - max % s)) % w) := by
  simp [planChunk, hw, Nat.not_lt.2 h]

/-- A chunk that would end past the window is cut to the whole elements left in it, or to one element if there are none
(R184 to R186). -/
theorem planChunk_clamped (hw : w ≠ 0) (h : w < off + min rem (max - max % s)) :
    planChunk w rem off s max =
      let c := if (w - off) - (w - off) % s = 0 then s else (w - off) - (w - off) % s
      (c, (off + c) % w) := by
  simp [planChunk, hw, h]

end

/-- Settles O34: where the chunk would end decides whether it is clamped, and the elements left in the window decide
whether it is rounded up. -/
theorem planChunkCases : Obligations.PlanChunkCases := by
  intro w rem off s max hs _ _ _ _ m rest
  refine ⟨fun hw => ?noWrap, fun hw hin => ?inside, fun hw hedge => ?edge, fun hw hout hfit => ?clamped,
    fun hw hout hsmall => ?roundedUp⟩
  case noWrap =>
    subst hw
    exact planChunk_noWrap
  case inside => rw [planChunk_unclamped hw hin.le, Nat.mod_eq_of_lt hin]
  case edge => rw [planChunk_unclamped hw hedge.le, hedge, Nat.mod_self]
  case clamped =>
    have hlt : rest % s < s := Nat.mod_lt _ (by omega)
    have hpos : rest - rest % s ≠ 0 := by omega
    simp only [planChunk_clamped hw hout, if_neg hpos, rest]
  case roundedUp =>
    have hzero : rest - rest % s = 0 := by rw [Nat.mod_eq_of_lt hsmall, Nat.sub_self]
    simp only [planChunk_clamped hw hout, if_pos hzero, rest]

/-- A DMA chunk has room for one element (R182). -/
theorem le_maxDma {p : Config.Params} {s : Nat} (hp : p.ok = true) (hs : s ≤ 4) : s ≤ maxDma p s := by
  obtain ⟨-, -, -, -, hbytes, hcount, -⟩ := Params.ok_bits hp
  exact le_min (hs.trans hbytes) (Nat.le_mul_of_pos_left s hcount)

/-- Settles O40: DMA_ISSUE's chunk is planned from the configuration and the profile alone, so that `dmaChunk_spec` says
it of a machine not yet launched too. -/
theorem dmaChunkWithinLimits : Obligations.DmaChunkWithinLimits := by
  intro s x hok hs hn c
  obtain ⟨hmin, hdvd, hrem, hbytes, hcount, -⟩ := dmaChunk_spec (s := { s with launched := true }) ⟨hok, rfl⟩ hs hn
  exact ⟨rfl, hdvd, hmin, hrem, hbytes, Nat.div_pos hmin (by omega), hcount⟩

/-! ### The chunks of a plan (R188, R189) -/

section
variable {w s max : Nat}

/-- A plan never has more chunks than calls. -/
theorem length_planFrom_le (fuel a off rem : Nat) : (planFrom w s max fuel a off rem).length ≤ fuel := by
  induction fuel generalizing a off rem with
  | zero => exact Nat.zero_le _
  | succ fuel ih =>
    unfold planFrom
    split
    · exact Nat.zero_le _
    · exact Nat.succ_le_succ (ih _ _ _)

/-- A plan with nothing to go is empty. -/
theorem planFrom_done (fuel a off : Nat) : planFrom w s max fuel a off 0 = [] := by
  cases fuel <;> rfl

variable (hs : s = 1 ∨ s = 2 ∨ s = 4) (hm : s ≤ max)
include hs hm

/-- The first chunk of a plan, and the plan of the rest: the running offset handed on is that of the next address. -/
theorem planFrom_succ {a rem : Nat} (fuel : Nat) (h0 : 0 < rem) (hr : rem % s = 0) :
    planFrom w s max (fuel + 1) a (wrapOffset w a) rem =
      let c := (planChunk w rem (wrapOffset w a) s max).1
      ⟨a, wrapOffset w a, c⟩ :: planFrom w s max fuel (a + c) (wrapOffset w (a + c)) (rem - c) := by
  obtain ⟨-, -, -, -, hnext, -⟩ := planChunk_spec (w := w) (a := a) hs hm h0 hr
  rw [planFrom, if_neg h0.ne']
  simp only [hnext]

/-- Every chunk of a plan is what one call gives at the chunk's own device address, for the whole elements left there
(R189). -/
theorem mem_planFrom {fuel a rem : Nat} (hr : rem % s = 0) {c : PlannedChunk}
    (hc : c ∈ planFrom w s max fuel a (wrapOffset w a) rem) :
    ∃ left, 0 < left ∧ left % s = 0 ∧ c.addr + left = a + rem ∧ c.off = wrapOffset w c.addr
      ∧ c.size = (planChunk w left (wrapOffset w c.addr) s max).1 := by
  induction fuel generalizing a rem with
  | zero => cases hc
  | succ fuel ih =>
    rcases Nat.eq_zero_or_pos rem with rfl | h0
    · rw [planFrom_done] at hc
      cases hc
    · obtain ⟨-, hdvd, hle, -⟩ := planChunk_spec (w := w) (a := a) hs hm h0 hr
      rw [planFrom_succ hs hm fuel h0 hr] at hc
      rcases List.mem_cons.1 hc with rfl | hc
      · exact ⟨rem, h0, hr, rfl, rfl, rfl⟩
      · obtain ⟨left, hpos, hleft, haddr, hcall⟩ := ih (Nat.sub_mod_eq_zero_of_mod_eq (hr.trans hdvd.symm)) hc
        exact ⟨left, hpos, hleft, by omega, hcall⟩

/-- With a call for every element left, the chunks of a plan tile its range. -/
theorem tiles_planFrom {fuel a rem : Nat} (hr : rem % s = 0) (hfuel : rem ≤ fuel * s) :
    tiles a (a + rem) (planFrom w s max fuel a (wrapOffset w a) rem) := by
  induction fuel generalizing a rem with
  | zero =>
    obtain rfl : rem = 0 := by omega
    exact rfl
  | succ fuel ih =>
    rcases Nat.eq_zero_or_pos rem with rfl | h0
    · rw [planFrom_done]
      exact rfl
    · obtain ⟨hmin, hdvd, hle, -⟩ := planChunk_spec (w := w) (a := a) hs hm h0 hr
      rw [planFrom_succ hs hm fuel h0 hr]
      refine ⟨rfl, ?_⟩
      rw [Nat.succ_mul] at hfuel
      have rest := ih (a := a + (planChunk w rem (wrapOffset w a) s max).1)
        (Nat.sub_mod_eq_zero_of_mod_eq (hr.trans hdvd.symm)) (by omega)
      rwa [Nat.add_assoc, Nat.add_sub_cancel' hle] at rest

/-- Every chunk of a plan is whole elements, within the maximum and inside the transfer, and begins and ends in one wrap
window when address and wrap size are aligned. -/
theorem planOf_chunk {a n : Nat} {c : PlannedChunk} (hc : c ∈ planOf w s max a n) :
    s ≤ c.size ∧ c.addr + c.size ≤ a + n * s ∧ c.size % s = 0 ∧ c.size ≤ max
      ∧ (w ≠ 0 → a % s = 0 → w % s = 0 → c.addr % w + c.size ≤ w) := by
  obtain ⟨left, hpos, hleft, haddr, -, hsize⟩ := mem_planFrom hs hm (Nat.mul_mod_left n s) hc
  obtain ⟨hmin, hdvd, hle, hmax, -, hwrap⟩ := planChunk_spec (w := w) (a := c.addr) hs hm hpos hleft
  rw [← hsize] at hmin hdvd hle hmax hwrap
  refine ⟨hmin, by omega, hdvd, hmax, fun hw ha => hwrap hw (Nat.mod_eq_zero_of_dvd ?_)⟩
  rw [← Nat.dvd_add_left (Nat.dvd_of_mod_eq_zero hleft), haddr]
  exact dvd_add (Nat.dvd_of_mod_eq_zero ha) (Nat.dvd_mul_left s n)

end

/-- Chunks of whole elements that tile a range hold its elements. -/
theorem tiles.elements {s a b : Nat} {plan : List PlannedChunk} (ht : tiles a b plan)
    (hdvd : ∀ c ∈ plan, c.size % s = 0) :
    a + (plan.map (fun c => c.size / s)).sum * s = b := by
  induction plan generalizing a with
  | nil => simpa [tiles] using ht
  | cons c plan ih =>
    obtain ⟨-, ht⟩ := ht
    have rest := ih ht fun d hd => hdvd d (List.mem_cons_of_mem _ hd)
    have whole : c.size / s * s = c.size := Nat.div_mul_cancel (Nat.dvd_of_mod_eq_zero (hdvd c List.mem_cons_self))
    rw [List.map_cons, List.sum_cons, Nat.add_mul, whole]
    omega

/-- A range that ends in its wrap window crosses no multiple of the wrap size. -/
theorem div_eq_div_last {w a c : Nat} (hc : 0 < c) (h : a % w + c ≤ w) : a / w = (a + c - 1) / w := by
  have hmod := Nat.mod_add_div a w
  have last : a + c - 1 = (a % w + c - 1) + w * (a / w) := by omega
  have inWindow : (a % w + c - 1) / w = 0 := Nat.div_eq_of_lt (by omega)
  rw [last, Nat.add_mul_div_left _ _ (by omega), inWindow, Nat.zero_add]

/-- Settles O32: each chunk is one call's, and the chunks tile the transfer. -/
theorem planProperties : Obligations.PlanProperties := by
  refine ⟨fun w s max a n hs hm hn => ?_, fun p w s a n hp hs hn => ⟨fun c hc => ?_, fun c hc => ?_⟩⟩
  · have hpos : 0 < s := by omega
    have htiles : tiles a (a + n * s) (planOf w s max a n) := tiles_planFrom hs hm (Nat.mul_mod_left n s) le_rfl
    refine ⟨htiles, length_planFrom_le .., ?_, fun c hc => ?_, fun hw ha hws c hc => ?_⟩
    · have whole : ∀ c ∈ planOf w s max a n, c.size % s = 0 := fun c hc => by
        obtain ⟨-, -, hdvd, -⟩ := planOf_chunk hs hm hc
        exact hdvd
      have count := htiles.elements whole
      exact Nat.eq_of_mul_eq_mul_right hpos (Nat.add_left_cancel count)
    · obtain ⟨hmin, hend, hdvd, hmax, -⟩ := planOf_chunk hs hm hc
      exact ⟨hmin, hend, hdvd, hmax⟩
    · obtain ⟨hmin, -, -, -, hwrap⟩ := planOf_chunk hs hm hc
      exact div_eq_div_last (hpos.trans_le hmin) (hwrap hw.ne' ha hws)
  · obtain ⟨-, -, -, hpage, -⟩ := Params.ok_bits hp
    obtain ⟨-, -, -, hmax, -⟩ := planOf_chunk hs (by omega) hc
    exact hmax
  · obtain ⟨-, -, -, hmax, -⟩ := planOf_chunk hs (le_maxDma hp (by omega)) hc
    exact ⟨hmax, Nat.div_le_of_le_mul (by rw [Nat.mul_comm]; exact hmax.trans (min_le_right _ _))⟩

/-- Settles O33: every chunk is planned at its own device address. -/
theorem runningOffsetIsAddress : Obligations.RunningOffsetIsAddress := by
  intro w s max a n hs hm c hc
  obtain ⟨-, -, -, -, hoff, -⟩ := mem_planFrom hs hm (Nat.mul_mod_left n s) hc
  exact hoff

end Sys2Proof.Machine
end

section
/-! VALIDATE's refusals (43_blocking_path R200 to R204): the order of the checks on the latched operands, and the
command that fails one. -/

namespace Sys2Proof.Machine

/-- The checks of VALIDATE on the latched operands, in their order (R200 to R204). -/
theorem validate_latched (s : State) (dma : Bool) (e : BitVec 3) :
    validate s dma s.latch.addr.toNat s.latch.buf.toNat e.toNat s.latch.count.toNat s.latch.sptr.toNat =
      if s.initDone = false then some .notInitialized
      else if ¬((e.toNat = 1 ∨ e.toNat = 2 ∨ e.toNat = 4) ∧ s.latch.count.toNat ≠ 0) then some .invalidSize
      else if ¬(s.latch.addr.toNat < s.cfg.density
        ∧ s.latch.addr.toNat + s.latch.count.toNat * e.toNat ≤ s.cfg.density) then some .outOfRange
      else if s.latch.buf = 0#32 then some .nullBuffer
      else if dma = true ∧ s.latch.sptr = 0#32 then some .nullBuffer
      else none := by
  have size : (eszOk e.toNat = false ∨ s.latch.count.toNat = 0) ↔
      ¬((e.toNat = 1 ∨ e.toNat = 2 ∨ e.toNat = 4) ∧ s.latch.count.toNat ≠ 0) := by
    rw [← eszOk_iff, not_and_or, not_not, Bool.not_eq_true]
  have null (w : Word) : w.toNat = 0 ↔ w = 0#32 := BitVec.toNat_inj (y := 0#32)
  simp only [validate, rangeOk, decide_eq_false_iff_not, size,
    null s.latch.buf, null s.latch.sptr]

/-- A transfer's first line runs VALIDATE (R200). -/
theorem exec_transfer_first {s : State} (dma : Bool) (dir : Dir) (e : BitVec 3) (h : s.todo = []) :
    ∃ body, exec (transfer dma dir e) s = transferFirst dma dir e body s := by
  cases dma with
  | false => exact ⟨_, exec_blocking_first dir e h⟩
  | true => exact ⟨_, exec_dma_first dir e h⟩

/-- A transfer that fails a check of VALIDATE ends with its code, and writes RESULT and EXEC alone (R200, R205). -/
theorem exec_transfer_invalid {s : State} {dma : Bool} {e : BitVec 3} (dir : Dir) (h0 : s.todo = []) {c : Code}
    (hv : validate s dma s.latch.addr.toNat s.latch.buf.toNat e.toNat s.latch.count.toNat s.latch.sptr.toNat =
      some c) : exec (transfer dma dir e) s = .next { s with result := ⟨c, false, true⟩, exec := false } := by
  obtain ⟨body, first⟩ := exec_transfer_first dma dir e h0
  rw [first, ← finish_of_todo_nil h0]
  simp only [transferFirst, hv]

/-- Settles O22: each clause is one branch of VALIDATE's checks on the latched operands. -/
theorem validationOrder : Obligations.ValidationOrder := by
  intro s dma dir e h0
  have initialised (hi : s.initDone = true) : ¬s.initDone = false := by simp [hi]
  refine ⟨fun hi => ?_, fun hi hs => ?_, fun hi hs hr => ?_, fun hi hs hr hb => ?_, fun hi hs hr hb hd hp => ?_⟩ <;>
    refine exec_transfer_invalid dir h0 ((validate_latched s dma e).trans ?_)
  · rw [if_pos hi]
  · rw [if_neg (initialised hi), if_pos hs]
  · rw [if_neg (initialised hi), if_neg (not_not.mpr hs), if_pos hr]
  · rw [if_neg (initialised hi), if_neg (not_not.mpr hs), if_neg (not_not.mpr hr), if_pos hb]
  · rw [if_neg (initialised hi), if_neg (not_not.mpr hs), if_neg (not_not.mpr hr), if_neg hb, if_pos ⟨hd, hp⟩]

end Sys2Proof.Machine
end

section
/-! The DMA chainer's lines (44_dma_chainer R230 to R238, R243): the command's beginning, the descriptor of a chunk, the
channel operations, and a `Configure` that fails, of a command and of a continuation. -/

namespace Sys2Proof.Machine

/-! ### The completion word (R236, R243) -/

/-- While an event is handled and the ENGINE is due, a step that goes on is the handler's next line. -/
theorem step_event_line {s t : State} {a : Act} {r : List Act} (hh : s.handling = true) (hn : nextAgent s = .engine)
    (ht : s.todo = a :: r) (h : step s = .next t) : runAct a r s.turn = .next t := by
  rcases step_next h with ⟨⟨hok, -⟩, h⟩ | ⟨-, hlaunch, -⟩
  · rw [hn] at h
    exact (engineStep_line (s := s.turn) hok (.inr hh) ht).symm.trans h
  · exact absurd (launch_handling hlaunch) (by simp [hh])

/-- The bus discipline allows the completion-word line in auto mode only. -/
theorem BusDiscipline.autoEn_of_completion {s : State} {v : Word} {r : List Act} (h : BusDiscipline s)
    (ht : s.todo = .completion v :: r) : s.autoEn = true := by
  have hl := h.lines
  rw [ht] at hl
  rcases busMode_cases s with ⟨-, hen⟩ | ⟨hm, -⟩ | ⟨hm, -⟩
  · exact hen
  all_goals simp [disciplined, modeAfter, hm] at hl

/-- Settles O13: the line leaves AUTO_EN, which the discipline has at 1. -/
theorem completionWordInAutoMode : Obligations.CompletionWordInAutoMode := by
  intro s t v r hd hh hn ht h
  have hen := hd.autoEn_of_completion ht
  cases step_event_line hh hn ht h
  exact ⟨hen, hen, rfl⟩

/-! ### DMA_BEGIN (R230) -/

/-- A DMA command that passes every check, from its first line past its Busy test, and the lines after it. -/
theorem execLines_dmaBegin {s : State} {dir : Dir} {e : BitVec 3} (h0 : s.todo = []) (hi : s.initDone = true)
    (hr : chainRunning s = false) (hv : OperandsValid s true e) (hk : CallerKeeps s true e) :
    exec (transfer true dir e) s = .next (s.goto (.busyTest true dir e :: dmaBody s dir e))
      ∧ ∀ k, execLines (transfer true dir e) (k + 2) s = execLines (transfer true dir e) k
        { s.goto (dmaBody s dir e) with race := some (openRace s dir e) } := by
  have first : exec (transfer true dir e) s = .next (s.goto (.busyTest true dir e :: dmaBody s dir e)) := by
    rw [exec_dma_first dir e h0]
    simp only [dmaBeginFirst, transferFirst, validate_valid hi hv _ fun _ => rfl]
  exact ⟨first, fun k => (execLines_succ first _).trans (execLines_line (portOf_transfer true dir e)
    (State.goto_todo s _) (runAct_busyTest_passes (s := s.goto _) dir _ hr (hk.goto _)) k)⟩

/-- Settles O39: VALIDATE's line and the Busy test's both pass. -/
theorem dmaBegins : Obligations.DmaBegins := by
  intro s dir e h0 hi hr hv hk
  obtain ⟨first, test⟩ := execLines_dmaBegin (dir := dir) h0 hi hr hv hk
  exact ⟨first, test 0⟩

/-! ### The descriptor of a chunk (R234) -/

/-- A chunk's descriptor asks for the complete event (R117). -/
theorem descToEngine_descOf (p : Config.Params) (dir : Dir) (b s ce : Nat) :
    descToEngine (descOf p dir b s ce) = true := by
  cases dir <;> (simp only [descOf, descToEngine]; decide)

/-- Settles O42: the numbers fit their words, and `descOf_fields` reads the fields off them. -/
theorem descriptorOfChunk : Obligations.DescriptorOfChunk := by
  intro p dir b s ce hok hb hs _ hce d wc
  have hbuf : (BitVec.ofNat 32 b).toNat = b := Nat.mod_eq_of_lt hb
  have hfifo : (BitVec.ofNat 32 p.fifoAddr).toNat = p.fifoAddr := Nat.mod_eq_of_lt (Params.ok_fifo hok)
  have hw2 : d.w2.toNat =
      (ce + 2 ^ 16 * wc + 2 ^ 20 * p.dmaChannel + (if dir = .write then 2 ^ 18 else 2 ^ 19)) % 2 ^ 32 :=
    desc_w2 p dir b s ce
  have hchan := Params.ok_channel hok
  obtain ⟨-, -, -, -, -, -, hmax, -⟩ := Params.ok_bits hok
  have hcode : wc < 3 := by
    rcases hs with rfl | rfl | rfl <;> decide
  obtain ⟨hwidth, hreserved, hcount, hchannel, hsrc, hdst⟩ := descOf_fields hok dir hb hs hce
  refine ⟨fun hd => ?_, fun hd => ?_, ?_, hcount, hwidth, hreserved, hsrc, hdst, hchannel, descToEngine_descOf ..⟩
  · subst hd
    refine ⟨hbuf, hfifo, ?_⟩
    rw [hw2, if_pos rfl]
    omega
  · subst hd
    refine ⟨hfifo, hbuf, ?_⟩
    rw [hw2, if_neg (by decide)]
    omega
  · cases dir <;> rfl

/-! ### The channel operations (R233, R297, R298) -/

/-- A Configure that the channel allows and the oracle lets pass loads the descriptor and goes on (R297). -/
theorem runAct_configure_ok {s : State} {by_ : Caller} {x : IssueArgs} {c : Nat} {r : List Act}
    (hch : s.chan.state = .off ∨ s.chan.state = .complete) (hcf : s.configCalls + 1 ∉ s.cfg.configFail) :
    runAct (.dmaConfigure by_ x c) r s =
      .next ((dmaLoad s (descOf s.cfg x.dir x.b x.s (c / x.s))).goto (dmaStart s x c ++ r)) := by
  simp [runAct, configureAllowed_of hch, configureFails, hcf]

/-- A Configure that the oracle fails goes on with the failure's lines (R298). -/
theorem runAct_configure_fails {s : State} {by_ : Caller} {x : IssueArgs} {c : Nat} {r : List Act}
    (hch : s.chan.state = .off ∨ s.chan.state = .complete) (hcf : s.configCalls + 1 ∈ s.cfg.configFail) :
    runAct (.dmaConfigure by_ x c) r s = .next ((dmaRejected s).goto (dmaFailure by_)) := by
  simp [runAct, configureAllowed_of hch, configureFails, hcf]

/-- A Configure asked of a channel neither Off nor Complete (R295, R297). -/
theorem runAct_configure_fault {s : State} {by_ : Caller} {x : IssueArgs} {c : Nat} {r : List Act}
    (hoff : s.chan.state ≠ .off) (hcomplete : s.chan.state ≠ .complete) :
    runAct (.dmaConfigure by_ x c) r s = .fault .channelState := by
  simp [runAct, configureAllowed, hoff, hcomplete]

/-- The lines after a Configure that returned Ok, written out (R233). -/
theorem dmaStart_eq (s : State) (x : IssueArgs) (c : Nat) (r : List Act) :
    dmaStart s x c ++ r = .dmaEnable :: .wait .arbManual .autoIdle :: .arbTest .manual .drop
      :: .caSeq x.dir x.a :: .fifoCheck .dmaIssue
      :: .ctl .dmaIssue (.setWidth (s.act0.extractLsb' 24 2))
      :: .ctl .dmaIssue (.setElem (BitVec.ofNat 3 x.s))
      :: .ctl .dmaIssue (.trigger (if x.dir = .write then .tx else .rx) (8 * c) (s.act0.toNat / 2 ^ 29) true)
      :: .dmaTrigger :: r := by
  have hway : wayOf x.dir = if x.dir = .write then .tx else .rx := by
    cases x.dir <;> rfl
  rw [← hway, ← profCsel_eq]
  rfl

/-- Settles O44: each line is the one `runAct` gives, and Configure's has the three cases of R297 and R298. -/
theorem channelOperations : Obligations.ChannelOperations := by
  intro s i r hi
  have line {a : Act} (ht : s.todo = a :: r) : exec i s = runAct a r s := exec_line hi ht
  refine ⟨fun by_ x c ht => ⟨fun hch hcf => ?_, fun hoff hcomplete => ?_⟩, fun ht => line ht, fun ht => line ht,
    fun ht => line ht⟩
  · rw [line ht, runAct_configure_ok hch hcf, dmaStart_eq]
    rfl
  · rw [line ht, runAct_configure_fault hoff hcomplete]

/-! ### A first chunk whose Configure fails (R237) -/

/-- The context of an armed chunk, whose operands are an element size and a status pointer of their widths. -/
theorem armedCtx_operands {x : IssueArgs} {e : BitVec 3} {p : Word} (c : Nat) (he : x.s = e.toNat)
    (hp : x.p = p.toNat) : armedCtx x c = {
      state := if x.dir = .write then .writeRunning else .readRunning
      addr := BitVec.ofNat 32 (x.a + c), buf := BitVec.ofNat 32 (x.b + c)
      rem := BitVec.ofNat 32 (x.n - c / x.s), esz := e, dir := x.dir, sptr := p } := by
  simp [armedCtx_eq, he, hp]

/-- After `j` lines that go on, the others. -/
theorem execLines_add {i : Instr} {s t : State} {j : Nat} (h : execLines i j s = .next t) (k : Nat) :
    execLines i (j + k) s = execLines i k t := by
  induction j generalizing s with
  | zero =>
    cases h
    rw [Nat.zero_add]
  | succ j ih =>
    cases hx : exec i s with
    | next u =>
      rw [Nat.add_right_comm, execLines_succ hx]
      exact ih ((execLines_succ hx j).symm.trans h)
    | fault f => simp [execLines, hx] at h
    | refused f => simp [execLines, hx] at h

/-- DMA_ISSUE of a command whose Configure fails, from its first line to the command's end (R233, R237). -/
theorem execLines_issue_fails {s : State} {i : Instr} {x : IssueArgs} {r : List Act} (hi : portOf i = .cmd)
    (ht : s.todo = .dmaIssue .command x :: r) (hch : s.chan.state = .off ∨ s.chan.state = .complete)
    (hcf : s.configCalls + 1 ∈ s.cfg.configFail) :
    execLines i 6 s = .next { s with
      ctx := { armedCtx x (dmaChunk s x) with state := .failed }
      configCalls := s.configCalls + 1, result := ⟨.failed, false, true⟩, exec := false, todo := [], race := none } := by
  have armed := issueWritesContext s i .command x r (.inl hi) ht
  dsimp only at armed
  rw [← armedCtx_eq] at armed
  have failed : runAct (.dmaConfigure .command x (dmaChunk s x)) r { s with
      ctx := armedCtx x (dmaChunk s x), todo := .dmaConfigure .command x (dmaChunk s x) :: r } = .next { s with
      ctx := armedCtx x (dmaChunk s x), configCalls := s.configCalls + 1
      todo := [.ctxState .dmaBegin .failed, .finish .dmaBegin .failed false] } :=
    runAct_configure_fails hch hcf
  exact (execLines_add armed 3).trans ((execLines_line hi rfl failed 2).trans
    ((execLines_line hi rfl rfl 1).trans (execLines_line hi rfl rfl 0)))

/-- Settles O43: DMA_BEGIN passes its checks, and DMA_ISSUE ends the command at its Configure. -/
theorem firstChunkFailure : Obligations.FirstChunkFailure := by
  intro s dir e h0 hi hr hv hk hch hcf
  have issue := execLines_issue_fails (i := transfer true dir e) (x := beginArgs s dir e) (portOf_transfer true dir e)
    (s := { s.goto (dmaBody s dir e) with race := some (openRace s dir e) }) rfl hch hcf
  rw [armedCtx_operands _ rfl rfl] at issue
  rw [h0]
  exact ((execLines_dmaBegin h0 hi hr hv hk).2 6).trans issue

/-! ### A continuation whose Configure fails (R238) -/

/-- With elements remaining the handler's line calls DMA_ISSUE on ctx (R235, R240). -/
theorem runAct_dmaNext_more {s : State} (r : List Act) (h : s.ctx.rem ≠ 0#32) :
    runAct .dmaNext r s = .next (s.goto (.dmaIssue .event (chainArgs s) :: .leave :: r)) := by
  simp [runAct, chainNext, h]

/-- DMA_ISSUE up to its Configure line, under its schedule (R233). -/
theorem Runs.issueArmed {s : State} {by_ : Caller} {x : IssueArgs} {r : List Act} (hok : s.Live) (ha : active s)
    (ht : s.todo = .dmaIssue by_ x :: r) : Runs (engineSteps 3) s { s with
      todo := .dmaConfigure by_ x (dmaChunk s x) :: r, ctx := armedCtx x (dmaChunk s x) } :=
  have off : Runs [.engine] s (s.goto (.dmaPlan by_ x :: r)) := .line hok ha ht fun _ _ => rfl
  have plan : Runs [.engine] (s.goto (.dmaPlan by_ x :: r)) (s.goto (.dmaArm by_ x (dmaChunk s x) :: r)) :=
    .line hok ha rfl fun _ _ => rfl
  off.trans (plan.trans (.line hok ha rfl fun _ _ => rfl))

/-- The handler from its test of what remains past the failing Configure of the next chunk (R235, R238). -/
theorem Runs.continuationFails {s : State} (hok : s.Live) (hh : s.handling = true)
    (ht : s.todo = [.dmaNext]) (hrem : s.ctx.rem ≠ 0#32) (hch : s.chan.state = .off ∨ s.chan.state = .complete)
    (hcf : s.configCalls + 1 ∈ s.cfg.configFail) :
    Runs (engineSteps 5) s { s with
      todo := arbAuto .drop ++ [.ctxState .dmaComplete .failed, .completion failedWord, .leave]
      ctx := armedCtx (chainArgs s) (dmaChunk s (chainArgs s)), configCalls := s.configCalls + 1 } := by
  have ha : active s := .inr hh
  have next : Runs [.engine] s { s with todo := [.dmaIssue .event (chainArgs s), .leave] } :=
    .line hok ha ht fun _ _ => runAct_dmaNext_more [] hrem
  have armed := Runs.issueArmed (s := { s with todo := [.dmaIssue .event (chainArgs s), .leave] }) hok ha rfl
  have failed : Runs [.engine] { s with
      todo := [.dmaConfigure .event (chainArgs s) (dmaChunk s (chainArgs s)), .leave]
      ctx := armedCtx (chainArgs s) (dmaChunk s (chainArgs s)) } { s with
      todo := arbAuto .drop ++ [.ctxState .dmaComplete .failed, .completion failedWord, .leave]
      ctx := armedCtx (chainArgs s) (dmaChunk s (chainArgs s)), configCalls := s.configCalls + 1 } :=
    .line hok ha rfl fun _ _ => runAct_configure_fails hch hcf
  exact next.trans (armed.trans failed)

/-- Settles O47: Configure's line lays out the failure's lines, which run in the terminal order. -/
theorem chainedFailure : Obligations.ChainedFailure := by
  refine ⟨fun s ch x c r hchan ht hch hcf => ?lines,
    fun s rest hok hh ht hrem hcs hfl hen hch hcf => ?run⟩
  case lines =>
    rw [exec_line (.inr ⟨ch, rfl, hchan⟩) ht]
    exact runAct_configure_fails hch hcf
  case run =>
    have failed := Runs.continuationFails hok hh ht hrem hch hcf
    rw [armedCtx_operands (x := chainArgs s) _ rfl rfl] at failed
    refine (failed.trans (.terminal hok hh rfl hfl hcs hen)).scheduled_as (List.append_assoc ..).symm ?steps rest
    simp only [List.length_append, engineSteps, syncRound, List.length_replicate]
    omega

end Sys2Proof.Machine
end

section
/-! One command or one event at a time, with its own lines only (45_command_interface R263, R264, R288): every step of
every agent keeps it. -/

namespace Sys2Proof.Machine

/-- What tells which operation is in progress stands in the ENGINE's part. -/
theorem OneOperation.congr {s t : State} (h : OneOperation s) (e : enginePart t = enginePart s) : OneOperation t := by
  simp only [enginePart, Prod.mk.injEq] at e
  obtain ⟨⟨-, -, htodo, hexec, hhandling⟩, -⟩ := e
  refine ⟨?_, ?_, ?_, ?_⟩
  · rw [hexec, hhandling]
    exact h.single
  · rw [hexec, hhandling, htodo]
    exact h.idle
  · rw [hexec, htodo]
    exact h.command
  · rw [hhandling, htodo]
    exact h.event

/-- Where no line is left, only the two flags matter. -/
theorem OneOperation.of_todo_nil {s : State} (h0 : s.todo = []) (hs : ¬(s.exec = true ∧ s.handling = true)) :
    OneOperation s where
  single := hs
  idle _ _ := h0
  command _ := by simp [h0]
  event _ := by simp [h0]

/-- Taking an event or a command starts it at no line, and only an idle ENGINE takes one (R263). -/
theorem takeWork_oneOperation {s : State} (h : OneOperation s) (hx : s.exec = false) (hh : s.handling = false) :
    OneOperation (takeWork s) := by
  unfold takeWork
  split
  · exact .of_todo_nil rfl (by simp [hx])
  · split
    · exact .of_todo_nil rfl (by simp [State.takeCommand, hh])
    · exact h

/-- The first line of what executes lays out that operation's own lines, or ends it. -/
theorem firstLine_oneOperation {i : Instr} {s t : State} (h : OneOperation s) (hi : currentInstr s = some i)
    (hf : FirstLine s i t) : OneOperation t := by
  have lines := firstLine_owner hf
  rcases firstLine_flags hf with ⟨hx, hh⟩ | ⟨-, h0, hx, -⟩ | ⟨-, h0, hh, -⟩
  · refine ⟨by rw [hx, hh]; exact h.single, firstLine_idle hf hi, fun hc a ha => ?_, fun he a ha => ?_⟩
    · rcases currentInstr_flags hi with ⟨hs, -⟩ | ⟨-, -, rfl⟩
      · exact absurd ⟨hx ▸ hc, hs⟩ h.single
      · rw [decodeCmd_port] at lines
        rcases lines a ha with ho | ho <;> simp [ho]
    · rcases currentInstr_flags hi with ⟨-, rfl⟩ | ⟨hs, -⟩
      · rcases lines a ha with ho | ho <;> simp [ho, portOf]
      · simp [hh, hs] at he
  · exact .of_todo_nil h0 (by simp [hx])
  · exact .of_todo_nil h0 (by simp [hh])

/-- Where no line is `o`'s, none is after one more line: the new ones are heirs of the line just done. -/
theorem runAct_lines_owner {a : Act} {r : List Act} {s t : State} {o : Owner} (h : runAct a r s = .next t)
    (ht : s.todo = a :: r) (ho : o ≠ .either) (hs : ∀ x ∈ s.todo, owner x ≠ o) : ∀ x ∈ t.todo, owner x ≠ o := by
  rw [ht, List.forall_mem_cons] at hs
  obtain ⟨hfirst, hrest⟩ := hs
  intro x hx
  rcases runAct_heirs h ht x hx with hr | he | he
  · exact hrest x hr
  · exact he ▸ ho.symm
  · exact he ▸ hfirst

/-- One line leaves the operation in progress with its own lines, or ends it (R264). -/
theorem runAct_oneOperation {a : Act} {r : List Act} {s t : State} (h : OneOperation s) (ha : active s)
    (ht : s.todo = a :: r) (hr : runAct a r s = .next t) : OneOperation t := by
  rcases runAct_flags hr with ⟨hx, hh⟩ | ⟨c, p, -, e⟩ | ⟨-, rfl⟩
  · refine ⟨by rw [hx, hh]; exact h.single, runAct_idle hr ha, fun hc => ?_, fun he => ?_⟩
    · exact runAct_lines_owner hr ht (by decide) (h.command (hx ▸ hc))
    · exact runAct_lines_owner hr ht (by decide) (h.event (hh ▸ he))
  · rw [e]
    exact .of_todo_nil rfl (by simp)
  · exact .of_todo_nil rfl (by simp)

theorem engineStep_oneOperation {s t : State} (h : OneOperation s) (hs : engineStep s = .next t) :
    OneOperation t := by
  rcases engineStep_next hs with ⟨i, hi, he⟩ | ⟨hx, hh, rfl⟩
  · rcases exec_next he with ⟨-, hf⟩ | ⟨a, r, ht, hr⟩ | rfl
    · exact firstLine_oneOperation h hi hf
    · exact runAct_oneOperation h (currentInstr_active hi) ht hr
    · exact h
  · exact takeWork_oneOperation h hx hh

/-- Every agent keeps one operation at a time: the others leave the ENGINE's part. -/
theorem agentStep_oneOperation {a : Config.Agent} {s t : State} (h : OneOperation s) (hs : agentStep a s = .next t) :
    OneOperation t := by
  by_cases ha : a = .engine
  · subst ha
    exact engineStep_oneOperation h hs
  · exact h.congr (enginePart_kept ha hs)

/-- Settles O9: a step is one agent's action, or the launch, which writes `launched` alone. -/
theorem oneOperationKept : Obligations.OneOperationKept := by
  intro s t h hs
  rcases step_next hs with ⟨-, hs⟩ | ⟨-, -, rfl⟩
  · exact agentStep_oneOperation (h.congr (t := s.turn) rfl) hs
  · exact h.congr rfl

end Sys2Proof.Machine
end

section
/-! The command interface (45_command_interface R260 to R269): a command's acceptance, the taking of events and
commands, the first lines that end a command, and its last line. -/

namespace Sys2Proof.Machine

/-! ### Taking work (R263, R286, R287) -/

/-- A machine that runs, with an idle ENGINE due to move, takes work. -/
theorem step_engine_idle {s : State} (hl : s.Live) (hn : nextAgent s = .engine) (hx : s.exec = false)
    (hh : s.handling = false) : step s = .next (takeWork s.turn) := by
  have none_current : currentInstr s.turn = none := by simp [currentInstr, hx, hh]
  rw [step_live hl, hn]
  simp only [agentStep, engineStep, none_current]

/-! ### Event words (30_encoding R120, 60_exceptions R284) -/

theorem evtKind_toNat (w : Word) : (evtKind w).toNat = w.toNat % 16 := by
  rw [evtKind, BitVec.extractLsb'_toNat, Nat.shiftRight_zero]

theorem evtChannel_toNat (w : Word) : (evtChannel w).toNat = w.toNat / 16 % 16 := by
  rw [evtChannel, BitVec.extractLsb'_toNat, Nat.shiftRight_eq_div_pow]

theorem evtKind_eq_one_iff (w : Word) : evtKind w = 1#4 ↔ w.toNat % 16 = 1 := by
  rw [← evtKind_toNat]
  exact BitVec.toNat_inj.symm

/-- The word says channel complete of the engine's own channel. -/
theorem ownComplete_iff (s : State) (w : Word) :
    ownComplete s w = true ↔ w.toNat % 16 = 1 ∧ w.toNat / 16 % 16 = s.cfg.dmaChannel := by
  rw [← evtKind_eq_one_iff, ← evtChannel_toNat]
  unfold ownComplete decodeEvt
  by_cases hk : evtKind w = 1#4 <;> simp [hk]

/-- The word is one of the engine's own channel with another KIND. -/
theorem ownError_iff (s : State) (w : Word) :
    ownError s w = true ↔ w.toNat / 16 % 16 = s.cfg.dmaChannel ∧ w.toNat % 16 ≠ 1 := by
  rw [ne_eq, ← evtKind_eq_one_iff, ← evtChannel_toNat]
  unfold ownError decodeEvt
  by_cases hk : evtKind w = 1#4 <;> simp [hk]

theorem chunkArmed_iff (c : Chan) :
    chunkArmed c = true ↔ c.state = .configured ∨ c.state = .enabled ∨ c.state = .running := by
  simp only [chunkArmed, Bool.or_eq_true, beq_iff_eq, or_assoc]

/-- A complete event besides the channel's own, while a chain runs (R297). -/
theorem eventStep_breach {s : State} {w : Word} {r : List Word} (h : s.events = w :: r) (ho : ownComplete s w = true)
    (hc : chainRunning s = true) : eventStep s = .fault .secondComplete := by
  simp only [eventStep, h, ho, hc, Bool.and_self, if_true]

/-- A complete event while no chain runs is pending (R284). -/
theorem eventStep_complete {s : State} {w : Word} {r : List Word} (h : s.events = w :: r)
    (ho : ownComplete s w = true) (hc : chainRunning s = false) :
    eventStep s = .next { s with events := r, evtPending := true } := by
  have noError : ownError s w = false :=
    Bool.eq_false_iff.mpr fun he => ((ownError_iff s w).mp he).2 ((ownComplete_iff s w).mp ho).1
  have own : ownComplete { s with events := r } w = true := ho
  simp [eventStep, h, ho, hc, noError, deliverEvent, own]

/-- Any other word is ignored, but the channel remembers the error event of its armed chunk (R284, log 35). -/
theorem eventStep_other {s : State} {w : Word} {r : List Word} (h : s.events = w :: r)
    (ho : ownComplete s w = false) : eventStep s = .next { s with
      events := r, chan := { s.chan with failed := s.chan.failed || (ownError s w && chunkArmed s.chan) } } := by
  have own : ownComplete { s with events := r } w = false := ho
  simp [eventStep, h, ho, deliverEvent, own]

theorem step_event {s : State} (hl : s.Live) (hn : nextAgent s = .event) : step s = eventStep s.turn := by
  rw [step_live hl, hn]
  rfl

theorem step_cpu {s : State} (hl : s.Live) (hn : nextAgent s = .cpu) : step s = .next (cpuStep s.turn) := by
  rw [step_live hl, hn]
  rfl

/-- Settles O5: the branches of `takeWork`, the delivery of a word by its KIND and channel, and a CPU's request. -/
theorem eventsAndCommandsAreTaken : Obligations.EventsAndCommandsAreTaken := by
  intro s hl
  refine ⟨fun hn hx hh => ?take, fun w r hn he => ?deliver, fun q r hn hq => ?request⟩
  case take =>
    rw [step_engine_idle hl hn hx hh]
    refine ⟨fun hp => congrArg _ (if_pos hp), fun hp hv => ?_, fun hp hv => ?_⟩
    · simp [takeWork, State.takeCommand, hp, hv]
    · simp [takeWork, hp, hv]
  case deliver =>
    have complete := ownComplete_iff s.turn w
    have chain := chainRunning_iff s.turn
    have error := ownError_iff s.turn w
    have armed := chunkArmed_iff s.chan
    rw [step_event hl hn]
    refine ⟨fun ho hc => eventStep_breach he (complete.mpr ho) (chain.mpr hc),
      fun ho hc => eventStep_complete he (complete.mpr ho) (Bool.eq_false_iff.mpr (mt chain.mp hc)),
      fun ho hf => ?ignored, fun ho hh ha => ?noted⟩
    case ignored =>
      have silent : (ownError s.turn w && chunkArmed s.chan) = false := by
        rw [Bool.eq_false_iff, ne_eq, Bool.and_eq_true, error, armed]
        exact fun h => hf ⟨h.1.1, h.2⟩
      rw [eventStep_other (s := s.turn) he (Bool.eq_false_iff.mpr (mt complete.mp ho)), State.turn_chan, silent,
        Bool.or_false]
      rfl
    case noted =>
      rw [eventStep_other (s := s.turn) he (Bool.eq_false_iff.mpr (mt complete.mp ho)), State.turn_chan,
        error.mpr ⟨hh, fun hk => ho ⟨hk, hh⟩⟩, armed.mpr ha, Bool.and_self, Bool.or_true]
  case request =>
    rw [step_cpu hl hn]
    simp only [cpuStep, State.turn_cpuReqs, hq]
    rfl

/-! ### PROFILE_OK (R266) -/

/-- A two-bit field is the reserved width code 3 exactly when its number is. -/
theorem extractLsb'_two_ne_three (p0 : Word) (i : Nat) :
    (p0.extractLsb' i 2 != 3#2) = true ↔ p0.toNat / 2 ^ i % 4 ≠ 3 := by
  rw [bne_iff_ne, ne_eq, ← BitVec.toNat_inj, BitVec.extractLsb'_toNat, Nat.shiftRight_eq_div_pow]
  rfl

/-- ADDR_LEN, PROF0[17:16]. -/
theorem profAddrLen_toNat (p0 : Word) : (profAddrLen p0).toNat = p0.toNat / 2 ^ 16 % 4 := by
  rw [profAddrLen, BitVec.extractLsb'_toNat, Nat.shiftRight_eq_div_pow]

/-- Settles O20: each test reads its field as a number. -/
theorem profileOkExactly : Obligations.ProfileOkExactly := by
  intro p p0
  simp only [profileOk, profInstBw, profAddrBw, profDummyBw, profDataBw, profExtraBw, Bool.and_eq_true,
    extractLsb'_two_ne_three, decide_eq_true_eq, profCsel_eq, profAddrLen_toNat, and_assoc]

/-! ### First lines that end the command (R268, R269) -/

theorem enterFirst_notInitialized {s : State} (body : List Act) (hi : s.initDone = false) :
    enterFirst body s = .next (s.finish .notInitialized false) := if_pos hi

/-- A mode command before INIT. -/
theorem exec_mode_notInitialized {s : State} (m : ArbMode) (h0 : s.todo = []) (hi : s.initDone = false) :
    exec (modeCommand m) s = .next { s with result := ⟨.notInitialized, false, true⟩, exec := false } := by
  rw [exec_mode_first m h0, enterFirst_notInitialized _ hi, finish_of_todo_nil h0]

/-- A transfer before INIT: VALIDATE's first check. -/
theorem exec_transfer_notInitialized {s : State} (dma : Bool) (dir : Dir) (e : BitVec 3) (h0 : s.todo = [])
    (hi : s.initDone = false) :
    exec (transfer dma dir e) s = .next { s with result := ⟨.notInitialized, false, true⟩, exec := false } :=
  exec_transfer_invalid dir h0 (if_pos hi)

/-- An illegal word's one line. -/
theorem exec_illegal_first {s : State} (w : Word) (h : s.todo = []) :
    exec (.illegal w) s = .next (s.finish .illegalCommand false) := by
  simp only [exec, execIllegal, continueWith, h, illegalFirst]

/-- Settles O21: before INIT the transfers fail VALIDATE and the mode commands their own test. -/
theorem notInitializedAndIllegal : Obligations.NotInitializedAndIllegal := by
  intro s h0
  refine ⟨fun i hi hp hinit hlegal => ?_, fun w => ?_⟩
  · cases i with
    | init => exact absurd rfl hinit
    | readBlocking e => exact exec_transfer_notInitialized false .read e h0 hi
    | writeBlocking e => exact exec_transfer_notInitialized false .write e h0 hi
    | readDma e => exact exec_transfer_notInitialized true .read e h0 hi
    | writeDma e => exact exec_transfer_notInitialized true .write e h0 hi
    | enterManual => exact exec_mode_notInitialized .manual h0 hi
    | enterAuto => exact exec_mode_notInitialized .auto h0 hi
    | illegal w => exact absurd rfl (hlegal w)
    | evtDmaComplete ch => cases hp
  · rw [exec_illegal_first w h0, finish_of_todo_nil h0]

/-! ### Last lines (R264) -/

/-- Settles O25: both last lines are the ones `runAct` gives, and an idle ENGINE shows SEQ_STATE 0x00. -/
theorem lastLineEnds : Obligations.LastLineEnds := by
  refine fun s => ⟨fun i op c p r hi ht => exec_cmd_line hi ht, fun ch r hch ht => ?_, fun hx hh h0 => ⟨?_, ?_⟩⟩
  · exact exec_line (.inr ⟨ch, rfl, hch⟩) ht
  · simp [seqCode_nil h0, hx, hh]
  · simp [evtBusy, hh]

/-! ### Acceptance (R260, R261) -/

theorem offerCommand_accepted {s : State} (hv : s.latch.valid = false) (hx : s.exec = false) (w : Word) :
    offerCommand w s = { s with
      latch := ⟨true, w, s.addr, s.buf, s.count, s.statusPtr, s.prof0, s.prof1, s.prof2⟩
      result := { s.result with valid := false }, overrun := false, memAtCmd := s.mem } := by
  simp [offerCommand, cmdBusy, hv, hx]

theorem offerCommand_dropped {s : State} (h : s.latch.valid = true ∨ s.exec = true) (w : Word) :
    offerCommand w s = { s with overrun := true } :=
  if_pos (by simpa [cmdBusy] using h)

/-- A HOST store to CMD, the first register of the block, offers its word (R31). -/
theorem step_host_command {s : State} {w : Word} {r : List HostAct} (hl : s.Live) (hn : nextAgent s = .host)
    (hp : s.hostPend = .idle) (hr : s.hostProg = .store s.cfg.engineBase 4 w.toNat :: r) :
    step s = .next { offerCommand w s.turn with hostProg := r } := by
  rw [step_host_register hl hn hp hr rfl (hostTarget_register (off := 0) hl.1 (by decide) rfl)]
  refine congrArg _ ((hostFinish_store (s := s.turn) hp hr _).trans ?_)
  rw [BitVec.ofNat_toNat, BitVec.setWidth_eq]
  rfl

/-- Settles O59: the store offers its word, which is accepted or dropped. -/
theorem commandAcceptance : Obligations.CommandAcceptance := by
  intro s w r hl hn hp hr
  rw [step_host_command hl hn hp hr]
  refine ⟨fun hv hx => ⟨s.mem, ?_⟩, fun hb => ?_⟩
  · rw [offerCommand_accepted (s := s.turn) hv hx]
    rfl
  · rw [offerCommand_dropped (s := s.turn) hb]

end Sys2Proof.Machine
end

section
/-! The controller's operations (60_exceptions R291, R295): the effect of each, or the fault its broken precondition
names. -/

namespace Sys2Proof.Machine

/-! ### Accepting a phase (R291; log 34) -/

section
variable {s : State} {cs : Nat} {j : Job}

/-- With chip-select released the phase asserts it, and the device opens a transaction. -/
theorem acceptPhase_released (hen : s.autoEn = false) (hj : s.job = none) (hc : s.cs = none) :
    acceptPhase s cs j =
      .next { s with job := some j, cs := some cs, parser := .opcode, bus := s.bus ++ [.csAssert cs] } := by
  simp [acceptPhase, hen, hj, hc, csAssert, deviceOpen, State.record]

theorem acceptPhase_asserted (hen : s.autoEn = false) (hj : s.job = none) (hc : s.cs = some cs) :
    acceptPhase s cs j = .next { s with job := some j } := by
  simp [acceptPhase, hen, hj, hc, csAssert]

theorem acceptPhase_autoMode (hen : s.autoEn = true) : acceptPhase s cs j = .fault .phaseInAutoMode :=
  if_pos hen

theorem acceptPhase_busy (hen : s.autoEn = false) (hj : s.job ≠ none) :
    acceptPhase s cs j = .fault .controllerBusy := by
  simp [acceptPhase, hen, Option.isSome_iff_ne_none.mpr hj]

theorem acceptPhase_otherCs {c : Nat} (hen : s.autoEn = false) (hj : s.job = none) (hc : s.cs = some c)
    (hne : c ≠ cs) : acceptPhase s cs j = .fault .otherChipSelect := by
  simp [acceptPhase, hen, hj, hc, hne]

end

/-! ### Triggers (R291) -/

theorem triggerOk_iff (s : State) (n : Nat) : triggerOk s n = true ↔
    0 < n ∧ 0 < s.curElem.toNat ∧ n % (8 * s.curElem.toNat) = 0 ∧ n ≤ s.cfg.ctrlMaxBits :=
  decide_eq_true_iff

/-- The data phase of a Trigger: elements of CUR_ELEM bytes, to be moved through the FIFO. -/
def triggerJob (s : State) (way : Way) (n : Nat) (keep : Bool) : Job :=
  ⟨.data, way, n, [], s.curElem.toNat, n / (8 * s.curElem.toNat), [], keep, .run⟩

theorem ctlEffect_trigger {s : State} {n : Nat} (h : triggerOk s n = true) (way : Way) (cs : Nat) (keep : Bool) :
    ctlEffect s (.trigger way n cs keep) = acceptPhase s cs (triggerJob s way n keep) :=
  if_neg (by simp [h])

theorem ctlEffect_trigger_length {s : State} {n : Nat} (h : ¬triggerOk s n = true) (way : Way) (cs : Nat)
    (keep : Bool) : ctlEffect s (.trigger way n cs keep) = .fault .triggerLength :=
  if_pos (by simpa using h)

/-- `m` elements of CUR_ELEM bytes have a length R291 allows. -/
theorem triggerOk_elements {s : State} {m : Nat} (hm : 0 < m) (he : 0 < s.curElem.toNat)
    (hmax : 8 * s.curElem.toNat * m ≤ s.cfg.ctrlMaxBits) : triggerOk s (8 * s.curElem.toNat * m) = true :=
  (triggerOk_iff _ _).mpr ⟨Nat.mul_pos (by omega) hm, he, Nat.mul_mod_right _ _, hmax⟩

theorem triggerJob_elements {s : State} (way : Way) (m : Nat) (keep : Bool) (he : 0 < s.curElem.toNat) :
    triggerJob s way (8 * s.curElem.toNat * m) keep =
      ⟨.data, way, 8 * s.curElem.toNat * m, [], s.curElem.toNat, m, [], keep, .run⟩ := by
  rw [triggerJob, Nat.mul_div_cancel_left m (by omega)]

/-! ### Every operation -/

/-- `ctl(op)` is the operation's effect with the next epoch (R162). -/
theorem ctlOp_of_next {s t : State} {c : CtlOp} (h : ctlEffect s c = .next t) : ctlOp s c = .next t.bumpEpoch := by
  simp only [ctlOp, h]

theorem ctlOp_of_fault {s : State} {c : CtlOp} {f : Fault} (h : ctlEffect s c = .fault f) : ctlOp s c = .fault f := by
  simp only [ctlOp, h]

theorem ctlEffect_setWidth {s : State} {w : BitVec 2} (h : w ≠ 3#2) :
    ctlEffect s (.setWidth w) = .next { s with curBw := w } :=
  if_neg h

theorem ctlEffect_phaseTx (s : State) (k : PhaseKind) (n : Nat) (pl : List Byte) (cs : Nat) (keep : Bool) :
    ctlEffect s (.phaseTx k n pl cs keep) = acceptPhase s cs ⟨k, .tx, n, pl, 0, 0, [], keep, .run⟩ := rfl

theorem ctlEffect_fifoWrite {s : State} (h : s.fifo.length < s.cfg.fifoDepth) (n : Nat) (v : Word) :
    ctlEffect s (.fifoWrite n v) = .next { s with fifo := s.fifo ++ [elemOfBytes (elemBytes n v)] } :=
  if_pos h

theorem ctlEffect_fifoWrite_full {s : State} (h : ¬s.fifo.length < s.cfg.fifoDepth) (n : Nat) (v : Word) :
    ctlEffect s (.fifoWrite n v) = .fault .fifoFull :=
  if_neg h

theorem ctlEffect_fifoRead {s : State} {v : Word} {r : List Word} (h : s.fifo = v :: r) (n : Nat) :
    ctlEffect s (.fifoRead n) = .next { s with fifo := r } := by
  simp only [ctlEffect, h]

theorem ctlEffect_fifoRead_empty {s : State} (h : s.fifo = []) (n : Nat) :
    ctlEffect s (.fifoRead n) = .fault .fifoEmpty := by
  simp only [ctlEffect, h]

theorem ctlEffect_deassertCs {s : State} (h : s.job = none) : ctlEffect s .deassertCs = .next (csRelease s) :=
  if_neg (by simp [h])

theorem csRelease_asserted {s : State} {c : Nat} (h : s.cs = some c) :
    csRelease s = { s with cs := none, parser := .closed, bus := s.bus ++ [.csRelease c] } := by
  simp [csRelease, h, deviceClose, State.record]

theorem csRelease_released {s : State} (h : s.cs = none) : csRelease s = s := by
  simp [csRelease, h]

/-- Settles O50: each operation's effect by its preconditions; PhaseTx and Trigger accept their phase alike. -/
theorem controllerOperations : Obligations.ControllerOperations := by
  intro s
  refine ⟨fun w hw => ctlOp_of_next (ctlEffect_setWidth hw), fun e => rfl, ?autoEn, ?push,
    fun n v r hf => ctlOp_of_next (ctlEffect_fifoRead hf n),
    fun n hf => ctlOp_of_fault (ctlEffect_fifoRead_empty hf n),
    ?phaseAsserts, ?phase, ?trigger, ?triggerAsserts, ?release, ?released,
    fun k n pl cs keep hen => ctlOp_of_fault (acceptPhase_autoMode hen),
    fun k n pl cs keep hen hj => ctlOp_of_fault (acceptPhase_busy hen hj),
    fun k n pl cs c keep hen hj hc hne => ctlOp_of_fault (acceptPhase_otherCs hen hj hc hne), ?triggerBreach,
    rfl, ?releaseBusy⟩
  case autoEn =>
    rintro (_ | _) <;> rfl
  case push =>
    intro n v
    split
    · exact ctlOp_of_next (ctlEffect_fifoWrite ‹_› n v)
    · exact ctlOp_of_fault (ctlEffect_fifoWrite_full ‹_› n v)
  case phaseAsserts =>
    intro k n pl cs keep hen hj hc
    exact ctlOp_of_next ((ctlEffect_phaseTx ..).trans (acceptPhase_released hen hj hc))
  case phase =>
    intro k n pl cs keep hen hj hc
    exact ctlOp_of_next ((ctlEffect_phaseTx ..).trans (acceptPhase_asserted hen hj hc))
  case trigger =>
    intro way m cs keep hen hj hc hm he hmax
    rw [← triggerJob_elements way m keep he]
    exact ctlOp_of_next ((ctlEffect_trigger (triggerOk_elements hm he hmax) ..).trans (acceptPhase_asserted hen hj hc))
  case triggerAsserts =>
    intro way m cs keep hen hj hc hm he hmax
    rw [← triggerJob_elements way m keep he]
    exact ctlOp_of_next ((ctlEffect_trigger (triggerOk_elements hm he hmax) ..).trans (acceptPhase_released hen hj hc))
  case release =>
    intro cs hj hc
    rw [ctlOp_of_next (ctlEffect_deassertCs hj), csRelease_asserted hc]
    rfl
  case released =>
    intro hj hc
    rw [ctlOp_of_next (ctlEffect_deassertCs hj), csRelease_released hc]
    rfl
  case triggerBreach =>
    intro way n cs keep
    have fits := triggerOk_iff s n
    refine ⟨fun hf => ctlOp_of_fault (ctlEffect_trigger_length (mt fits.mp hf) ..), fun hf hen => ?_,
      fun hf hen hj => ?_, fun c hf hen hj hc hne => ?_⟩ <;>
      refine ctlOp_of_fault ((ctlEffect_trigger (fits.mpr hf) ..).trans ?_)
    · exact acceptPhase_autoMode hen
    · exact acceptPhase_busy hen hj
    · exact acceptPhase_otherCs hen hj hc hne
  case releaseBusy =>
    intro hj
    exact ctlOp_of_fault (if_pos (Option.isSome_iff_ne_none.mpr hj))

end Sys2Proof.Machine
end

section
/-! The auto path's access in flight (60_exceptions R296): what it stores, reads and records, and its end. -/

namespace Sys2Proof.Machine

/-! ### Its bytes -/

/-- An auto write stores its bytes at consecutive device addresses. -/
theorem autoPut_psram (s : State) (a : Nat) (bs : List Byte) : (autoPut s a bs).psram = putRange s.psram a bs := by
  induction bs generalizing s a with
  | nil => rfl
  | cons b bs ih => exact ih (psramPut s a b) (a + 1)

/-- A coherent read takes each byte as it is. -/
theorem autoByte_coherent {s : State} (h : s.cfg.autoPathCoherent = true) (a i : Nat) :
    autoByte s a i = s.psram.get (a + i) :=
  if_pos h

/-- The bytes an auto read of `q` returns. -/
def autoBytes (s : State) (q : AutoReq) : List Byte := (List.range q.n).map (autoByte s q.a)

@[simp] theorem autoBytes_length (s : State) (q : AutoReq) : (autoBytes s q).length = q.n := by
  simp [autoBytes]

theorem autoBytes_coherent {s : State} (h : s.cfg.autoPathCoherent = true) (q : AutoReq) :
    autoBytes s q = (List.range q.n).map (fun j => s.psram.get (q.a + j)) :=
  List.map_congr_left fun j _ => autoByte_coherent h q.a j

theorem autoBytes_getD (s : State) (q : AutoReq) {j : Nat} (h : j < q.n) :
    (autoBytes s q).getD j 0#8 = autoByte s q.a j := by
  simp [autoBytes, h]

/-! ### Its steps -/

theorem step_autopath_perform {s : State} {q : AutoReq} (hl : s.Live) (hn : nextAgent s = .autopath)
    (h : s.autoFlight = some ⟨q, none⟩) : step s = .next (autoPerform s.turn q) := by
  rw [step_live hl, hn]
  simp only [agentStep, autopathStep, State.turn_autoFlight, h]

theorem step_autopath_end {s : State} {q : AutoReq} {v : Word} (hl : s.Live) (hn : nextAgent s = .autopath)
    (h : s.autoFlight = some ⟨q, some v⟩) : step s = .next { s.turn with
      autoFlight := none
      hostPend := if q.fromHost then hostArrived s.hostPend q.n v else s.hostPend } := by
  rw [step_live hl, hn]
  simp only [agentStep, autopathStep, State.turn_autoFlight, State.turn_hostPend, h]

theorem autoPerform_read {s : State} {q : AutoReq} (h : q.dir = .read) : autoPerform s q = { s with
    bus := s.bus ++ [.auto .read q.a (autoBytes s q)]
    autoFlight := some ⟨q, some (elemOfBytes (autoBytes s q))⟩ } := by
  simp only [autoPerform, h]
  rfl

theorem autoPerform_write {s : State} {q : AutoReq} (h : q.dir = .write) : autoPerform s q =
    { (autoPut s q.a (elemBytes q.n q.data)).record (.auto .write q.a (elemBytes q.n q.data)) with
      autoFlight := some ⟨q, some q.data⟩ } := by
  simp only [autoPerform, h]

/-- Settles O53: a read returns `autoBytes`, a write stores its bytes in a row, and HOST takes what it waited for. -/
theorem autoAccessPerforms : Obligations.AutoAccessPerforms := by
  intro s q hl hn
  refine ⟨fun hf hd hc => ?coherent, fun hf hd hc => ?stale, fun hf hd hm => ?write, fun v hf => ?ends⟩
  case coherent =>
    intro bytes
    rw [step_autopath_perform hl hn hf, autoPerform_read hd, autoBytes_coherent (s := s.turn) hc]
    rfl
  case stale =>
    refine ⟨autoBytes s.turn q, autoBytes_length _ _, fun j hj => ?_, ?_⟩
    · rw [autoBytes_getD _ _ hj]
      exact mem_valuesAt.mp (autoByte_mem s.turn q.a j)
    · rw [step_autopath_perform hl hn hf, autoPerform_read hd]
      rfl
  case write =>
    obtain ⟨-, hpsram, hin, -, -⟩ := hm
    have hin : q.a + (elemBytes q.n q.data).length ≤ s.cfg.density := by simpa using hin _ hf
    have stored : (autoPut s.turn q.a (elemBytes q.n q.data)).psram = putRange s.psram q.a (elemBytes q.n q.data) :=
      autoPut_psram _ _ _
    refine ⟨_, (step_autopath_perform hl hn hf).trans (congrArg _ (autoPerform_write hd)), ?_, rfl, fun j hj => ?_,
      fun x hx => ?_, fun c => ?_⟩
    · simp
    · rw [← elemBytes_length q.n q.data] at hj
      exact (congrArg (Memory.get · _) stored).trans
        ((putRange_get hpsram _ _ hin j hj).trans (List.getD_eq_getElem _ _ hj).symm)
    · exact (congrArg (Memory.get · _) stored).trans (putRange_get_other _ _ _ _ (by simpa using hx))
    · simpa using autoPut_past (s := s.turn) c (bs := elemBytes q.n q.data)
  case ends =>
    rw [step_autopath_end hl hn hf]
    cases s.hostPend <;> rfl

end Sys2Proof.Machine
end

section
/-! The reference device (60_exceptions R299): where a data byte goes, what its parser makes of opcode and address, and
what it stores and sends. -/

namespace Sys2Proof.Machine

/-! ### Device addresses -/

theorem deviceAddr_linear {s : State} (h : s.act2 = 0#32) (a i : Nat) :
    deviceAddr s a i = (a + i) % s.cfg.density := by
  simp [deviceAddr, h]

/-- A window that the device holds whole: the address wraps inside it. -/
theorem deviceAddr_wraps {s : State} {a : Nat} (h : s.act2 ≠ 0#32)
    (hin : a - a % s.act2.toNat + s.act2.toNat ≤ s.cfg.density) (i : Nat) :
    deviceAddr s a i = s.act2.toNat * (a / s.act2.toNat) + (a + i) % s.act2.toNat := by
  have hw : s.act2.toNat ≠ 0 := fun e => h (BitVec.eq_of_toNat_eq e)
  have hlt := Nat.mod_lt (a + i) (Nat.pos_of_ne_zero hw)
  have base : a - a % s.act2.toNat = s.act2.toNat * (a / s.act2.toNat) := by
    have := Nat.div_add_mod a s.act2.toNat
    omega
  simp only [deviceAddr, if_neg hw, base, Nat.mod_add_mod]
  exact Nat.mod_eq_of_lt (by omega)

/-! ### Opcode and address -/

/-- A transaction that the device does not follow leaves it as it is (log 15, log 30). -/
theorem deviceReceive_unheard {s : State} (h : s.parser = .closed ∨ s.parser = .ignore) (n : Nat) (bs : List Byte) :
    deviceReceive s n bs = s := by
  have byte : ∀ k b, deviceByte s k b = s := by
    intro k b
    rcases h with h | h <;> simp only [deviceByte, h]
  induction bs generalizing n with
  | nil => rfl
  | cons b bs ih => rw [deviceReceive, byte, ih, ite_self]

theorem deviceReceive_byte (s : State) (b : Byte) (n : Nat) (bs : List Byte) :
    deviceReceive s (8 * (1 + n)) (b :: bs) = deviceReceive (deviceByte s 8 b) (8 * n) bs := by
  rw [deviceReceive, if_neg (by omega), show min 8 (8 * (1 + n)) = 8 by omega,
    show 8 * (1 + n) - 8 = 8 * n by omega]

theorem deviceByte_otherOpcode {s : State} {op : Byte} (hp : s.parser = .opcode) (hr : op ≠ profRdOpcode s.act0)
    (hw : op ≠ profWrOpcode s.act0) (k : Nat) : deviceByte s k op = { s with parser := .ignore } := by
  simp only [deviceByte, hp, if_neg hr, if_neg hw]

/-- The opcode of a direction, then the address, as R113 sends them. -/
theorem deviceReceive_commandAndAddress {s : State} {dir : Dir} {a : Nat} (hp : s.parser = .opcode)
    (hn : 0 < s.addrBytes.toNat) (ha : a < 2 ^ (8 * s.addrBytes.toNat)) (hd : opcodesDiffer s dir) :
    deviceReceive s (8 * (1 + s.addrBytes.toNat))
      (opcodeOf s dir :: abytes s.addrBytes.toNat (profBswap s.act0) a) =
        { s with parser := afterAddress s dir a } := by
  have len := abytes_length s.addrBytes.toNat (profBswap s.act0) a
  have some_byte : abytes s.addrBytes.toNat (profBswap s.act0) a ≠ [] := List.ne_nil_of_length_pos (by omega)
  have received := deviceReceive_address { s with parser := .addr (decide (dir = .write)) [] } _ [] _ rfl
    (by simp [len]) some_byte
  rw [len] at received
  rw [deviceReceive_byte, deviceByte_opcode s dir hp hd, received, List.nil_append]
  exact congrArg (fun p => { s with parser := p }) (deviceAddressed_abytes s dir a _ ha)

/-! ### Data bytes -/

theorem deviceReceive_data_parser {s : State} {a i : Nat} (bs : List Byte) (hp : s.parser = .writeData a i) :
    (deviceReceive s (8 * bs.length) bs).parser = .writeData a (i + bs.length) := by
  induction bs generalizing s i with
  | nil => exact hp
  | cons b bs ih =>
    rw [List.length_cons, deviceReceive_write hp, ih rfl, Nat.add_assoc, Nat.add_comm 1]

/-- A byte that no received one goes to is unchanged. -/
theorem deviceReceive_data_other {s : State} {a i x : Nat} {bs : List Byte} (hp : s.parser = .writeData a i)
    (hx : ∀ k < bs.length, x ≠ deviceAddr s a (i + k)) :
    (deviceReceive s (8 * bs.length) bs).psram.get x = s.psram.get x := by
  induction bs generalizing s i with
  | nil => rfl
  | cons b bs ih =>
    rw [List.length_cons, deviceReceive_write hp, ih rfl fun k hk => ?_]
    · exact Memory.get_put_other _ _ (hx 0 (by simp))
    · have := hx (k + 1) (by simpa using hk)
      rwa [show i + (k + 1) = i + 1 + k by omega] at this

/-- The last received byte that goes to an address stays there. -/
theorem deviceReceive_data_get {s : State} {a i k : Nat} {bs : List Byte} (hp : s.parser = .writeData a i)
    (hd : 0 < s.cfg.density) (hm : PsramWf s) (hk : k < bs.length)
    (hlast : ∀ l, k < l → l < bs.length → deviceAddr s a (i + l) ≠ deviceAddr s a (i + k)) :
    (deviceReceive s (8 * bs.length) bs).psram.get (deviceAddr s a (i + k)) = bs.getD k 0#8 := by
  induction bs generalizing s i k with
  | nil => simp at hk
  | cons b bs ih =>
    have shift : ∀ m, i + (m + 1) = i + 1 + m := fun m => by omega
    rw [List.length_cons, deviceReceive_write hp]
    cases k with
    | zero =>
      rw [deviceReceive_data_other rfl fun l hl => ?_]
      · exact Memory.get_put_same hm _ b
      · have := hlast (l + 1) (by omega) (by simpa using hl)
        rw [shift l] at this
        exact this.symm
    | succ k =>
      rw [shift k, List.getD_cons_succ]
      refine ih (s := { psramPut s (deviceAddr s a i) b with parser := .writeData a (i + 1) }) rfl hd
        (psramPut_wf hm (deviceAddr_lt s hd a i)) (by simpa using hk) fun l hl hl' => ?_
      have := hlast (l + 1) (by omega) (by simpa using hl')
      rwa [shift l, shift k] at this

/-- The device sends the bytes at its data bytes' addresses. -/
theorem deviceSendBytes_read {s : State} {a i : Nat} (hp : s.parser = .readData a i) (j n : Nat) :
    deviceSendBytes s j n = ((List.range n).map (fun k => s.psram.get (deviceAddr s a (i + k))),
      { s with parser := .readData a (i + n) }) := by
  induction n generalizing s i j with
  | zero => simp only [deviceSendBytes, Nat.add_zero, ← hp]; rfl
  | succ n ih =>
    have sent : deviceSend s j = (s.psram.get (deviceAddr s a i), { s with parser := .readData a (i + 1) }) := by
      simp only [deviceSend, hp]
    have addr : ∀ x, deviceAddr { s with parser := .readData a (i + 1) } a x = deviceAddr s a x := fun _ => rfl
    simp only [deviceSendBytes, sent, ih (s := { s with parser := .readData a (i + 1) }) rfl, addr,
      List.range_succ_eq_map, List.map_cons, List.map_map, Nat.add_zero, Nat.add_assoc, Nat.add_comm 1]
    rfl

/-- Settles O55: the address of a data byte, the parser after opcode and address, and the data bytes one by one. -/
theorem deviceParsesTransaction : Obligations.DeviceParsesTransaction := by
  refine ⟨fun s a i hd => ⟨fun h => deviceAddr_linear h a i, fun h hin => ?window⟩,
    fun s a hp hn ha => ⟨fun hne => ?write, ?read, fun op hr hw => ?ignored⟩,
    fun s a i bs hp hd hm => ⟨deviceReceive_data_parser bs hp, fun x hx => deviceReceive_data_other hp hx,
      fun k hk hlast => deviceReceive_data_get hp hd hm hk hlast, fun c => deviceReceive_past hp c⟩,
    fun s a i j n hp => deviceSendBytes_read hp j n⟩
  case window =>
    have hw : 0 < s.act2.toNat := Nat.pos_of_ne_zero fun e => h (BitVec.eq_of_toNat_eq e)
    rw [deviceAddr_wraps h hin, Nat.mul_add_div hw, Nat.div_eq_of_lt (Nat.mod_lt _ hw), Nat.mul_add_mod, Nat.mod_mod]
    exact ⟨rfl, rfl⟩
  case write => exact deviceReceive_commandAndAddress (dir := .write) hp hn ha fun _ => hne
  case read => exact deviceReceive_commandAndAddress (dir := .read) hp hn ha nofun
  case ignored =>
    rw [deviceReceive_byte, deviceByte_otherOpcode hp hr hw, deviceReceive_unheard (.inr rfl)]

end Sys2Proof.Machine
end

section
/-! CTRL's steps for a phase in progress (60_exceptions R293, R294): a fed phase, the elements of a data phase, and the
record, the release and BUSY after it. -/

namespace Sys2Proof.Machine

@[simp] theorem deviceSendBytes_length (s : State) (i n : Nat) : (deviceSendBytes s i n).1.length = n := by
  induction n generalizing s i with
  | zero => rfl
  | succ n ih => exact congrArg (· + 1) (ih (deviceSend s i).2 (i + 1))

theorem step_ctrl {s : State} (hl : s.Live) (hn : nextAgent s = .ctrl) : step s = .next (ctrlStep s.turn) := by
  rw [step_live hl, hn]
  rfl

/-! ### The stages of a phase (R294) -/

/-- A data phase's job after an element of these bytes. -/
def Job.moveOn (j : Job) (bytes : List Byte) : Job := { j with left := j.left - 1, moved := j.moved ++ bytes }

section
variable {s : State} {j : Job}

theorem ctrlStep_fed (hj : s.job = some j) (hr : j.stage = .run) (hk : j.kind ≠ .data) : ctrlStep s =
    recordPhase (deviceReceive s j.nbits (j.payload.take (bytesFor j.nbits))) j
      (j.payload.take (bytesFor j.nbits)) := by
  simp only [ctrlStep, hj, hr, if_neg hk]

theorem ctrlStep_data (hj : s.job = some j) (hr : j.stage = .run) (hk : j.kind = .data) :
    ctrlStep s = dataStep s j := by
  simp only [ctrlStep, hj, hr, if_pos hk]

theorem ctrlStep_drop (hj : s.job = some j) (hr : j.stage = .drop) :
    ctrlStep s = { csRelease s with job := some { j with stage := .clear } } := by
  simp only [ctrlStep, hj, hr]

theorem ctrlStep_clear (hj : s.job = some j) (hr : j.stage = .clear) : ctrlStep s = { s with job := none } := by
  simp only [ctrlStep, hj, hr]

/-! ### The elements of a data phase (R293) -/

theorem dataStep_done (h : j.left = 0) : dataStep s j = recordPhase s j j.moved :=
  if_pos h

/-- A TX phase stalls while the FIFO is empty. -/
theorem dataStep_empty (h : j.left ≠ 0) (hw : j.way = .tx) (hf : s.fifo = []) : dataStep s j = s := by
  simp only [dataStep, if_neg h, hw, hf]

/-- An RX phase stalls while the FIFO is full. -/
theorem dataStep_full (h : j.left ≠ 0) (hw : j.way = .rx) (hf : s.cfg.fifoDepth ≤ s.fifo.length) :
    dataStep s j = s := by
  simp only [dataStep, if_neg h, hw, if_neg (Nat.not_lt.mpr hf)]

theorem dataStep_send {v : Word} {r : List Word} (h : j.left ≠ 0) (hw : j.way = .tx) (hf : s.fifo = v :: r) :
    dataStep s j = { deviceReceive { s with fifo := r } (8 * j.elem) (elemBytes j.elem v) with
      job := some (j.moveOn (elemBytes j.elem v)) } := by
  simp only [dataStep, if_neg h, hw, hf, Job.moveOn]

theorem dataStep_receive (h : j.left ≠ 0) (hw : j.way = .rx) (hf : s.fifo.length < s.cfg.fifoDepth) :
    dataStep s j = { (deviceSendBytes s 0 j.elem).2 with
      fifo := s.fifo ++ [elemOfBytes (deviceSendBytes s 0 j.elem).1]
      job := some (j.moveOn (deviceSendBytes s 0 j.elem).1) } := by
  simp only [dataStep, if_neg h, hw, if_pos hf, deviceSendBytes_fifo, Job.moveOn]

end

/-- What the device makes of the bytes of an element (R299). -/
theorem deviceReceive_element {s : State} {a i n : Nat} {v : Word} (hp : s.parser = .writeData a i)
    (hd : 0 < s.cfg.density) (hm : PsramWf s) :
    let t := deviceReceive s (8 * n) (elemBytes n v)
    t.parser = .writeData a (i + n)
    ∧ (∀ x, (∀ k < n, x ≠ deviceAddr s a (i + k)) → t.psram.get x = s.psram.get x)
    ∧ ∀ k < n, (∀ l, k < l → l < n → deviceAddr s a (i + l) ≠ deviceAddr s a (i + k)) →
      t.psram.get (deviceAddr s a (i + k)) = v.extractLsb' (8 * k) 8 := by
  have parser := deviceReceive_data_parser (elemBytes n v) hp
  have other := fun x => deviceReceive_data_other (x := x) (bs := elemBytes n v) hp
  have stored := fun k => deviceReceive_data_get (k := k) (bs := elemBytes n v) hp hd hm
  rw [elemBytes_length] at parser other stored
  exact ⟨parser, other, fun k hk hlast => (stored k hk hlast).trans (elemBytes_getD n v k hk)⟩

/-- Settles O51: the stages of the phase, and in a data phase the element that moves or the stall. -/
theorem controllerSteps : Obligations.ControllerSteps := by
  intro s j hl hn hj
  have hd := density_pos hl.1
  rw [step_ctrl hl hn]
  refine ⟨fun hr hk => ?fed, fun hr hk h0 => ?recorded, fun c hr hc => ?released, fun hr => ?cleared,
    fun hr hk h0 => ?moves⟩
  case fed =>
    rw [ctrlStep_fed (s := s.turn) hj hr hk]
    exact ⟨_, rfl, by simp [recordPhase, bytesFor], rfl, by simp, by simp⟩
  case recorded =>
    rw [ctrlStep_data (s := s.turn) hj hr hk, dataStep_done h0, recordPhase, hk]
    rfl
  case released =>
    rw [ctrlStep_drop (s := s.turn) hj hr, csRelease_asserted (s := s.turn) hc]
    rfl
  case cleared => rw [ctrlStep_clear (s := s.turn) hj hr]
  case moves =>
    intro went
    rw [ctrlStep_data (s := s.turn) hj hr hk]
    refine ⟨fun hw hf => ?_, fun v r hw hf => ?send, fun hw hf => ?_, fun hw hf => ?receive⟩
    · rw [dataStep_empty (s := s.turn) h0 hw hf]
    case send =>
      rw [dataStep_send (s := s.turn) h0 hw hf]
      refine ⟨_, rfl, by simp, by simp, by simp, by simp, rfl, fun a i hp hm => ?_, fun hp => ?_⟩
      · exact deviceReceive_element (s := { s.turn with fifo := r }) hp hd hm
      · rw [deviceReceive_unheard (s := { s.turn with fifo := r }) hp]
        exact ⟨rfl, rfl⟩
    · rw [dataStep_full (s := s.turn) h0 hw hf]
    case receive =>
      rw [dataStep_receive (s := s.turn) h0 hw hf]
      refine ⟨_, _, rfl, deviceSendBytes_length .., rfl, by simp, by simp, by simp, by simp, rfl, fun a i hp => ?_⟩
      rw [deviceSendBytes_read (s := s.turn) hp]
      exact ⟨rfl, rfl⟩

end Sys2Proof.Machine
end

section
/-! The DMA channel's elements and its completion (60_exceptions R297), and the chain whose chunk has had an error event
(R284, 93_implementation_defined I2). -/

namespace Sys2Proof.Machine

/-! ### The channel's step (R297) -/

theorem step_dma {s : State} (hl : s.Live) (hn : nextAgent s = .dma) : step s = dmaStep s.turn := by
  rw [step_live hl, hn]
  rfl

theorem decodeEvt_completeWord (ch : BitVec 4) : decodeEvt (completeWord ch) = some (.evtDmaComplete ch) :=
  decodeEvt_encode ch

section
variable {s : State} {b w ce : Nat} (hok : s.cfg.ok = true) (hb : b < 2 ^ 32) (hw : w = 1 ∨ w = 2 ∨ w = 4)
  (hce : ce ≤ s.cfg.dmaMaxCount)
include hok hb hw hce

/-- The running channel moves its elements, and completes after the last. -/
theorem dmaStep_running {dir : Dir} (hr : s.chan.state = .running) (hd : s.chan.desc = descOf s.cfg dir b w ce) :
    dmaStep s = .next (if s.chan.k < ce then dmaMove s else dmaComplete s) := by
  obtain ⟨-, width, count, -⟩ := descOf_fields hok dir hb hw hce
  rw [← hd] at width count
  simp only [dmaStep, if_pos hr, if_neg width, count]
  split <;> rfl

/-- An element of a write chunk goes from memory to the FIFO, or waits. -/
theorem dmaMove_write (hd : s.chan.desc = descOf s.cfg .write b w ce)
    (hne : sysAddr (b + s.chan.k * w) ≠ s.cfg.fifoAddr) :
    dmaMove s = if s.fifo.length < s.cfg.fifoDepth then { s with
      fifo := s.fifo ++ [elemOfBytes (elemBytes w (elemRead s (sysAddr (b + s.chan.k * w)) w))]
      chan := { s.chan with k := s.chan.k + 1 } } else s := by
  obtain ⟨width, -⟩ := descOf_fields hok .write hb hw hce
  obtain ⟨src, dst⟩ := descOf_addresses hok .write hb hw hce s.chan.k
  rw [← hd] at width src dst
  simp only [dmaMove, width, src, dst, if_true, dmaFetch, if_neg hne, dmaDeliver]
  by_cases room : s.fifo.length < s.cfg.fifoDepth
  · simp only [if_pos room]
  · simp only [if_neg room]

/-- An element of a read chunk waits while the FIFO is empty. -/
theorem dmaMove_read_empty (hd : s.chan.desc = descOf s.cfg .read b w ce) (hf : s.fifo = []) : dmaMove s = s := by
  obtain ⟨src, -⟩ := descOf_addresses hok .read hb hw hce s.chan.k
  rw [← hd] at src
  simp only [dmaMove, src, reduceCtorEq, if_false, dmaFetch, if_true, hf]

/-- An element of a read chunk goes from the FIFO to memory. -/
theorem dmaMove_read {v : Word} {r : List Word} (hd : s.chan.desc = descOf s.cfg .read b w ce) (hf : s.fifo = v :: r)
    (hne : sysAddr (b + s.chan.k * w) ≠ s.cfg.fifoAddr) : dmaMove s = { s with
      fifo := r, mem := memWrite s.mem (sysAddr (b + s.chan.k * w)) w (elemOfBytes (elemBytes w v))
      chan := { s.chan with k := s.chan.k + 1 } } := by
  obtain ⟨width, -⟩ := descOf_fields hok .read hb hw hce
  obtain ⟨src, dst⟩ := descOf_addresses hok .read hb hw hce s.chan.k
  rw [← hd] at width src dst
  simp only [dmaMove, width, src, dst, reduceCtorEq, if_false, dmaFetch, if_true, hf, dmaDeliver, if_neg hne]

/-- After the last element: Complete, with the one event unless the chunk has had an error event (R284). -/
theorem dmaComplete_descOf {dir : Dir} (hd : s.chan.desc = descOf s.cfg dir b w ce) : dmaComplete s = { s with
    chan := { s.chan with state := .complete }, evtPending := if s.chan.failed then s.evtPending else true } := by
  obtain ⟨-, -, -, channel, -⟩ := descOf_fields hok dir hb hw hce
  rw [← hd] at channel
  have toEngine : descToEngine s.chan.desc = true := hd ▸ descToEngine_descOf s.cfg dir b w ce
  cases hf : s.chan.failed <;>
    simp [dmaComplete, toEngine, hf, deliverEvent, ownComplete, decodeEvt_completeWord, channel]

end

/-! ### A chain whose chunk has had an error event (R284, I2) -/

/-- What a stuck chain reads, but for the lines left. -/
def stuckPart (s : State) : Ctx × Bool × Bool × Bool × Bool :=
  (s.ctx, s.chan.failed, s.evtPending, s.handling, s.initDone)

theorem ChainStuck.congr {s t : State} (h : ChainStuck s) (hp : stuckPart t = stuckPart s)
    (hl : refusedLines t.todo = true) : ChainStuck t ∧ t.ctx = s.ctx := by
  simp only [stuckPart, Prod.mk.injEq] at hp
  obtain ⟨hctx, hfailed, hevt, hhandling, hinit⟩ := hp
  exact ⟨{ running := by rw [chainRunning, hctx]; exact h.running
           failed := hfailed.trans h.failed
           noEvent := ⟨hevt.trans h.noEvent.1, hhandling.trans h.noEvent.2⟩
           ready := hinit.trans h.ready
           lines := hl }, hctx⟩

/-- A first line of a command refuses it, or lays out a test that will. -/
theorem ChainStuck.firstLine_kept {i : Instr} {s t : State} (h : ChainStuck s) (hi : portOf i = .cmd)
    (hs : FirstLine s i t) : stuckPart t = stuckPart s ∧ refusedLines t.todo = true := by
  cases hs with
  | manual _ hr | auto _ hr => exact absurd h.running (by simp [hr])
  | chain | spurious => cases hi
  | raise | profile | readBlocking | writeBlocking | readDma | writeDma => exact ⟨rfl, rfl⟩

/-- The tests refuse the command while the chain runs (R208, R265). -/
theorem ChainStuck.runAct_kept {a : Act} {r : List Act} {s t : State} (h : ChainStuck s) (ht : s.todo = a :: r)
    (hs : runAct a r s = .next t) : stuckPart t = stuckPart s ∧ refusedLines t.todo = true := by
  have refused := h.lines
  rw [ht] at refused
  cases a with
  | busyTest dma dir e =>
    rcases busyTest_next hs with rfl | ⟨hr, -⟩
    · exact ⟨rfl, rfl⟩
    · exact absurd h.running (by simp [hr])
  | initTest p0 =>
    rcases initTest_next hs with ⟨c, rfl⟩ | ⟨hi, -⟩
    · exact ⟨rfl, rfl⟩
    · exact absurd h.ready (by simp [hi])
  | finish op c p =>
    cases hs
    exact ⟨rfl, rfl⟩
  | _ => cases refused

theorem ChainStuck.takeWork_kept {s : State} (h : ChainStuck s) :
    stuckPart (takeWork s) = stuckPart s ∧ refusedLines (takeWork s).todo = true := by
  unfold takeWork
  rw [h.noEvent.1, if_neg Bool.false_ne_true]
  split
  · exact ⟨rfl, rfl⟩
  · exact ⟨rfl, h.lines⟩

theorem ChainStuck.engineStep_kept {s t : State} (h : ChainStuck s) (hs : engineStep s = .next t) :
    stuckPart t = stuckPart s ∧ refusedLines t.todo = true := by
  rcases engineStep_next hs with ⟨i, hi, hs⟩ | ⟨-, -, rfl⟩
  · have command : portOf i = .cmd := by
      rw [currentInstr, h.noEvent.2, if_neg Bool.false_ne_true] at hi
      split at hi <;> cases hi
      exact decodeCmd_port _
    rcases exec_next hs with ⟨-, hs⟩ | ⟨a, r, ht, hs⟩ | rfl
    · exact h.firstLine_kept command hs
    · exact h.runAct_kept ht hs
    · exact ⟨rfl, h.lines⟩
  · exact h.takeWork_kept

/-- The event input notes an error event and sets nothing pending: a complete event would be a breach (R297). -/
theorem ChainStuck.eventStep_kept {s t : State} (h : ChainStuck s) (hs : eventStep s = .next t) :
    stuckPart t = stuckPart s := by
  rcases eventStep_next hs with ⟨-, rfl⟩ | ⟨w, r, -, -, hr, -⟩ | ⟨w, r, -, -, rfl⟩
  · rfl
  · exact absurd h.running (by simp [hr])
  · simp [stuckPart, h.failed]

theorem ChainStuck.dmaStep_kept {s t : State} (h : ChainStuck s) (hs : dmaStep s = .next t) :
    stuckPart t = stuckPart s := by
  obtain ⟨failed, event⟩ := dmaStep_failed hs
  rw [dmaStep_frame hs]
  simp only [stuckPart, failed, event h.failed]

/-- Whatever agent moves, the chain stays stuck, with its context. -/
theorem ChainStuck.agentStep_kept {a : Config.Agent} {s t : State} (h : ChainStuck s) (hs : agentStep a s = .next t) :
    ChainStuck t ∧ t.ctx = s.ctx := by
  cases a with
  | engine =>
    obtain ⟨kept, lines⟩ := h.engineStep_kept hs
    exact h.congr kept lines
  | dma =>
    refine h.congr (h.dmaStep_kept hs) ?_
    rw [dmaStep_frame hs]
    exact h.lines
  | event =>
    refine h.congr (h.eventStep_kept hs) ?_
    rw [eventStep_frame hs]
    exact h.lines
  | host => rw [hostStep_frame hs]; exact h.congr rfl h.lines
  | ctrl => cases hs; rw [ctrlStep_frame]; exact h.congr rfl h.lines
  | ctrlMode => cases hs; rw [ctrlModeStep_frame]; exact h.congr rfl h.lines
  | autopath => rw [autopathStep_frame hs]; exact h.congr rfl h.lines
  | sync => cases hs; exact h.congr rfl h.lines
  | cpu => cases hs; rw [cpuStep_frame]; exact h.congr rfl h.lines

/-- Settles O48: the channel's move in each direction, its completion, and that every agent keeps a stuck chain; the
launch finds no chain that runs. -/
theorem channelMovesElements : Obligations.ChannelMovesElements := by
  refine ⟨fun s b k ce w hl hn hr hk hb hw _ hce => ?channel, fun s t h hs => ?stuck⟩
  case channel =>
    subst hk
    have running := fun dir => dmaStep_running (s := s.turn) (dir := dir) hl.1 hb hw hce hr
    rw [step_dma hl hn]
    refine ⟨fun hlt hne hd => ?write, fun hlt hne hd => ?read, fun dir hlast hd => ?done⟩
    case write =>
      rw [running .write hd, State.turn_chan, if_pos hlt, dmaMove_write (s := s.turn) hl.1 hb hw hce hd hne]
      rfl
    case read =>
      rw [running .read hd, State.turn_chan, if_pos hlt]
      cases hf : s.fifo with
      | nil => rw [dmaMove_read_empty (s := s.turn) hl.1 hb hw hce hd hf]
      | cons v r =>
        rw [dmaMove_read (s := s.turn) hl.1 hb hw hce hd hf hne]
        rfl
    case done =>
      rw [running dir hd, State.turn_chan, if_neg (by omega), dmaComplete_descOf (s := s.turn) hl.1 hb hw hce hd]
      rfl
  case stuck =>
    rcases step_next hs with ⟨-, hs⟩ | ⟨-, hlaunch, rfl⟩
    · have turned : ChainStuck s.turn := (h.congr (t := s.turn) rfl h.lines).1
      exact turned.agentStep_kept hs
    · exact absurd h.ready (by simp [launch_initDone hlaunch])

end Sys2Proof.Machine
end

section
/-! The state after reset (70_reset R320, R325): what its registers read, and that the invariants of every step hold of
it, in every configuration. -/

namespace Sys2Proof.Machine

section
variable (p : Config.Params)

/-! ### Register values (R320) -/

/-- No event, no command and no line: the sequencer is idle. -/
theorem seqCode_resetWith : seqCode (State.resetWith p) = 0x00#8 := seqCode_nil rfl

/-- Of the bits of ESTATUS only the controller's AUTO_EN can be set. -/
theorem estatusWord_resetWith :
    estatusWord (State.resetWith p) = if p.autoEnAtLaunch then 0x10#32 else 0#32 := by
  have word : estatusWord (State.resetWith p) = 0#16 ++ 0#8 ++ 0#1 ++ 0#1 ++ 0#1
      ++ BitVec.ofBool p.autoEnAtLaunch ++ 0#2 ++ 0#1 ++ 0#1 := by
    rw [estatusWord, seqCode_resetWith]
    rfl
  rw [word]
  cases p.autoEnAtLaunch <;> decide

theorem resultWord_reset : resultWord ⟨.ok, false, false⟩ = 0#32 := by decide

theorem profOneMask_zero : profOneMask 0#32 = 0#32 := by decide

theorem ctxInfoWord_reset : ctxInfoWord ⟨.idle, 0, 0, 0, 0, .write, 0⟩ = 0#32 := by decide

theorem readReg_resetWith {r : Reg} (h : r ≠ .estatus) : readReg (State.resetWith p) r = 0#32 := by
  cases r with
  | estatus => exact absurd rfl h
  | result => exact resultWord_reset
  | prof1 => exact profOneMask_zero
  | ctxInfo => exact ctxInfoWord_reset
  | _ => rfl

/-! ### Invariants -/

/-- AUTO_EN and AUTO_ACTIVE agree at reset, so auto mode is not fading. -/
theorem busMode_resetWith :
    busMode (State.resetWith p) = if p.autoEnAtLaunch then .auto else .manual := by
  have enabled : (State.resetWith p).autoEn = p.autoEnAtLaunch := rfl
  have active : (State.resetWith p).autoActive = p.autoEnAtLaunch := rfl
  rw [busMode, enabled, active]
  cases p.autoEnAtLaunch <;> rfl

/-- A tag INVALID makes no claim about the controller (R162). -/
theorem SampleSound.of_tag_none {s : State} {e : SyncEntry} (h : e.tag = none) : SampleSound s e := by
  intro t ht
  rw [h] at ht
  cases ht

theorem resetWith_busDiscipline : BusDiscipline (State.resetWith p) where
  exclusive h := absurd rfl h
  flightActive h := absurd rfl h
  enabledActive h := h
  samples e he := by
    obtain rfl := List.eq_of_mem_replicate he
    exact .of_tag_none rfl
  idle _ _ := rfl
  lines := by
    rw [busMode_resetWith]
    cases p.autoEnAtLaunch <;> rfl

/-- No access is in flight and no race is on; the memories are those of `resetWith_memories_wf`. -/
theorem resetWith_memoriesCanonical : MemoriesCanonical (State.resetWith p) := by
  obtain ⟨mem, psram⟩ := resetWith_memories_wf p
  exact ⟨mem, psram, fun _ => nofun, rfl, fun _ => nofun⟩

/-- INIT has not completed, and no line of one is left. -/
theorem resetWith_profileInitialized : ProfileInitialized (State.resetWith p) :=
  ⟨fun done => absurd done Bool.false_ne_true, rfl⟩

end

/-! ### At reset -/

/-- Settles O6: what the registers read is said above; every other element stands as reset writes it. -/
theorem resetValues : Obligations.ResetValues := by
  refine ⟨rfl, fun p => ⟨fun _ => readReg_resetWith p, estatusWord_resetWith p, ?elements⟩⟩
  and_intros <;> rfl

/-- Settles O7: nothing is in progress at reset, so the invariants on lines are those of an empty sequencer. -/
theorem invariantsHoldAtReset : Obligations.InvariantsHoldAtReset := fun p =>
  ⟨resetWith_busDiscipline p, .of_todo_nil rfl fun both => absurd both.1 Bool.false_ne_true, Nat.zero_le p.fifoDepth,
    resetWith_memoriesCanonical p, resetWith_profileInitialized p, fun _ => .of_todo_nil rfl⟩

end Sys2Proof.Machine
end
